-- ==== Sys2Proof/Word.lean ====
section
/-! DEFINITION. The two word types of the Casdor 4: the 64-bit register lane or code word, and the byte of memory.
Everything else about bits stands in Sys2Proof/Machine/Bits.lean. -/
namespace Sys2Proof

/-- One lane of a vector register, one S-lane register, one code word (R9, R227). -/
abbrev Word := BitVec 64

/-- One byte of any memory (R3: multi-byte values are little-endian). -/
abbrev Byte := BitVec 8

end Sys2Proof
end

