-- ==== Sys2Proof/Syntax.lean ====
section
/-! DEFINITION. The Casdor 4's instructions and events as syntax: one record per instruction format (R23–R28, Tables
01.3–01.7), the arguments an event of the device carries, and `Instr`, one constructor per row of the opcode table.
An instruction word keeps EVERY field of its format, the fields that its opcode holds at 0 included: which of them are
legal is WellFormed's question (R23, R37), not the syntax's. -/
namespace Sys2Proof

/-- Format R (Table 01.3): MOD [63:53], DEAD [52:50], TYPE [49:45], PN, PG, VC, VB, VA, VD. -/
structure RW where
  md : BitVec 11
  dead : BitVec 3
  ty : BitVec 5
  pn : BitVec 1
  pg : BitVec 4
  vc : BitVec 8
  vb : BitVec 8
  va : BitVec 8
  vd : BitVec 8
  deriving DecidableEq, Repr

/-- Format I (Table 01.4): IMM32 [63:32], MODI [31:29], PN, PG, VA, VD. -/
structure IW where
  imm : BitVec 32
  md : BitVec 3
  pn : BitVec 1
  pg : BitVec 4
  va : BitVec 8
  vd : BitVec 8
  deriving DecidableEq, Repr

/-- Format M (Table 01.5). ATOM reads `seam` as AOP, `nt` as AK and `last` as SGN (R142); CTRWAIT reads `evp` as COND
(R63). -/
structure MW where
  seam : BitVec 3
  space : BitVec 3
  nt : BitVec 1
  last : BitVec 1
  evp : BitVec 2
  strong : BitVec 1
  order : BitVec 2
  scope : BitVec 3
  width : BitVec 3
  pn : BitVec 1
  pg : BitVec 4
  off : BitVec 16
  va : BitVec 8
  vd : BitVec 8
  deriving DecidableEq, Repr

/-- Format E (Table 01.5): MOD16 [63:48], CV [47:44], GE [43], GSLOT [42:40], VC, VB, VA, VD. -/
structure EW where
  md : BitVec 16
  cv : BitVec 4
  ge : BitVec 1
  gslot : BitVec 3
  vc : BitVec 8
  vb : BitVec 8
  va : BitVec 8
  vd : BitVec 8
  deriving DecidableEq, Repr

/-- Format S (Table 01.4): SREG [63:52], IMM20 [51:32], MODI [31:29], PN, PG, VA, VD. -/
structure SW where
  sreg : BitVec 12
  imm : BitVec 20
  md : BitVec 3
  pn : BitVec 1
  pg : BitVec 4
  va : BitVec 8
  vd : BitVec 8
  deriving DecidableEq, Repr

/-- One compact operation of a PAIR word (Table 01.7). -/
structure Compact where
  dead : BitVec 2
  ty : BitVec 3
  vb : BitVec 6
  va : BitVec 6
  vd : BitVec 6
  cop : BitVec 5
  deriving DecidableEq, Repr

/-- Format P (R28): bit 63, op1 in [62:35], op0 in [34:7]. -/
structure PW where
  b63 : BitVec 1
  op1 : Compact
  op0 : Compact
  deriving DecidableEq, Repr

/-- An instruction word split into the fields of its format, with its major opcode (R33). -/
inductive Raw where
  | r (op : Nat) (w : RW)
  | i (op : Nat) (w : IW)
  | m (op : Nat) (w : MW)
  | e (op : Nat) (w : EW)
  | s (op : Nat) (w : SW)
  | p (w : PW)
  deriving DecidableEq, Repr

/-- The two contexts of an S-lane (R189, R420): the supervisor's and the monitor's. -/
inductive Ctx where
  | s
  | m
  deriving DecidableEq, Repr

/-- What issues words: a team slot of a core, or an S-lane context of a core (R302). -/
inductive Agent where
  | team (core slot : Nat)
  | ctx (core : Nat) (c : Ctx)
  deriving DecidableEq, Repr

/-- The name of one message of one flow (R406): source device, destination device, FLOW, MSG. -/
structure MsgKey where
  src : Nat
  dst : Nat
  flow : Nat
  msg : Nat
  deriving DecidableEq, Repr

/-- A Remit packet: the header of Table 24.3, the PATH bit of its UDP source port (R403), its payload, and the trailer
of a trimmed header (Table 24.4; 0 in any other packet). TYPE is 0 DATA, 1 RREQ, 2 ACK, 3 REFUSE. -/
structure Packet where
  type : Nat
  trim : Bool
  retx : Bool
  ordered : Bool
  last : Bool
  ctr : Bool
  c32 : Bool
  prev : Bool
  cls : Nat
  evp : Nat
  csc : Nat
  src : Nat
  dst : Nat
  flow : Nat
  psn : Nat
  msg : Nat
  rcause : Nat
  mlen : Nat
  daddr : Word
  poff : Nat
  plen : Nat
  dasid : Nat
  caddr : Word
  stime : Nat
  pmsg : Nat
  path : Bool
  payload : List Byte
  olen : Nat
  tdev : Nat
  tport : Nat
  oclass : Nat
  ttime : Nat
  deriving DecidableEq, Repr

/-- The kinds of traffic on the mesh (Table 24.1), in the table's order: counter increases and their acknowledgements; Remit
ACK, REFUSE, RREQ and trimmed headers; TLBINV; trap-queue and QUEUE events; the invalidations of R293 and R299; the other
invalidations and the write-back requests of R133 and R294; swap and alarm signals; token grants; team loads, stores and
atomics; L2 fills and write-backs; page-table walks; put data; DCOPY, GATHER, SCATTER, ROWCOPY and MDRAIN; COLL data; SREAD
data; SGEMV vectors and results; Ethernet transit. -/
inductive Traffic where
  | counter
  | remitControl
  | tlbinv
  | queueEvent
  | invalidation
  | coherence
  | signal
  | tokenGrant
  | access
  | l2Line
  | walk
  | putData
  | copy
  | collData
  | storage
  | gemv
  | transit
  deriving DecidableEq, Repr

/-- A packet at a mesh router (R399, R400): a number that names it, its kind of traffic, its length in flits, and the branches
that lead towards its set, one for a unicast packet. -/
structure MeshPacket where
  id : Nat
  kind : Traffic
  flits : Nat
  branches : List Nat
  deriving DecidableEq, Repr

/-- A credit of a mesh branch for a class (R399). -/
structure BranchCredit where
  branch : Nat
  cls : Nat
  deriving DecidableEq, Repr

/-- A frame that has come to an Ethernet port (R402). -/
structure FrameIn where
  port : Nat
  bytes : List Byte
  deriving DecidableEq, Repr

/-- Where an SPDM request arrives (R344): the host endpoint's data object exchange, or UDP on Ethernet port 0, with the UDP
port to which the datagram goes. -/
inductive SpdmPath where
  | doe
  | udp (dport : Nat)
  deriving DecidableEq, Repr

/-- A check unit that a soft error can strike (Table 15.8, Table 13.1): a 32-byte HBM4E sector by location / 32, the
same sector in the L2 of a die, 8 bytes of a cluster SRAM, and the units of a core's typed buffers. -/
inductive CheckUnit where
  | dram (sector : Nat)
  | l2 (die sector : Nat)
  | l1 (core sector : Nat)
  | sram (cluster unit : Nat)
  | wbuf (core unit : Nat)
  | abuf (core unit : Nat)
  | cbuf (core unit : Nat)
  deriving DecidableEq, Repr

/-- Every row of the opcode table: the instruction words, each with the fields of its format, then the events of the
device, each with what it acts on. Lean's compiler builds no constructor with arguments beyond the 245th, so the events that
the model's own schedule names come first. -/
inductive Instr where
  | nop (w : RW)
  | bra (w : IW)
  | bru (w : IW)
  | bruR (w : IW)
  | jmpi (w : RW)
  | callW (w : IW)
  | ret (w : RW)
  | loopW (w : IW)
  | fork (w : IW)
  | fend (w : RW)
  | exitW (w : RW)
  | regionW (w : IW)
  | regionProd (w : IW)
  | regionCons (w : IW)
  | regionEnd (w : IW)
  | voteAny (w : RW)
  | voteAll (w : RW)
  | voteUni (w : RW)
  | voteBallot (w : RW)
  | plop (w : RW)
  | signW (w : EW)
  | barSync (w : IW)
  | barArrive (w : IW)
  | waitc (w : IW)
  | ctrwait (w : MW)
  | gset (w : EW)
  | gresAny (w : EW)
  | gresAll (w : EW)
  | gresT (w : EW)
  | gresF (w : EW)
  | yield (w : RW)
  | syscall (w : IW)
  | brk (w : IW)
  | tagq (w : RW)
  | deadW (w : RW)
  | iadd (w : RW)
  | isub (w : RW)
  | iaddc (w : RW)
  | isubc (w : RW)
  | imul (w : RW)
  | imulh (w : RW)
  | imad (w : RW)
  | iaddmin (w : RW)
  | imin (w : RW)
  | imax (w : RW)
  | iabsd (w : RW)
  | icmp (w : RW)
  | icmpMask (w : RW)
  | isel (w : RW)
  | andW (w : RW)
  | orW (w : RW)
  | xorW (w : RW)
  | shl (w : RW)
  | shr (w : RW)
  | shra (w : RW)
  | bfx (w : RW)
  | bfi (w : RW)
  | popc (w : RW)
  | clz (w : RW)
  | movW (w : RW)
  | movi (w : IW)
  | moviHi (w : IW)
  | moviLane (w : IW)
  | mkaddr (w : RW)
  | mkaddrOff (w : RW)
  | lshiftUp (w : RW)
  | lshiftDn (w : RW)
  | lperm (w : RW)
  | lbcast (w : RW)
  | lbcastR (w : RW)
  | lreduce (w : RW)
  | lscan (w : RW)
  | vmerge (w : RW)
  | vmergekv (w : RW)
  | fadd (w : RW)
  | fsub (w : RW)
  | fmul (w : RW)
  | ffma (w : RW)
  | fdiv (w : RW)
  | fmin (w : RW)
  | fmax (w : RW)
  | fcmp (w : RW)
  | fcmpMask (w : RW)
  | frcp (w : RW)
  | frsq (w : RW)
  | fsqrt (w : RW)
  | fexp2 (w : RW)
  | flog2 (w : RW)
  | fsincos (w : RW)
  | fclass (w : RW)
  | frnd (w : RW)
  | fscale (w : RW)
  | fcvt (w : RW)
  | icvt (w : RW)
  | qcvt (w : RW)
  | qcvtFix (w : RW)
  | dqcvt (w : RW)
  | scadj (w : RW)
  | scadjNorm (w : RW)
  | fdot (w : RW)
  | fsum (w : RW)
  | ld (w : MW)
  | ldu (w : MW)
  | st (w : MW)
  | stu (w : MW)
  | stm (w : MW)
  | lds (w : MW)
  | sts (w : MW)
  | atomAdd (w : MW)
  | atomMin (w : MW)
  | atomMax (w : MW)
  | atomAnd (w : MW)
  | atomOr (w : MW)
  | atomXor (w : MW)
  | atomExch (w : MW)
  | atomIncw (w : MW)
  | atomFadd (w : MW)
  | atomFmin (w : MW)
  | atomFmax (w : MW)
  | cas (w : MW)
  | fenceAcq (w : MW)
  | fenceRel (w : MW)
  | fenceAr (w : MW)
  | put (w : EW)
  | putr (w : EW)
  | drainW (w : IW)
  | drainA (w : IW)
  | drainC (w : IW)
  | drainK (w : IW)
  | drainNt (w : IW)
  | prefL1 (w : MW)
  | prefL2 (w : MW)
  | cmaintClean (w : MW)
  | cmaintInv (w : MW)
  | cmaintCinv (w : MW)
  | cmaintZero (w : MW)
  | probe (w : MW)
  | mma (w : EW)
  | mjob (w : EW)
  | mperm (w : EW)
  | sgemv (w : EW)
  | accrd (w : EW)
  | accwr (w : EW)
  | accz (w : EW)
  | epld (w : EW)
  | mdrain (w : EW)
  | dcopy (w : EW)
  | gather (w : EW)
  | scatter (w : EW)
  | rowcopy (w : EW)
  | rowcopyInit (w : EW)
  | collSum (w : EW)
  | collMin (w : EW)
  | collMax (w : EW)
  | collNsum (w : EW)
  | collGath (w : EW)
  | collBcast (w : EW)
  | collRsum (w : EW)
  | sread (w : EW)
  | estat (w : EW)
  | sysr (w : SW)
  | sysw (w : SW)
  | syswImm (w : SW)
  | syswSet (w : SW)
  | syswClr (w : SW)
  | sret (w : SW)
  | tqtake (w : SW)
  | tqpost (w : SW)
  | tqpostOom (w : SW)
  | replay (w : SW)
  | replayM (w : SW)
  | replayDrop (w : SW)
  | tlbinv (w : SW)
  | launch (w : SW)
  | tkclaim (w : SW)
  | park (w : SW)
  | parkCopse (w : SW)
  | unpark (w : SW)
  | unparkCopse (w : SW)
  | ctxsv (w : SW)
  | ctxsvCopse (w : SW)
  | ctxld (w : SW)
  | ctxldCopse (w : SW)
  | wfi (w : SW)
  | tokenTake (w : SW)
  | tokenTry (w : SW)
  | tokenGive (w : SW)
  | pairW (w : PW)
  | teamChoice (core quad : Nat)
  | sLaneClauseTurn (core : Nat)
  | tlbinvComplete (id : Nat)
  | ctxsvComplete (id : Nat)
  | swapDone (slot : Nat)
  | egressLastByteLeft (port : Nat)
  | resultDelivery (core slot : Nat)
  | ctrwaitSatisfied (core slot : Nat)
  | engineAccept (core : Nat)
  | matrixCommandStart (core : Nat)
  | sgemvStart (stack : Nat)
  | engineCommandComplete (core cls : Nat)
  | engineCommandFail (core cls : Nat)
  | meshPutCounterIncrease (core : Nat)
  | collPhaseAdvance (core : Nat)
  | faultEntryPost (core : Nat)
  | residencyExpiry (core : Nat)
  | slotReuseFenceClose (core slot : Nat)
  | copseRetirement (core copse : Nat)
  | placementPass (cluster : Nat)
  | headAgeExpiry
  | preferredDieSlackExpiry
  | tokenGrant
  | tokenWaitExpiry
  | graftDecision (lseq : Nat)
  | graftTimeout (lseq : Nat)
  | eventTake (core : Nat) (ctx : Ctx)
  | timerCompare (core : Nat) (ctx : Ctx)
  | externalLineRaise (line : Nat)
  | tamperAlarm
  | glitchAlarm
  | worldPeriodEnd
  | alarmReset
  | powerOnReset
  | fullReset
  | hostDoorbellWrite (value : Word)
  | hostBar1Write (offset : Nat) (bytes : List Byte)
  | hostHotReset
  | hostLinkDown
  | nvmeFatal (port : Nat)
  | ethLinkDown (port : Nat)
  | ethLinkUp (port : Nat)
  | ethRetryGiveUp (port : Nat)
  | remitDataReceive (port : Nat) (pkt : Packet)
  | messageComplete (key : MsgKey)
  | trimmedHeaderReceive (port : Nat) (pkt : Packet)
  | rreqSend (port src : Nat)
  | holeRetryExpiry (port : Nat) (key : MsgKey) (psn : Nat)
  | rreqReceive (port : Nat) (pkt : Packet)
  | ackReceive (port : Nat) (pkt : Packet)
  | refuseReceive (port : Nat) (pkt : Packet)
  | retxTimeout (key : MsgKey)
  | flowRecordExpiry (src flow : Nat)
  | transitForward (port : Nat) (pkt : Packet)
  | holdingBufferRelease (router : Nat) (credit : BranchCredit)
  | writePropagation (die : Nat)
  | lineEviction (die line : Nat)
  | multicastForward (router : Nat) (pkt : MeshPacket)
  | spdmGetVersion (via : SpdmPath) (request : List Byte)
  | spdmGetCapabilities (via : SpdmPath) (request : List Byte)
  | spdmNegotiateAlgorithms (via : SpdmPath) (request : List Byte)
  | spdmGetDigests (via : SpdmPath) (request : List Byte)
  | spdmGetCertificate (via : SpdmPath) (request : List Byte)
  | spdmChallenge (via : SpdmPath) (request : List Byte)
  | spdmGetMeasurements (via : SpdmPath) (request : List Byte)
  | spdmUnsupportedRequest (via : SpdmPath) (request : List Byte)
  | sSpcWrite (core : Nat) (value : Word)
  | sCodeWrite (core : Nat) (ctx : Ctx) (value : Word)
  | secCworldWrite (n : Nat) (value : Word)
  | secRgnWrite (n : Nat) (value : Word)
  | secApolWrite (value : Word)
  | secAlogWrite (value : Word)
  | secSvnWrite (value : Word)
  | swapOut (value : Word)
  | swapIn (value : Word)
  | bootExtend (core : Nat) (value : Word)
  | flashRead (core : Nat) (value : Word)
  | flashProgram (core : Nat) (value : Word)
  | flashErase (value : Word)
  | flashTransferDone
  | powerAdmitWrite (core : Nat) (ctx : Ctx) (value : Word)
  | powerCapWrite (value : Word)
  | memProfWrite (n : Nat) (value : Word)
  | memUelogWrite (value : Word)
  | systemRegisterWrite (agent : Agent) (number : Nat) (value : Word)
  | ntStoreComplete
  | softError (unit : CheckUnit) (uncorrectable : Bool)
  | hostLinkUp
  | receivedFrameDrop (frame : FrameIn)
  deriving DecidableEq, Repr

end Sys2Proof
end

