-- ==== Sys2Proof/Machine/Rules.lean ====
section
/-! DEFINITION. The static rules of an instruction word: which opcode and format each constructor has, which class it
stands in, which fields its opcode uses and which values of them are legal (R10, R13, R23–R31, R33–R35, R37, Tables
02.1, 03.1, 04.1, 05.1, 06.1, 07.1), and the numbers and privileges of the system registers (R189, R190). A word is
judged by itself here; what depends on who issues it (window, privilege, S-lane) is a parameter. -/
namespace Sys2Proof.Machine

/-- The cause with which a word is turned away when its clause is decoded (R36–R38). -/
inductive Reject where
  | illegal
  | priv
  | format
  deriving DecidableEq, Repr

/-- The format record and major opcode of an instruction word; an event has none (R33, Table 01.9). -/
def rawOf : Instr → Option Raw
  | .nop w => some (.r 0 w)
  | .bra w => some (.i 1 w)
  | .bru w => some (.i 2 w)
  | .bruR w => some (.i 2 w)
  | .jmpi w => some (.r 3 w)
  | .callW w => some (.i 4 w)
  | .ret w => some (.r 5 w)
  | .loopW w => some (.i 6 w)
  | .fork w => some (.i 7 w)
  | .fend w => some (.r 8 w)
  | .exitW w => some (.r 9 w)
  | .regionW w => some (.i 10 w)
  | .regionProd w => some (.i 10 w)
  | .regionCons w => some (.i 10 w)
  | .regionEnd w => some (.i 10 w)
  | .voteAny w => some (.r 11 w)
  | .voteAll w => some (.r 11 w)
  | .voteUni w => some (.r 11 w)
  | .voteBallot w => some (.r 11 w)
  | .plop w => some (.r 12 w)
  | .signW w => some (.e 13 w)
  | .barSync w => some (.i 14 w)
  | .barArrive w => some (.i 14 w)
  | .waitc w => some (.i 15 w)
  | .ctrwait w => some (.m 16 w)
  | .gset w => some (.e 17 w)
  | .gresAny w => some (.e 18 w)
  | .gresAll w => some (.e 18 w)
  | .gresT w => some (.e 18 w)
  | .gresF w => some (.e 18 w)
  | .yield w => some (.r 19 w)
  | .syscall w => some (.i 20 w)
  | .brk w => some (.i 21 w)
  | .tagq w => some (.r 22 w)
  | .deadW w => some (.r 23 w)
  | .iadd w => some (.r 24 w)
  | .isub w => some (.r 25 w)
  | .iaddc w => some (.r 26 w)
  | .isubc w => some (.r 26 w)
  | .imul w => some (.r 27 w)
  | .imulh w => some (.r 28 w)
  | .imad w => some (.r 29 w)
  | .iaddmin w => some (.r 30 w)
  | .imin w => some (.r 31 w)
  | .imax w => some (.r 32 w)
  | .iabsd w => some (.r 33 w)
  | .icmp w => some (.r 34 w)
  | .icmpMask w => some (.r 34 w)
  | .isel w => some (.r 35 w)
  | .andW w => some (.r 36 w)
  | .orW w => some (.r 37 w)
  | .xorW w => some (.r 38 w)
  | .shl w => some (.r 39 w)
  | .shr w => some (.r 40 w)
  | .shra w => some (.r 41 w)
  | .bfx w => some (.r 42 w)
  | .bfi w => some (.r 43 w)
  | .popc w => some (.r 44 w)
  | .clz w => some (.r 45 w)
  | .movW w => some (.r 46 w)
  | .movi w => some (.i 47 w)
  | .moviHi w => some (.i 47 w)
  | .moviLane w => some (.i 47 w)
  | .mkaddr w => some (.r 48 w)
  | .mkaddrOff w => some (.r 48 w)
  | .lshiftUp w => some (.r 49 w)
  | .lshiftDn w => some (.r 49 w)
  | .lperm w => some (.r 50 w)
  | .lbcast w => some (.r 51 w)
  | .lbcastR w => some (.r 51 w)
  | .lreduce w => some (.r 52 w)
  | .lscan w => some (.r 53 w)
  | .vmerge w => some (.r 54 w)
  | .vmergekv w => some (.r 55 w)
  | .fadd w => some (.r 56 w)
  | .fsub w => some (.r 57 w)
  | .fmul w => some (.r 58 w)
  | .ffma w => some (.r 59 w)
  | .fdiv w => some (.r 60 w)
  | .fmin w => some (.r 61 w)
  | .fmax w => some (.r 62 w)
  | .fcmp w => some (.r 63 w)
  | .fcmpMask w => some (.r 63 w)
  | .frcp w => some (.r 64 w)
  | .frsq w => some (.r 65 w)
  | .fsqrt w => some (.r 66 w)
  | .fexp2 w => some (.r 67 w)
  | .flog2 w => some (.r 68 w)
  | .fsincos w => some (.r 69 w)
  | .fclass w => some (.r 70 w)
  | .frnd w => some (.r 71 w)
  | .fscale w => some (.r 72 w)
  | .fcvt w => some (.r 73 w)
  | .icvt w => some (.r 74 w)
  | .qcvt w => some (.r 75 w)
  | .qcvtFix w => some (.r 75 w)
  | .dqcvt w => some (.r 76 w)
  | .scadj w => some (.r 77 w)
  | .scadjNorm w => some (.r 77 w)
  | .fdot w => some (.r 78 w)
  | .fsum w => some (.r 79 w)
  | .ld w => some (.m 80 w)
  | .ldu w => some (.m 81 w)
  | .st w => some (.m 82 w)
  | .stu w => some (.m 83 w)
  | .stm w => some (.m 84 w)
  | .lds w => some (.m 85 w)
  | .sts w => some (.m 86 w)
  | .atomAdd w => some (.m 87 w)
  | .atomMin w => some (.m 87 w)
  | .atomMax w => some (.m 87 w)
  | .atomAnd w => some (.m 87 w)
  | .atomOr w => some (.m 87 w)
  | .atomXor w => some (.m 87 w)
  | .atomExch w => some (.m 87 w)
  | .atomIncw w => some (.m 87 w)
  | .atomFadd w => some (.m 87 w)
  | .atomFmin w => some (.m 87 w)
  | .atomFmax w => some (.m 87 w)
  | .cas w => some (.m 88 w)
  | .fenceAcq w => some (.m 89 w)
  | .fenceRel w => some (.m 89 w)
  | .fenceAr w => some (.m 89 w)
  | .put w => some (.e 90 w)
  | .putr w => some (.e 91 w)
  | .drainW w => some (.i 92 w)
  | .drainA w => some (.i 92 w)
  | .drainC w => some (.i 92 w)
  | .drainK w => some (.i 92 w)
  | .drainNt w => some (.i 92 w)
  | .prefL1 w => some (.m 93 w)
  | .prefL2 w => some (.m 93 w)
  | .cmaintClean w => some (.m 94 w)
  | .cmaintInv w => some (.m 94 w)
  | .cmaintCinv w => some (.m 94 w)
  | .cmaintZero w => some (.m 94 w)
  | .probe w => some (.m 95 w)
  | .mma w => some (.e 96 w)
  | .mjob w => some (.e 97 w)
  | .mperm w => some (.e 98 w)
  | .sgemv w => some (.e 99 w)
  | .accrd w => some (.e 100 w)
  | .accwr w => some (.e 101 w)
  | .accz w => some (.e 102 w)
  | .epld w => some (.e 103 w)
  | .mdrain w => some (.e 104 w)
  | .dcopy w => some (.e 105 w)
  | .gather w => some (.e 106 w)
  | .scatter w => some (.e 107 w)
  | .rowcopy w => some (.e 108 w)
  | .rowcopyInit w => some (.e 108 w)
  | .collSum w => some (.e 109 w)
  | .collMin w => some (.e 109 w)
  | .collMax w => some (.e 109 w)
  | .collNsum w => some (.e 109 w)
  | .collGath w => some (.e 109 w)
  | .collBcast w => some (.e 109 w)
  | .collRsum w => some (.e 109 w)
  | .sread w => some (.e 110 w)
  | .estat w => some (.e 111 w)
  | .sysr w => some (.s 112 w)
  | .sysw w => some (.s 113 w)
  | .syswImm w => some (.s 113 w)
  | .syswSet w => some (.s 113 w)
  | .syswClr w => some (.s 113 w)
  | .sret w => some (.s 114 w)
  | .tqtake w => some (.s 115 w)
  | .tqpost w => some (.s 116 w)
  | .tqpostOom w => some (.s 116 w)
  | .replay w => some (.s 117 w)
  | .replayM w => some (.s 117 w)
  | .replayDrop w => some (.s 117 w)
  | .tlbinv w => some (.s 118 w)
  | .launch w => some (.s 119 w)
  | .tkclaim w => some (.s 120 w)
  | .park w => some (.s 121 w)
  | .parkCopse w => some (.s 121 w)
  | .unpark w => some (.s 122 w)
  | .unparkCopse w => some (.s 122 w)
  | .ctxsv w => some (.s 123 w)
  | .ctxsvCopse w => some (.s 123 w)
  | .ctxld w => some (.s 124 w)
  | .ctxldCopse w => some (.s 124 w)
  | .wfi w => some (.s 125 w)
  | .tokenTake w => some (.s 126 w)
  | .tokenTry w => some (.s 126 w)
  | .tokenGive w => some (.s 126 w)
  | .pairW w => some (.p w)
  | .teamChoice _ _ => none
  | .resultDelivery _ _ => none
  | .ctrwaitSatisfied _ _ => none
  | .engineAccept _ => none
  | .matrixCommandStart _ => none
  | .sgemvStart _ => none
  | .engineCommandComplete _ _ => none
  | .engineCommandFail _ _ => none
  | .meshPutCounterIncrease _ => none
  | .collPhaseAdvance _ => none
  | .faultEntryPost _ => none
  | .residencyExpiry _ => none
  | .slotReuseFenceClose _ _ => none
  | .copseRetirement _ _ => none
  | .placementPass _ => none
  | .headAgeExpiry => none
  | .preferredDieSlackExpiry => none
  | .tokenGrant => none
  | .tokenWaitExpiry => none
  | .graftDecision _ => none
  | .graftTimeout _ => none
  | .eventTake _ _ => none
  | .timerCompare _ _ => none
  | .externalLineRaise _ => none
  | .tamperAlarm => none
  | .glitchAlarm => none
  | .worldPeriodEnd => none
  | .alarmReset => none
  | .powerOnReset => none
  | .fullReset => none
  | .hostDoorbellWrite _ => none
  | .hostBar1Write _ _ => none
  | .hostHotReset => none
  | .hostLinkDown => none
  | .nvmeFatal _ => none
  | .ethLinkDown _ => none
  | .ethLinkUp _ => none
  | .ethRetryGiveUp _ => none
  | .remitDataReceive _ _ => none
  | .messageComplete _ => none
  | .trimmedHeaderReceive _ _ => none
  | .rreqSend _ _ => none
  | .holeRetryExpiry _ _ _ => none
  | .rreqReceive _ _ => none
  | .ackReceive _ _ => none
  | .refuseReceive _ _ => none
  | .retxTimeout _ => none
  | .flowRecordExpiry _ _ => none
  | .transitForward _ _ => none
  | .multicastForward _ _ => none
  | .writePropagation _ => none
  | .lineEviction _ _ => none
  | .tlbinvComplete _ => none
  | .ctxsvComplete _ => none
  | .spdmGetVersion _ _ => none
  | .spdmGetCapabilities _ _ => none
  | .spdmNegotiateAlgorithms _ _ => none
  | .spdmGetDigests _ _ => none
  | .spdmGetCertificate _ _ => none
  | .spdmChallenge _ _ => none
  | .spdmGetMeasurements _ _ => none
  | .spdmUnsupportedRequest _ _ => none
  | .sSpcWrite _ _ => none
  | .sCodeWrite _ _ _ => none
  | .secCworldWrite _ _ => none
  | .secRgnWrite _ _ => none
  | .secApolWrite _ => none
  | .secAlogWrite _ => none
  | .secSvnWrite _ => none
  | .swapOut _ => none
  | .swapIn _ => none
  | .swapDone _ => none
  | .bootExtend _ _ => none
  | .flashRead _ _ => none
  | .flashProgram _ _ => none
  | .flashErase _ => none
  | .flashTransferDone => none
  | .powerAdmitWrite _ _ _ => none
  | .powerCapWrite _ => none
  | .memProfWrite _ _ => none
  | .memUelogWrite _ => none
  | .systemRegisterWrite _ _ _ => none
  | .sLaneClauseTurn _ => none
  | .ntStoreComplete => none
  | .softError _ _ => none
  | .hostLinkUp => none
  | .holdingBufferRelease _ _ => none
  | .egressLastByteLeft _ => none
  | .receivedFrameDrop _ => none

/-- Whether bit `i` of a field is set. -/
def bitOf {n : Nat} (x : BitVec n) (i : Nat) : Bool := x.getLsbD i

/-- Bits `hi` to `lo` of a field as a number (R3). -/
def fieldOf {n : Nat} (x : BitVec n) (hi lo : Nat) : Nat := (x.toNat >>> lo) % 2 ^ (hi + 1 - lo)

/-- A field holds nothing outside the bits of `mask` (R23). -/
def within {n : Nat} (x : BitVec n) (mask : Nat) : Bool := x.toNat &&& (2 ^ n - 1 - mask) == 0

/-- How an opcode uses a register field: not at all, as a register, as a predicate or convergence register, or as a
guard slot (R42). -/
inductive Use where
  | none
  | reg
  | pred
  | slot
  deriving DecidableEq, Repr

/-- A register field is legal for its use: 0 when unused, and within 4 or 3 bits where it names a predicate or a slot
(R23, R42). -/
def useOk (u : Use) (v : BitVec 8) : Bool :=
  match u with
  | .none => v == 0
  | .reg => true
  | .pred => v.toNat < 16
  | .slot => v.toNat < 8

/-- What a format R opcode uses (Tables 02.1, 03.1, 04.1): its register fields, the MOD bits and DEAD marks that it
defines, whether it takes a guard, and the TYPE codes that it accepts ([] where TYPE is unused and 0). -/
structure RRow where
  vd : Use
  va : Use
  vb : Use
  vc : Use
  md : Nat
  dead : Nat
  guard : Bool
  types : List Nat
  deriving DecidableEq, Repr

def typesInt : List Nat := [1, 2, 3, 4, 5, 6, 7, 8]
def typesAny : List Nat := [0, 1, 2, 3, 4, 5, 6, 7, 8, 9, 10, 11, 12, 13, 14, 15, 16, 17, 18, 19, 20, 21, 31]
def typesFloat : List Nat := [9, 10, 11, 12]
def typesNarrow : List Nat := [1, 13, 14, 15, 16, 17, 18]

/-- Bits of one element of a format code (Table 01.6); 64 for a code that has no width. -/
def fmtBits (f : Nat) : Nat :=
  if f = 1 ∨ f = 2 ∨ f = 13 ∨ f = 14 ∨ f = 18 then 8
  else if f = 3 ∨ f = 4 ∨ f = 9 ∨ f = 10 then 16
  else if f = 5 ∨ f = 6 ∨ f = 11 then 32
  else if f = 15 ∨ f = 16 then 6
  else if f = 17 ∨ f = 19 ∨ f = 20 then 4
  else 64

/-- Elements of a format per register lane (Table 01.6, R32). -/
def fmtElems (f : Nat) : Nat := 64 / fmtBits f

/-- The narrow types, read with a block scale (R101). -/
def isNarrow (f : Nat) : Bool := typesNarrow.contains f

/-- The registers that QCVT reads for a source code SRC and a TYPE (R122). -/
def qcvtRegs (src ty : Nat) : Nat := (fmtElems ty + fmtElems (9 + src) - 1) / fmtElems (9 + src)

/-- The narrow format that DQCVT's NSRC names (R123). -/
def dqcvtFmt (nsrc : Nat) : Nat := if nsrc = 0 then 1 else 12 + nsrc

/-- The registers that DQCVT writes (R123). -/
def dqcvtRegs (nsrc ty : Nat) : Nat := (fmtElems (dqcvtFmt nsrc) + fmtElems ty - 1) / fmtElems ty

/-- The bits of MOD that an opcode with XD uses under a TYPE (R101): XD with a narrow TYPE, the rounding and flush bits of
`ieee` with an IEEE TYPE, and either with a TYPE that the opcode does not accept, whose cause is FORMAT. -/
def floatMods (ty ieee : Nat) : Nat :=
  if isNarrow ty then 0x780 else if typesFloat.contains ty then ieee else 0x780 ||| ieee

/-- The row of a format R opcode. -/
def rRow (op : Nat) (w : RW) : RRow :=
  let bimm := bitOf w.md 10
  match op with
  | 0x00 => ⟨.none, .none, .none, .none, 0, 0, false, []⟩
  | 0x03 => ⟨.none, .reg, .none, .none, 0, 1, true, []⟩
  | 0x05 => ⟨.none, .reg, .none, .none, 0, 1, true, []⟩
  | 0x08 => ⟨.none, .none, .none, .none, 0, 0, true, []⟩
  | 0x09 => ⟨.none, .none, .none, .none, 0, 0, true, []⟩
  | 0x0B =>
    let f := fieldOf w.md 1 0
    ⟨if f = 3 then .reg else .pred, if f = 2 then .reg else .pred, .none, .none, 3, if f = 2 then 1 else 0, true, []⟩
  | 0x0C => ⟨.pred, .pred, .pred, .none, 0xF, 0, true, []⟩
  | 0x13 => ⟨.none, .none, .none, .none, 0, 0, false, []⟩
  | 0x16 => ⟨.reg, .reg, .none, .none, 0, 0, true, []⟩
  | 0x17 => ⟨.none, .reg, .reg, .none, 0, 0, false, []⟩
  | 0x18 | 0x19 | 0x1B => ⟨.reg, .reg, .reg, .none, 0x600, if bimm then 1 else 3, true, typesInt⟩
  | 0x1A => ⟨.reg, .reg, .reg, .none, 0x3FF, 3, true, [7, 8]⟩
  | 0x1C => ⟨.reg, .reg, .reg, .none, 1, 3, true, typesInt⟩
  | 0x1D => ⟨.reg, .reg, .reg, .reg, 0x200, 7, true, typesInt⟩
  | 0x1E => ⟨.reg, .reg, .reg, .reg, 0x400, if bimm then 5 else 7, true, [3, 4, 5, 6]⟩
  | 0x1F | 0x20 => ⟨.reg, .reg, .reg, .none, 0x400, if bimm then 1 else 3, true, typesInt⟩
  | 0x21 => ⟨.reg, .reg, .reg, .none, 0, 3, true, typesInt⟩
  | 0x22 =>
    ⟨if bitOf w.md 7 then .reg else .pred, .reg, .reg, .none, 0x4F7, if bimm then 1 else 3, true, typesInt⟩
  | 0x23 => ⟨.reg, .reg, .reg, .pred, 0, 3, true, typesAny⟩
  | 0x24 | 0x25 | 0x26 => ⟨.reg, .reg, .reg, .none, 0x401, if bimm then 1 else 3, true, typesAny⟩
  | 0x27 => ⟨.reg, .reg, .reg, .none, 0x600, if bimm then 1 else 3, true, 0 :: typesInt⟩
  | 0x28 => ⟨.reg, .reg, .reg, .none, 0x400, if bimm then 1 else 3, true, 0 :: typesInt⟩
  | 0x29 => ⟨.reg, .reg, .reg, .none, 0x401, if bimm then 1 else 3, true, 0 :: typesInt⟩
  | 0x2A => ⟨.reg, .reg, .reg, .none, 0, 3, true, [0, 5, 6, 7, 8]⟩
  | 0x2B => ⟨.reg, .reg, .reg, .reg, 0, 7, true, [0, 5, 6, 7, 8]⟩
  | 0x2C | 0x2D => ⟨.reg, .reg, .none, .none, 0, 1, true, 0 :: typesInt⟩
  | 0x2E => ⟨.reg, .reg, .none, .none, 0, 1, true, typesAny⟩
  | 0x30 => ⟨.reg, .reg, .reg, .none, 0xF, 3, true, [21]⟩
  | 0x31 =>
    let fill := bitOf w.md 6
    ⟨.reg, .reg, if fill then .reg else .none, .none, 0x7F, if fill then 3 else 1, true, typesAny⟩
  | 0x32 =>
    ⟨.reg, .reg, .reg, .none, 0, 3, true, [0, 1, 2, 3, 4, 5, 6, 7, 8, 9, 10, 11, 12, 13, 14, 18, 21, 31]⟩
  | 0x33 =>
    let byReg := bitOf w.md 0
    ⟨.reg, .reg, if byReg then .reg else .none, .none, if byReg then 1 else 0x3FF, if byReg then 3 else 1, true,
      typesAny⟩
  | 0x34 => ⟨.reg, .reg, .none, .none, 0x227, 1, true, typesInt⟩
  | 0x35 => ⟨.reg, .reg, .none, .none, 0x47, 1, true, typesInt⟩
  | 0x36 | 0x37 => ⟨.reg, .reg, .reg, .none, 0, 3, false, [7, 8]⟩
  | 0x38 | 0x39 | 0x3A =>
    let n := isNarrow w.ty.toNat
    ⟨.reg, .reg, .reg, .none, floatMods w.ty.toNat 7, 3, !n, 1 :: [9, 10, 11, 12, 13, 14, 15, 16, 17, 18]⟩
  | 0x3B =>
    let n := isNarrow w.ty.toNat
    ⟨.reg, .reg, .reg, .reg, floatMods w.ty.toNat 7, 7, !n, 1 :: [9, 10, 11, 12, 13, 14, 15, 16, 17, 18]⟩
  | 0x3C => ⟨.reg, .reg, .reg, .none, 7, 3, true, typesFloat⟩
  | 0x3D | 0x3E =>
    let n := isNarrow w.ty.toNat
    ⟨.reg, .reg, .reg, .none, floatMods w.ty.toNat 4 ||| 8, 3, !n, 1 :: [9, 10, 11, 12, 13, 14, 15, 16, 17, 18]⟩
  | 0x3F =>
    ⟨if bitOf w.md 6 then .reg else .pred, .reg, .reg, .none, 0x7FF, 3, true,
      1 :: [9, 10, 11, 12, 13, 14, 15, 16, 17, 18]⟩
  | 0x40 | 0x41 | 0x43 | 0x44 | 0x45 => ⟨.reg, .reg, .none, .none, 4, 1, true, typesFloat⟩
  | 0x42 => ⟨.reg, .reg, .none, .none, 7, 1, true, typesFloat⟩
  | 0x46 => ⟨.reg, .reg, .none, .none, 0, 1, true, typesFloat⟩
  | 0x47 => ⟨.reg, .reg, .none, .none, 0xF, 1, true, typesFloat⟩
  | 0x48 => ⟨.reg, .reg, .reg, .none, 7, 3, true, typesFloat⟩
  | 0x49 => ⟨.reg, .reg, .none, .none, 0x7F, 1, true, typesFloat⟩
  | 0x4A => ⟨.reg, .reg, .none, .none, 0x27B, 1, true, typesInt ++ [19, 20]⟩
  | 0x4B => ⟨.reg, .reg, .none, .none, 0x787, 1, false, typesNarrow⟩
  | 0x4C => ⟨.reg, .reg, .none, .none, 0x3F, 1, false, typesFloat⟩
  | 0x4D => ⟨.reg, .reg, .none, .none, 0x781, 1, false, typesNarrow⟩
  | 0x4E => ⟨.reg, .reg, .reg, .reg, 7, 7, true, [9, 10, 13, 14, 18]⟩
  | 0x4F => ⟨.reg, .reg, .none, .none, 0x23, 1, true, typesFloat⟩
  | _ => ⟨.none, .none, .none, .none, 0, 0, false, []⟩

/-- A code that no TYPE field may hold (R31). -/
def reservedType (f : Nat) : Bool := 22 ≤ f && f ≤ 30

/-- Signed integer codes (R79). -/
def fmtSigned (f : Nat) : Bool := f == 1 || f == 3 || f == 5 || f == 7 || f == 19

/-- Unsigned integer codes of register types (R79). -/
def fmtUnsigned (f : Nat) : Bool := f == 2 || f == 4 || f == 6 || f == 8 || f == 20

/-- The ILLEGAL conditions that one opcode's own rule adds to the field rules (R57–R127). -/
def rIllegalExtra (op : Nat) (w : RW) : Bool :=
  let ty := w.ty.toNat
  let md := w.md
  match op with
  | 0x17 => w.va.toNat > w.vb.toNat
  | 0x18 | 0x19 | 0x1B | 0x1E | 0x1F | 0x20 => bitOf md 10 && !typesInt.contains ty
  | 0x1A => !bitOf md 4 && fieldOf md 3 0 != 0
  | 0x1C => bitOf md 0 && fmtUnsigned ty
  | 0x22 =>
    fieldOf md 2 0 ≥ 6 || (bitOf md 10 && !typesInt.contains ty) ||
      (!bitOf md 7 && ty ≤ 21 && fieldOf md 6 4 ≥ fmtElems ty) || (bitOf md 7 && fieldOf md 6 4 != 0)
  | 0x24 | 0x25 | 0x26 => bitOf md 10 && !typesInt.contains ty
  | 0x27 => (bitOf md 10 && !typesInt.contains ty) || (bitOf md 9 && ty == 0)
  | 0x28 | 0x29 => bitOf md 10 && !typesInt.contains ty
  | 0x31 => fieldOf md 4 0 == 0
  | 0x33 => !bitOf md 0 && ty != 31 && fieldOf md 9 1 ≥ 32 * fmtElems ty
  | 0x34 =>
    fieldOf md 2 0 ≥ 6 || ((bitOf md 9 || bitOf md 5) && fieldOf md 2 0 != 0) || (bitOf md 5 && (ty == 7 || ty == 8))
  | 0x35 => fieldOf md 2 0 ≥ 6
  | 0x37 => bitOf w.va 0 || bitOf w.vb 0
  | 0x3F =>
    fieldOf md 3 0 ≥ 8 || (!bitOf md 6 && (isNarrow ty || typesFloat.contains ty) && fieldOf md 10 7 ≥ fmtElems ty) || (bitOf md 6 && fieldOf md 10 7 != 0) ||
      (bitOf md 6 && (ty == 15 || ty == 16))
  | 0x4C => fieldOf md 5 3 == 7
  | 0x4F => bitOf md 5 && ty == 12
  | _ => false

/-- ILLEGAL of a format R word (R23, R25, R31, R37). -/
def rIllegal (op : Nat) (w : RW) : Bool :=
  let r := rRow op w
  !(useOk r.vd w.vd && useOk r.va w.va && useOk r.vb w.vb && useOk r.vc w.vc) ||
    !within w.md r.md || !within w.dead r.dead ||
    (!r.guard && (w.pg != 0 || w.pn != 0)) ||
    (r.types.isEmpty && w.ty != 0) || reservedType w.ty.toNat || rIllegalExtra op w

/-- Decode-time FORMAT of a format R word: a defined TYPE that the opcode does not accept (R31, R38). -/
def rFormat (op : Nat) (w : RW) : Bool :=
  let r := rRow op w
  !r.types.isEmpty && !r.types.contains w.ty.toNat

/-- ILLEGAL of a format I word (Tables 02.1, 03.1, 05.1; R48, R56, R62, R68). -/
def iIllegal (op : Nat) (w : IW) : Bool :=
  let md := w.md.toNat
  let imm := w.imm.toNat
  match op with
  | 0x01 => w.vd != 0 || w.va != 0 || md != 0
  | 0x02 => w.vd != 0 || md > 1 || (md == 0 && w.va != 0) || (md == 1 && imm != 0)
  | 0x04 => w.va != 0 || md != 0
  | 0x06 => w.vd != w.va || md != 0
  | 0x07 => md != 0
  | 0x0A =>
    w.pg != 0 || w.pn != 0 || md == 3 ||
      (if bitOf w.md 2 then md != 4 || w.va != 0 || w.vd != 0 || imm != 0
       else if md == 0 then w.vd != 0 || imm != 0 else imm > 0xFF)
  | 0x0E => w.vd != 0 || w.va != 0 || md > 1 || imm > 0xFF
  | 0x0F => w.vd != 0 || w.va != 0 || md != 0 || imm > 0x1FF || imm % 8 == 7
  | 0x14 => md ≥ 5 || (md == 0 && w.va != 0)
  | 0x15 => w.vd != 0 || w.va != 0 || md != 0
  | 0x2F => w.va != 0
  | 0x5C => w.vd != 0 || w.va != 0 || md != 0 || imm > 4
  | _ => true

/-- The WIDTH codes an ATOM form takes: AK = 0 `exch` also WIDTH 4 (Table 05.5). -/
def atomWidthOk (ak aop width : Nat) : Bool :=
  width == 2 || width == 3 || (width == 4 && ak == 0 && aop == 6)

/-- ILLEGAL of a format M word: the field rules of R26 and the rows of Table 05.1 and 02.1 (R63, R128, R140, R142,
R143, R145). -/
def mIllegal (op : Nat) (w : MW) : Bool :=
  let width := w.width.toNat
  let scope := w.scope.toNat
  let order := w.order.toNat
  let general := width ≥ 5 || scope == 7 || w.space.toNat ≥ 3 ||
    (w.strong == 0 && (order != 0 || scope != 0)) || (w.strong == 1 && scope == 0) || (width == 4 && bitOf w.vd 0) ||
    (w.nt == 1 && w.strong == 1 && op != 0x57)
  let zSeam := w.seam != 0
  let zLast := w.last != 0
  let zNt := w.nt != 0
  let zHints := w.evp != 0
  let zOrd := scope != 0 || order != 0 || w.strong != 0
  general ||
  match op with
  | 0x10 => zSeam || zLast || zNt || (width != 2 && width != 3) || w.strong == 0 || order ≥ 2 || w.space == 2
  | 0x50 => order ≥ 2 || (zSeam && w.space != 0)
  | 0x51 => zSeam || order ≥ 2
  | 0x52 => zLast || order == 1 || order == 3 || (zSeam && w.space != 0)
  | 0x53 => zLast || zSeam || order == 1 || order == 3 || w.space != 0
  | 0x54 => zLast || zSeam || order == 1 || order == 3 || width != 3
  | 0x55 => zSeam || order ≥ 2 || width != 3 || reservedType (fieldOf w.off 15 11)
  | 0x56 => zLast || zSeam || order == 1 || order == 3 || width != 3 || w.space != 0 || fieldOf w.off 15 7 != 0
  | 0x57 =>
    let aop := w.seam.toNat
    w.strong == 0 || w.space == 2 || (w.nt == 1 && aop ≥ 3) ||
      (w.last == 1 && aop != 1 && aop != 2) || !atomWidthOk w.nt.toNat aop width
  | 0x58 =>
    zLast || zNt || zSeam || w.strong == 0 || w.space == 2 || !(width == 2 || width == 3 || width == 4) ||
      bitOf w.vd 0 || (width == 4 && bitOf w.vd 1)
  | 0x59 =>
    w.vd != 0 || w.va != 0 || w.off != 0 || zHints || zLast || zNt || w.space != 0 || zSeam || width != 0 ||
      order == 0 || w.strong == 0
  | 0x5D => w.vd != 0 || zOrd || zLast || zNt || w.space != 0 || zSeam || width > 1
  | 0x5E => w.vd != 0 || zOrd || zHints || zLast || zNt || w.space != 0 || zSeam || width > 3
  | 0x5F => zOrd || zHints || zLast || zSeam
  | _ => true

/-- Decode-time FORMAT of a format M word: LDS's NFMT (R140). -/
def mFormat (op : Nat) (w : MW) : Bool := op == 0x55 && !isNarrow (fieldOf w.off 15 11)

/-- The MMA format groups of Table 06.5. -/
inductive MGroup where
  | fp64
  | fp32
  | f16
  | fp8
  | int8
  | fp4
  | int4
  deriving DecidableEq, Repr

/-- The group of a pair AFMT, BFMT; none where they share none (R163). -/
def mmaGroup (a b : Nat) : Option MGroup :=
  let f8 := [13, 14, 15, 16, 18]
  if a = 12 ∧ b = 12 then some .fp64
  else if a = 11 ∧ b = 11 then some .fp32
  else if (a = 9 ∧ b = 9) ∨ (a = 10 ∧ b = 10) then some .f16
  else if f8.contains a ∧ f8.contains b then some .fp8
  else if (a = 1 ∨ a = 2) ∧ (b = 1 ∨ b = 2) then some .int8
  else if a = 17 ∧ b = 17 then some .fp4
  else if (a = 19 ∨ a = 20) ∧ (b = 19 ∨ b = 20) then some .int4
  else none

/-- The atom K of a group (Table 06.5). -/
def atomK : MGroup → Nat
  | .fp64 => 4
  | .fp32 => 8
  | .f16 => 32
  | .fp8 => 64
  | .int8 => 64
  | .fp4 => 128
  | .int4 => 128

/-- A group whose accumulator is i32 (Table 06.5). -/
def groupInt : MGroup → Bool
  | .int8 | .int4 => true
  | _ => false

/-- Whether a collective operation takes a type code (Table 06.10). -/
def collTypeOk (op ty : Nat) : Bool :=
  match op with
  | 0 | 1 | 2 | 6 => [5, 6, 7, 8, 10, 11, 12].contains ty
  | 3 => [1, 13, 14, 15, 16, 17].contains ty
  | 4 | 5 => 1 ≤ ty && ty ≤ 21
  | _ => true

/-- What a format E opcode uses: its register fields, its MOD16 bits, whether it takes GE and whether it takes CV
(Tables 02.1, 05.1, 06.1; R27). -/
structure ERow where
  vd : Use
  va : Use
  vb : Use
  vc : Use
  md : Nat
  ge : Bool
  cv : Bool
  deriving DecidableEq, Repr

/-- The row of a format E opcode. -/
def eRow (op : Nat) (w : EW) : ERow :=
  match op with
  | 0x0D => ⟨.pred, .none, .none, .none, 0xFFFF, false, false⟩
  | 0x11 => ⟨.slot, .none, .none, .none, 0, false, false⟩
  | 0x12 => ⟨.slot, if w.md.toNat < 2 then .pred else .none, .none, .none, 3, false, false⟩
  | 0x5A => ⟨.reg, .reg, .reg, if fieldOf w.md 2 0 = 0 then .none else .reg, 0xBF, true, false⟩
  | 0x5B => ⟨.none, .reg, .reg, if fieldOf w.md 2 0 = 0 then .none else .reg, 0x1FBF, true, false⟩
  | 0x60 => ⟨.reg, .reg, .reg, .reg, 0x1FFF, true, true⟩
  | 0x61 => ⟨.none, .reg, .none, .reg, 0xFFF, true, true⟩
  | 0x62 => ⟨.reg, .reg, .reg, .reg, 0x1F, true, true⟩
  | 0x63 => ⟨.reg, .reg, .reg, .reg, 0x7F, true, false⟩
  | 0x64 => ⟨.reg, .none, .none, .none, 0xFFFF, false, false⟩
  | 0x65 => ⟨.none, .reg, .none, .none, 0xFFFF, true, false⟩
  | 0x66 => ⟨.none, .none, .none, .none, 0xFFFF, true, false⟩
  | 0x67 => ⟨.none, .reg, .none, .none, 0xFF, true, false⟩
  | 0x68 => ⟨.reg, .reg, .reg, .reg, 0xFF0F, true, false⟩
  | 0x69 => ⟨.reg, .reg, .reg, if bitOf w.md 5 then .reg else .none, 0x3F, true, false⟩
  | 0x6A | 0x6B => ⟨.reg, .reg, .reg, .reg, 0x3FF, true, false⟩
  | 0x6C => ⟨.reg, .reg, .reg, .none, 1, true, false⟩
  | 0x6D => ⟨.reg, .reg, .reg, .reg, 0xFF, true, false⟩
  | 0x6E => ⟨.reg, .reg, .reg, if bitOf w.md 3 then .reg else .none, 0xF, true, false⟩
  | 0x6F => ⟨.reg, .none, .none, .none, 0xF, false, false⟩
  | _ => ⟨.none, .none, .none, .none, 0, false, false⟩

/-- The MOD16 values that an opcode's own rule marks ILLEGAL, and the reserved codes of its format fields (R31, R59,
R147, R156, R170, R172, R173, R180, R181, R184, R185). -/
def eIllegalExtra (op : Nat) (w : EW) : Bool :=
  let md := w.md
  match op with
  | 0x0D => md == 0
  | 0x5A | 0x5B => fieldOf md 2 0 == 1 || fieldOf md 2 0 == 7
  | 0x60 | 0x61 => reservedType (fieldOf md 4 0) || reservedType (fieldOf md 9 5)
  | 0x62 => reservedType (fieldOf md 4 0)
  | 0x63 => fieldOf md 6 5 == 3 || reservedType (fieldOf md 4 0)
  | 0x64 | 0x65 =>
    reservedType (fieldOf md 4 0) ||
      (if fieldOf md 4 0 == 12 then fieldOf md 15 8 % 2 == 1 else [5, 6, 11].contains (fieldOf md 4 0) && fieldOf md 7 5 ≥ 4)
  | 0x66 => fieldOf md 15 8 + fieldOf md 7 0 > 255
  | 0x6A => fieldOf md 3 0 ≥ 11 || fieldOf md 7 6 == 3
  | 0x6B => fieldOf md 3 0 ≥ 11 || fieldOf md 7 6 ≥ 2
  | 0x6D => fieldOf md 2 0 == 7 || reservedType (fieldOf md 7 3)
  | 0x6E => fieldOf md 1 0 == 3
  | 0x6F => fieldOf md 2 0 == 7
  | _ => false

/-- ILLEGAL of a format E word (R23, R27, R156). -/
def eIllegal (op : Nat) (w : EW) : Bool :=
  let r := eRow op w
  !(useOk r.vd w.vd && useOk r.va w.va && useOk r.vb w.vb && useOk r.vc w.vc) || !within w.md r.md ||
    (!r.ge && (w.ge != 0 || w.gslot != 0)) || (w.ge == 0 && w.gslot != 0) || (!r.cv && w.cv != 0) ||
    eIllegalExtra op w

/-- Decode-time FORMAT of a format E word: its format fields (R156, R163, R169, R170, R172, R181). -/
def eFormat (op : Nat) (w : EW) : Bool :=
  let md := w.md
  match op with
  | 0x60 | 0x61 =>
    match mmaGroup (fieldOf md 4 0) (fieldOf md 9 5) with
    | none => true
    | some g => !groupInt g && (bitOf md 10 || (op == 0x60 && bitOf md 12))
  | 0x62 => !((1 ≤ fieldOf md 4 0 && fieldOf md 4 0 ≤ 14) || (18 ≤ fieldOf md 4 0 && fieldOf md 4 0 ≤ 20))
  | 0x63 => ! [10, 13, 14, 17, 18].contains (fieldOf md 4 0)
  | 0x64 | 0x65 => ! [5, 6, 11, 12].contains (fieldOf md 4 0)
  | 0x6D => !collTypeOk (fieldOf md 2 0) (fieldOf md 7 3)
  | _ => false

/-- The read and the write privilege of a system register: 0 U, 1 S, 2 M, none where that access does not exist
(R189, R190, Tables 07.3, 10.5, 15.6, 19.2, 21.6, 24.2, 24.7, 24.8); none where no register has the number. -/
def sysReg (n : Nat) : Option (Option Nat × Option Nat) :=
  if n = 0x000 then some (some 0, none)
  else if n = 0x001 ∨ n = 0x002 then some (some 1, some 1)
  else if n = 0x100 then some (some 0, some 0)
  else if n = 0x101 ∨ n = 0x102 ∨ n = 0x103 then some (some 0, none)
  else if 0x110 ≤ n ∧ n ≤ 0x12F then some (some 0, some 0)
  else if 0x180 ≤ n ∧ n ≤ 0x187 then some (some 1, if n = 0x184 then none else some 1)
  else if n = 0x188 then some (some 2, some 2)
  else if n = 0x200 then some (some 1, none)
  else if n = 0x201 then some (some 1, some 1)
  else if n = 0x210 then some (some 0, some 2)
  else if n = 0x211 then some (some 1, some 1)
  else if 0x280 ≤ n ∧ n ≤ 0x287 then some (some 1, some 2)
  else if n = 0x288 then some (some 1, some 1)
  else if 0x400 ≤ n ∧ n < 0x580 then
    let k := (n - 0x400) % 32
    if k = 0 then some (some 1, some 2)
    else if k = 1 ∨ k = 15 then some (some 1, none)
    else if k ≤ 18 then some (some 1, some 1)
    else none
  else if n = 0x580 then some (some 0, some 2)
  else if 0x581 ≤ n ∧ n ≤ 0x584 then some (some 1, some 2)
  else if n = 0x600 ∨ n = 0x601 ∨ n = 0x620 ∨ n = 0x621 then some (some 1, some 1)
  else if 0x610 ≤ n ∧ n ≤ 0x617 then some (some 1, some 2)
  else if 0x700 ≤ n ∧ n ≤ 0x702 then some (some 1, some 2)
  else if n = 0x703 ∨ n = 0x704 then some (some 1, none)
  else if n = 0x705 ∨ (0x708 ≤ n ∧ n ≤ 0x70F) then some (some 1, some 1)
  else if n = 0x720 then some (some 1, some 2)
  else if n = 0x721 ∨ n = 0x722 then some (some 1, none)
  else if n = 0x723 then some (some 2, some 2)
  else if n = 0x724 then some (some 1, some 1)
  else if 0x800 ≤ n ∧ n ≤ 0x807 then some (some 1, some 2)
  else if n = 0x808 then some (some 1, none)
  else if n = 0x809 then some (some 1, some 2)
  else if n = 0x80A then some (some 1, some 1)
  else if n = 0x80B then some (some 1, none)
  else if 0x810 ≤ n ∧ n ≤ 0x813 then some (some 1, some 2)
  else if 0x840 ≤ n ∧ n ≤ 0x87F then some (some 1, some 2)
  else if n = 0x880 then some (some 1, none)
  else if n = 0x881 then some (some 2, some 2)
  else if n = 0x882 then some (none, some 2)
  else if 0x890 ≤ n ∧ n ≤ 0x8A7 then some (some 1, none)
  else if n = 0x8A8 ∨ n = 0x8A9 then some (some 2, some 2)
  else if n = 0x8AA then some (none, some 2)
  else if n = 0x8AB then some (some 2, none)
  else if n = 0x8AC then some (some 1, none)
  else if n = 0x8AD then some (some 1, some 1)
  else if n = 0x8C0 then some (some 1, some 2)
  else if n = 0x8C1 ∨ n = 0x8C2 then some (some 1, some 1)
  else if 0x8D0 ≤ n ∧ n ≤ 0x8EF then some (some 1, some 1)
  else none

/-- The per-context registers (R190), S.SPC among them. -/
def perContext (n : Nat) : Bool := (0x180 ≤ n && n ≤ 0x1FF) || n == 0x200 || n == 0x201 || n == 0x211

/-- ILLEGAL of a format S word, whoever issues it (Table 07.1, R187, R190). -/
def sIllegal (op : Nat) (w : SW) : Bool :=
  let md := w.md.toNat
  let n := w.sreg.toNat
  let imm := w.imm.toNat
  let noReg := n != 0
  let noGuard := w.pg != 0 || w.pn != 0
  match op with
  | 0x70 =>
    w.va != 0 || imm != 0 || md % 4 != 0 || (md == 4 && (!perContext n || n == 0x188)) ||
      (match sysReg n with
       | some (some _, _) => false
       | _ => true)
  | 0x71 =>
    w.vd != 0 || (bitOf w.md 0 && w.va != 0) || (!bitOf w.md 0 && imm != 0) ||
      (bitOf w.md 2 && (!perContext n || n == 0x188)) ||
      (match sysReg n with
       | some (_, some _) => false
       | _ => true)
  | 0x72 | 0x7D => w.vd != 0 || w.va != 0 || noReg || imm != 0 || md != 0 || noGuard
  | 0x73 => noReg || md != 0 || imm == 0 || imm > 64
  | 0x74 => noReg || imm != 0 || md > 1
  | 0x75 => noReg || imm != 0 || md ≥ 3 || (md != 1 && w.vd != 0)
  | 0x76 => noReg || md != 0 || imm ≥ 2 ^ 18
  | 0x77 => noReg || md != 0 || imm ≥ 8
  | 0x78 => noReg || md != 0 || imm ≥ 2 ^ 12 || imm == 0
  | 0x79 | 0x7A => w.vd != 0 || noReg || imm != 0 || md > 1
  | 0x7B | 0x7C => noReg || imm != 0 || md > 1
  | 0x7E => w.va != 0 || noReg || imm != 0 || md ≥ 3 || (md == 2 && w.vd != 0)
  | _ => true

/-- A compact operation that reads no B (R30, Table 01.8). -/
def copUnary (c : Nat) : Bool := [1, 17, 18, 24, 25, 26, 27, 28].contains c

/-- The multiply class (R29). -/
def copMul (c : Nat) : Bool := [6, 7, 21, 30].contains c

/-- Distinct registers of a list. -/
def distinct : List Nat → List Nat
  | [] => []
  | x :: xs => if xs.contains x then distinct xs else x :: distinct xs

/-- The source registers of a compact operation (R30). -/
def copSrcs (c : Compact) : List Nat :=
  if c.cop = 0 then [] else if copUnary c.cop.toNat then [c.va.toNat] else [c.va.toNat, c.vb.toNat]

/-- One compact operation by itself is broken (R30). -/
def copIllegal (c : Compact) : Bool :=
  (c.cop == 0 && (c.dead != 0 || c.ty != 0 || c.vb != 0 || c.va != 0 || c.vd != 0)) ||
    (copUnary c.cop.toNat && (c.vb != 0 || bitOf c.dead 1)) || (c.cop == 1 && c.ty != 0)

/-- ILLEGAL of a PAIR word (R30), its clause class apart. -/
def pIllegal (w : PW) : Bool :=
  let c0 := w.op0.cop.toNat
  let c1 := w.op1.cop.toNat
  w.b63 == 1 || copIllegal w.op0 || copIllegal w.op1 ||
    (c0 != 0 && c1 != 0 && w.op0.vd.toNat % 4 == w.op1.vd.toNat % 4) ||
    (c0 != 0 && (copSrcs w.op1).contains w.op0.vd.toNat) ||
    (distinct (copSrcs w.op0 ++ copSrcs w.op1)).length > 3 ||
    (copMul c0 && copMul c1) ||
    ((2 ≤ c0 && c0 ≤ 18) && 19 ≤ c1) || ((2 ≤ c1 && c1 ≤ 18) && 19 ≤ c0)

/-- FORMAT of a PAIR word: a TYPE3 outside its COP's class (R29). -/
def pFormat (w : PW) : Bool :=
  let bad (c : Compact) : Bool :=
    (2 ≤ c.cop.toNat && c.cop.toNat ≤ 18 && c.ty.toNat ≥ 4) || (19 ≤ c.cop.toNat && c.ty.toNat < 4)
  bad w.op0 || bad w.op1

/-- ILLEGAL of a word by its own fields (R37). -/
def rawIllegal : Raw → Bool
  | .r op w => rIllegal op w
  | .i op w => iIllegal op w
  | .m op w => mIllegal op w
  | .e op w => eIllegal op w
  | .s op w => sIllegal op w
  | .p w => pIllegal w

/-- Decode-time FORMAT of a word by its own fields (R38). -/
def rawFormat : Raw → Bool
  | .r op w => rFormat op w
  | .i _ _ => false
  | .m op w => mFormat op w
  | .e op w => eFormat op w
  | .s _ _ => false
  | .p w => pFormat w

/-- The cause with which a word is rejected whoever issues it: ILLEGAL before FORMAT (R38). -/
def rawReject (r : Raw) : Option Reject :=
  if rawIllegal r then some .illegal else if rawFormat r then some .format else none

/-- The major opcode (R33). -/
def rawOp : Raw → Nat
  | .r op _ | .i op _ | .m op _ | .e op _ | .s op _ => op
  | .p _ => 0x7F

/-- The engine class of a word (R10, R33); a PAIR word stands in class 1 or 2 by its operations (R29). -/
def classOk (cls : Nat) : Raw → Bool
  | .p w =>
    let c0 := w.op0.cop.toNat
    let c1 := w.op1.cop.toNat
    if cls = 1 then c0 < 19 && c1 < 19
    else if cls = 2 then !(2 ≤ c0 && c0 ≤ 18) && !(2 ≤ c1 && c1 ≤ 18) else false
  | r =>
    let op := rawOp r
    let k := if op < 0x18 then 0 else if op < 0x38 then 1 else if op < 0x50 then 2 else if op < 0x60 then 3
      else if op < 0x70 then 4 else 5
    cls == k

/-- A word that stands last in its clause (R13). -/
def endsClause (op : Nat) : Bool :=
  [0x01, 0x02, 0x03, 0x04, 0x05, 0x06, 0x08, 0x09, 0x13, 0x14, 0x72, 0x7D].contains op

/-- Opcodes of teams only (R34). -/
def teamOnly (op : Nat) : Bool :=
  [0x07, 0x08, 0x09, 0x0A, 0x0B, 0x0D, 0x0E, 0x0F, 0x11, 0x12, 0x13, 0x14, 0x16, 0x17, 0x31, 0x32, 0x33, 0x34, 0x35,
   0x36, 0x37, 0x4B, 0x4C, 0x4D, 0x4F, 0x55, 0x56, 0x60, 0x61, 0x62, 0x63, 0x64, 0x65, 0x66, 0x67, 0x68, 0x6A, 0x6B,
   0x6C, 0x6D].contains op

/-- Opcodes of the S-lane only (R34). -/
def laneOnly (op : Nat) : Bool := [0x72, 0x73, 0x74, 0x75, 0x78, 0x7D].contains op

/-- The privilege a word needs: 0 U, 1 S, 2 M (R35, R190). -/
def needPriv : Raw → Nat
  | .s op w =>
    if op = 0x77 ∨ op = 0x7E then 0
    else if op = 0x78 then 2
    else if op = 0x70 then
      match sysReg w.sreg.toNat with
      | some (some p, _) => p
      | _ => 0
    else if op = 0x71 then
      match sysReg w.sreg.toNat with
      | some (_, some p) => p
      | _ => 0
    else 1
  | _ => 0

/-- One past the highest register that a word names, its implied registers included; 0 where it names none (R23, R68,
R99, R100, R113, R122, R123, R135, R138, R143). -/
def regTop : Raw → Nat
  | .r op w =>
    let r := rRow op w
    let imm := bitOf w.md 10 && [0x18, 0x19, 0x1B, 0x1E, 0x1F, 0x20, 0x22, 0x24, 0x25, 0x26, 0x27, 0x28, 0x29].contains op
    let top (u : Use) (v : BitVec 8) (k : Nat) : Nat := if u = .reg then v.toNat + k else 0
    let kd := if op = 0x36 ∨ op = 0x45 then 2 else if op = 0x37 then 4
      else if op = 0x4C then dqcvtRegs (fieldOf w.md 5 3) w.ty.toNat else 1
    let ka := if op = 0x37 then 2 else if op = 0x4B then qcvtRegs (fieldOf w.md 2 1) w.ty.toNat else 1
    let kb := if op = 0x37 then 2 else 1
    max (max (top r.vd w.vd kd) (top r.va w.va ka)) (max (if imm then 0 else top r.vb w.vb kb) (top r.vc w.vc 1))
  | .i op w =>
    if op = 0x14 then max (w.vd.toNat + 1) (if w.md = 0 then 0 else w.va.toNat + w.md.toNat)
    else if op = 0x04 ∨ op = 0x2F then w.vd.toNat + 1
    else if op = 0x06 ∨ op = 0x07 ∨ op = 0x0A then max (w.vd.toNat + 1) (w.va.toNat + 1)
    else if op = 0x02 then w.va.toNat + 1
    else 0
  | .m op w =>
    let kd :=
      if op = 0x58 then (if w.width = 4 then 4 else 2)
      else if op = 0x54 then 2
      else if op = 0x5F then 1
      else if w.width = 4 then 2 else 1
    let vd := if op = 0x59 ∨ op = 0x5D ∨ op = 0x5E then 0 else w.vd.toNat + kd
    let va := if op = 0x59 then 0 else w.va.toNat + 1
    max vd va
  | .e op w =>
    let r := eRow op w
    let top (u : Use) (v : BitVec 8) : Nat := if u = .reg then v.toNat + 1 else 0
    max (max (top r.vd w.vd) (top r.va w.va)) (max (top r.vb w.vb) (top r.vc w.vc))
  | .s _ w => max (w.vd.toNat + 1) (w.va.toNat + 1)
  | .p w =>
    let top (c : Compact) : Nat :=
      if c.cop = 0 then 0 else max (c.vd.toNat + 1) (max (c.va.toNat + 1) (c.vb.toNat + 1))
    max (top w.op0) (top w.op1)

/-- The TYPE rules of the S-lane: class 2 accepts only the IEEE types, FDOT only f16 and bf16, ICVT none (R106). -/
def laneFormat : Raw → Bool
  | .r op w =>
    let ty := w.ty.toNat
    if op = 0x4A then true
    else if op = 0x4E then ty != 9 && ty != 10
    else if 0x38 ≤ op ∧ op < 0x50 then !typesFloat.contains ty
    else false
  | _ => false

/-- The cause with which a word of a clause is rejected for the one who issues it: an S-lane context (`lane`) or a
team, of privilege `priv`, with registers below `window` (R34–R38, R190). -/
def issueReject (lane : Bool) (priv window cls : Nat) (final : Bool) (r : Raw) : Option Reject :=
  let op := rawOp r
  let sb := match r with
    | .s 0x70 w | .s 0x71 w => bitOf w.md 2
    | _ => false
  let teamBlock := match r with
    | .s 0x70 w | .s 0x71 w => 0x100 ≤ w.sreg.toNat && w.sreg.toNat < 0x180
    | _ => false
  if rawIllegal r || !classOk cls r || (endsClause op && !final) || regTop r > window ||
      (lane && teamOnly op) || (!lane && laneOnly op) || (sb && !lane) || (teamBlock && lane) then some .illegal
  else if needPriv r > priv || (sb && lane && priv != 2) then some .priv
  else if rawFormat r || (lane && laneFormat r) then some .format
  else none

end Sys2Proof.Machine
end

