-- ==== Sys2Proof/WellFormed.lean ====
section
/-! DEFINITION. Which instructions and events are well formed. A word: its fields keep the static rules of
Sys2Proof/Machine/Rules.lean and its selector field names its own constructor. An event: what it names exists on the
device (Table 00.2, Table 19.1, R402). -/
namespace Sys2Proof
open Machine

def coreOk (n : Nat) : Bool := n < 256
def dieOk (n : Nat) : Bool := n < 4
def portOk (n : Nat) : Bool := n < 12

def agentOk : Agent → Bool
  | .team core slot => core < 256 && slot < 16
  | .ctx core _ => core < 256

/-- A Remit packet whose fields keep the widths of Tables 24.3 and 24.4. -/
def packetOk (p : Packet) : Bool :=
  p.type < 4 && p.cls < 8 && p.evp < 4 && p.csc < 8 && p.src < 2 ^ 16 && p.dst < 2 ^ 16 && p.flow < 2 ^ 32 &&
    p.psn < 2 ^ 32 && p.msg < 2 ^ 32 && p.rcause < 256 && p.mlen ≤ 2 ^ 32 && p.poff < 2 ^ 32 && p.poff % 4096 == 0 &&
    p.plen ≤ 4096 && p.payload.length == p.plen && p.dasid < 2 ^ 16 && p.stime < 2 ^ 32 && p.pmsg < 2 ^ 32 &&
    (!p.trim || (p.type == 0 && p.plen == 0 && p.cls == 0)) && p.olen ≤ 4096 && p.tdev < 2 ^ 16 && p.tport < 16 &&
    p.oclass < 8

def unitOk : CheckUnit → Bool
  | .dram s => s < 2 ^ 34
  | .l2 d s => d < 4 && s < 2 ^ 34
  | .l1 c s => c < 256 && s < 2 ^ 34
  | .sram c u => c < 32 && u < 2 ^ 21
  | .wbuf c u => c < 256 && u < 2 ^ 17
  | .abuf c u => c < 256 && u < 2 ^ 16
  | .cbuf c u => c < 256 && u < 2 ^ 16

/-- The selector field of a word names its own form (Tables 02.1, 03.1, 04.1, 05.1, 06.1, 07.1); what an event names
exists. -/
def formOk : Instr → Bool
  | .nop _ => true
  | .bra _ => true
  | .bru w => !bitOf w.md 0
  | .bruR w => bitOf w.md 0
  | .jmpi _ => true
  | .callW _ => true
  | .ret _ => true
  | .loopW _ => true
  | .fork _ => true
  | .fend _ => true
  | .exitW _ => true
  | .regionW w => w.md.toNat == 0
  | .regionProd w => w.md.toNat == 1
  | .regionCons w => w.md.toNat == 2
  | .regionEnd w => w.md.toNat == 4
  | .voteAny w => fieldOf w.md 1 0 == 0
  | .voteAll w => fieldOf w.md 1 0 == 1
  | .voteUni w => fieldOf w.md 1 0 == 2
  | .voteBallot w => fieldOf w.md 1 0 == 3
  | .plop _ => true
  | .signW _ => true
  | .barSync w => !bitOf w.md 0
  | .barArrive w => bitOf w.md 0
  | .waitc _ => true
  | .ctrwait _ => true
  | .gset _ => true
  | .gresAny w => fieldOf w.md 1 0 == 0
  | .gresAll w => fieldOf w.md 1 0 == 1
  | .gresT w => fieldOf w.md 1 0 == 2
  | .gresF w => fieldOf w.md 1 0 == 3
  | .yield _ => true
  | .syscall _ => true
  | .brk _ => true
  | .tagq _ => true
  | .deadW _ => true
  | .iadd _ => true
  | .isub _ => true
  | .iaddc w => !bitOf w.md 9
  | .isubc w => bitOf w.md 9
  | .imul _ => true
  | .imulh _ => true
  | .imad _ => true
  | .iaddmin _ => true
  | .imin _ => true
  | .imax _ => true
  | .iabsd _ => true
  | .icmp w => !bitOf w.md 7
  | .icmpMask w => bitOf w.md 7
  | .isel _ => true
  | .andW _ => true
  | .orW _ => true
  | .xorW _ => true
  | .shl _ => true
  | .shr _ => true
  | .shra _ => true
  | .bfx _ => true
  | .bfi _ => true
  | .popc _ => true
  | .clz _ => true
  | .movW _ => true
  | .movi w => w.md.toNat ≤ 5
  | .moviHi w => w.md.toNat == 6
  | .moviLane w => w.md.toNat == 7
  | .mkaddr w => !bitOf w.md 0
  | .mkaddrOff w => bitOf w.md 0
  | .lshiftUp w => !bitOf w.md 5
  | .lshiftDn w => bitOf w.md 5
  | .lperm _ => true
  | .lbcast w => !bitOf w.md 0
  | .lbcastR w => bitOf w.md 0
  | .lreduce _ => true
  | .lscan _ => true
  | .vmerge _ => true
  | .vmergekv _ => true
  | .fadd _ => true
  | .fsub _ => true
  | .fmul _ => true
  | .ffma _ => true
  | .fdiv _ => true
  | .fmin _ => true
  | .fmax _ => true
  | .fcmp w => !bitOf w.md 6
  | .fcmpMask w => bitOf w.md 6
  | .frcp _ => true
  | .frsq _ => true
  | .fsqrt _ => true
  | .fexp2 _ => true
  | .flog2 _ => true
  | .fsincos _ => true
  | .fclass _ => true
  | .frnd _ => true
  | .fscale _ => true
  | .fcvt _ => true
  | .icvt _ => true
  | .qcvt w => !bitOf w.md 0
  | .qcvtFix w => bitOf w.md 0
  | .dqcvt _ => true
  | .scadj w => !bitOf w.md 0
  | .scadjNorm w => bitOf w.md 0
  | .fdot _ => true
  | .fsum _ => true
  | .ld _ => true
  | .ldu _ => true
  | .st _ => true
  | .stu _ => true
  | .stm _ => true
  | .lds _ => true
  | .sts _ => true
  | .atomAdd w => w.nt.toNat * 8 + w.seam.toNat == 0
  | .atomMin w => w.nt.toNat * 8 + w.seam.toNat == 1
  | .atomMax w => w.nt.toNat * 8 + w.seam.toNat == 2
  | .atomAnd w => w.nt.toNat * 8 + w.seam.toNat == 3
  | .atomOr w => w.nt.toNat * 8 + w.seam.toNat == 4
  | .atomXor w => w.nt.toNat * 8 + w.seam.toNat == 5
  | .atomExch w => w.nt.toNat * 8 + w.seam.toNat == 6
  | .atomIncw w => w.nt.toNat * 8 + w.seam.toNat == 7
  | .atomFadd w => w.nt.toNat * 8 + w.seam.toNat == 8
  | .atomFmin w => w.nt.toNat * 8 + w.seam.toNat == 9
  | .atomFmax w => w.nt.toNat * 8 + w.seam.toNat == 10
  | .cas _ => true
  | .fenceAcq w => w.order.toNat == 1
  | .fenceRel w => w.order.toNat == 2
  | .fenceAr w => w.order.toNat == 3
  | .put _ => true
  | .putr _ => true
  | .drainW w => w.imm.toNat == 0
  | .drainA w => w.imm.toNat == 1
  | .drainC w => w.imm.toNat == 2
  | .drainK w => w.imm.toNat == 3
  | .drainNt w => w.imm.toNat == 4
  | .prefL1 w => w.width.toNat == 0
  | .prefL2 w => w.width.toNat == 1
  | .cmaintClean w => w.width.toNat == 0
  | .cmaintInv w => w.width.toNat == 1
  | .cmaintCinv w => w.width.toNat == 2
  | .cmaintZero w => w.width.toNat == 3
  | .probe _ => true
  | .mma _ => true
  | .mjob _ => true
  | .mperm _ => true
  | .sgemv _ => true
  | .accrd _ => true
  | .accwr _ => true
  | .accz _ => true
  | .epld _ => true
  | .mdrain _ => true
  | .dcopy _ => true
  | .gather _ => true
  | .scatter _ => true
  | .rowcopy w => !bitOf w.md 0
  | .rowcopyInit w => bitOf w.md 0
  | .collSum w => fieldOf w.md 2 0 == 0
  | .collMin w => fieldOf w.md 2 0 == 1
  | .collMax w => fieldOf w.md 2 0 == 2
  | .collNsum w => fieldOf w.md 2 0 == 3
  | .collGath w => fieldOf w.md 2 0 == 4
  | .collBcast w => fieldOf w.md 2 0 == 5
  | .collRsum w => fieldOf w.md 2 0 == 6
  | .sread _ => true
  | .estat _ => true
  | .sysr _ => true
  | .sysw w => fieldOf w.md 1 0 == 0
  | .syswImm w => fieldOf w.md 1 0 == 1
  | .syswSet w => fieldOf w.md 1 0 == 2
  | .syswClr w => fieldOf w.md 1 0 == 3
  | .sret _ => true
  | .tqtake _ => true
  | .tqpost w => !bitOf w.md 0
  | .tqpostOom w => bitOf w.md 0
  | .replay w => fieldOf w.md 1 0 == 0
  | .replayM w => fieldOf w.md 1 0 == 1
  | .replayDrop w => fieldOf w.md 1 0 == 2
  | .tlbinv _ => true
  | .launch _ => true
  | .tkclaim _ => true
  | .park w => !bitOf w.md 0
  | .parkCopse w => bitOf w.md 0
  | .unpark w => !bitOf w.md 0
  | .unparkCopse w => bitOf w.md 0
  | .ctxsv w => !bitOf w.md 0
  | .ctxsvCopse w => bitOf w.md 0
  | .ctxld w => !bitOf w.md 0
  | .ctxldCopse w => bitOf w.md 0
  | .wfi _ => true
  | .tokenTake w => fieldOf w.md 1 0 == 0
  | .tokenTry w => fieldOf w.md 1 0 == 1
  | .tokenGive w => fieldOf w.md 1 0 == 2
  | .pairW _ => true
  | .teamChoice core quad => coreOk core && quad < 4
  | .resultDelivery core slot => coreOk core && slot < 16
  | .ctrwaitSatisfied core slot => coreOk core && slot < 16
  | .engineAccept core => coreOk core
  | .matrixCommandStart core => coreOk core
  | .sgemvStart stack => stack < 8
  | .engineCommandComplete core cls => coreOk core && cls < 7
  | .engineCommandFail core cls => coreOk core && cls < 7
  | .meshPutCounterIncrease core => coreOk core
  | .collPhaseAdvance core => coreOk core
  | .faultEntryPost core => coreOk core
  | .residencyExpiry core => coreOk core
  | .slotReuseFenceClose core slot => coreOk core && slot < 16
  | .copseRetirement core _ => coreOk core
  | .placementPass cluster => cluster < 32
  | .headAgeExpiry => true
  | .preferredDieSlackExpiry => true
  | .tokenGrant => true
  | .tokenWaitExpiry => true
  | .graftDecision _ => true
  | .graftTimeout _ => true
  | .eventTake core _ => coreOk core
  | .timerCompare core _ => coreOk core
  | .externalLineRaise line => line < 8
  | .tamperAlarm => true
  | .glitchAlarm => true
  | .worldPeriodEnd => true
  | .alarmReset => true
  | .powerOnReset => true
  | .fullReset => true
  | .hostDoorbellWrite _ => true
  | .hostBar1Write _ _ => true
  | .hostHotReset => true
  | .hostLinkDown => true
  | .nvmeFatal port => port < 4
  | .ethLinkDown port => portOk port
  | .ethLinkUp port => portOk port
  | .ethRetryGiveUp port => portOk port
  | .remitDataReceive port pkt => portOk port && packetOk pkt
  | .messageComplete _ => true
  | .trimmedHeaderReceive port pkt => portOk port && packetOk pkt
  | .rreqSend port src => portOk port && src < 2 ^ 16
  | .holeRetryExpiry port _ _ => portOk port
  | .rreqReceive port pkt => portOk port && packetOk pkt
  | .ackReceive port pkt => portOk port && packetOk pkt
  | .refuseReceive port pkt => portOk port && packetOk pkt
  | .retxTimeout _ => true
  | .flowRecordExpiry src _ => src < 2 ^ 16
  | .transitForward port pkt => portOk port && packetOk pkt
  | .multicastForward router pkt => coreOk router && 1 ≤ pkt.flits && pkt.flits ≤ 5 && pkt.branches.length ≥ 1
  | .writePropagation die => dieOk die
  | .lineEviction die line => dieOk die && line < 2 ^ 32
  | .tlbinvComplete _ => true
  | .ctxsvComplete _ => true
  | .spdmGetVersion _ _ => true
  | .spdmGetCapabilities _ _ => true
  | .spdmNegotiateAlgorithms _ _ => true
  | .spdmGetDigests _ _ => true
  | .spdmGetCertificate _ _ => true
  | .spdmChallenge _ _ => true
  | .spdmGetMeasurements _ _ => true
  | .spdmUnsupportedRequest _ _ => true
  | .sSpcWrite core _ => coreOk core
  | .sCodeWrite core _ _ => coreOk core
  | .secCworldWrite n _ => n < 4
  | .secRgnWrite n _ => n < 64
  | .secApolWrite _ => true
  | .secAlogWrite _ => true
  | .secSvnWrite _ => true
  | .swapOut _ => true
  | .swapIn _ => true
  | .swapDone slot => slot < 8
  | .bootExtend core _ => coreOk core
  | .flashRead core _ => coreOk core
  | .flashProgram core _ => coreOk core
  | .flashErase _ => true
  | .flashTransferDone => true
  | .powerAdmitWrite core _ _ => coreOk core
  | .powerCapWrite _ => true
  | .memProfWrite n _ => n < 8
  | .memUelogWrite _ => true
  | .systemRegisterWrite agent number _ => agentOk agent && (sysReg number).isSome
  | .sLaneClauseTurn core => coreOk core
  | .ntStoreComplete => true
  | .softError unit _ => unitOk unit
  | .hostLinkUp => true
  | .holdingBufferRelease router k => coreOk router && k.cls < 8
  | .egressLastByteLeft port => portOk port
  | .receivedFrameDrop f => portOk f.port

/-- A well-formed instruction or event. -/
def wellFormed (i : Instr) : Bool :=
  formOk i &&
    match rawOf i with
    | some r => !rawIllegal r && !rawFormat r
    | none => true

end Sys2Proof
end

