-- ==== Sys2Proof/Decode.lean ====
section
/-! DEFINITION. The decoder and, after it, the encoder of the instruction words, both written from Tables 01.3–01.9 and
the instruction pages. `decode` reads any list of bytes: it gives the instruction and the bytes that follow it, or the
name of the reason why the bytes are none (R23, R31, R37). What depends on the issuer (window, privilege, place in the
clause, team or S-lane) is judged when a clause is decoded (Sys2Proof/Machine/Rules.lean, `issueReject`). -/
namespace Sys2Proof
open Machine

/-- Why bytes are no instruction. -/
inductive DecodeError where
  /-- Fewer than the eight bytes of a word (R9). -/
  | truncated
  /-- ILLEGAL of the word (R37). -/
  | illegal
  /-- FORMAT of the word at decode (R38). -/
  | format
  deriving DecidableEq, Repr

/-- The bytes of a little-endian number (R3). -/
def leBytes : Nat → Nat → List Byte
  | 0, _ => []
  | k + 1, x => BitVec.ofNat 8 x :: leBytes k (x / 256)

/-- A little-endian number (R3). -/
def ofLe : List Byte → Nat
  | [] => 0
  | b :: bs => b.toNat + 256 * ofLe bs

/-- The constructor of a format R word: by its opcode, and by the field that selects the form where the opcode has
several (Tables 02.1, 03.1, 04.1, 05.1, 06.1, 07.1). -/
def rInstr (op : Nat) (w : RW) : Option Instr :=
  match op with
  | 0 => some (.nop w)
  | 3 => some (.jmpi w)
  | 5 => some (.ret w)
  | 8 => some (.fend w)
  | 9 => some (.exitW w)
  | 11 =>
    match fieldOf w.md 1 0 with
    | 0 => some (.voteAny w)
    | 1 => some (.voteAll w)
    | 2 => some (.voteUni w)
    | 3 => some (.voteBallot w)
    | _ => none
  | 12 => some (.plop w)
  | 19 => some (.yield w)
  | 22 => some (.tagq w)
  | 23 => some (.deadW w)
  | 24 => some (.iadd w)
  | 25 => some (.isub w)
  | 26 => some (if bitOf w.md 9 then .isubc w else .iaddc w)
  | 27 => some (.imul w)
  | 28 => some (.imulh w)
  | 29 => some (.imad w)
  | 30 => some (.iaddmin w)
  | 31 => some (.imin w)
  | 32 => some (.imax w)
  | 33 => some (.iabsd w)
  | 34 => some (if bitOf w.md 7 then .icmpMask w else .icmp w)
  | 35 => some (.isel w)
  | 36 => some (.andW w)
  | 37 => some (.orW w)
  | 38 => some (.xorW w)
  | 39 => some (.shl w)
  | 40 => some (.shr w)
  | 41 => some (.shra w)
  | 42 => some (.bfx w)
  | 43 => some (.bfi w)
  | 44 => some (.popc w)
  | 45 => some (.clz w)
  | 46 => some (.movW w)
  | 48 => some (if bitOf w.md 0 then .mkaddrOff w else .mkaddr w)
  | 49 => some (if bitOf w.md 5 then .lshiftDn w else .lshiftUp w)
  | 50 => some (.lperm w)
  | 51 => some (if bitOf w.md 0 then .lbcastR w else .lbcast w)
  | 52 => some (.lreduce w)
  | 53 => some (.lscan w)
  | 54 => some (.vmerge w)
  | 55 => some (.vmergekv w)
  | 56 => some (.fadd w)
  | 57 => some (.fsub w)
  | 58 => some (.fmul w)
  | 59 => some (.ffma w)
  | 60 => some (.fdiv w)
  | 61 => some (.fmin w)
  | 62 => some (.fmax w)
  | 63 => some (if bitOf w.md 6 then .fcmpMask w else .fcmp w)
  | 64 => some (.frcp w)
  | 65 => some (.frsq w)
  | 66 => some (.fsqrt w)
  | 67 => some (.fexp2 w)
  | 68 => some (.flog2 w)
  | 69 => some (.fsincos w)
  | 70 => some (.fclass w)
  | 71 => some (.frnd w)
  | 72 => some (.fscale w)
  | 73 => some (.fcvt w)
  | 74 => some (.icvt w)
  | 75 => some (if bitOf w.md 0 then .qcvtFix w else .qcvt w)
  | 76 => some (.dqcvt w)
  | 77 => some (if bitOf w.md 0 then .scadjNorm w else .scadj w)
  | 78 => some (.fdot w)
  | 79 => some (.fsum w)
  | _ => none

/-- The constructor of a format I word: by its opcode, and by the field that selects the form where the opcode has
several (Tables 02.1, 03.1, 04.1, 05.1, 06.1, 07.1). -/
def iInstr (op : Nat) (w : IW) : Option Instr :=
  match op with
  | 1 => some (.bra w)
  | 2 => some (if bitOf w.md 0 then .bruR w else .bru w)
  | 4 => some (.callW w)
  | 6 => some (.loopW w)
  | 7 => some (.fork w)
  | 10 =>
    match w.md.toNat with
    | 0 => some (.regionW w)
    | 1 => some (.regionProd w)
    | 2 => some (.regionCons w)
    | 4 => some (.regionEnd w)
    | _ => none
  | 14 => some (if bitOf w.md 0 then .barArrive w else .barSync w)
  | 15 => some (.waitc w)
  | 20 => some (.syscall w)
  | 21 => some (.brk w)
  | 47 =>
    match w.md.toNat with
    | 0 | 1 | 2 | 3 | 4 | 5 => some (.movi w)
    | 6 => some (.moviHi w)
    | 7 => some (.moviLane w)
    | _ => none
  | 92 =>
    match w.imm.toNat with
    | 0 => some (.drainW w)
    | 1 => some (.drainA w)
    | 2 => some (.drainC w)
    | 3 => some (.drainK w)
    | 4 => some (.drainNt w)
    | _ => none
  | _ => none

/-- The constructor of a format M word: by its opcode, and by the field that selects the form where the opcode has
several (Tables 02.1, 03.1, 04.1, 05.1, 06.1, 07.1). -/
def mInstr (op : Nat) (w : MW) : Option Instr :=
  match op with
  | 16 => some (.ctrwait w)
  | 80 => some (.ld w)
  | 81 => some (.ldu w)
  | 82 => some (.st w)
  | 83 => some (.stu w)
  | 84 => some (.stm w)
  | 85 => some (.lds w)
  | 86 => some (.sts w)
  | 87 =>
    match w.nt.toNat * 8 + w.seam.toNat with
    | 0 => some (.atomAdd w)
    | 1 => some (.atomMin w)
    | 2 => some (.atomMax w)
    | 3 => some (.atomAnd w)
    | 4 => some (.atomOr w)
    | 5 => some (.atomXor w)
    | 6 => some (.atomExch w)
    | 7 => some (.atomIncw w)
    | 8 => some (.atomFadd w)
    | 9 => some (.atomFmin w)
    | 10 => some (.atomFmax w)
    | _ => none
  | 88 => some (.cas w)
  | 89 =>
    match w.order.toNat with
    | 1 => some (.fenceAcq w)
    | 2 => some (.fenceRel w)
    | 3 => some (.fenceAr w)
    | _ => none
  | 93 =>
    match w.width.toNat with
    | 0 => some (.prefL1 w)
    | 1 => some (.prefL2 w)
    | _ => none
  | 94 =>
    match w.width.toNat with
    | 0 => some (.cmaintClean w)
    | 1 => some (.cmaintInv w)
    | 2 => some (.cmaintCinv w)
    | 3 => some (.cmaintZero w)
    | _ => none
  | 95 => some (.probe w)
  | _ => none

/-- The constructor of a format E word: by its opcode, and by the field that selects the form where the opcode has
several (Tables 02.1, 03.1, 04.1, 05.1, 06.1, 07.1). -/
def eInstr (op : Nat) (w : EW) : Option Instr :=
  match op with
  | 13 => some (.signW w)
  | 17 => some (.gset w)
  | 18 =>
    match fieldOf w.md 1 0 with
    | 0 => some (.gresAny w)
    | 1 => some (.gresAll w)
    | 2 => some (.gresT w)
    | 3 => some (.gresF w)
    | _ => none
  | 90 => some (.put w)
  | 91 => some (.putr w)
  | 96 => some (.mma w)
  | 97 => some (.mjob w)
  | 98 => some (.mperm w)
  | 99 => some (.sgemv w)
  | 100 => some (.accrd w)
  | 101 => some (.accwr w)
  | 102 => some (.accz w)
  | 103 => some (.epld w)
  | 104 => some (.mdrain w)
  | 105 => some (.dcopy w)
  | 106 => some (.gather w)
  | 107 => some (.scatter w)
  | 108 => some (if bitOf w.md 0 then .rowcopyInit w else .rowcopy w)
  | 109 =>
    match fieldOf w.md 2 0 with
    | 0 => some (.collSum w)
    | 1 => some (.collMin w)
    | 2 => some (.collMax w)
    | 3 => some (.collNsum w)
    | 4 => some (.collGath w)
    | 5 => some (.collBcast w)
    | 6 => some (.collRsum w)
    | _ => none
  | 110 => some (.sread w)
  | 111 => some (.estat w)
  | _ => none

/-- The constructor of a format S word: by its opcode, and by the field that selects the form where the opcode has
several (Tables 02.1, 03.1, 04.1, 05.1, 06.1, 07.1). -/
def sInstr (op : Nat) (w : SW) : Option Instr :=
  match op with
  | 112 => some (.sysr w)
  | 113 =>
    match fieldOf w.md 1 0 with
    | 0 => some (.sysw w)
    | 1 => some (.syswImm w)
    | 2 => some (.syswSet w)
    | 3 => some (.syswClr w)
    | _ => none
  | 114 => some (.sret w)
  | 115 => some (.tqtake w)
  | 116 => some (if bitOf w.md 0 then .tqpostOom w else .tqpost w)
  | 117 =>
    match fieldOf w.md 1 0 with
    | 0 => some (.replay w)
    | 1 => some (.replayM w)
    | 2 => some (.replayDrop w)
    | _ => none
  | 118 => some (.tlbinv w)
  | 119 => some (.launch w)
  | 120 => some (.tkclaim w)
  | 121 => some (if bitOf w.md 0 then .parkCopse w else .park w)
  | 122 => some (if bitOf w.md 0 then .unparkCopse w else .unpark w)
  | 123 => some (if bitOf w.md 0 then .ctxsvCopse w else .ctxsv w)
  | 124 => some (if bitOf w.md 0 then .ctxldCopse w else .ctxld w)
  | 125 => some (.wfi w)
  | 126 =>
    match fieldOf w.md 1 0 with
    | 0 => some (.tokenTake w)
    | 1 => some (.tokenTry w)
    | 2 => some (.tokenGive w)
    | _ => none
  | _ => none

/-- The constructor of a split word. -/
def instrOf : Raw → Option Instr
  | .r op w => rInstr op w
  | .i op w => iInstr op w
  | .m op w => mInstr op w
  | .e op w => eInstr op w
  | .s op w => sInstr op w
  | .p w => some (.pairW w)

/-- The format of an opcode (Table 01.9). -/
inductive Format where
  | r
  | i
  | m
  | e
  | s
  | p
  deriving DecidableEq, Repr

/-- The format of an opcode (Table 01.9). -/
def formatOf (op : Nat) : Format :=
  if [1, 2, 4, 6, 7, 10, 14, 15, 20, 21, 47, 92].contains op then .i else
  if [16, 80, 81, 82, 83, 84, 85, 86, 87, 88, 89, 93, 94, 95].contains op then .m else
  if [13, 17, 18, 90, 91, 96, 97, 98, 99, 100, 101, 102, 103, 104, 105, 106, 107, 108, 109, 110, 111].contains op then .e else
  if [112, 113, 114, 115, 116, 117, 118, 119, 120, 121, 122, 123, 124, 125, 126].contains op then .s else
  if op = 0x7F then .p else .r

/-- The fields of a compact operation (Table 01.7). -/
def compactOf (b : BitVec 28) : Compact :=
  ⟨b.extractLsb' 26 2, b.extractLsb' 23 3, b.extractLsb' 17 6, b.extractLsb' 11 6, b.extractLsb' 5 6, b.extractLsb' 0 5⟩

/-- A code word split into the fields of its format; none where bit 7 of a word of formats R, I, M, E or S is 1
(R15, R23, Tables 01.3–01.5). -/
def rawOfWord (b : Word) : Option Raw :=
  let op := (b.extractLsb' 0 7).toNat
  let vd := b.extractLsb' 8 8
  let va := b.extractLsb' 16 8
  match formatOf op with
  | .p => some (.p ⟨b.extractLsb' 63 1, compactOf (b.extractLsb' 35 28), compactOf (b.extractLsb' 7 28)⟩)
  | f =>
    if b.getLsbD 7 then none
    else match f with
      | .i => some (.i op ⟨b.extractLsb' 32 32, b.extractLsb' 29 3, b.extractLsb' 28 1, b.extractLsb' 24 4, va, vd⟩)
      | .m =>
        some (.m op ⟨b.extractLsb' 61 3, b.extractLsb' 58 3, b.extractLsb' 57 1, b.extractLsb' 56 1, b.extractLsb' 54 2,
          b.extractLsb' 53 1, b.extractLsb' 51 2, b.extractLsb' 48 3, b.extractLsb' 45 3, b.extractLsb' 44 1,
          b.extractLsb' 40 4, b.extractLsb' 24 16, va, vd⟩)
      | .e =>
        some (.e op ⟨b.extractLsb' 48 16, b.extractLsb' 44 4, b.extractLsb' 43 1, b.extractLsb' 40 3,
          b.extractLsb' 32 8, b.extractLsb' 24 8, va, vd⟩)
      | .s =>
        some (.s op ⟨b.extractLsb' 52 12, b.extractLsb' 32 20, b.extractLsb' 29 3, b.extractLsb' 28 1,
          b.extractLsb' 24 4, va, vd⟩)
      | _ =>
        some (.r op ⟨b.extractLsb' 53 11, b.extractLsb' 50 3, b.extractLsb' 45 5, b.extractLsb' 44 1,
          b.extractLsb' 40 4, b.extractLsb' 32 8, b.extractLsb' 24 8, va, vd⟩)

/-- The instruction of one code word, or why it is none: ILLEGAL before FORMAT (R37, R38). -/
def decodeWord (b : Word) : Except DecodeError Instr :=
  match rawOfWord b with
  | none => .error .illegal
  | some r =>
    if rawIllegal r then .error .illegal
    else if rawFormat r then .error .format
    else match instrOf r with
      | some i => .ok i
      | none => .error .illegal

/-- The instruction at the head of a list of bytes, and the bytes after it (R9). -/
def decode (bytes : List Byte) : Except DecodeError (Instr × List Byte) :=
  if bytes.length < 8 then .error .truncated
  else match decodeWord (BitVec.ofNat 64 (ofLe (bytes.take 8))) with
    | .ok i => .ok (i, bytes.drop 8)
    | .error e => .error e

/-- The bits of a compact operation (Table 01.7). -/
def compactBits (c : Compact) : BitVec 28 := c.dead ++ c.ty ++ c.vb ++ c.va ++ c.vd ++ c.cop

/-- The code word of a split word (Tables 01.3–01.7). -/
def wordOfRaw : Raw → Word
  | .r op w =>
    w.md ++ w.dead ++ w.ty ++ w.pn ++ w.pg ++ w.vc ++ w.vb ++ w.va ++ w.vd ++ (0#1 : BitVec 1) ++ BitVec.ofNat 7 op
  | .i op w => w.imm ++ w.md ++ w.pn ++ w.pg ++ w.va ++ w.vd ++ (0#1 : BitVec 1) ++ BitVec.ofNat 7 op
  | .m op w =>
    w.seam ++ w.space ++ w.nt ++ w.last ++ w.evp ++ w.strong ++ w.order ++ w.scope ++ w.width ++ w.pn ++ w.pg ++ w.off ++
      w.va ++ w.vd ++ (0#1 : BitVec 1) ++ BitVec.ofNat 7 op
  | .e op w =>
    w.md ++ w.cv ++ w.ge ++ w.gslot ++ w.vc ++ w.vb ++ w.va ++ w.vd ++ (0#1 : BitVec 1) ++ BitVec.ofNat 7 op
  | .s op w => w.sreg ++ w.imm ++ w.md ++ w.pn ++ w.pg ++ w.va ++ w.vd ++ (0#1 : BitVec 1) ++ BitVec.ofNat 7 op
  | .p w => w.b63 ++ compactBits w.op1 ++ compactBits w.op0 ++ (0x7F#7 : BitVec 7)

/-- The code word of an instruction; an event has none. -/
def encode (i : Instr) : Option Word := (rawOf i).map wordOfRaw

/-- The bytes of an instruction as the code buffer holds them (R3, R9). -/
def encodeBytes (i : Instr) : List Byte :=
  match encode i with
  | some w => leBytes 8 w.toNat
  | none => []

/-- The instruction that the decoder reads from a word whose bits are `w`, laid out as code is: one 64-bit word, its
first byte lowest (R3, R9). -/
def decodeTableWord (nbits w : Nat) : Option Instr :=
  match decode (leBytes 8 (w % 2 ^ nbits)) with
  | .ok (i, _) => some i
  | .error _ => none

end Sys2Proof
end

