-- ==== Sys2Proof/Machine/Bits.lean ====
section
/-! DEFINITION. Bit fields, sign extension, saturation and sub-elements (R3, R32, R40, Table 01.12). -/
namespace Sys2Proof.Machine

/-- The n-bit field `x`, zero-extended (R40). -/
def zext (x n : Nat) : Nat := x % 2 ^ n

/-- The n-bit field `x`, sign-extended to an exact integer (R40). -/
def sext (x n : Nat) : Int :=
  let u := x % 2 ^ n
  if 2 * u < 2 ^ n then (u : Int) else (u : Int) - 2 ^ n

/-- x mod 2^n, read as the n-bit pattern (R40). -/
def wrap (x : Int) (n : Nat) : Nat := (x % (2 ^ n : Int)).toNat

/-- `x` clamped to the signed n-bit range (R40). -/
def satI (x : Int) (n : Nat) : Int := max (-(2 ^ (n - 1) : Int)) (min x (2 ^ (n - 1) - 1))

/-- `x` clamped to the unsigned n-bit range (R40). -/
def satN (x : Int) (n : Nat) : Int := max 0 (min x (2 ^ n - 1))

/-- Clamp by signedness. -/
def satBy (signed : Bool) (x : Int) (n : Nat) : Int := if signed then satI x n else satN x n

/-- Bits `hi` to `lo` of a number. -/
def bits (x hi lo : Nat) : Nat := (x >>> lo) % 2 ^ (hi + 1 - lo)

/-- Bit `i` of a number. -/
def bit (x i : Nat) : Bool := x.testBit i

/-- A Bool as 0 or 1. -/
def b2n (b : Bool) : Nat := if b then 1 else 0

/-- Sub-element `j` of a lane, for elements of `w` bits, as a pattern (R32). -/
def sub (x : Word) (w j : Nat) : Nat := (x.toNat >>> (w * j)) % 2 ^ w

/-- A lane from the patterns of its sub-elements; the bits above them are 0 (R32). -/
def ofSubs (w : Nat) (xs : List Nat) : Word :=
  BitVec.ofNat 64 (xs.reverse.foldl (fun acc x => acc * 2 ^ w + x % 2 ^ w) 0)

/-- The sub-elements of a lane in ascending order. -/
def subs (x : Word) (w : Nat) : List Nat := (List.range (64 / w)).map (sub x w)

/-- A sub-element as a number of the type's signedness. -/
def elemInt (signed : Bool) (w p : Nat) : Int := if signed then sext p w else ((p % 2 ^ w : Nat) : Int)

/-- Bytes of a 64-bit word. -/
def wordBytes (n : Nat) (x : Nat) : List Byte := leBytes n x

/-- The indices of the lanes of a mask in ascending order. -/
def lanesOf (m : BitVec 32) : List Nat := (List.range 32).filter (fun i => m.getLsbD i)

/-- The mask of the lanes that satisfy a test. -/
def maskOf (f : Nat → Bool) : BitVec 32 :=
  BitVec.ofNat 32 ((List.range 32).foldl (fun acc i => if f i then acc + 2 ^ i else acc) 0)

/-- ⌈a / b⌉. -/
def ceilDiv (a b : Nat) : Nat := (a + b - 1) / b

/-- Number of set bits of the low `n` bits. -/
def popcount (x : Nat) (n : Nat) : Nat := ((List.range n).filter (fun i => x.testBit i)).length

/-- ⌊log2 x⌋, 0 for 0. -/
def ilog2 (x : Nat) : Nat := Nat.log2 x

/-- The bit length of a number. -/
def bitLength (x : Nat) : Nat := if x = 0 then 0 else ilog2 x + 1

/-- Element `i` of a list, or a default. -/
def nth {α : Type} (l : List α) (d : α) (i : Nat) : α := (l[i]?).getD d

/-- A list with element `i` replaced. -/
def setNth {α : Type} (l : List α) (i : Nat) (x : α) : List α := l.set i x

/-- Pad a list to `n` elements. -/
def padTo {α : Type} (l : List α) (n : Nat) (d : α) : List α := l ++ List.replicate (n - l.length) d

/-- Pairs of neighbours combined, level by level, to one value: the pairwise tree of R97, R127, R171, R182. `comb`
takes absent leaves. Fuel is the number of levels. -/
def pairTree {α : Type} (comb : α → α → α) : Nat → List α → List α
  | 0, l => l
  | k + 1, l => pairTree comb k (pairUp comb l)
where
  pairUp (comb : α → α → α) : List α → List α
    | a :: b :: l => comb a b :: pairUp comb l
    | l => l

end Sys2Proof.Machine
end

