-- ==== Sys2Proof/Machine/Hash.lean ====
section
/-! DEFINITION. The hash functions that the spec names by their standards: SHA-384 (FIPS 180-4) of the measurements and the boot
chain (R339, R342), SHA-512 and SHA-256, on which SLH-DSA-SHA2-192s rests (FIPS 205; R339), and XXH64, the content checksum of
a Zstandard frame (RFC 8878; R184). Their algorithms are taken from those standards (PRESUMED, log 90). -/
namespace Sys2Proof.Machine

/-! ### SHA-384 -/

/-- Round constants 0 to 19. -/
def shaK0 : List Word :=
  [0x428A2F98D728AE22, 0x7137449123EF65CD, 0xB5C0FBCFEC4D3B2F, 0xE9B5DBA58189DBBC,
   0x3956C25BF348B538, 0x59F111F1B605D019, 0x923F82A4AF194F9B, 0xAB1C5ED5DA6D8118,
   0xD807AA98A3030242, 0x12835B0145706FBE, 0x243185BE4EE4B28C, 0x550C7DC3D5FFB4E2,
   0x72BE5D74F27B896F, 0x80DEB1FE3B1696B1, 0x9BDC06A725C71235, 0xC19BF174CF692694,
   0xE49B69C19EF14AD2, 0xEFBE4786384F25E3, 0x0FC19DC68B8CD5B5, 0x240CA1CC77AC9C65]
/-- Round constants 20 to 39. -/
def shaK1 : List Word :=
  [0x2DE92C6F592B0275, 0x4A7484AA6EA6E483, 0x5CB0A9DCBD41FBD4, 0x76F988DA831153B5,
   0x983E5152EE66DFAB, 0xA831C66D2DB43210, 0xB00327C898FB213F, 0xBF597FC7BEEF0EE4,
   0xC6E00BF33DA88FC2, 0xD5A79147930AA725, 0x06CA6351E003826F, 0x142929670A0E6E70,
   0x27B70A8546D22FFC, 0x2E1B21385C26C926, 0x4D2C6DFC5AC42AED, 0x53380D139D95B3DF,
   0x650A73548BAF63DE, 0x766A0ABB3C77B2A8, 0x81C2C92E47EDAEE6, 0x92722C851482353B]
/-- Round constants 40 to 59. -/
def shaK2 : List Word :=
  [0xA2BFE8A14CF10364, 0xA81A664BBC423001, 0xC24B8B70D0F89791, 0xC76C51A30654BE30,
   0xD192E819D6EF5218, 0xD69906245565A910, 0xF40E35855771202A, 0x106AA07032BBD1B8,
   0x19A4C116B8D2D0C8, 0x1E376C085141AB53, 0x2748774CDF8EEB99, 0x34B0BCB5E19B48A8,
   0x391C0CB3C5C95A63, 0x4ED8AA4AE3418ACB, 0x5B9CCA4F7763E373, 0x682E6FF3D6B2B8A3,
   0x748F82EE5DEFB2FC, 0x78A5636F43172F60, 0x84C87814A1F0AB72, 0x8CC702081A6439EC]
/-- Round constants 60 to 79. -/
def shaK3 : List Word :=
  [0x90BEFFFA23631E28, 0xA4506CEBDE82BDE9, 0xBEF9A3F7B2C67915, 0xC67178F2E372532B,
   0xCA273ECEEA26619C, 0xD186B8C721C0C207, 0xEADA7DD6CDE0EB1E, 0xF57D4F7FEE6ED178,
   0x06F067AA72176FBA, 0x0A637DC5A2C898A6, 0x113F9804BEF90DAE, 0x1B710B35131C471B,
   0x28DB77F523047D84, 0x32CAAB7B40C72493, 0x3C9EBE0A15C9BEBC, 0x431D67C49C100D4C,
   0x4CC5D4BECB3E42B6, 0x597F299CFC657E2A, 0x5FCB6FAB3AD6FAEC, 0x6C44198C4A475817]

/-- The 80 round constants. -/
def shaK : List Word := shaK0 ++ shaK1 ++ shaK2 ++ shaK3

/-- The initial hash value of SHA-384. -/
def shaInit : List Word :=
  [0xCBBB9D5DC1059ED8, 0x629A292A367CD507, 0x9159015A3070DD17, 0x152FECD8F70E5939,
   0x67332667FFC00B31, 0x8EB44A8768581511, 0xDB0C2E0D64F98FA7, 0x47B5481DBEFA4FA4]

def rotr (x : Word) (n : Nat) : Word := x.rotateRight n

/-- One round: the schedule's window of 16 words and the eight working variables (FIPS 180-4, 6.4.2). -/
def shaRound (st : List Word × List Word) (k : Word) : List Word × List Word :=
  let (win, v) := st
  let w (i : Nat) : Word := nth win 0 i
  let x (i : Nat) : Word := nth v 0 i
  let next :=
    (rotr (w 14) 19 ^^^ rotr (w 14) 61 ^^^ (w 14 >>> 6)) + w 9 + (rotr (w 1) 1 ^^^ rotr (w 1) 8 ^^^ (w 1 >>> 7)) + w 0
  let t1 := x 7 + (rotr (x 4) 14 ^^^ rotr (x 4) 18 ^^^ rotr (x 4) 41) + ((x 4 &&& x 5) ^^^ (~~~x 4 &&& x 6)) + k + w 0
  let t2 := (rotr (x 0) 28 ^^^ rotr (x 0) 34 ^^^ rotr (x 0) 39) + ((x 0 &&& x 1) ^^^ (x 0 &&& x 2) ^^^ (x 1 &&& x 2))
  (win.tail ++ [next], [t1 + t2, x 0, x 1, x 2, x 3 + t1, x 4, x 5, x 6])

/-- The big-endian words of `n` times eight bytes. -/
def beWords : Nat → List Byte → List Word
  | 0, _ => []
  | n + 1, bs => BitVec.ofNat 64 (ofLe (bs.take 8).reverse) :: beWords n (bs.drop 8)

/-- The hash value after `n` blocks of 128 bytes. -/
def shaBlocks : Nat → List Byte → List Word → List Word
  | 0, _, h => h
  | n + 1, bs, h =>
    shaBlocks n (bs.drop 128) (List.zipWith (· + ·) h (shaK.foldl shaRound (beWords 16 bs, h)).2)

/-- The 64-bit hash of some bytes from an initial value, as 64 bytes. -/
def shaWide (init : List Word) (bs : List Byte) : List Byte :=
  let pad := (0x80 : Byte) :: List.replicate ((239 - bs.length % 128) % 128) 0 ++ (leBytes 16 (8 * bs.length)).reverse
  let msg := bs ++ pad
  (shaBlocks (msg.length / 128) msg init).flatMap (fun x => (leBytes 8 x.toNat).reverse)

/-- SHA-384 of some bytes, as 48 bytes. -/
def sha384 (bs : List Byte) : List Byte := (shaWide shaInit bs).take 48

/-- The initial hash value of SHA-512. -/
def sha512Init : List Word :=
  [0x6A09E667F3BCC908, 0xBB67AE8584CAA73B, 0x3C6EF372FE94F82B, 0xA54FF53A5F1D36F1,
   0x510E527FADE682D1, 0x9B05688C2B3E6C1F, 0x1F83D9ABFB41BD6B, 0x5BE0CD19137E2179]

/-- SHA-512 of some bytes. -/
def sha512 (bs : List Byte) : List Byte := shaWide sha512Init bs

/-! ### SHA-256 -/

/-- The 64 round constants: the high halves of the first 64 of SHA-512. -/
def sha256K : List (BitVec 32) := (shaK.take 64).map (fun (x : Word) => (x >>> 32).setWidth 32)

/-- The initial hash value: the high halves of that of SHA-512. -/
def sha256Init : List (BitVec 32) := sha512Init.map (fun (x : Word) => (x >>> 32).setWidth 32)

/-- One round: the schedule's window of 16 words and the eight working variables (FIPS 180-4, 6.2.2). -/
def sha256Round (st : List (BitVec 32) × List (BitVec 32)) (k : BitVec 32) : List (BitVec 32) × List (BitVec 32) :=
  let (win, v) := st
  let w (i : Nat) : BitVec 32 := nth win 0 i
  let x (i : Nat) : BitVec 32 := nth v 0 i
  let r (a : BitVec 32) (n : Nat) : BitVec 32 := a.rotateRight n
  let next := (r (w 14) 17 ^^^ r (w 14) 19 ^^^ (w 14 >>> 10)) + w 9 + (r (w 1) 7 ^^^ r (w 1) 18 ^^^ (w 1 >>> 3)) + w 0
  let t1 := x 7 + (r (x 4) 6 ^^^ r (x 4) 11 ^^^ r (x 4) 25) + ((x 4 &&& x 5) ^^^ (~~~x 4 &&& x 6)) + k + w 0
  let t2 := (r (x 0) 2 ^^^ r (x 0) 13 ^^^ r (x 0) 22) + ((x 0 &&& x 1) ^^^ (x 0 &&& x 2) ^^^ (x 1 &&& x 2))
  (win.tail ++ [next], [t1 + t2, x 0, x 1, x 2, x 3 + t1, x 4, x 5, x 6])

/-- The big-endian 32-bit words of `n` times four bytes. -/
def beHalves : Nat → List Byte → List (BitVec 32)
  | 0, _ => []
  | n + 1, bs => BitVec.ofNat 32 (ofLe (bs.take 4).reverse) :: beHalves n (bs.drop 4)

/-- The hash value after `n` blocks of 64 bytes. -/
def sha256Blocks : Nat → List Byte → List (BitVec 32) → List (BitVec 32)
  | 0, _, h => h
  | n + 1, bs, h =>
    sha256Blocks n (bs.drop 64) (List.zipWith (· + ·) h (sha256K.foldl sha256Round (beHalves 16 bs, h)).2)

/-- SHA-256 of some bytes, as 32 bytes. -/
def sha256 (bs : List Byte) : List Byte :=
  let pad := (0x80 : Byte) :: List.replicate ((119 - bs.length % 64) % 64) 0 ++ (leBytes 8 (8 * bs.length)).reverse
  let msg := bs ++ pad
  (sha256Blocks (msg.length / 64) msg sha256Init).flatMap (fun x => (leBytes 4 x.toNat).reverse)

/-! ### XXH64 -/

def xxP1 : Word := 0x9E3779B185EBCA87
def xxP2 : Word := 0xC2B2AE3D27D4EB4F
def xxP3 : Word := 0x165667B19E3779F9
def xxP4 : Word := 0x85EBCA77C2B2AE63
def xxP5 : Word := 0x27D4EB2F165667C5

/-- A little-endian word of `n` bytes. -/
def xxWord (n : Nat) (bs : List Byte) : Word := BitVec.ofNat 64 (ofLe (bs.take n))

def xxRound (acc x : Word) : Word := (acc + x * xxP2).rotateLeft 31 * xxP1

/-- The four accumulators after `n` stripes of 32 bytes. -/
def xxStripes : Nat → List Byte → List Word → List Word
  | 0, _, acc => acc
  | n + 1, bs, acc => xxStripes n (bs.drop 32) (acc.zipIdx.map (fun p => xxRound p.1 (xxWord 8 (bs.drop (8 * p.2)))))

/-- The bytes after the last whole stripe: words of 8, then one of 4, then single bytes. `n` bounds their number. -/
def xxTail : Nat → List Byte → Word → Word
  | 0, _, h => h
  | n + 1, bs, h =>
    if bs.length ≥ 8 then xxTail n (bs.drop 8) ((h ^^^ xxRound 0 (xxWord 8 bs)).rotateLeft 27 * xxP1 + xxP4)
    else if bs.length ≥ 4 then xxTail n (bs.drop 4) ((h ^^^ (xxWord 4 bs * xxP1)).rotateLeft 23 * xxP2 + xxP3)
    else match bs with
      | [] => h
      | _ :: rest => xxTail n rest ((h ^^^ (xxWord 1 bs * xxP5)).rotateLeft 11 * xxP1)

/-- XXH64 with seed 0. -/
def xxh64 (bs : List Byte) : Word :=
  let n := bs.length / 32
  let v := xxStripes n bs [xxP1 + xxP2, xxP2, 0, 0 - xxP1]
  let x (i : Nat) : Word := nth v 0 i
  let mix (h a : Word) : Word := (h ^^^ xxRound 0 a) * xxP1 + xxP4
  let h := if n = 0 then xxP5
    else mix (mix (mix (mix ((x 0).rotateLeft 1 + (x 1).rotateLeft 7 + (x 2).rotateLeft 12 + (x 3).rotateLeft 18) (x 0)) (x 1)) (x 2))
      (x 3)
  let h := xxTail 32 (bs.drop (32 * n)) (h + BitVec.ofNat 64 bs.length)
  let h := (h ^^^ (h >>> 33)) * xxP2
  let h := (h ^^^ (h >>> 29)) * xxP3
  h ^^^ (h >>> 32)

end Sys2Proof.Machine
end

