-- ==== Sys2Proof/Machine/Signature.lean ====
section
/-! DEFINITION. The two signature schemes of the boot chain (R339): RSASSA-PSS with SHA-384 and a 48-byte salt (RFC 8017, 8.1.2
and 9.1.2) with a 3,072-bit modulus, and SLH-DSA-SHA2-192s (FIPS 205) in pure mode with an empty context. Their algorithms are
taken from those standards (PRESUMED, log 11). -/
namespace Sys2Proof.Machine

/-- A number from bytes, the most significant first. -/
def bytesNat (bs : List Byte) : Nat := ofLe bs.reverse

/-- A number as `n` bytes, the most significant first. -/
def natBytes (n x : Nat) : List Byte := (leBytes n x).reverse

/-! ### RSASSA-PSS -/

/-- b^e mod n, over the bits of e from the highest. -/
def powMod (b e n : Nat) : Nat :=
  (List.range (Nat.log2 e + 1)).reverse.foldl (fun r i => if e.testBit i then r * r % n * b % n else r * r % n) (1 % n)

/-- `n` bytes of MGF1 with a hash (RFC 8017, B.2.1). -/
def mgf1 (hash : List Byte → List Byte) (size n : Nat) (seed : List Byte) : List Byte :=
  ((List.range (ceilDiv n size)).flatMap (fun i => hash (seed ++ natBytes 4 i))).take n

/-- The encoded message of 384 bytes is that of a message (RFC 8017, 9.1.2). -/
def pssVerify (message em : List Byte) : Bool :=
  let masked := em.take 335
  let h := (em.drop 335).take 48
  let db := (List.zipWith (· ^^^ ·) masked (mgf1 sha384 48 335 h)).zipIdx.map (fun p => if p.2 = 0 then p.1 &&& 0x7F else p.1)
  em.drop 383 == [0xBC] && !(nth masked 0 0).getLsbD 7 && (db.take 286).all (fun b => b == 0) && nth db 0 286 == 1 &&
    sha384 (List.replicate 8 0 ++ sha384 message ++ db.drop 287) == h

/-- RSASSA-PSS under a modulus and an exponent (RFC 8017, 8.1.2). -/
def rsaVerify (key : Nat × Nat) (message signature : List Byte) : Bool :=
  signature.length == 384 && bytesNat signature < key.1 &&
    pssVerify message (natBytes 384 (powMod (bytesNat signature) key.2 key.1))

/-! ### SLH-DSA-SHA2-192s: n = 24, h = 63, d = 7, h′ = 9, a = 14, k = 17, lg w = 4, m = 39 -/

/-- An address in its compressed form (FIPS 205, 11.2): layer, tree, type and the three last words. -/
structure Adrs where
  layer : Nat
  tree : Nat
  type : Nat
  w1 : Nat
  w2 : Nat
  w3 : Nat
  deriving DecidableEq, Repr

def adrsBytes (a : Adrs) : List Byte :=
  natBytes 1 a.layer ++ natBytes 8 a.tree ++ natBytes 1 a.type ++ natBytes 4 a.w1 ++ natBytes 4 a.w2 ++ natBytes 4 a.w3

/-- F: one 24-byte input, with SHA-256. -/
def slhF (seed : List Byte) (a : Adrs) (m : List Byte) : List Byte :=
  (sha256 (seed ++ List.replicate 40 0 ++ adrsBytes a ++ m)).take 24

/-- H and T: two and more inputs, with SHA-512. -/
def slhH (seed : List Byte) (a : Adrs) (m : List Byte) : List Byte :=
  (sha512 (seed ++ List.replicate 104 0 ++ adrsBytes a ++ m)).take 24

/-- The i-th of the 24-byte parts of a string. -/
def part24 (bs : List Byte) (i : Nat) : List Byte := (bs.drop (24 * i)).take 24

/-- `n` digits of `b` bits of a string, from its first bit on. -/
def digitsOf (bs : List Byte) (b n : Nat) : List Nat :=
  let x := bytesNat bs
  (List.range n).map (fun i => (x >>> (8 * bs.length - b * (i + 1))) % 2 ^ b)

/-- A root from a node, the authentication path above it, and its index in its tree; `a j i` is the address of the node of
height j and index i. -/
def climb (seed : List Byte) (a : Nat → Nat → Adrs) : List (List Byte) → Nat → Nat → List Byte → List Byte
  | [], _, _, node => node
  | p :: ps, j, i, node =>
    climb seed a ps (j + 1) (i / 2)
      (slhH seed (a (j + 1) (i / 2)) (if i % 2 = 0 then node ++ p else p ++ node))

/-- `n` steps of a chain of WOTS+ from step i. -/
def slhChain (seed : List Byte) (a : Adrs) : Nat → Nat → List Byte → List Byte
  | 0, _, x => x
  | n + 1, i, x => slhChain seed a n (i + 1) (slhF seed { a with w3 := i } x)

/-- A WOTS+ public key from a signature of 51 parts (FIPS 205, 5.3). -/
def wotsKey (seed : List Byte) (layer tree pair : Nat) (sig m : List Byte) : List Byte :=
  let ds := digitsOf m 4 48
  let sum := (ds.map (fun d => 15 - d)).foldl (· + ·) 0
  let all := ds ++ digitsOf (natBytes 2 (sum * 16)) 4 3
  slhH seed ⟨layer, tree, 1, pair, 0, 0⟩
    (all.zipIdx.flatMap (fun p => slhChain seed ⟨layer, tree, 0, pair, p.2, 0⟩ (15 - p.1) p.1 (part24 sig p.2)))

/-- The root of an XMSS tree from a signature: WOTS+, then a path of nine nodes (FIPS 205, 6.3). -/
def xmssRoot (seed : List Byte) (layer tree leaf : Nat) (sig m : List Byte) : List Byte :=
  climb seed (fun j i => ⟨layer, tree, 2, 0, j, i⟩) ((List.range 9).map (fun i => part24 sig (51 + i))) 0 leaf
    (wotsKey seed layer tree leaf sig m)

/-- The root of the hypertree: the seven layers in turn (FIPS 205, 7.2). -/
def hyperRoot (seed : List Byte) : Nat → Nat → Nat → Nat → List Byte → List Byte → List Byte
  | 0, _, _, _, _, m => m
  | n + 1, layer, tree, leaf, sig, m =>
    hyperRoot seed n (layer + 1) (tree / 2 ^ 9) (tree % 2 ^ 9) (sig.drop (24 * 60)) (xmssRoot seed layer tree leaf sig m)

/-- A FORS public key from a signature of 17 trees of 15 parts (FIPS 205, 8.4). -/
def forsKey (seed : List Byte) (tree leaf : Nat) (sig digest : List Byte) : List Byte :=
  slhH seed ⟨0, tree, 4, leaf, 0, 0⟩ ((digitsOf digest 14 17).zipIdx.flatMap (fun p =>
    let at_ (j : Nat) : List Byte := part24 sig (15 * p.2 + j)
    let i := p.2 * 2 ^ 14 + p.1
    climb seed (fun j i => ⟨0, tree, 3, leaf, j, i⟩) ((List.range' 1 14).map at_) 0 i (slhF seed ⟨0, tree, 3, leaf, 0, i⟩ (at_ 0))))

/-- SLH-DSA-SHA2-192s in pure mode with an empty context (FIPS 205, 9.3, 10.3): a 48-byte key, a signature of 16,224 bytes. -/
def slhVerify (key message signature : List Byte) : Bool :=
  let seed := key.take 24
  let r := signature.take 24
  let m := [0, 0] ++ message
  let digest := mgf1 sha512 64 39 (r ++ seed ++ sha512 (r ++ key ++ m))
  let tree := bytesNat ((digest.drop 30).take 7) % 2 ^ 54
  let leaf := bytesNat (digest.drop 37) % 2 ^ 9
  let fors := (signature.drop 24).take (24 * 255)
  key.length == 48 && signature.length == 16224 &&
    hyperRoot seed 7 0 tree leaf (signature.drop (24 * 256)) (forsKey seed tree leaf fors (digest.take 30)) == key.drop 24

end Sys2Proof.Machine
end

