-- ==== Sys2Proof/Machine/Flags.lean ====
section
/-! DEFINITION. The tests and conditions that words compute: integer comparison (R83), carry and borrow (R81),
CTRWAIT's conditions (R63), the combination codes of LREDUCE and LSCAN (R97), and PLOP's table (R58). The float flags
come with the float operations, as bits 0 NV, 1 DZ, 2 OF, 3 UF, 4 NX, 5 SAT, 6 INF of TEAM.FLAGS (R104). -/
namespace Sys2Proof.Machine

/-- COND of ICMP (R83). -/
def intTest (cond : Nat) (a b : Int) : Bool :=
  match cond with
  | 0 => a == b
  | 1 => a != b
  | 2 => a < b
  | 3 => a ≤ b
  | 4 => a > b
  | 5 => a ≥ b
  | _ => false

/-- The sum or difference of 64-bit patterns with a carry, and the carry out (R81). -/
def addCarry (sub : Bool) (a b k : Nat) : Word × Bool :=
  if sub then (BitVec.ofInt 64 ((a : Int) - b - k), decide ((a : Int) - b - k < 0))
  else (BitVec.ofNat 64 (a + b + k), decide (a + b + k ≥ 2 ^ 64))

/-- COND of CTRWAIT: memory against the value of VS, both of `n` bits (R63). -/
def ctrTest (cond n : Nat) (m x : Nat) : Bool :=
  match cond with
  | 0 => m ≥ x
  | 1 => m == x
  | 2 => m != x
  | _ => sext m n ≥ sext x n

/-- OP of LREDUCE and LSCAN on exact values; the bit operations act on `w`-bit patterns (R97). -/
def combine (op w : Nat) (a b : Int) : Int :=
  match op with
  | 0 => a + b
  | 1 => min a b
  | 2 => max a b
  | 3 => ((wrap a w &&& wrap b w : Nat) : Int)
  | 4 => ((wrap a w ||| wrap b w : Nat) : Int)
  | _ => ((wrap a w ^^^ wrap b w : Nat) : Int)

/-- The identity of OP for a type (R97). -/
def identity (op w : Nat) (signed : Bool) : Int :=
  match op with
  | 1 => if signed then 2 ^ (w - 1) - 1 else 2 ^ w - 1
  | 2 => if signed then -(2 ^ (w - 1) : Int) else 0
  | 3 => 2 ^ w - 1
  | _ => 0

/-- A value brought back into a type after a combination. -/
def intoType (signed : Bool) (w : Nat) (sat : Bool) (x : Int) : Int :=
  if sat then satBy signed x w else elemInt signed w (wrap x w)

/-- PLOP: bit pa + 2 pb of the table (R58). -/
def plopBit (lut : Nat) (a b : Bool) : Bool := bit lut (b2n a + 2 * b2n b)

end Sys2Proof.Machine
end

