-- ==== Sys2Proof/Config.lean ====
section
/-! DEFINITION. The values that the spec leaves open. None has a body, so nothing can be proved about any of them but
what holds for every value. Those that take a tick read State.tick, which the step that uses one advances. -/
namespace Sys2Proof.Config

/-- Clk from issue to delivery of a scoreboarded result for which no bound is given, less one (R17). -/
opaque latency (tick : Nat) : Nat

/-- Choice of a delivery time within a bound: 1 + this mod the bound (R93, Table 03.5). -/
opaque delivery (tick : Nat) : Nat

/-- Whether an access takes the cached one of a stale cached buffer-table entry or translation and the current one
(R284, R286). -/
opaque cachedEntry (tick : Nat) : Bool

/-- Whether a fetch takes the stale instruction-cache word or the current one (R317). -/
opaque cachedWord (tick : Nat) : Bool

/-- Which of the values within the error bound an approximation gives for an input pattern of a format: a candidate
pattern, used only where it meets the bound of Table 04.2. `op` is 0 FRCP, 1 FRSQ, 2 FEXP2, 3 FLOG2, 4 FSINCOS's sine,
5 its cosine (R111). -/
opaque approx (op fmt : Nat) (x : Nat) : Nat

/-- The slice of the L2 that holds a line, taken mod 32: a fixed function of the location, the same on every die, which the
spec does not give (R293). -/
opaque l2Slice (line : Nat) : Nat

/-- The set within its slice that holds a line, taken mod the 2,048 sets of a slice; the spec does not give it (R292). -/
opaque l2Set (line : Nat) : Nat

/-- The set of an L1 that holds a line, taken mod its 128 sets; the spec does not give it (R292). -/
opaque l1Set (line : Nat) : Nat

/-- Which of the free trap-queue entries a new one takes: this mod their number (R326). -/
opaque freeIndex (tick : Nat) : Nat

/-- A byte of host memory as a read finds it (R351). -/
opaque hostByte (addr tick : Nat) : BitVec 8

/-- A byte of an NVMe namespace: port, NSID, byte offset (R184). -/
opaque nvmeByte (port nsid offset : Nat) : BitVec 8

/-- Whether storage initialisation finds the link of a port up, and the controller behind a link ready (R353). -/
opaque nvmeLink (port tick : Nat) : Bool

opaque nvmeReady (port tick : Nat) : Bool

/-- The namespaces that a port's controller reports: NSID, LBA size, capacity in LBAs, and whether it has metadata or
protection information (R353). -/
opaque nvmeNamespaces (port : Nat) : List (Nat × Nat × Nat × Bool)

/-- Whether a device finds that a rank on another device has failed or stays unreachable (R182). -/
opaque peerLost (rank tick : Nat) : Bool

/-- The NVMe completion of a read has error status (R184). -/
opaque nvmeError (port nsid offset tick : Nat) : Bool

/-- The bytes of the storage map, whose layout the spec does not give, for the four ports: link up, controller ready, and
records of NSID, LBA size and capacity (R353); and its physical address. -/
opaque storageMap (ports : List (Bool × Bool × List (Nat × Nat × Nat))) : List (BitVec 8)

opaque storageMapAddr : Nat

/-- The modulus and the exponent of an RSA-3072 key, whose encoding in an image the spec does not give (R339). -/
opaque rsaKey (key : List (BitVec 8)) : Nat × Nat

/-- The OTP fuses' key hashes: 0 the RSA key's, 1 the SLH-DSA key's (R339). -/
opaque keyHash (which : Nat) : List (BitVec 8)

/-- The layout of the flash header and of a monitor image, which the spec does not give (R339): from the bytes of flash
below 0x10_0000, as (offset, byte) pairs with 0xFF where none is listed, whether the header prefers slot B, and per slot its offset, its
length and its SVN. -/
opaque headerPrefersB (flash : List (Nat × BitVec 8)) : Bool

opaque headerSlot (flash : List (Nat × BitVec 8)) (slot : Nat) : Nat × Nat × Nat

/-- The parts of a monitor image: RSA key, SLH-DSA key, signed bytes (header and payload), RSA signature, SLH-DSA
signature, payload (R339). -/
opaque imageParts (image : List (BitVec 8)) :
  List (BitVec 8) × List (BitVec 8) × List (BitVec 8) × List (BitVec 8) × List (BitVec 8) × List (BitVec 8)

/-- The physical address to which the payload is copied, and the monitor entry point (R339). -/
opaque imageBase (image : List (BitVec 8)) : Nat

opaque imageEntry (image : List (BitVec 8)) : Nat

/-- The SVN that a monitor image carries (R343). -/
opaque imageSvn (image : List (BitVec 8)) : Nat

/-- A byte of the flash header after a rewrite, whose layout the spec does not give (R343): its offset, the sequence number,
whether slot B is preferred, and the slots' offsets, lengths and SVNs. -/
opaque headerByte (offset seq : Nat) (prefersB : Bool) (slots : List (Nat × Nat × Nat)) : BitVec 8

/-- Whether the transfer that has just ended was the last of a flash update, which the device then verifies (R343). -/
opaque updateEnds (tick : Nat) : Bool

/-- What the spec does not fix of the SPDM answers: the capability flags of caching and fresh measurements; CTExponent,
DataTransferSize and MaxSPDMmsgSize; the OtherParams byte of ALGORITHMS; and which measurement blocks are the trusted computing
base's (R344). -/
opaque spdmFree : Nat

opaque spdmLimits : Nat × Nat × Nat

opaque spdmOther : BitVec 8

opaque tcbBlock (n : Nat) : Bool

/-- The DMTF type of measurement block n (R344). -/
opaque blockType (n : Nat) : BitVec 8

/-- A byte of the nonce of a signed response (R344). -/
opaque nonceByte (i tick : Nat) : BitVec 8

/-- The device's certificate chain (R344). -/
opaque certChain : List (BitVec 8)

/-- Byte i of the signature of a message by an identity key: RSASSA-PKCS1-v1_5 with the RSA-3072 key, 384 bytes, and
SLH-DSA-SHA2-192s with the other, 16,224 bytes (R344). -/
opaque rsaSign (message : List (BitVec 8)) (i : Nat) : BitVec 8

opaque slhSign (message : List (BitVec 8)) (i : Nat) : BitVec 8

/-- The packets that a mesh link sends before the next packet reaches its router (R397, R400). -/
opaque meshSends (branch tick : Nat) : Nat

/-- Whether an S context that has never run, and whose S.SPC is not 0, is started at a clk: how the monitor starts it the
spec does not give (R342). -/
opaque contextStarts (core clk : Nat) : Bool

/-- How many credits beyond one a mesh branch has for a class (R399). -/
opaque meshCredits (branch cls : Nat) : Nat

/-- Whether the neighbour of an Ethernet port with credit-based flow control grants it a credit for a class (R402, R408). -/
opaque ethCredit (port cls tick : Nat) : Bool

/-- The launch that a save area belongs to when the device has no record of the save: an LSEQ (R240, R243). -/
opaque restoredLaunch (tick : Nat) : Nat

end Sys2Proof.Config
end

