-- ==== Sys2Proof/Machine/State.lean ====
section
/-! DEFINITION. The state of one Casdor 4 package as plain data, and the state after reset. A file of like things is a
list of (number, value) pairs in rising order of number; a number that is not listed holds the default that the field's
accessor gives (Sys2Proof/Machine/Maps.lean). -/
namespace Sys2Proof.Machine

/-- Why the machine stops with a fault. -/
inductive Fault where
  /-- Raised by every instruction word when the cursor names no live path that could issue it: the spec gives a word an
  effect only as issued by a path of a team or by an S-lane context (R12, R420). Safe. -/
  | noIssuer
  deriving DecidableEq, Repr

/-- Why an instruction has no meaning here. -/
inductive Refusal where
  /-- Raised by an arm of Dispatch.lean whose instruction has no meaning in this model. Safe. -/
  | notModelled (mnemonic : String)
  deriving DecidableEq, Repr

/-- A sparse memory: (address, byte) pairs with rising addresses; an address not listed reads as the memory's default. -/
abbrev Cells := List Host.Cell

/-- A vector register's stored payload by its shape (Table 10.3). -/
inductive Pay where
  | dead
  | uniform (p : Word)
  | affine (base stride : Word)
  | general (lanes : List Word)
  deriving DecidableEq, Repr

/-- A vector register: the FMT and LINK of its tag (Table 10.1) and its payload, whose constructor is the SHAPE. -/
structure VReg where
  fmt : Nat
  link : Nat
  pay : Pay
  deriving DecidableEq, Repr

/-- What a result is written to (R17: registers, predicates, guards, scale registers). -/
inductive Dst where
  | vreg (n : Nat)
  | pred (n : Nat)
  | scale (n : Nat)
  | guard (n : Nat)
  deriving DecidableEq, Repr

/-- The content a destination had before an in-flight write (R19). A predicate's is one bit per lane. -/
inductive Old where
  | vreg (r : VReg)
  | pred (p : BitVec 32)
  | scale (x : BitVec 128)
  | guard (g : Nat)
  deriving DecidableEq, Repr

/-- A write in flight (R16–R19): the lanes of the path that issued it, those that it writes and no younger delivered write
has written since, the clk from which it is readable, whether it is scoreboarded, the content that an early reader reads, and
what a read of memory has behind it (R308): 0 for no read, 1 for a read, 2 for one that a releasing fence orders, 3 + SCOPE for
one that a release write orders. -/
structure Pend where
  dst : Dst
  lanes : BitVec 32
  wrote : BitVec 32
  ready : Nat
  scoreboarded : Bool
  old : Old
  read : Nat
  deriving DecidableEq, Repr

/-- What a fibre waits for (R213). -/
inductive Wait where
  /-- Team arrival at the word `bits` (R52), with the operand values it presents (R159). -/
  | arrive (bits : Word) (ops : List Word)
  /-- Release of barrier `n` from the phase it had at arrival (R61). -/
  | barPhase (n : Nat) (phase : Bool)
  /-- Completion of the signature on convergence register `cv` (R59, R159). -/
  | signed (cv : Nat)
  /-- ec[cls] ≤ threshold (R62). -/
  | waitc (cls threshold : Nat)
  /-- A CTRWAIT word, and whether this fibre's condition has been met (R63). -/
  | ctr (bits : Word) (met : Bool)
  /-- The commands, by number, that a DRAIN waits for (R146). -/
  | drain (cmds : List Nat)
  /-- A power token (R205), with the register that receives 1 and whether this fibre is active. -/
  | token (vd : Nat) (act : Bool)
  /-- Room in the trap queue for a SYSCALL (R68). -/
  | sysq
  /-- Acceptance of command `id` (R267). -/
  | accept (id : Nat)
  /-- Completion of the class 5 operation `id` (R199, R202, R203, R349), and whether this fibre is active. -/
  | proc (id : Nat) (act : Bool)
  /-- An event of the S-lane (R204). -/
  | wfi
  deriving DecidableEq, Repr

/-- One lane slot of a team (R213): its fibre's program counter, the header of the clause that the counter stands in,
predicates, state, and its path's stall timing (R16, R20). `parkDue` marks a fibre that parks at its next clause header
(R161); `last` that the word a fibre waits at is the last of its clause. -/
structure Lane where
  live : Bool
  pc : Nat
  hpc : Nat
  pred : BitVec 16
  parked : Bool
  parkDue : Bool
  wait : Option Wait
  earliest : Nat
  stall3 : Bool
  last : Bool
  deriving DecidableEq, Repr

/-- A region (R53, R55): its number, the PC of its REGION word, its graft role, entry PC, live-in mask, LOOP counter
register and parameter slot. -/
structure Region where
  id : Nat
  at_ : Nat
  entered : Bool
  role : Nat
  pc : Nat
  livein : Word
  ctr : Nat
  slot : Nat
  deriving DecidableEq, Repr

/-- Team states (Table 09.4). -/
inductive TeamSt where
  | running
  | halted
  | ending
  | ended
  deriving DecidableEq, Repr

/-- What a path fetches from (R14, R388, R419): the code buffer of a handle, the image of the pair of producer `prod` in a
graft unit's slot, or physical memory. -/
inductive CodeSrc where
  | buffer (handle : Nat)
  | image (unit slot prod : Nat)
  | phys
  deriving DecidableEq, Repr

/-- A SYSCALL whose results are awaited (R68): the destination register, per posted lane the result once posted, and the
fibres that it parked. -/
structure SysWait where
  vd : Nat
  results : List (Nat × Option Word)
  resume : BitVec 32
  deriving DecidableEq, Repr

/-- A team (R208–R215). `saved` tells that CTXSV has saved it since it was halted, and `endAt` is then the clk from which it
can retire (log 84), else the clk at which it ended. `slane` is false in every stored team: it marks the view of an S-lane
context as a team whose only fibre sits in lane 0 (R78). `uid` names the team for the entries that outlive it. -/
structure Team where
  slane : Bool
  uid : Nat
  copse : Nat
  lseq : Nat
  asid : Nat
  priv : Nat
  tno : Nat
  stage : Nat
  code : CodeSrc
  wbase : Nat
  wsize : Nat
  st : TeamSt
  lanes : List Lane
  regs : List (Nat × VReg)
  guards : List (Nat × Nat)
  scale : List (Nat × BitVec 128)
  flags : BitVec 7
  estat : List (Nat × Word)
  region : Option Region
  age : Nat
  hold : Option (Nat × List Nat)
  pend : List Pend
  sys : List SysWait
  endAt : Nat
  saved : Bool
  deriving DecidableEq, Repr

/-- A clause on a fetch port (R9, R12): the fibres of the path, the header's offset, the words not yet issued with the
index of the next, the header, and the PC of the word that issues next. -/
structure Clause where
  slot : Nat
  lanes : BitVec 32
  hpc : Nat
  header : Word
  idx : Nat
  words : List Word
  deriving DecidableEq, Repr

/-- One S-lane context (R189–R195, R419, R420) with its register bank, its path's lane record and its own counters'
status words. `code` is S.CODE, `fetch` the code source in effect since the last control transfer. -/
structure SCtx where
  regs : List (Nat × Word)
  lane : Lane
  pend : List Pend
  trap : Bool
  epc : Word
  tvec : Word
  cause : Word
  imask : Word
  flags : BitVec 7
  code : Nat
  fetch : CodeSrc
  spc : Nat
  stopped : Bool
  stopCause : Nat
  pend11 : Bool
  tqstat : Nat
  timercmp : Word
  admits : Bool
  estat : List (Nat × Word)
  clause : Option Clause
  deriving DecidableEq, Repr

/-- Convergence register (R59, Table 10.4): idle, or collecting a WORD with the operand values presented, a MASK and an
ARRIVED set. -/
structure Cv where
  collecting : Bool
  word : Word
  ops : List Word
  mask : BitVec 16
  arrived : BitVec 16
  deriving DecidableEq, Repr

/-- Barrier (R61). -/
structure Bar where
  expected : Nat
  arrived : Nat
  phase : Bool
  deriving DecidableEq, Repr

/-- Copse states (Table 09.7). A free copse is not listed. -/
inductive CopseSt where
  | carving
  | resident
  | retiring
  deriving DecidableEq, Repr

/-- A copse on a core (R208, R219, R262): its launch, its place in the grid, its team slots in team order, its
allotments as (offset, length), its gang as (first copse's linear index, size, position), and its shared registers. -/
structure Copse where
  id : Nat
  lseq : Nat
  asid : Nat
  priv : Nat
  x : Nat
  y : Nat
  z : Nat
  gx : Nat
  gy : Nat
  gz : Nat
  st : CopseSt
  slots : List Nat
  wallot : Nat × Nat
  aallot : Nat × Nat
  callot : Nat × Nat
  sram : Nat × Nat
  gang : Option (Nat × Nat × Nat)
  cv : List (Nat × Cv)
  bar : List (Nat × Bar)
  deriving DecidableEq, Repr

/-- Who counts an engine command: a team slot of the core, or an S-lane context (R155, R159). -/
inductive Issuer where
  | team (slot : Nat)
  | ctx (c : Ctx)
  deriving DecidableEq, Repr

/-- How a command failed (Table 06.3, R150). -/
structure CmdFail where
  detail : Nat
  cause : Nat
  aux : Nat
  devid : Nat
  deriving DecidableEq, Repr

/-- Where an accepted command stands (R65, R267, R401, R414, R417): held on its guard slots, in its queue, started,
its data landed, its message sent, in phase 0–3 of a collective with the epoch and base of its counter, finished (with
its failure, if any) and waiting for its place in issue order, discarded and waiting likewise, suspended for a save
(R330), when it no longer counts, or held and set aside while its team is saved (Table 18.5). -/
inductive CmdSt where
  | held
  | queued
  | started
  | landed
  | sent (key : MsgKey)
  | coll (phase base : Nat)
  | done (fail : Option CmdFail)
  | discarded
  | suspended
  | aside
  deriving DecidableEq, Repr

/-- An accepted engine command (R147, R157, R266): its word, the operand values VD, VA, VB, VC read at issue, captured
lanes (R149, R172), its guard slot, the regions of its issuers inside which it was issued (R330), its issuer's ASID and world, and the
AUX and FALLBACK results that its completion reports (R185). `progress` is how far a copy that has started has come: bytes
of a DCOPY's only row, rows, or elements (R330), which packets of a put have landed (R314), or the decompression engine of an
SREAD, less one (R354); `failed` is the failure of its lowest failing element so far (R180), `accepted` the clk of its
acceptance (R276). -/
structure Cmd where
  id : Nat
  cls : Nat
  issuers : List Issuer
  uids : List Nat
  bits : Word
  ops : List Word
  capt : List Word
  guard : Option Nat
  regions : List Nat
  st : CmdSt
  asid : Nat
  world : Bool
  pc : Nat
  aux : Option Nat
  fallback : Bool
  progress : Nat
  failed : Option CmdFail
  accepted : Nat
  deriving DecidableEq, Repr

/-- The address part of a fault (R323): ASID, handle, offset, access kind (Table 18.4 ACC) and offset / P (R324). -/
structure FaultAddr where
  asid : Nat
  handle : Nat
  offset : Nat
  acc : Nat
  page : Nat
  deriving DecidableEq, Repr

/-- A fault record of one fibre (R323), with the word (Table 18.4 WORD, REG), BRK's code, and the 3-bit transfer code of
R44 (0 where the word is no transfer word), and what its entry says of its team: the launch and the PC in that launch's
code (R326, R390), whether the team has M privilege, and whether a save has ended it (R241). -/
structure FaultRec where
  slot : Nat
  uid : Nat
  lane : Nat
  pc : Nat
  cause : Nat
  addr : Option FaultAddr
  word : Word
  reg : Nat
  code : Nat
  transfer : Nat
  lseq : Nat
  opc : Nat
  toM : Bool
  ended : Bool
  deriving DecidableEq, Repr

/-- A fault-buffer entry (R324): the clk of its creation and the records merged into it. -/
structure FaultEntry where
  created : Nat
  recs : List FaultRec
  deriving DecidableEq, Repr

/-- Trap-queue entry states (Table 07.5). -/
inductive TqSt where
  | free
  | pending
  | taken
  deriving DecidableEq, Repr

/-- A trap-queue entry (R326, Table 18.3), with the context it belongs to, its place in posting order, and the team it
names. -/
structure TqEntry where
  st : TqSt
  gen : Nat
  cause : Nat
  slot : Nat
  uid : Nat
  toM : Bool
  seq : Nat
  fmask : BitVec 32
  info : BitVec 32
  pc : Nat
  lseq : Nat
  opc : Nat
  operands : List Byte
  ended : Bool
  deriving DecidableEq, Repr

/-- A holder of a core's power token (R205). -/
inductive Holder where
  | copse (id : Nat)
  | ctx (core : Nat) (c : Ctx)
  deriving DecidableEq, Repr

/-- A line of an L2 (R292, R296): its bytes, its dirty mask, its class and the time of its latest use. -/
structure Line where
  data : BitVec 1024
  dirty : BitVec 128
  cls : Nat
  used : Nat
  deriving DecidableEq, Repr

/-- What an L1 keeps of a line, whose bytes are those of its die's L2 (R293): its class and the time of its latest use
(R296). -/
structure L1Line where
  cls : Nat
  used : Nat
  deriving DecidableEq, Repr

/-- A multicast copy in a router's holding buffer (R400). -/
structure HeldCopy where
  branch : Nat
  id : Nat
  cls : Nat
  flits : Nat
  deriving DecidableEq, Repr

/-- A packet that waits at a mesh link (R397). -/
structure LinkPacket where
  id : Nat
  cls : Nat
  flits : Nat
  deriving DecidableEq, Repr

/-- An output link of a mesh router (R397): the packets that wait at it in the order in which they reached it, the deficit of
each class, and the class that each group serves. -/
structure MeshLink where
  queue : List LinkPacket
  deficit : List (Nat × Nat)
  ctl : Nat
  bulk : Nat
  deriving DecidableEq, Repr

/-- A cross-lane word of a quadrant whose result is still to be delivered: the clk of its delivery, and its bound of Table
03.5 (R93). -/
structure Crossing where
  quad : Nat
  ready : Nat
  bound : Nat
  deriving DecidableEq, Repr

/-- One core with its S-lane, quadrants, engines' commands, fault buffer, trap queue and mesh router. `lastU` is the
U-privilege address space whose copses last used its typed buffers (R263), `residency` the clk at which the residency
counter was last 0 (R224), `portAt` the clk from which each fetch port, and with number 8 the S-lane's, can issue again (a
port issues one word per clk, R16, R218), `idlePorts` those that are to stay idle until the quadrant's next choice (R216).
`credit` counts the mesh packets that each branch (by class: branch × 8 + class) has taken without a credit back, and `mcWait`
are the packets that wait whole at the router's inputs (R399, R400). -/
structure Core where
  released : Bool
  sctx : SCtx
  mctx : SCtx
  lastTurn : Ctx
  stallchk : Bool
  deadmode : Bool
  teams : List (Nat × Team)
  copses : List Copse
  ports : List (Nat × Clause)
  idlePorts : List Nat
  portAt : List (Nat × Nat)
  crossing : List Crossing
  cmds : List Cmd
  toAccept : List Cmd
  eprog : List (Nat × List (BitVec 32))
  ereg : List (Nat × BitVec 32)
  faults : List FaultEntry
  waiting : List FaultRec
  tq : List (Nat × TqEntry)
  tqWait : List TqEntry
  residency : Nat
  residencyPosted : Bool
  holders : List Holder
  lastU : Option Nat
  l1 : List (Nat × L1Line)
  icache : List (Nat × Word)
  meshW : List (Nat × Nat)
  credit : List (Nat × Nat)
  mcWait : List MeshPacket
  mcHeld : List HeldCopy
  mcPeak : Nat
  mcSent : List (Nat × Nat)
  links : List (Nat × MeshLink)
  deriving DecidableEq, Repr

/-- A strong write not yet propagated to its home (R308): the die, the line and the bytes, and its issuer. -/
structure Propagation where
  die : Nat
  line : Nat
  bytes : BitVec 128
  agent : Agent
  deriving DecidableEq, Repr

/-- A non-temporal store not yet performed in memory (R312): the bytes still to come, and the 32-byte sectors that the one
write covers whole, which it makes good as their last bytes are performed (R301). -/
structure NtStore where
  agent : Agent
  die : Nat
  bytes : List Host.Cell
  whole : List Nat
  deriving DecidableEq, Repr

/-- A cached buffer-table entry (R284): its four first words. -/
structure BteCache where
  asid : Nat
  handle : Nat
  words : List Word
  deriving DecidableEq, Repr

/-- A cached translation (R286): the page of a handle, the log2 of its size, and the physical frame with the profile that
mapped it. -/
structure PageCache where
  asid : Nat
  handle : Nat
  shift : Nat
  page : Nat
  frame : Nat
  profile : Word
  deriving DecidableEq, Repr

/-- A class 5 operation that a path waits for: a TLBINV, started or not, with its IMM20, VA and VL (R199), the halt of some
team slots of a core (R202), the save of a context (R203), a swap waiting for its die (R349). -/
inductive ProcKind where
  | tlbinv (started : Bool) (imm : Nat) (va vl : Word)
  | park (core : Nat) (slots : List Nat)
  | ctxsv (core slot : Nat) (whole : Bool) (addr : Word) (vd : Nat)
  | swap (value : Word)
  deriving DecidableEq, Repr

structure Proc where
  id : Nat
  agent : Agent
  kind : ProcKind
  deriving DecidableEq, Repr

/-- A message that the put engine keeps until its ACK or REFUSE (R414). `trims` counts RREQs per packet. -/
structure TxMsg where
  key : MsgKey
  core : Nat
  cmd : Nat
  pkts : List Packet
  ordered : Bool
  sentAt : Nat
  timeouts : Nat
  trims : List (Nat × Nat)
  port : Nat
  world : Bool
  rank : Nat
  deriving DecidableEq, Repr

/-- States of a received message (R409, R413). -/
inductive RxSt where
  | open_
  | landed
  | complete
  | failed (cause : Nat)
  deriving DecidableEq, Repr

/-- An assembly record (R409): the offsets of the packets landed, the message's header as first received, its state,
the port and PATH of the packet that landed last, and when it completed. -/
structure RxMsg where
  key : MsgKey
  head : Packet
  landed : List (Nat × Nat)
  st : RxSt
  port : Nat
  path : Bool
  doneAt : Nat
  deriving DecidableEq, Repr

/-- A hole of a port's hole table (R410); `requested` is the time of its RREQ. -/
structure Hole where
  port : Nat
  key : MsgKey
  psn : Nat
  poff : Nat
  olen : Nat
  path : Bool
  openAt : Nat
  requested : Option Nat
  deriving DecidableEq, Repr

/-- A token bucket of a port for a source (R411): its tokens at time `at_`, and the time of its last RREQ. -/
structure Bucket where
  port : Nat
  src : Nat
  tokens : Nat
  at_ : Nat
  lastReq : Nat
  deriving DecidableEq, Repr

/-- A packet in a port's egress queues (R408) with its IPv6 length, and the kind of traffic as which it crossed the mesh to
the port, where it did (R404). -/
structure Egress where
  port : Nat
  class0 : Bool
  bytes : Nat
  pkt : Packet
  mesh : Option Traffic
  deriving DecidableEq, Repr

/-- A packet that waits at the ingress of a port with credit-based flow control for room at an egress port (R408). -/
structure Ingress where
  port : Nat
  egress : Nat
  pkt : Packet
  deriving DecidableEq, Repr

/-- The next MSG and PSN of a sending flow (R406). -/
structure TxFlow where
  dst : Nat
  flow : Nat
  msg : Nat
  psn : Nat
  deriving DecidableEq, Repr

/-- A grafted image (R387–R389): its launch pair, its bytes as words, and the provenance of each word as (consumer's?,
original offset). -/
structure Image where
  prod : Nat
  cons : Nat
  words : List Word
  origin : List (Bool × Nat)
  deriving DecidableEq, Repr

/-- One cluster in a shadow slot (R333, Table 18.6): its cores by position, and the cells of its typed buffers by
position and of its cluster SRAM. -/
structure Shadow where
  cores : List (Nat × Core)
  wbuf : Cells
  abuf : Cells
  cbuf : Cells
  sram : Cells
  bad : List CheckUnit
  deriving DecidableEq, Repr

/-- The messages of an attestation exchange that a signature is still to cover (R344): those of version, capabilities and
algorithms, those of certificates since, and the measurements since. -/
structure Transcript where
  vca : List Byte
  certs : List Byte
  meas : List Byte
  deriving DecidableEq, Repr

/-- A rank of a collective that has begun on this device (R181, R182): its command, the DRAM location of its arrival counter
and its base (R417; none where its counter could not be read), and whether it failed. -/
structure CollRank where
  core : Nat
  cmd : Nat
  place : Nat
  base : Option Nat
  lost : Bool
  deriving DecidableEq, Repr

/-- What the save area of a team or copse does not hold (R240, R243) and CTXLD needs: the area's address space and
address, the core, the copse as it stood, the code its teams run, and per team number what each lane waited for. -/
structure Saved where
  asid : Nat
  addr : Word
  core : Nat
  copse : Copse
  code : CodeSrc
  waits : List (Nat × List (Option Wait))
  deriving DecidableEq, Repr

/-- A swap under way (R333, R349). -/
structure Swap where
  slot : Nat
  cluster : Nat
  dirIn : Bool
  deriving DecidableEq, Repr

/-- A flash transfer under way (R343): command, offset, length in bytes and memory address, and what it found. -/
structure FlashOp where
  core : Nat
  cmd : Nat
  offset : Nat
  length : Nat
  addr : Word
  error : Bool
  protectedHit : Bool
  deriving DecidableEq, Repr

/-- The flash header (R339, R343): whether slot B is preferred, the offset, length and SVN of slots A and B, and the
sequence number of its current copy. -/
structure FlashHeader where
  prefersB : Bool
  slots : List (Nat × Nat × Nat)
  seq : Nat
  deriving DecidableEq, Repr

/-- A waiting token request, in arrival order (R205). -/
structure TokenReq where
  core : Nat
  holder : Holder
  agent : Option Agent
  since : Nat
  flagged : Bool
  deriving DecidableEq, Repr

/-- A launch that waits for its graft decision or its turn at the graft unit (R376): its LSEQ, ASID, priority and the
core whose LAUNCH it was. -/
structure GraftPending where
  lseq : Nat
  asid : Nat
  prio : Nat
  core : Nat
  at_ : Nat
  partner : Option Nat
  deriving DecidableEq, Repr

/-- Where the next word comes from when no event is due: a fetch port of a core, or an S-lane context. -/
inductive Cursor where
  | port (core p : Nat)
  | lane (core : Nat) (c : Ctx)
  deriving DecidableEq, Repr

/-- The package. `header` is the flash header as the device last rewrote it, none while it is as it was made (R343);
`nvmeUp` the ports whose controllers storage initialisation found ready (R353); `transcript` the messages of the current
attestation exchange (R344); `wire` the last frame that each Ethernet port has sent (R403). -/
structure State where
  now : Nat
  tick : Nat
  agenda : List Instr
  cursor : Cursor
  dram : Cells
  wbuf : Cells
  abuf : Cells
  cbuf : Cells
  sram : Cells
  bad : List CheckUnit
  l2 : List (Nat × Line)
  props : List Propagation
  nt : List NtStore
  btc : List BteCache
  ptc : List PageCache
  procs : List Proc
  nextId : Nat
  cores : List (Nat × Core)
  regs : List (Nat × Word)
  aged : Option Nat
  slackDone : List (Nat × Nat)
  lworld : List (Nat × Bool)
  unitSince : List (Nat × Nat)
  gone : List (Nat × Nat)
  grafts : List GraftPending
  images : List (Nat × Image)
  tokens : List TokenReq
  flash : Cells
  header : Option FlashHeader
  fuseSvn : Nat
  keys : BitVec 3
  recovery : Bool
  booted : Bool
  worldFaults : Nat
  worldRaised : Bool
  worldStart : Nat
  lines : BitVec 8
  flashOp : Option FlashOp
  shadows : List (Nat × Shadow)
  swaps : List Swap
  saves : List Saved
  hostOut : List Host.Cell
  replies : List (List Byte)
  transcript : Transcript
  nvmeFatal : BitVec 4
  nvmeUp : BitVec 4
  tx : List TxMsg
  txFlows : List TxFlow
  rx : List RxMsg
  rxLow : List (Nat × Nat × Nat)
  holes : List Hole
  buckets : List Bucket
  egress : List Egress
  ingress : List Ingress
  wire : List (Nat × List Byte)
  ranks : List CollRank
  deriving DecidableEq, Repr

/-- A lane slot that holds no fibre (R213). -/
def freeLane : Lane := ⟨false, 0, 0, 1, false, false, none, 0, false, false⟩

/-- A context of an S-lane at reset (R191, Table 07.6): running, every register 0, TIMER.CMP all ones. `live` is false
while the S-lane stays in reset (R339). -/
def SCtx.reset : SCtx :=
  { regs := [], lane := freeLane, pend := [], trap := false, epc := 0, tvec := 0, cause := 0, imask := 0x800, flags := 0,
    code := 0, fetch := .phys, spc := 0, stopped := false, stopCause := 0, pend11 := false, tqstat := 0,
    timercmp := 0xFFFFFFFFFFFFFFFF, admits := false, estat := [], clause := none }

/-- A core at reset: no team, no command, every trap-queue entry free with generation 0 (R191), its S-lane in reset
until the boot chain releases it (R339). -/
def Core.reset : Core :=
  { released := false, sctx := SCtx.reset, mctx := SCtx.reset, lastTurn := .s, stallchk := false, deadmode := false,
    teams := [], copses := [], ports := [], idlePorts := [], portAt := [], crossing := [], cmds := [], toAccept := [], eprog := [], ereg := [], faults := [],
    waiting := [], tq := [], tqWait := [], residency := 0, residencyPosted := false, holders := [], lastU := none, l1 := [],
    icache := [], meshW := [], credit := [], mcWait := [], mcHeld := [], mcPeak := 0, mcSent := [], links := [] }

/-- The package right after a power-on reset, before the boot chain of R339 has run: every register at the value R191,
R338, R367, R421 give, LQ.SEQ at 0x100 (Table 21.6), and the values that notes/assumptions names for the registers to
which the spec gives none. -/
def State.reset : State :=
  { now := 0, tick := 0, agenda := [], cursor := .lane 0 .m, dram := [], wbuf := [], abuf := [], cbuf := [], sram := [],
    bad := [], l2 := [], props := [], nt := [], btc := [], ptc := [], procs := [], nextId := 1, cores := [],
    regs := [(0x703, 0x100), (0x720, 800)], aged := none, slackDone := [], lworld := [], unitSince := [], gone := [],
    grafts := [], images := [], tokens := [], flash := [], header := none, fuseSvn := 0, keys := 3, recovery := false, booted := false, worldFaults := 0,
    worldRaised := false, worldStart := 0, lines := 0, flashOp := none, shadows := [], swaps := [], saves := [], hostOut := [], replies := [],
    transcript := ⟨[], [], []⟩, nvmeFatal := 0, nvmeUp := 0, tx := [], txFlows := [], rx := [], rxLow := [],
    holes := [], buckets := [], egress := [], ingress := [], wire := [], ranks := [] }

end Sys2Proof.Machine
end

