-- ==== Sys2Proof/Machine/Maps.lean ====
section
/-! DEFINITION. Sparse files: lists of (number, value) pairs in strictly rising order of number, and byte memories in
the one canonical form (rising addresses, no entry equal to the default). -/
namespace Sys2Proof.Machine

/-- The value at a number, where one is listed. -/
def mget? {α : Type} : List (Nat × α) → Nat → Option α
  | [], _ => none
  | (k, v) :: m, n => if k = n then some v else mget? m n

/-- The value at a number, or the default. -/
def mget {α : Type} (m : List (Nat × α)) (d : α) (n : Nat) : α := (mget? m n).getD d

/-- The file with a value at a number. -/
def mset {α : Type} : List (Nat × α) → Nat → α → List (Nat × α)
  | [], n, x => [(n, x)]
  | (k, v) :: m, n, x =>
    if n < k then (n, x) :: (k, v) :: m else if n = k then (n, x) :: m else (k, v) :: mset m n x

/-- The file without a number. -/
def mdel {α : Type} (m : List (Nat × α)) (n : Nat) : List (Nat × α) := m.filter (fun e => e.1 != n)

/-- Rising numbers. -/
def mrising {α : Type} : List (Nat × α) → Bool
  | [] => true
  | [_] => true
  | (j, _) :: (k, v) :: m => j < k && mrising ((k, v) :: m)

/-- A byte of a memory whose unlisted bytes read `d`. -/
def cgetD (d : Byte) (m : Cells) (a : Nat) : Byte := mget m d a

/-- A memory with a byte written, in canonical form. -/
def csetD (d : Byte) (m : Cells) (a : Nat) (b : Byte) : Cells := if b = d then mdel m a else mset m a b

/-- A byte of a memory that reads zero where nothing is listed. -/
def cget (m : Cells) (a : Nat) : Byte := cgetD 0 m a

/-- A memory with a byte written; writing zero removes the entry. -/
def cset (m : Cells) (a : Nat) (b : Byte) : Cells := csetD 0 m a b

/-- The canonical form of a memory whose unlisted bytes read `d`. -/
def Memory.wfD (d : Byte) (m : Cells) : Bool := mrising m && m.all (fun c => c.2 != d)

/-- The canonical form of a memory that reads zero where nothing is listed. -/
def Memory.wf (m : Cells) : Bool := Memory.wfD 0 m

/-- `n` bytes from an address. -/
def cread (m : Cells) (a : Nat) : Nat → List Byte
  | 0 => []
  | n + 1 => cget m a :: cread m (a + 1) n

/-- Consecutive bytes written from an address. -/
def cwrite (m : Cells) (a : Nat) : List Byte → Cells
  | [] => m
  | b :: bs => cwrite (cset m a b) (a + 1) bs

/-- A range of a memory made zero. -/
def cclear (m : Cells) (a n : Nat) : Cells := m.filter (fun c => !(a ≤ c.1 && c.1 < a + n))

/-- The cells of a range, moved to start at 0. -/
def ccut (m : Cells) (a n : Nat) : Cells :=
  (m.filter (fun c => a ≤ c.1 && c.1 < a + n)).map (fun c => (c.1 - a, c.2))

/-- A range replaced by cells that start at 0. -/
def cpaste (m : Cells) (a n : Nat) (part : Cells) : Cells :=
  part.foldl (fun acc c => cset acc (a + c.1) c.2) (cclear m a n)

end Sys2Proof.Machine
end

