-- ==== Sys2Proof/Machine/Ops.lean ====
section
/-! DEFINITION. The named operations on the state: cores, teams and contexts; registers as they read and as they are
written; taking a trap on every kind of issuer; the fault buffer and the trap queue; alarms; and how a word issues and
retires. -/
namespace Sys2Proof.Machine

/-! ### Cause codes (Table 01.11) -/

def cILLEGAL : Nat := 0x01
def cFORMAT : Nat := 0x02
def cDEADREAD : Nat := 0x03
def cUNIFORM : Nat := 0x04
def cLANDING : Nat := 0x05
def cALIGN : Nat := 0x06
def cBOUNDS : Nat := 0x07
def cRIGHTS : Nat := 0x08
def cOWNER : Nat := 0x09
def cWORLD : Nat := 0x0A
def cPAGE : Nat := 0x0B
def cNULLH : Nat := 0x0C
def cSTALL : Nat := 0x0D
def cSIGN : Nat := 0x0E
def cENGINE : Nat := 0x0F
def cSYSCALL : Nat := 0x10
def cBRK : Nat := 0x11
def cPRIV : Nat := 0x12
def cRESIDENCY : Nat := 0x13
def cQUEUE : Nat := 0x14
def cTIMER : Nat := 0x15
def cINTERRUPT : Nat := 0x16
def cMEMERR : Nat := 0x17
def cALARM : Nat := 0x18

/-- The cause code of a decode rejection. -/
def rejectCause : Reject → Nat
  | .illegal => cILLEGAL
  | .priv => cPRIV
  | .format => cFORMAT

/-! ### Cores, teams, contexts, device registers -/

def State.core (s : State) (c : Nat) : Core := mget s.cores Core.reset c
def State.setCore (s : State) (c : Nat) (x : Core) : State := { s with cores := mset s.cores c x }
def State.modCore (s : State) (c : Nat) (f : Core → Core) : State := s.setCore c (f (s.core c))

/-- A device-wide register's stored value; a register that is not listed holds 0 (R338, R421). -/
def State.reg (s : State) (n : Nat) : Nat := (mget s.regs 0 n).toNat
def State.setReg (s : State) (n : Nat) (v : Nat) : State := { s with regs := mset s.regs n (BitVec.ofNat 64 v) }

def Core.team? (c : Core) (slot : Nat) : Option Team := mget? c.teams slot
def Core.setTeam (c : Core) (slot : Nat) (t : Team) : Core := { c with teams := mset c.teams slot t }
def Core.ctx (c : Core) : Ctx → SCtx
  | .s => c.sctx
  | .m => c.mctx
def Core.setCtx (c : Core) (k : Ctx) (x : SCtx) : Core :=
  match k with
  | .s => { c with sctx := x }
  | .m => { c with mctx := x }

def dieOf (core : Nat) : Nat := core / 64
def clusterOf (core : Nat) : Nat := core / 8

/-- A core's world (SEC.CWORLDn, Table 19.2). -/
def State.world (s : State) (core : Nat) : Bool := (s.reg (0x800 + core / 64)).testBit (core % 64)

/-- A core withdrawn from service (SEC.CDISn, Table 19.2). -/
def State.withdrawn (s : State) (core : Nat) : Bool := (s.reg (0x810 + core / 64)).testBit (core % 64)

/-- A fresh number for a command, a team or an operation. -/
def State.fresh (s : State) : Nat × State := (s.nextId, { s with nextId := s.nextId + 1 })

/-- An event put at the end of the agenda. -/
def State.later (s : State) (i : Instr) : State := { s with agenda := s.agenda ++ [i] }

/-- The lane of a team. -/
def Team.lane (t : Team) (i : Nat) : Lane := nth t.lanes freeLane i
def Team.setLane (t : Team) (i : Nat) (l : Lane) : Team := { t with lanes := t.lanes.set i l }
def Team.modLanes (t : Team) (m : BitVec 32) (f : Nat → Lane → Lane) : Team :=
  { t with lanes := (List.range 32).map (fun i => if m.getLsbD i then f i (t.lane i) else t.lane i) }

def Team.liveMask (t : Team) : BitVec 32 := maskOf (fun i => (t.lane i).live)
def Team.freeRunMask (t : Team) : BitVec 32 := maskOf (fun i => (t.lane i).live && !(t.lane i).parked)
def Team.parkedMask (t : Team) : BitVec 32 := maskOf (fun i => (t.lane i).live && (t.lane i).parked)

/-- The region in which a team stands. The words after REGION in its own clause lie before its region (R53). -/
def Team.openRegion (t : Team) : Option Region := t.region.filter (fun r => r.entered)

/-! ### Registers (R227–R235) -/

/-- A vector register of a team; one that is not listed is dead. On the S-lane every register holds an untagged value
(R78), 0 where nothing is listed; s0 reads as 0. -/
def Team.reg (t : Team) (n : Nat) : VReg :=
  if t.slane && n == 0 then ⟨31, 0, .uniform 0⟩ else mget t.regs (if t.slane then ⟨31, 0, .uniform 0⟩ else ⟨0, 0, .dead⟩) n

/-- The lane value of a payload under a format (R231, Table 10.3). -/
def payLane (fmt : Nat) (p : Pay) (i : Nat) : Word :=
  match p with
  | .dead => 0
  | .uniform p => p
  | .affine b st =>
    if fmt = 5 ∨ fmt = 6 then
      ofSubs 32 [b.toNat + 2 * i * st.toNat, b.toNat + (2 * i + 1) * st.toNat]
    else b + BitVec.ofNat 64 (i * st.toNat)
  | .general l => nth l 0 i

/-- The lane value of a register (R231); 0 for a dead one (R235, CORE.DEADMODE 0). -/
def VReg.lane (r : VReg) (i : Nat) : Word := payLane r.fmt r.pay i

def VReg.isDead (r : VReg) : Bool :=
  match r.pay with
  | .dead => true
  | _ => false

def VReg.isUniform (r : VReg) : Bool :=
  match r.pay with
  | .uniform _ => true
  | _ => false

/-- SHAPE (Table 10.1). -/
def VReg.shape (r : VReg) : Nat :=
  match r.pay with
  | .dead => 0
  | .uniform _ => 1
  | .affine _ _ => 2
  | .general _ => 3

/-- The 12-bit tag (Table 10.1); 0 for a dead register (R228). -/
def VReg.tag (r : VReg) : Nat := if r.isDead then 0 else r.link * 128 + r.shape * 32 + r.fmt

/-- The register with a whole content; a write to s0 is discarded (R78). -/
def Team.setReg (t : Team) (n : Nat) (r : VReg) : Team :=
  if t.slane && n == 0 then t
  else if t.slane then { t with regs := mset t.regs n ⟨31, 0, .uniform (r.lane 0)⟩ }
  else if r.isDead then { t with regs := mdel t.regs n }
  else { t with regs := mset t.regs n r }

/-- A register made dead (R228, R234). -/
def Team.kill (t : Team) (n : Nat) : Team :=
  if t.slane then t
  else { t with regs := mdel t.regs n, pend := t.pend.filter (fun p => p.dst != .vreg n) }

def Team.scaleReg (t : Team) (n : Nat) : BitVec 128 := mget t.scale 0x7F7F7F7F7F7F7F7F7F7F7F7F7F7F7F7F n
def Team.setScale (t : Team) (n : Nat) (x : BitVec 128) : Team := { t with scale := mset t.scale n x }
/-- Byte `b` of a scale register. -/
def scaleByte (x : BitVec 128) (b : Nat) : Nat := (x.toNat >>> (8 * b)) % 256
/-- A scale register from its bytes; the bytes beyond them are 0 (R118). -/
def scaleOf (bs : List Nat) : BitVec 128 := BitVec.ofNat 128 (ofLe (bs.map (BitVec.ofNat 8)))

/-- A guard slot: 0 true, 1 false, 2 unresolved (Table 10.4). -/
def Team.guardSlot (t : Team) (n : Nat) : Nat := mget t.guards 0 n
def Team.estatus (t : Team) (c : Nat) : Word := mget t.estat 0 c

/-- Set sticky flags (R104). -/
def Team.setFlags (t : Team) (f : Nat) : Team := { t with flags := t.flags ||| BitVec.ofNat 7 f }

/-! ### The word being issued -/

/-- What a word knows of its issue: its core and agent, its path's lanes and the active ones, its PC and its clause's
header, the clk, the modes in force, and whether it is the last word of its clause. -/
structure Iss where
  core : Nat
  agent : Agent
  lanes : BitVec 32
  act : BitVec 32
  pc : Nat
  hpc : Nat
  clk : Nat
  deadmode : Bool
  final : Bool
  bits : Word
  deriving DecidableEq, Repr

/-- A trap of one fibre (R38, R323). -/
structure Trap where
  cause : Nat
  addr : Option FaultAddr := none
  reg : Nat := 0
  code : Nat := 0
  transfer : Nat := 0
  deriving DecidableEq, Repr

/-- What a word does: the state (the issuing team apart), the team, the fibres that trap, the wait its path enters, and
the fibres that transfer with their targets. -/
structure Res where
  s : State
  t : Team
  traps : List (Nat × Trap) := []
  wait : Option Wait := none
  moves : List (Nat × Nat) := []
  deriving DecidableEq, Repr

/-- Every fibre of a mask traps alike. -/
def trapAll (m : BitVec 32) (x : Trap) : List (Nat × Trap) := (lanesOf m).map (fun i => (i, x))

/-- The result that has no effect but traps. -/
def resTrap (s : State) (t : Team) (m : BitVec 32) (cause : Nat) : Res :=
  { s := s, t := t, traps := trapAll m { cause := cause } }

/-- The first register of a list that is dead, with CORE.DEADMODE 1 (R235, R38). -/
def deadOf (iss : Iss) (v : Team) (rs : List Nat) : Option Nat :=
  if iss.deadmode then rs.find? (fun n => (v.reg n).isDead) else none

/-- R77: active(t) holds every live fibre of the team and none is parked. -/
def compactOk (iss : Iss) (t : Team) : Bool := t.liveMask &&& ~~~iss.act == 0 && t.parkedMask == 0

/-- The path holds every live, unparked fibre of its team (R53). -/
def holdsRunning (iss : Iss) (t : Team) : Bool := t.freeRunMask &&& ~~~iss.lanes == 0

/-- R121, R327: the path holds every live fibre of its team. A parked fibre makes a whole-team word raise UNIFORM, as R327
says, though R121's own words count unparked fibres only (DEDUCED, log 83). -/
def wholeTeam (iss : Iss) (t : Team) : Bool := t.liveMask &&& ~~~iss.lanes == 0

/-- The lowest lane of a mask. -/
def lowest (m : BitVec 32) : Nat := ((lanesOf m).head?).getD 0

/-- Whether a function of the lane is equal across a mask. -/
def equalOver (m : BitVec 32) (f : Nat → Word) : Bool := (lanesOf m).all (fun i => f i == f (lowest m))

/-- The shape a result wants (R76, R103). -/
inductive Want where
  | uniform
  | affine (base stride : Word)
  | general
  deriving DecidableEq, Repr

/-- A result written to a register with its tag: compact where R77 allows it, else to the lanes of active(t), the other
lanes keeping their values (R77, R229). -/
def writeReg (iss : Iss) (t : Team) (n fmt link : Nat) (want : Want) (val : Nat → Word) : Team :=
  let old := t.reg n
  let gen : Pay :=
    .general ((List.range 32).map (fun i => if iss.act.getLsbD i then val i else old.lane i))
  let pay : Pay :=
    if compactOk iss t && iss.act != 0 then
      match want with
      | .uniform => .uniform (val (lowest iss.act))
      | .affine b st => .affine b st
      | .general => gen
    else gen
  if iss.act = 0 then t else t.setReg n ⟨fmt, link, pay⟩

/-- All 32 lanes of a register written (R99, R121). -/
def writeAll (t : Team) (n fmt link : Nat) (val : Nat → Word) : Team :=
  t.setReg n ⟨fmt, link, .general ((List.range 32).map val)⟩

/-- A predicate written in the lanes of a mask; a write to p0 is discarded (R42). -/
def writePred (t : Team) (m : BitVec 32) (p : Nat) (val : Nat → Bool) : Team :=
  if p = 0 then t
  else t.modLanes m (fun i l =>
    { l with pred := if val i then l.pred ||| BitVec.twoPow 16 p else l.pred &&& ~~~BitVec.twoPow 16 p })

/-- A predicate of a fibre; p0 reads as true (R42). -/
def Team.pred (t : Team) (i p : Nat) : Bool := p == 0 || (t.lane i).pred.getLsbD p

/-! ### S-lane contexts seen as teams (R78) -/

def asTeam (c : Core) (k : Ctx) : Team :=
  let x := c.ctx k
  { slane := true, uid := 0, copse := 0, lseq := 0, asid := if k = .m then 0 else 1, priv := if k = .m then 2 else 1,
    tno := 0, stage := 0, code := x.fetch, wbase := 0, wsize := 64, st := .running,
    lanes := x.lane :: List.replicate 31 freeLane, regs := x.regs.map (fun p => (p.1, ⟨31, 0, .uniform p.2⟩)),
    guards := [], scale := [], flags := x.flags, estat := x.estat, region := none, age := 0, hold := none,
    pend := x.pend, sys := [], endAt := 0, saved := false }

def ofTeam (c : Core) (k : Ctx) (t : Team) : Core :=
  let x := c.ctx k
  c.setCtx k { x with
    lane := t.lane 0, regs := t.regs.map (fun p => (p.1, p.2.lane 0)), flags := t.flags, estat := t.estat,
    pend := t.pend }

def State.teamOf (s : State) : Agent → Option Team
  | .team c slot => (s.core c).team? slot
  | .ctx c k => some (asTeam (s.core c) k)

def State.putTeam (s : State) (a : Agent) (t : Team) : State :=
  match a with
  | .team c slot => s.modCore c (fun x => x.setTeam slot t)
  | .ctx c k => s.modCore c (fun x => ofTeam x k t)

def agentCore : Agent → Nat
  | .team c _ => c
  | .ctx c _ => c

/-! ### Alarms (R347) -/

/-- An alarm event: its cause is latched, the count rises, and the cause's policy is applied. -/
def raiseAlarm (s : State) (cause : Nat) : State :=
  let log := s.reg 0x806
  let s := s.setReg 0x806 ((log % 32 ||| 2 ^ cause) + 256 * min 255 (log / 256 % 256 + 1))
  let pol := bits (s.reg 0x805) (2 * cause + 1) (2 * cause)
  if pol = 0 then s
  else
    let s := if pol = 2 then { s with keys := 4 } else s
    { s with agenda := .alarmReset :: s.agenda }

/-! ### The trap queue (R323–R328) -/

def freeEntry : TqEntry :=
  { st := .free, gen := 0, cause := 0, slot := 0, uid := 0, toM := false, seq := 0, fmask := 0, info := 0, pc := 0,
    lseq := 0, opc := 0, operands := [], ended := false }

def Core.tqAt (c : Core) (i : Nat) : TqEntry := mget c.tq freeEntry i

/-- The indices of free entries, lowest first. -/
def Core.tqFree (c : Core) : List Nat := (List.range 64).filter (fun i => (c.tqAt i).st == .free)

/-- An entry posted into a free index: its generation rises by 1 (R189's Table 07.5). -/
def Core.tqPut (c : Core) (i : Nat) (e : TqEntry) (seq : Nat) : Core :=
  { c with tq := mset c.tq i { e with st := .pending, gen := ((c.tqAt i).gen + 1) % 256, seq := seq } }

/-- Post an entry into one of the free indices (which one is free), or let its source wait while the queue is full
(R326). -/
def postEntry (s : State) (core : Nat) (e : TqEntry) : State :=
  let c := s.core core
  let (seq, s) := s.fresh
  let free := c.tqFree
  if free.isEmpty then s.setCore core { c with tqWait := c.tqWait ++ [e] }
  else { (s.setCore core (c.tqPut (nth free 0 (Config.freeIndex s.tick % free.length)) e seq)) with tick := s.tick + 1 }

/-- LSEQ and the original PC of a word of a team (R326, R390). -/
def provenance (s : State) (t : Team) (pc : Nat) : Nat × Nat :=
  match t.code with
  | .image u k prod =>
    match (mget? s.images (8 * u + k)).filter (fun im => im.prod == prod) with
    | some im =>
      let (c, o) := nth im.origin (false, 0) (pc / 8)
      (if c then im.cons else im.prod, o)
    | none => (t.lseq, pc)
  | _ => (t.lseq, pc)

/-- The merge key of a fault record (Table 18.2). -/
def faultKey (r : FaultRec) : Nat × Nat × Nat × Option (Nat × Nat × Nat) :=
  if r.transfer != 0 then (r.slot, r.pc, 0, none)
  else (r.slot, r.pc, r.cause, r.addr.map (fun a => (a.asid, a.handle, a.page)))

/-- A fault record enters the fault buffer: it merges, makes an entry, or waits (R324). It does not merge into an entry that a
save has ended (R336). -/
def Core.addFault (c : Core) (now : Nat) (r : FaultRec) : Core :=
  let fits (e : FaultEntry) : Bool :=
    now ≤ e.created + 256 && (match e.recs with
      | x :: _ => faultKey x == faultKey r && x.ended == r.ended
      | [] => false)
  if c.faults.any fits then
    { c with faults := c.faults.map (fun e => if fits e then { e with recs := e.recs ++ [r] } else e) }
  else if c.waiting.isEmpty && c.faults.length < 32 then { c with faults := c.faults ++ [⟨now, [r]⟩] }
  else { c with waiting := c.waiting ++ [r] }

/-- A little-endian field of `n` bytes. -/
def le (n x : Nat) : List Byte := leBytes n x

/-- The 3-bit codes of R44, by lane. -/
def laneCodes (recs : List FaultRec) : Nat :=
  (List.range 32).foldl (fun acc i =>
    match recs.find? (fun x => x.lane == i) with
    | some x => acc + x.transfer * 8 ^ i
    | none => acc) 0

/-- The operand area of a fault entry (Table 18.4). The entry of a transfer word holds R44's lane codes at bytes 48–59
whatever its lowest cause; with ILLEGAL lowest it also holds WORD at bytes 32–39 (DEDUCED: Table 18.4's row for ILLEGAL
has 0 where R44 asks for the codes), and with LANDING lowest, for which Table 18.4 has no row, bytes 32–47 are 0 (DESIGN
CHOICE); both in log 80. -/
def faultOperands (recs : List FaultRec) (r : FaultRec) : List Byte :=
  match r.addr with
  | some a =>
    le 2 a.asid ++ le 2 a.handle ++ le 1 a.acc ++ le 3 0 ++ le 8 a.offset ++
      le 12 (if r.transfer != 0 then laneCodes recs else 0) ++ le 4 0
  | none =>
    if r.transfer != 0 then
      le 8 (if r.cause = cILLEGAL then r.word.toNat else 0) ++ le 8 0 ++ le 12 (laneCodes recs) ++ le 4 0
    else if r.cause = cBRK then le 32 0
    else le 8 r.word.toNat ++ le 1 r.reg ++ le 23 0

/-- The trap-queue entry of a fault-buffer entry (R324, Tables 18.3, 18.4): the lowest lane reports. -/
def entryOf (e : FaultEntry) : TqEntry :=
  let low := e.recs.foldl (fun acc r => match acc with
    | none => some r
    | some x => if r.lane < x.lane then some r else some x) (none : Option FaultRec)
  match low with
  | none => freeEntry
  | some r =>
    { freeEntry with
      cause := r.cause, slot := r.slot, uid := r.uid, toM := r.toM,
      fmask := BitVec.ofNat 32 (e.recs.foldl (fun acc x => acc ||| 2 ^ x.lane) 0),
      info := if r.cause = cBRK then BitVec.ofNat 32 r.code else 0, pc := r.pc, lseq := r.lseq, opc := r.opc,
      operands := faultOperands e.recs r }

/-! ### Taking a trap -/

/-- The trap of an S-lane context (R195): the S context stops at the word and the M context's bit 11 is set; a trap in
the M context latches alarm cause 4 and, under the log policy, enters its handler at once. -/
def ctxTrap (s : State) (core : Nat) (k : Ctx) (pc cause : Nat) : State :=
  match k with
  | .s =>
    s.modCore core (fun c =>
      { c with
        sctx := { c.sctx with spc := pc, stopped := true, stopCause := cause, clause := none,
                              lane := { c.sctx.lane with pc := pc, wait := none } }
        mctx := { c.mctx with pend11 := true } })
  | .m =>
    let log := bits (s.reg 0x805) 9 8 == 0
    let s := raiseAlarm s 4
    s.modCore core (fun c =>
      let m := c.mctx
      let tv := m.tvec.toNat % 2 ^ 48
      if log then
        { c with mctx := { m with
            epc := BitVec.ofNat 64 pc, cause := BitVec.ofNat 64 (cause + 10 * 256), trap := true, clause := none,
            fetch := if m.code = 0 then .phys else .buffer m.code,
            lane := { m.lane with pc := tv, hpc := tv, wait := none } } }
      else { c with mctx := { m with clause := none, lane := { m.lane with live := false } } })

/-- WORLD faults counted, towards alarm cause 2 (R321, R347). -/
def countWorld (s : State) (w : Nat) : State :=
  let s := { s with worldFaults := s.worldFaults + w }
  let th := s.reg 0x807
  if w > 0 ∧ th ≠ 0 ∧ s.worldFaults ≥ th ∧ s.worldRaised = false then raiseAlarm { s with worldRaised := true } 2 else s

/-- Taking the traps of a word: each trapping fibre of a team parks at the word and makes a fault record (R36, R132,
R323); a trap of an S-lane context is that context's (R195). WORLD faults count towards alarm cause 2 (R347). -/
def takeTraps (s : State) (iss : Iss) (t : Team) (traps : List (Nat × Trap)) : State × Team :=
  let s := countWorld s (traps.filter (fun x => x.2.cause == cWORLD)).length
  match iss.agent with
  | .team core slot =>
    let s := traps.foldl (fun s (x : Nat × Trap) =>
      s.modCore core (fun c => c.addFault s.now
        { slot := slot, uid := t.uid, lane := x.1, pc := iss.pc, cause := x.2.cause, addr := x.2.addr, word := iss.bits,
          reg := x.2.reg, code := x.2.code, transfer := x.2.transfer, lseq := (provenance s t iss.pc).1,
          opc := (provenance s t iss.pc).2, toM := t.priv == 2, ended := false })) s
    let t := traps.foldl (fun (t : Team) x =>
      t.setLane x.1 { t.lane x.1 with
        parked := true, pc := if x.2.cause = cBRK then iss.pc + 8 else iss.pc,
        hpc := if x.2.cause = cBRK ∧ iss.final = true then iss.pc + 8 else iss.hpc, wait := none }) t
    (s, t)
  | .ctx core k =>
    match traps with
    | [] => (s, t)
    | (_, x) :: _ => (ctxTrap (s.putTeam iss.agent t) core k iss.pc x.cause, t)

/-! ### Reading too early (R16–R20) -/

/-- Ready times from here on mark results that a command has yet to deliver; the command's number is added. -/
def never : Nat := 2 ^ 62

/-- The writes of a list, oldest first, that are in flight at a clk. A younger write of the same destination that has been
delivered discards an older one in the lanes that it wrote (R19). -/
def inFlight (clk : Nat) : List Pend → List Pend
  | [] => []
  | p :: ps =>
    let left := ps.foldl (fun w q => if q.dst = p.dst ∧ q.ready ≤ clk then w &&& ~~~q.wrote else w) p.wrote
    if p.ready ≤ clk ∨ left = 0 then inFlight clk ps else { p with wrote := left } :: inFlight clk ps

/-- Register `r` in the lanes of a mask and `cur` in the others; `r` itself where the others hold the same. -/
def mixReg (m : BitVec 32) (r cur : VReg) : VReg :=
  if (List.range 32).all (fun i => m.getLsbD i || r.lane i == cur.lane i) then r
  else
    let tag := if r.isDead then cur else r
    ⟨tag.fmt, tag.link, .general ((List.range 32).map (fun i => if m.getLsbD i then r.lane i else cur.lane i))⟩

/-- A team without one write in flight: its destination as before it, in the lanes that it writes. -/
def Pend.undo (p : Pend) (v : Team) : Team :=
  match p.dst, p.old with
  | .vreg n, .vreg r =>
    let r := mixReg p.wrote r (v.reg n)
    if r.isDead then { v with regs := mdel v.regs n } else { v with regs := mset v.regs n r }
  | .pred n, .pred m => writePred v p.wrote n (fun i => m.getLsbD i)
  | .scale n, .scale x => v.setScale n x
  | .guard n, .guard g => { v with guards := mset v.guards n g }
  | _, _ => v

/-- The content that a path reads at a clk: each destination with writes in flight for one of its lanes reads as before
the oldest of them, lane by lane (R19). -/
def staleView (t : Team) (lanes : BitVec 32) (clk : Nat) : Team :=
  (inFlight clk t.pend).foldr (fun p (v : Team) => if p.lanes &&& lanes != 0 then p.undo v else v) t

/-- A guard slot as an engine sees it at a clk: a result in flight is not yet delivered (R17). -/
def Team.guardAt (t : Team) (clk n : Nat) : Nat := (staleView t (BitVec.allOnes 32) clk).guardSlot n

/-- The content of a destination now. -/
def oldOf (t : Team) : Dst → Old
  | .vreg n => .vreg (t.reg n)
  | .pred n => .pred (maskOf (fun i => t.pred i n))
  | .scale n => .scale (t.scaleReg n)
  | .guard n => .guard (t.guardSlot n)

/-- Clk at which every listed destination with a scoreboarded write in flight for the path has been delivered. -/
def readyClk (t : Team) (lanes : BitVec 32) (all : Bool) (ds : List Dst) (clk : Nat) : Nat :=
  t.pend.foldl (fun a p => if (all || p.scoreboarded) && ds.contains p.dst && (p.lanes &&& lanes != 0 || all) then max a p.ready
    else a) clk

/-! ### Storage (R353) -/

/-- The namespaces that the storage map lists for a port: NSID, LBA size and capacity of up to 32 with 512-byte or
4,096-byte LBAs and neither metadata nor protection information. -/
def listed (s : State) (port : Nat) : List (Nat × Nat × Nat) :=
  if s.nvmeUp.getLsbD port then
    (((Config.nvmeNamespaces port).filter (fun n => (n.2.1 == 512 || n.2.1 == 4096) && !n.2.2.2)).map
      (fun n => (n.1, n.2.1, n.2.2.1))).take 32
  else []

/-- The LBA size and capacity of a listed namespace; zero of any other. -/
def namespaceOf (s : State) (port nsid : Nat) : Nat × Nat :=
  match (listed s port).find? (fun n => n.1 == nsid) with
  | some n => n.2
  | none => (0, 0)

end Sys2Proof.Machine
end

