-- ==== Sys2Proof/Machine/Cache.lean ====
section
/-! DEFINITION. DRAM locations, the L2 of each die, the L1s, and the check units behind them (R287–R301, R308, R312): the
lines an L2 holds with their dirty bytes, write-back to home, eviction, propagation and non-temporal stores. -/
namespace Sys2Proof.Machine

/-! ### DRAM locations -/

/-- A DRAM location as a number: stack, channel, bank, row, column, the stack highest (R287). -/
def packLoc (stack channel bank row col : Nat) : Nat := (((stack * 32 + channel) * 64 + bank) * 32768 + row) * 1024 + col

/-- The DRAM location of a physical address under a profile register's value (R288, Table 15.5). -/
def locOf (prof a : Nat) : Nat :=
  let hash (bank row : Nat) : Nat := if bit prof 2 then bank ^^^ (row % 64) else bank
  if bit prof 0 then
    let row := bits a 35 21
    packLoc (bits prof 5 3) (bits a 14 10) (hash (bits a 20 15) row) row (bits a 9 0)
  else if bit prof 1 then
    let row := bits a 38 24
    packLoc (bits a 23 21) (bits a 14 10) (hash (bits a 20 15) row) row (bits a 9 0)
  else
    let row := bits a 38 24
    packLoc (bits a 10 8) (bits a 15 11) (hash (bits a 23 18) row) row (bits a 17 16 * 256 + bits a 7 0)

def locStack (loc : Nat) : Nat := loc / 2 ^ 36
def locRow (loc : Nat) : Nat := loc / 1024 % 32768
/-- The home die of a location (R287). -/
def homeDie (loc : Nat) : Nat := locStack loc / 2
/-- The home die of a line, by location / 128. -/
def homeOf (line : Nat) : Nat := homeDie (line * 128)

/-- Profile register n (MEM.PROFn). -/
def State.profile (s : State) (n : Nat) : Nat := s.reg (0x610 + n)

/-- The world of a location: that of the lowest-numbered valid region that contains it (R345, Table 19.3). -/
def locWorld (s : State) (loc : Nat) : Bool :=
  match s.regs.find? (fun p =>
    let v := p.2.toNat
    0x840 ≤ p.1 && p.1 < 0x880 && bit v 63 && bit (bits v 37 30) (locStack loc) &&
      bits v 14 0 ≤ locRow loc && locRow loc ≤ bits v 29 15) with
  | some p => bit p.2.toNat 62
  | none => false

/-! ### Lines -/

/-- The value of `n` bytes of a sparse memory. -/
def cfield (m : Cells) (a n : Nat) : Nat :=
  (ccut m a n).foldl (fun acc c => acc + c.2.toNat * 2 ^ (8 * c.1)) 0

def lineKey (die line : Nat) : Nat := die * 2 ^ 32 + line
def State.l2Line (s : State) (die line : Nat) : Option Line := mget? s.l2 (lineKey die line)
def State.setLine (s : State) (die line : Nat) (l : Line) : State := { s with l2 := mset s.l2 (lineKey die line) l }
def State.delLine (s : State) (die line : Nat) : State := { s with l2 := mdel s.l2 (lineKey die line) }

/-- The bits of the bytes that a byte mask names. -/
def spread (mask : Nat) : Nat → Nat
  | 0 => 0
  | n + 1 => (if mask % 2 = 1 then 255 else 0) + 256 * spread (mask / 2) n

/-- Bytes of `new` where the mask says so, else of `old`. -/
def blend (old new : BitVec 1024) (mask : BitVec 128) : BitVec 1024 :=
  let m := BitVec.ofNat 1024 (spread mask.toNat 128)
  (old &&& ~~~m) ||| (new &&& m)

/-- The content of DRAM for a line. -/
def dramLine (s : State) (line : Nat) : BitVec 1024 := BitVec.ofNat 1024 (cfield s.dram (line * 128) 128)

/-- The four sectors of a line that a test holds for. -/
def sectorsOf (f : Nat → Bool) : List Nat := (List.range 4).filter f

def badDram (s : State) (line k : Nat) : Bool := s.bad.contains (.dram (line * 4 + k))
def badL2 (s : State) (die line k : Nat) : Bool := s.bad.contains (.l2 die (line * 4 + k))
/-- Whether sector `k` of the home copy of a line is bad. -/
def badHome (s : State) (line k : Nat) : Bool :=
  match s.l2Line (homeOf line) line with
  | some _ => badL2 s (homeOf line) line k
  | none => badDram s line k

def markBad (s : State) (u : CheckUnit) : State := if s.bad.contains u then s else { s with bad := u :: s.bad }
def markGood (s : State) (u : CheckUnit) : State := { s with bad := s.bad.filter (fun x => x != u) }

/-- The dirty or written bytes of sector `k`. -/
def sectorMask (mask : BitVec 128) (k : Nat) : Nat := (mask.toNat >>> (32 * k)) % 2 ^ 32

/-- After a write of `mask` from a source whose bad sectors are `src`: a unit written whole becomes good, and one that
receives a bad sector's bytes becomes bad (R301). -/
def rewriteUnits (s : State) (unit : Nat → CheckUnit) (mask : BitVec 128) (src : List Nat) : State :=
  if s.bad.isEmpty then s
  else (List.range 4).foldl (fun s k =>
    if sectorMask mask k = 0 then s
    else if src.contains k then markBad s (unit k)
    else if sectorMask mask k = 2 ^ 32 - 1 then markGood s (unit k) else s) s

/-- Bytes of a line written in DRAM. -/
def dramWrite (s : State) (line : Nat) (data : BitVec 1024) (mask : BitVec 128) (src : List Nat) : State :=
  let s := { s with
    dram := (List.range 128).foldl (fun m i =>
      if mask.getLsbD i then cset m (line * 128 + i) (BitVec.ofNat 8 (data.toNat >>> (8 * i))) else m) s.dram }
  rewriteUnits s (fun k => .dram (line * 4 + k)) mask src

/-- A line as a fill from DRAM makes it; the fill keeps a bad sector bad. -/
def fillUnits (s : State) (die line : Nat) (bad : Nat → Bool) : State :=
  if s.bad.isEmpty then s
  else (sectorsOf bad).foldl (fun s k => markBad s (.l2 die (line * 4 + k))) s

/-- The units of an L2 line forgotten when the line is dropped. -/
def dropUnits (s : State) (die line : Nat) : State :=
  if s.bad.isEmpty then s
  else (List.range 4).foldl (fun s k => markGood s (.l2 die (line * 4 + k))) s

/-- L1s of a die lose a line, one core's own copy apart where the core is given (R293). -/
def dropL1 (s : State) (die line : Nat) (keep : Option Nat) : State :=
  { s with cores := s.cores.map (fun p =>
      if dieOf p.1 = die ∧ keep ≠ some p.1 ∧ (mget? p.2.l1 line).isSome then (p.1, { p.2 with l1 := mdel p.2.l1 line }) else p) }

/-- A line removed from an L2 without write-back: first from the die's L1s (R293). -/
def dropLine (s : State) (die line : Nat) : State :=
  let s := dropL1 s die line none
  let s := dropUnits s die line
  { (s.delLine die line) with props := s.props.filter (fun p => !(p.die == die && p.line == line)) }

/-- The least recently used line of a class in a set. -/
def lruOf (c : Nat) (set : List (Nat × L1Line)) : Option (Nat × L1Line) :=
  (set.filter (fun p => p.2.cls == c)).foldl (fun acc p =>
    match acc with
    | none => some p
    | some a => if p.2.used < a.2.used then some p else some a) none

/-- The victim of a full set by R296: of class evict-first, then normal, then keep, the least recently used of each. -/
def victim (set : List (Nat × L1Line)) : Option (Nat × L1Line) :=
  (lruOf 2 set).orElse (fun _ => (lruOf 0 set).orElse (fun _ => lruOf 1 set))

/-- The set of an L2 that holds a line: 2,048 sets of 16 ways and 128 B in each of 32 slices of 4 MiB (Table 15.7). -/
def l2SetOf (line : Nat) : Nat := Config.l2Slice line % 32 * 2048 + Config.l2Set line % 2048

/-- The set of an L1 that holds a line: 128 sets of 8 ways and 128 B are 128 KiB (Table 15.7). -/
def l1SetOf (line : Nat) : Nat := Config.l1Set line % 128

/-- The lines of an L2 that share the set of a line, by their keys. -/
def setOf (s : State) (die line : Nat) : List (Nat × L1Line) :=
  (s.l2.filter (fun p => p.1 / 2 ^ 32 == die && l2SetOf (p.1 % 2 ^ 32) == l2SetOf line)).map
    (fun p => (p.1, ⟨p.2.cls, p.2.used⟩))

/-- The set of a line where it can matter: with fewer than 12 lines in the L2 no set is full and none holds 12 keep
lines. -/
def setLines (s : State) (die line : Nat) : List (Nat × L1Line) :=
  if (s.l2.filter (fun p => p.1 / 2 ^ 32 == die)).length < 12 then [] else setOf s die line

/-- A line becomes keep in a set at its limit: the least recently used of the other keep lines becomes normal (R296). The
rule says so of an allocation; the model does so of a hit too, since the set holds at most that number (DEDUCED, log 86). -/
def demoted (limit key : Nat) (set : List (Nat × L1Line)) : Option Nat :=
  let keeps := set.filter (fun p => p.2.cls == 1 && p.1 != key)
  if keeps.length < limit then none else (lruOf 1 keeps).map (fun p => p.1)

/-- Bytes merged into the home L2's copy of a line, which is allocated where it is absent, in class normal: the spec gives a
write-back no class (DESIGN CHOICE, log 86). -/
def mergeHome (s : State) (h line : Nat) (data : BitVec 1024) (mask : BitVec 128) (src : List Nat) : State :=
  let s := match s.l2Line h line with
    | some l => dropL1 (s.setLine h line { l with data := blend l.data data mask, dirty := l.dirty ||| mask }) h line none
    | none => fillUnits (s.setLine h line ⟨blend (dramLine s line) data mask, mask, 0, s.tick⟩) h line (badDram s line)
  rewriteUnits s (fun k => .l2 h (line * 4 + k)) mask src

/-- The bad sectors of a line that leaves an L2 with no dirty byte in them: their DRAM sectors become bad (R301). -/
def handBad (s : State) (line : Nat) (dirty : BitVec 128) (src : List Nat) : State :=
  src.foldl (fun s k => if sectorMask dirty k = 0 then markBad s (.dram (line * 4 + k)) else s) s

/-- Dirty bytes written back to the home L2's copy where it has one, else to DRAM: no line is allocated. -/
def directHome (s : State) (line : Nat) (data : BitVec 1024) (mask : BitVec 128) (src : List Nat) : State :=
  if mask = 0 then s
  else match s.l2Line (homeOf line) line with
    | some _ => mergeHome s (homeOf line) line data mask src
    | none => dramWrite s line data mask src

/-- A line dropped from an L2, its dirty bytes given to `write`. A bad sector is handed on as bad, a clean one to its DRAM
sector (R301). -/
def flushBy (write : State → Nat → BitVec 1024 → BitVec 128 → List Nat → State) (s : State) (die line : Nat) : State :=
  match s.l2Line die line with
  | none => s
  | some l =>
    let src := sectorsOf (badL2 s die line)
    handBad (write (dropLine s die line) line l.data l.dirty src) line l.dirty src

/-- The victim of the set of an absent line leaves a full set (R296). -/
def evictBy (write : State → Nat → BitVec 1024 → BitVec 128 → List Nat → State) (s : State) (die line : Nat) : State :=
  let set := setLines s die line
  if (s.l2Line die line).isSome ∨ set.length < 16 then s
  else match victim set with
    | some (k, _) => flushBy write s die (k % 2 ^ 32)
    | none => s

/-- Room for a line in its set. Where the write-back of the victim has filled the way again, a second victim goes without
allocating, so that no set ever holds a 17th line (Table 15.7). -/
def roomBy (write : State → Nat → BitVec 1024 → BitVec 128 → List Nat → State) (s : State) (die line : Nat) : State :=
  evictBy directHome (evictBy write s die line) die line

/-- Dirty bytes written back to their home (R293): into DRAM from the home L2, into the home L2 from another. An
allocation at home that finds its set full evicts by R296; `fuel` bounds the chain of evictions. -/
def writeHome : Nat → State → Nat → Nat → BitVec 1024 → BitVec 128 → List Nat → State
  | 0, s, _, line, data, mask, src => directHome s line data mask src
  | fuel + 1, s, die, line, data, mask, src =>
    let h := homeOf line
    if mask = 0 then s
    else if die = h then dramWrite s line data mask src
    else mergeHome (roomBy (fun s l d m bad => writeHome fuel s h l d m bad) s h line) h line data mask src

/-- Write-back of the dirty bytes of a line of an L2; the line stays, clean, unless the write-back's own evictions took it. -/
def cleanLine (s : State) (die line : Nat) : State :=
  match s.l2Line die line with
  | none => s
  | some l =>
    if l.dirty = 0 then s
    else
      let s := writeHome 8 s die line l.data l.dirty (sectorsOf (badL2 s die line))
      let s := { s with props := s.props.filter (fun p => !(p.die == die && p.line == line)) }
      match s.l2Line die line with
      | some l => s.setLine die line { l with dirty := 0 }
      | none => s

/-- Write-back and drop of a line of an L2 (R293, R301). -/
def flushLine (s : State) (die line : Nat) : State := flushBy (fun s l d m bad => writeHome 8 s die l d m bad) s die line

/-- At most 12 keep lines in the set of a line that becomes keep (R296). -/
def limitKeep (s : State) (die line cls : Nat) : State :=
  if cls ≠ 1 then s
  else match demoted 12 (lineKey die line) (setLines s die line) with
    | some k =>
      match mget? s.l2 k with
      | some v => { s with l2 := mset s.l2 k { v with cls := 0 } }
      | none => s
    | none => s

/-- Room for a line in an L2 (R296): a full set loses its victim. -/
def makeRoom (s : State) (die line cls : Nat) : State :=
  limitKeep (roomBy (fun s l d m bad => writeHome 8 s die l d m bad) s die line) die line cls

/-- The home copy of a line: the home L2's, else DRAM's. -/
def homeData (s : State) (line : Nat) : BitVec 1024 :=
  match s.l2Line (homeOf line) line with
  | some l => l.data
  | none => dramLine s line

/-- A line brought into an L2 by an access of a class (R296); a no-allocate access that misses allocates nothing. -/
def fetchLine (s : State) (die line cls : Nat) : State :=
  match s.l2Line die line with
  | some l => if cls = 3 then s else (limitKeep s die line cls).setLine die line { l with cls := cls, used := s.tick }
  | none =>
    if cls = 3 then s
    else
      let s := makeRoom s die line cls
      match s.l2Line die line with
      | some l => s.setLine die line { l with cls := cls, used := s.tick }
      | none => fillUnits (s.setLine die line ⟨homeData s line, 0, cls, s.tick⟩) die line (badHome s line)

/-- An access of a class hits a line that an L2 holds (R296). -/
def hitLine (s : State) (die line cls : Nat) : State := if (s.l2Line die line).isSome then fetchLine s die line cls else s

/-- What an access of a die finds of a line: at device scope the home copy under the die's own dirty bytes, else the
die's copy (R302, R308). With the sectors that are bad. -/
def lineView (s : State) (die line : Nat) (dev : Bool) : BitVec 1024 × (Nat → Bool) :=
  match s.l2Line die line with
  | none => (homeData s line, badHome s line)
  | some l =>
    if dev ∧ die ≠ homeOf line then
      (blend (homeData s line) l.data l.dirty,
        fun k => if sectorMask l.dirty k = 0 then badHome s line k else badL2 s die line k || (badHome s line k && sectorMask l.dirty k != 2 ^ 32 - 1))
    else (l.data, badL2 s die line)

/-- Bytes of a line written in a die's L2 (R293), which the L1s of its other cores lose; a no-allocate write that misses goes on to the home copy. -/
def storeLine (s : State) (core : Option Nat) (die line cls : Nat) (data : BitVec 1024) (mask : BitVec 128) : State :=
  if mask = 0 then s
  else
    let s := fetchLine s die line cls
    match s.l2Line die line with
    | some l =>
      let s := s.setLine die line { l with data := blend l.data data mask, dirty := l.dirty ||| mask }
      rewriteUnits (dropL1 s die line core) (fun k => .l2 die (line * 4 + k)) mask []
    | none =>
      match s.l2Line (homeOf line) line with
      | some _ => writeHome 8 s 4 line data mask []
      | none => dramWrite s line data mask []

/-- A home-side write (R294) of a class (R134); of class no-allocate on a line that the home L2 does not hold, it goes on to
DRAM. -/
def homeStore (s : State) (line cls : Nat) (data : BitVec 1024) (mask : BitVec 128) : State :=
  if mask = 0 then s
  else
    let h := homeOf line
    let s := (List.range 4).foldl (fun s d => if d = h then s else flushLine s d line) s
    let s := fetchLine s h line cls
    match s.l2Line h line with
    | some l =>
      let s := s.setLine h line { l with data := blend l.data data mask, dirty := l.dirty ||| mask }
      rewriteUnits (dropL1 s h line none) (fun k => .l2 h (line * 4 + k)) mask []
    | none => dramWrite s line data mask []

/-! ### Orders and maintenance -/

/-- The lines of an L2 whose home is another die. -/
def remoteLines (s : State) (die : Nat) : List Nat :=
  (s.l2.filter (fun p => p.1 / 2 ^ 32 == die && homeOf (p.1 % 2 ^ 32) != die)).map (fun p => p.1 % 2 ^ 32)

/-- A release at device or system scope: every dirty remote line of the die's L2 is written back (R133). -/
def releaseDie (s : State) (die : Nat) : State := (remoteLines s die).foldl (fun s l => cleanLine s die l) s

/-- An acquire at device or system scope: every remote line of the die's L2 that is not wholly dirty is written back
and dropped, and the core's L1 is emptied (R133). -/
def acquireDie (s : State) (core die : Nat) : State :=
  let s := (remoteLines s die).foldl (fun s l =>
    match s.l2Line die l with
    | some x => if x.dirty = BitVec.allOnes 128 then s else flushLine s die l
    | none => s) s
  s.modCore core (fun c => { c with l1 := [] })

/-- One strong write becomes performed at home (R308). -/
def propagate (s : State) (p : Propagation) : State :=
  let s := { s with props := s.props.filter (fun q => q != p) }
  match s.l2Line p.die p.line with
  | none => s
  | some l =>
    let m := p.bytes &&& l.dirty
    let s := writeHome 8 s p.die p.line l.data m (sectorsOf (badL2 s p.die p.line))
    match s.l2Line p.die p.line with
    | some l => s.setLine p.die p.line { l with dirty := l.dirty &&& ~~~m }
    | none => s

/-- Every strong write of an agent becomes performed at home (R309). -/
def propagateAll (s : State) (a : Agent) : State :=
  (s.props.filter (fun p => p.agent == a)).foldl propagate s

/-- The elements of a list with no earlier element of the same kind. -/
def firstsBy {α : Type} (same : α → α → Bool) : List α → List α
  | [] => []
  | x :: xs => x :: (firstsBy same xs).filter (fun y => !same x y)

/-- The strong writes of a die that may be propagated next: one agent's writes to different lines in any order, its writes to
one line in theirs (R308). -/
def propReady (s : State) (die : Nat) : List Propagation :=
  firstsBy (fun p q => p.agent == q.agent && p.line == q.line) (s.props.filter (fun p => p.die == die))

/-- One byte in DRAM and in every L2's copy of its line. -/
def putCopies (s : State) (c : Host.Cell) : State :=
  let line := c.1 / 128
  let i := c.1 % 128
  let data := BitVec.ofNat 1024 (c.2.toNat * 2 ^ (8 * i))
  let mask := BitVec.twoPow 128 i
  (List.range 4).foldl (fun s d =>
    match s.l2Line d line with
    | some l => dropL1 (s.setLine d line { l with data := blend l.data data mask }) d line none
    | none => s) (dramWrite s line data mask [])

/-- The units of sectors that one write has covered become good (R301). -/
def healSectors (s : State) (ks : List Nat) : State :=
  if s.bad.isEmpty then s
  else ks.foldl (fun s k => (List.range 4).foldl (fun s d => markGood s (.l2 d k)) (markGood s (.dram k))) s

/-- A non-temporal store becomes performed in memory, every copy of its bytes updated (R312). -/
def ntPerform (s : State) (n : NtStore) : State :=
  healSectors (n.bytes.foldl putCopies { s with nt := s.nt.erase n }) n.whole

/-- The bytes of non-temporal stores that may be performed next: in any order, but that of one agent's stores to one byte
(R137, R312). -/
def ntReady (s : State) : List (NtStore × Host.Cell) :=
  firstsBy (fun p q => p.1.agent == q.1.agent && p.2.1 == q.2.1) (s.nt.flatMap (fun n => n.bytes.map (fun c => (n, c))))

/-- One byte of a non-temporal store performed (R312). -/
def ntByte (s : State) (n : NtStore) (c : Host.Cell) : State :=
  let rest := n.bytes.erase c
  let over_ := n.whole.filter (fun k => k == c.1 / 32 && rest.all (fun b => b.1 / 32 != k))
  let nt := (s.nt.replace n { n with bytes := rest }).filter (fun m => !m.bytes.isEmpty)
  healSectors (putCopies { s with nt := nt } c) over_

/-- Every non-temporal store of an agent becomes performed (R146, R312). -/
def ntPerformAll (s : State) (a : Agent) : State := (s.nt.filter (fun n => n.agent == a)).foldl ntPerform s

/-- A line written back from every L2 into memory: remote copies to home, then home to DRAM; the copies stay clean
(R153). -/
def cleanEverywhere (s : State) (line : Nat) : State :=
  let s := (List.range 4).foldl (fun s d => if d = homeOf line then s else cleanLine s d line) s
  cleanLine s (homeOf line) line

/-- Every copy of a line dropped without write-back (R134, R153). -/
def dropEverywhere (s : State) (line : Nat) : State := (List.range 4).foldl (fun s d => dropLine s d line) s

/-- Written back, then dropped, everywhere (R153): remote copies first, the home copy last. -/
def flushEverywhere (s : State) (line : Nat) : State :=
  flushLine ((List.range 4).foldl (fun s d => if d = homeOf line then s else flushLine s d line) s) (homeOf line) line

/-- Every L2 writes back its dirty remote lines (R365). -/
def releaseEverywhere (s : State) : State := (List.range 4).foldl releaseDie s

end Sys2Proof.Machine
end

