-- ==== Sys2Proof/Machine/Translate.lean ====
section
/-! DEFINITION. Address spaces, buffer-table entries, page tables and the address checks (R130, R131, R280–R286, R345,
R351, Tables 05.3, 05.4, 15.1–15.4). -/
namespace Sys2Proof.Machine

/-! ### Records and entries -/

/-- Little-endian bytes of physical memory, read through profile 0 at the home L2 (R286); `n` bytes within a line. -/
def physRead (s : State) (a n : Nat) : Nat :=
  let loc := locOf (s.profile 0) a
  match s.l2Line (homeDie loc) (loc / 128) with
  | some l => (l.data.toNat >>> (8 * (loc % 128))) % 2 ^ (8 * n)
  | none => cfield s.dram loc n

/-- Whether the sector of a physical address is bad where a walk reads it. -/
def physBad (s : State) (a : Nat) : Bool :=
  let loc := locOf (s.profile 0) a
  !s.bad.isEmpty && badHome s (loc / 128) (loc % 128 / 32)

/-- A buffer-table entry (Tables 15.2, 15.3); `k2` and `k3` are bytes 16–23 and 24–31. -/
structure Bte where
  kind : Nat
  world : Bool
  profile : Nat
  psize : Nat
  devp : Nat
  pdv : Bool
  pdie : Nat
  length : Nat
  owner : Nat
  emask : Nat
  ptroot : Nat
  rights : Nat
  k2 : Nat
  k3 : Nat
  deriving DecidableEq, Repr

/-- Words that no valid record or entry has. -/
def noWords : List Word := [0, 0, 0, 0]

/-- The two words of an address space's record as they stand in memory (R280); zeros where the table has none. -/
def recordWords (s : State) (asid : Nat) : List Word :=
  if asid < s.reg 0x601 then
    let a := s.reg 0x600 + 16 * asid
    if a ≥ 2 ^ 39 ∨ physBad s a then noWords
    else [BitVec.ofNat 64 (physRead s a 8), BitVec.ofNat 64 (physRead s (a + 8) 8), 0, 0]
  else noWords

/-- A record in use: the buffer table's base and its number of entries (Table 15.1). -/
def recordOf (ws : List Word) : Option (Nat × Nat) :=
  let w0 := (nth ws 0 0).toNat
  let w1 := (nth ws 0 1).toNat
  if bit w0 0 ∧ bits w0 63 40 = 0 ∧ bits w0 11 1 = 0 ∧ bits w1 63 32 = 0 then some (bits w0 39 12 * 4096, w1) else none

/-- The four first words of an entry as they stand in memory; zeros where the last four are not zero (R282). -/
def entryWords (s : State) (base h : Nat) : List Word :=
  let a := base + 64 * h
  let rd (i : Nat) : Nat := physRead s (a + 8 * i) 8
  if a + 64 > 2 ^ 39 ∨ physBad s a ∨ physBad s (a + 32) then noWords
  else if (List.range 4).any (fun i => rd (4 + i) != 0) then noWords
  else (List.range 4).map (fun i => BitVec.ofNat 64 (rd i))

/-- The entry that four words make, where they break no rule of Tables 15.2 and 15.3. -/
def bteOf (ws : List Word) : Option Bte :=
  let w0 := (nth ws 0 0).toNat
  let w1 := (nth ws 0 1).toNat
  let k2 := (nth ws 0 2).toNat
  let k3 := (nth ws 0 3).toNat
  let kind := bits w0 63 62
  let rights := bits w1 3 0
  let common := bit w0 48 && bits w0 50 49 == 0 && bits w0 47 0 != 0 && !bit w1 47 && bits w1 11 4 == 0
  let plain := bits w0 60 58 == 0 && bits w0 57 56 == 0 && bits w1 39 12 == 0
  let spec :=
    if kind = 0 then k2 == 0 && k3 == 0
    else if kind = 1 then plain && bits k2 39 32 < 4 && bits k2 63 40 == 0
    else if kind = 2 then plain && bits k2 63 32 == 0 && rights < 4
    else plain && k2 < 16 && rights < 8
  if common && spec then
    some { kind := kind, world := bit w0 61, profile := bits w0 60 58, psize := bits w0 57 56, devp := bits w0 55 54,
           pdv := bit w0 53, pdie := bits w0 52 51, length := bits w0 47 0, owner := bits w1 63 48, emask := bits w1 46 40,
           ptroot := bits w1 39 12 * 4096, rights := rights, k2 := k2, k3 := k3 }
  else none

/-- The number under which the record of an address space is cached. -/
def recordHandle : Nat := 0x10000

/-- The words an access uses: the current ones, or a cached copy that differs from them (R284). -/
def cachedOr (s : State) (asid h : Nat) (cur : List Word) : List Word :=
  match s.btc.find? (fun c => c.asid == asid && c.handle == h) with
  | some c => if c.words == cur then cur else if Config.cachedEntry s.tick then c.words else cur
  | none => cur

def useRecord (s : State) (asid : Nat) : List Word := cachedOr s asid recordHandle (recordWords s asid)

/-- The words of entry `h` that an access uses; zeros where the record or the handle is not valid. -/
def useEntry (s : State) (asid h : Nat) : List Word :=
  match recordOf (useRecord s asid) with
  | some (base, n) => if h = 0 ∨ h ≥ n then noWords else cachedOr s asid h (entryWords s base h)
  | none => noWords

/-- Step 2 of Table 05.3: the entry of a handle (R281). -/
def State.bte (s : State) (asid h : Nat) : Option Bte := bteOf (useEntry s asid h)

def noteWords (s : State) (asid h : Nat) (ws : List Word) : State :=
  if s.btc.any (fun c => c.asid == asid && c.handle == h && c.words == ws) then s
  else { s with btc := ⟨asid, h, ws⟩ :: s.btc.filter (fun c => !(c.asid == asid && c.handle == h)) }

/-- The record and the entry that an access used are cached (R284). -/
def noteEntry (s : State) (asid h : Nat) : State :=
  let r := useRecord s asid
  let e := useEntry s asid h
  if (bteOf e).isSome then noteWords (noteWords s asid recordHandle r) asid h e else s

/-! ### Page tables -/

/-- PSIZE′ (R285). -/
def pshift (psize : Nat) : Nat := if psize = 0 then 12 else if psize = 1 then 16 else if psize = 2 then 21 else 30

/-- The levels of a buffer's tree (R285). -/
def levels (e : Bte) : Nat :=
  let p := pshift e.psize
  max 1 (ceilDiv (max (bitLength (e.length - 1)) p - p) 9)

/-- The walk from a table with `n` levels left (R285, R286): the frame, or the cause. -/
def walkFrom (s : State) (world : Bool) (page : Nat) : Nat → Nat → Except Nat Nat
  | 0, a => .ok a
  | n + 1, table =>
    let a := table + 8 * ((page >>> (9 * n)) % 512)
    if locWorld s (locOf (s.profile 0) a) != world then .error cWORLD
    else if physBad s a then .error cPAGE
    else
      let e := physRead s a 8
      if !bit e 0 || bits e 63 40 != 0 || bits e 11 1 != 0 || bit e 39 then .error cPAGE
      else walkFrom s world page n (bits e 39 12 * 4096)

/-- The frame of a page by a walk (R286). -/
def walk (s : State) (world : Bool) (e : Bte) (page : Nat) : Except Nat Nat :=
  if e.ptroot ≥ 2 ^ 39 then .error cPAGE
  else
    match walkFrom s world page (levels e) e.ptroot with
    | .ok a =>
      if a % 2 ^ pshift e.psize ≠ 0 ∨ (bit (s.profile e.profile) 0 ∧ a ≥ 2 ^ 36) then .error cPAGE else .ok a
    | .error c => .error c

/-- The frame of a page and the profile value that maps it: of a fresh walk, or of a cached translation that differs
from it (R286, R290). -/
def translate (s : State) (asid h : Nat) (world : Bool) (e : Bte) (page : Nat) : Except Nat (Nat × Nat) :=
  let fresh : Except Nat (Nat × Nat) :=
    match walk s world e page with
    | .ok a => .ok (a, s.profile e.profile)
    | .error c => .error c
  match s.ptc.find? (fun c => c.asid == asid && c.handle == h && c.page == page && c.shift == pshift e.psize) with
  | some c =>
    let cached := (c.frame, c.profile.toNat)
    match fresh with
    | .ok x => if x = cached then .ok x else if Config.cachedEntry s.tick then .ok cached else .ok x
    | .error k => if Config.cachedEntry s.tick then .ok cached else .error k
  | none => fresh

/-- The line of each touched 128 bytes of a range, in ascending order, with the checks of step 7 (R131, R345). -/
def linesOf (s : State) (asid h : Nat) (world : Bool) (e : Bte) : List Nat → Except Nat (List Nat)
  | [] => .ok []
  | k :: ks =>
    match translate s asid h world e (k * 128 / 2 ^ pshift e.psize) with
    | .error c => .error c
    | .ok (frame, prof) =>
      let loc := locOf prof (frame + k * 128 % 2 ^ pshift e.psize)
      if locWorld s loc != world then .error cWORLD
      else
        match linesOf s asid h world e ks with
        | .error c => .error c
        | .ok ls => .ok (loc / 128 :: ls)

/-- The indices of the 128-byte pieces that a range touches. -/
def piecesOf (o n : Nat) : List Nat := if n = 0 then [] else List.range' (o / 128) ((o + n - 1) / 128 - o / 128 + 1)

/-- The translations of a range are cached (R286). -/
def notePages (s : State) (asid h : Nat) (world : Bool) (e : Bte) (o n : Nat) : State :=
  let ps := (piecesOf o n).map (fun k => k * 128 / 2 ^ pshift e.psize)
  ps.foldl (fun s p =>
    match translate s asid h world e p with
    | .ok (f, v) =>
      if s.ptc.any (fun c => c.asid == asid && c.handle == h && c.page == p && c.shift == pshift e.psize) then s
      else { s with ptc := ⟨asid, h, pshift e.psize, p, f, BitVec.ofNat 64 v⟩ :: s.ptc }
    | .error _ => s) s

/-! ### The address checks -/

/-- Where a checked access goes: lines of DRAM from byte `first` of the first, cluster SRAM, the A-buffer, or the host. -/
inductive Tgt where
  | dram (first : Nat) (lines : List Nat)
  | sram (a : Nat)
  | abuf (a : Nat)
  | host (a : Nat)
  | none
  deriving DecidableEq, Repr

/-- What an access asks for: issuer's ASID and core, offset and size, the alignment it needs, the rights as a mask of
Table 15.2, the kinds allowed, the engine class whose EMASK bit it needs, and the access kind of Table 18.4. -/
structure Req where
  asid : Nat
  core : Nat
  handle : Nat
  off : Int
  n : Nat
  align : Nat
  rights : Nat
  kinds : List Nat
  emask : Option Nat
  acc : Nat
  deriving DecidableEq, Repr

/-- The fault address of an addr, in a page of 4 KiB (Table 18.2). -/
def addrOf (asid : Nat) (v : Word) (acc : Nat) : FaultAddr :=
  ⟨asid, v.toNat / 2 ^ 48, v.toNat % 2 ^ 48, acc, v.toNat % 2 ^ 48 / 4096⟩

/-- The page of an offset in a buffer, by the page size of a memory entry (Table 18.2). -/
def pageIn (s : State) (asid handle off : Nat) : Nat :=
  match s.bte asid handle with
  | some e => if e.kind = 0 then off / 2 ^ pshift e.psize else off / 4096
  | none => off / 4096

/-- The trap of step 8 of Table 05.3: its key names the page of the entry's size (R324). -/
def memErr (q : Req) (e : Option Bte) : Trap :=
  let page := match e with
    | some e => if e.kind = 0 then 2 ^ pshift e.psize else 4096
    | none => 4096
  { cause := cMEMERR, addr := some { asid := q.asid, handle := q.handle, offset := wrap q.off 64, acc := q.acc, page := (q.off / page).toNat } }

/-- The outcome of the checks: the target with its entry, or the cause with the address part of its fault record. -/
abbrev Checked := Except (Nat × FaultAddr) (Tgt × Option Bte)

/-- The host address of a host-kind access, where the endpoint serves it (R351). -/
def hostAddr (s : State) (e : Bte) (o n : Nat) (write : Bool) : Option Nat :=
  let ctl := s.reg (0x8D1 + 2 * e.k2)
  if !bit ctl 0 || e.k3 + o + n > bits ctl 47 12 * 4096 || (write && bit ctl 1) || !bit (s.reg 0x8C1) 0 then none
  else some (s.reg (0x8D0 + 2 * e.k2) + e.k3 + o)

/-- Steps 1 to 7 of Table 05.3 for a SPACE 0 range in a world, steps 1 to 6 where `walkToo` is false (R157). A range of
no bytes touches no page. -/
def checkIn (s : State) (w : Bool) (q : Req) (walkToo : Bool) : Checked :=
  let fa (page : Nat) : FaultAddr :=
    { asid := q.asid, handle := q.handle, offset := wrap q.off 64, acc := q.acc, page := wrap q.off 64 / page }
  if q.off < 0 ∨ q.off ≥ 2 ^ 48 then .error (cBOUNDS, fa 4096)
  else
    let o := q.off.toNat
    if o % q.align ≠ 0 then .error (cALIGN, fa 4096)
    else
      match s.bte q.asid q.handle with
      | none => .error (cNULLH, fa 4096)
      | some e =>
        let f := fa (if e.kind = 0 then 2 ^ pshift e.psize else 4096)
          let noMask := match q.emask with
          | some c => !bit e.emask c
          | none => false
        let write := bit q.rights 1
        if o + q.n > e.length then .error (cBOUNDS, f)
        else if q.rights &&& e.rights ≠ q.rights ∨ !q.kinds.contains e.kind ∨ noMask = true then .error (cRIGHTS, f)
        else if e.kind = 3 ∧ (hostAddr s e o q.n write).isNone then .error (cRIGHTS, f)
        else if e.owner ≠ q.asid ∧ e.owner ≠ 0xFFFF then .error (cOWNER, f)
        else if e.world ≠ w then .error (cWORLD, f)
        else if e.kind = 3 then
          if bit (s.reg 0x804) 16 ≠ w then .error (cWORLD, f) else .ok (.host ((hostAddr s e o q.n write).getD 0), some e)
        else if e.kind ≠ 0 ∨ !walkToo then .ok (.none, some e)
        else
          match linesOf s q.asid q.handle w e (piecesOf o q.n) with
          | .error c => .error (c, f)
          | .ok ls => .ok (.dram (o % 128) ls, some e)

/-- The checks of an access in the world of the issuing core (R131). -/
def check0 (s : State) (q : Req) (walkToo : Bool) : Checked := checkIn s (s.world q.core) q walkToo

/-- Steps 1 and 3 for SPACE 1 and 2: `base` and `len` bound the allotment. -/
def checkLocal (q : Req) (tgt : Nat → Tgt) (len : Nat) : Checked :=
  let f : FaultAddr := { asid := q.asid, handle := 0, offset := wrap q.off 64, acc := q.acc, page := (q.off / 4096).toNat }
  if q.off % q.align ≠ 0 then .error (cALIGN, f)
  else if q.off < 0 ∨ q.off + q.n > len then .error (cBOUNDS, f)
  else .ok (tgt q.off.toNat, none)

/-- The cluster SRAM allotment of a team: its address in the file of all clusters' SRAMs, and its length (R130, R155). -/
def sramOf (s : State) (core : Nat) (t : Team) : Nat × Nat :=
  if t.slane then (0, 0)
  else
    match (s.core core).copses.find? (fun c => c.id == t.copse) with
    | some c => (clusterOf core * 2 ^ 24 + c.sram.1, c.sram.2)
    | none => (0, 0)

/-- The state after a checked access of SPACE 0: its entry and translations are cached. -/
def noteAccess (s : State) (q : Req) (e : Option Bte) : State :=
  match e with
  | some e =>
    let s := noteEntry s q.asid q.handle
    if e.kind = 0 then notePages s q.asid q.handle (s.world q.core) e q.off.toNat q.n else s
  | none => s

/-- An addr value whose offset is all ones raises BOUNDS before every check (R130). -/
def allOnes (v : Word) : Bool := v.toNat % 2 ^ 48 == 2 ^ 48 - 1

end Sys2Proof.Machine
end

