-- ==== Sys2Proof/Machine/Access.lean ====
section
/-! DEFINITION. Reading and writing what a checked access reaches, with the order and scope of R133, the replacement
class of R134, and the indivisible step of R144; the address of a memory word (R130). -/
namespace Sys2Proof.Machine

/-- How an access is made: issuing core and agent, strength, order and scope (R133), replacement class with the entry's
default already chosen (R134), NT, and whether it passes through the core's L1, as an engine's does not (Table 15.7). -/
structure Mode where
  core : Nat
  agent : Agent
  strong : Bool
  order : Nat
  scope : Nat
  cls : Nat
  nt : Bool
  l1 : Bool := true
  deriving DecidableEq, Repr

/-- A weak access of a core. -/
def weakMode (core : Nat) (a : Agent) : Mode := ⟨core, a, false, 0, 0, 0, false, true⟩
/-- A weak access of a core's engine. -/
def engMode (core : Nat) (a : Agent) : Mode := ⟨core, a, false, 0, 0, 0, false, false⟩
/-- A strong access at device scope with an order. -/
def devMode (core : Nat) (a : Agent) (order : Nat) : Mode := ⟨core, a, true, order, 5, 0, false, true⟩

/-- Whether an access is performed at home (Table 16.1). -/
def Mode.dev (m : Mode) : Bool := m.strong && m.scope ≥ 5
def Mode.releases (m : Mode) : Bool := m.dev && (m.order == 2 || m.order == 3)
def Mode.acquires (m : Mode) : Bool := m.dev && (m.order == 1 || m.order == 3)

/-- The write-backs that precede a releasing access (R133). -/
def beforeAccess (s : State) (m : Mode) : State := if m.releases then releaseDie s (dieOf m.core) else s
/-- The invalidations that follow an acquiring access (R133). -/
def afterAccess (s : State) (m : Mode) : State := if m.acquires then acquireDie s m.core (dieOf m.core) else s

/-- The pieces of a range within its lines: line, first byte, count. -/
def chunksOf (first n : Nat) : List Nat → List (Nat × Nat × Nat)
  | [] => []
  | l :: ls =>
    let c := min n (128 - first)
    (l, first, c) :: chunksOf 0 (n - c) ls

/-- The DRAM locations of a range's bytes. -/
def locsOf (first n : Nat) (lines : List Nat) : List Nat :=
  (chunksOf first n lines).flatMap (fun c => (List.range c.2.2).map (fun i => c.1 * 128 + c.2.1 + i))

/-! ### Local memories -/

/-- The check unit of a byte of cluster SRAM, by its address in the file of all clusters' SRAMs (Table 15.8). -/
def sramUnit (a : Nat) : CheckUnit := .sram (a / 2 ^ 24) (a % 2 ^ 24 / 8)
def wbufUnit (a : Nat) : CheckUnit := .wbuf (a / 2 ^ 20) (a % 2 ^ 20 / 8)
def abufUnit (a : Nat) : CheckUnit := .abuf (a / 2 ^ 19) (a % 2 ^ 19 / 8)
def cbufUnit (a : Nat) : CheckUnit := .cbuf (a / 2 ^ 18) (a % 2 ^ 18 / 4)

/-- Whether a read of `n` bytes meets a bad unit of `u` bytes. -/
def localBad (s : State) (unit : Nat → CheckUnit) (u a n : Nat) : Bool :=
  !s.bad.isEmpty && n != 0 && (List.range' (a / u) ((a + n - 1) / u - a / u + 1)).any (fun k => s.bad.contains (unit (k * u)))

/-- The units that a write of `n` bytes covers whole become good (R265, R301). -/
def localGood (s : State) (unit : Nat → CheckUnit) (u a n : Nat) : State :=
  if s.bad.isEmpty then s
  else (List.range' (ceilDiv a u) ((a + n) / u - ceilDiv a u)).foldl (fun s k => markGood s (unit (k * u))) s

/-- Bytes written where the list has one, from an address. -/
def putBytes (m : Cells) (a : Nat) : List (Option Byte) → Cells
  | [] => m
  | none :: bs => putBytes m (a + 1) bs
  | some b :: bs => putBytes (cset m a b) (a + 1) bs

/-- Whether every byte of a list is written. -/
def allWritten (bs : List (Option Byte)) : Bool := bs.all Option.isSome

def readSram (s : State) (a n : Nat) : Option (List Byte) := if localBad s sramUnit 8 a n then none else some (cread s.sram a n)
def readWbuf (s : State) (a n : Nat) : Option (List Byte) := if localBad s wbufUnit 8 a n then none else some (cread s.wbuf a n)
def readAbuf (s : State) (a n : Nat) : Option (List Byte) := if localBad s abufUnit 8 a n then none else some (cread s.abuf a n)
def readCbuf (s : State) (a n : Nat) : Option (List Byte) := if localBad s cbufUnit 4 a n then none else some (cread s.cbuf a n)

def writeSram (s : State) (a : Nat) (bs : List (Option Byte)) : State :=
  let s := { s with sram := putBytes s.sram a bs }
  if allWritten bs then localGood s sramUnit 8 a bs.length else s
def writeWbuf (s : State) (a : Nat) (bs : List (Option Byte)) : State :=
  let s := { s with wbuf := putBytes s.wbuf a bs }
  if allWritten bs then localGood s wbufUnit 8 a bs.length else s
def writeAbuf (s : State) (a : Nat) (bs : List (Option Byte)) : State :=
  let s := { s with abuf := putBytes s.abuf a bs }
  if allWritten bs then localGood s abufUnit 8 a bs.length else s
def writeCbuf (s : State) (a : Nat) (bs : List (Option Byte)) : State :=
  let s := { s with cbuf := putBytes s.cbuf a bs }
  if allWritten bs then localGood s cbufUnit 4 a bs.length else s

/-! ### Memory -/

/-- One piece of a line as an access of a die reads it; `none` where a sector it touches is bad. -/
def readChunk (s : State) (die : Nat) (dev : Bool) (c : Nat × Nat × Nat) : Option (List Byte) :=
  let (line, first, n) := c
  let (data, bad) := lineView s die line dev
  if !s.bad.isEmpty && n != 0 && (List.range' (first / 32) ((first + n - 1) / 32 - first / 32 + 1)).any bad then none
  else some (leBytes n (data.toNat >>> (8 * first)))

/-- The bytes of pieces in order. -/
def readChunks (s : State) (die : Nat) (dev : Bool) : List (Nat × Nat × Nat) → Option (List Byte)
  | [] => some []
  | c :: cs =>
    match readChunk s die dev c, readChunks s die dev cs with
    | some a, some b => some (a ++ b)
    | _, _ => none

/-- A line allocated in an L1, or hit there, by an access of a class (R296): a full set loses its victim, and a set at its 6
keep lines its oldest keep line's class. -/
def putL1 (l1 : List (Nat × L1Line)) (line cls now : Nat) : List (Nat × L1Line) :=
  let set := l1.filter (fun p => l1SetOf p.1 == l1SetOf line)
  let l1 := if (mget? l1 line).isSome ∨ set.length < 8 then l1
    else match victim set with
      | some (k, _) => mdel l1 k
      | none => l1
  let l1 := if cls ≠ 1 then l1
    else match demoted 6 line set with
      | some k => (match mget? l1 k with
        | some x => mset l1 k { x with cls := 0 }
        | none => l1)
      | none => l1
  mset l1 line ⟨cls, now⟩

/-- A line noted in the core's L1, where the access allocates there or hits (R133, R134, R296). -/
def noteL1 (s : State) (m : Mode) (line : Nat) : State :=
  if !m.l1 || (m.strong && m.scope ≥ 4) || m.cls == 3 || (m.nt && (mget? (s.core m.core).l1 line).isNone) then s
  else s.modCore m.core (fun c => { c with l1 := putL1 c.l1 line m.cls s.tick })

/-- A line that the core's L1 holds is hit: a store allocates nothing there (Table 15.7). -/
def hitL1 (s : State) (m : Mode) (line : Nat) : State := noteL1 s { m with nt := true } line

/-- The lines of a load: allocated or hit in the issuing die's L2 and the L1, or, for an access performed at another die's
home, there, where the issuing die's own copy is hit too (R296). -/
def loadAlloc (s : State) (m : Mode) (lines : List Nat) : State :=
  lines.foldl (fun s l =>
    if m.dev && homeOf l != dieOf m.core then hitLine (fetchLine s (homeOf l) l m.cls) (dieOf m.core) l m.cls
    else noteL1 (fetchLine s (dieOf m.core) l m.cls) m l) s

/-- A read of `n` bytes of a target (R133–R135); `none` where a check unit is bad (step 8 of Table 05.3). -/
def readTgt (s : State) (m : Mode) (t : Tgt) (n : Nat) : State × Option (List Byte) :=
  match t with
  | .dram first lines =>
    let cs := chunksOf first n lines
    let r := readChunks s (dieOf m.core) m.dev cs
    match r with
    | none => (s, none)
    | some bs => (afterAccess (loadAlloc s m lines) m, some bs)
  | .sram a => (s, readSram s a n)
  | .abuf a => (s, readAbuf s a n)
  | .host a => (afterAccess s m, some ((List.range n).map (fun i => Config.hostByte (a + i) s.tick)))
  | .none => (s, some (List.replicate n 0))

/-- One piece written by an access of a core; a strong write at device scope whose home is another die is left to
propagate (R308). -/
def writeChunk (s : State) (m : Mode) (c : Nat × Nat × Nat) (bs : List (Option Byte)) : State :=
  let (line, first, _) := c
  let die := dieOf m.core
  let data := ofLe (bs.map (fun b => b.getD 0)) * 2 ^ (8 * first)
  let mask := bs.foldr (fun b acc => 2 * acc + b2n b.isSome) 0 * 2 ^ first
  let s := storeLine s (if m.l1 then some m.core else none) die line m.cls (BitVec.ofNat 1024 data) (BitVec.ofNat 128 mask)
  let s := if mask = 0 then s else hitL1 s m line
  if m.dev && homeOf line != die && mask != 0 && (s.l2Line die line).isSome then
    { s with props := s.props ++ [⟨die, line, BitVec.ofNat 128 mask, m.agent⟩] }
  else s

/-- Pieces written in order. -/
def writeChunks (s : State) (m : Mode) : List (Nat × Nat × Nat) → List (Option Byte) → State
  | [], _ => s
  | c :: cs, bs => writeChunks (writeChunk s m c (bs.take c.2.2)) m cs (bs.drop c.2.2)

/-- A write of the bytes of a list that are there to a target (R133, R134, R136, R138, R311). -/
def writeTgt (s : State) (m : Mode) (t : Tgt) (bs : List (Option Byte)) : State :=
  match t with
  | .dram first lines =>
    if m.nt && !m.strong then
      let cells := ((locsOf first bs.length lines).zip bs).filterMap (fun p => p.2.map (fun b => (p.1, b)))
      let here (k : Nat) : Bool := 32 ≤ (cells.filter (fun c => c.1 / 32 == k)).length
      let whole := ((cells.map (fun c => c.1 / 32)).eraseDups).filter here
      let s := lines.foldl (fun s l => hitL1 (hitLine s (dieOf m.core) l m.cls) m l) s
      if cells.isEmpty then s else { s with nt := s.nt ++ [⟨m.agent, dieOf m.core, cells, whole⟩] }
    else writeChunks (beforeAccess s m) m (chunksOf first bs.length lines) bs
  | .sram a => writeSram s a bs
  | .abuf a => writeAbuf s a bs
  | .host a =>
    let s := beforeAccess s m
    { s with hostOut := s.hostOut ++ ((List.range' a bs.length).zip bs).filterMap (fun p => p.2.map (fun b => (p.1, b))) }
  | .none => s

/-- Whether a read would meet a bad check unit (step 8 of Table 05.3). -/
def unitsBad (s : State) (m : Mode) (t : Tgt) (n : Nat) : Bool := !s.bad.isEmpty && (readTgt s m t n).2.isNone

/-- One atomic step on a target (R144): at the issuing die's L2 for die scope or narrower, at the home slice for device
and system scope, after the issuing die's own dirty bytes of the line have gone home. `f` gives the new value, or `none`
where nothing is written (R143). The old value, or `none` where a unit is bad. -/
def atomTgt (s : State) (m : Mode) (t : Tgt) (n : Nat) (f : Nat → Option Nat) : State × Option Nat :=
  let new (old : Nat) : List (Option Byte) := match f old with
    | some x => (leBytes n x).map some
    | none => List.replicate n none
  match t with
  | .dram first lines =>
    let s0 := beforeAccess s m
    let home := homeOf (nth lines 0 0)
    let at_ := if m.dev then home else dieOf m.core
    let s1 := if m.dev && home != dieOf m.core then lines.foldl (fun s l => flushLine s (dieOf m.core) l) s0 else s0
    let s1 := lines.foldl (fun s l => fetchLine s at_ l m.cls) s1
    match readChunks s1 at_ false (chunksOf first n lines) with
    | none => (s, none)
    | some bs =>
      let old := ofLe bs
      let m' : Mode := { m with core := at_ * 64, strong := false, l1 := false }
      let s2 := writeChunks s1 m' (chunksOf first n lines) (new old)
      let s2 := lines.foldl (fun s l => dropL1 s at_ l none) s2
      (afterAccess s2 m, some old)
  | .sram a =>
    match readSram s a n with
    | none => (s, none)
    | some bs => (writeSram s a (new (ofLe bs)), some (ofLe bs))
  | .abuf a =>
    match readAbuf s a n with
    | none => (s, none)
    | some bs => (writeAbuf s a (new (ofLe bs)), some (ofLe bs))
  | .host _ => (s, none)
  | .none => (s, none)

/-- The lines that a range wholly covers are dropped from every cache (R134, R297). -/
def lastDrop (s : State) (t : Tgt) (n : Nat) : State :=
  match t with
  | .dram first lines => (chunksOf first n lines).foldl (fun s c => if c.2.2 = 128 then dropEverywhere s c.1 else s) s
  | _ => s

/-! ### The address of a memory word -/

/-- The address request of one lane of a format M word (R130), for an access of `n` bytes at an offset of its own. -/
def mReq (iss : Iss) (t : Team) (w : MW) (v : Word) (fmt : Nat) (n align : Nat) (disp : Int) (rights : Nat)
    (kinds : List Nat) (acc : Nat) : Req :=
  let x : Nat :=
    if w.space = 0 then v.toNat % 2 ^ 48
    else if !t.slane && (fmt == 5 || fmt == 6) then v.toNat % 2 ^ 32 else v.toNat
  { asid := t.asid, core := iss.core, handle := if w.space = 0 then v.toNat / 2 ^ 48 else 0, off := x + disp, n := n,
    align := align, rights := rights, kinds := kinds, emask := none, acc := acc }

/-- The checks of an access of a format M word (R130, R131). -/
def mCheck (s : State) (iss : Iss) (t : Team) (w : MW) (v : Word) (fmt : Nat) (n align : Nat) (disp : Int)
    (rights : Nat) (kinds : List Nat) (acc : Nat) : Req × Checked :=
  let q := mReq iss t w v fmt n align disp rights kinds acc
  if w.space = 0 ∧ allOnes v then
    (q, .error (cBOUNDS, { asid := q.asid, handle := q.handle, offset := wrap q.off 64, acc := acc, page := wrap q.off 64 / 4096 }))
  else if w.space = 0 then (q, check0 s q true)
  else if w.space = 1 then
    let (base, len) := sramOf s iss.core t
    (q, checkLocal q (fun o => .sram (base + o)) len)
  else (q, checkLocal q (fun o => .abuf (iss.core * 2 ^ 19 + o)) 524288)

/-- The formats that a word's address register may have (R130). -/
def addrFormats (space : BitVec 3) : List Nat := if space = 0 then [21] else [6, 5, 8, 7, 0]

/-- The displacement of a format M word. -/
def mDisp (w : MW) : Int := sext w.off.toNat 16

/-- The replacement class of an access (R134). -/
def evClass (evp : Nat) (e : Option Bte) : Nat :=
  if evp = 0 then (match e with
    | some e => e.devp
    | none => 0)
  else evp

end Sys2Proof.Machine
end

