-- ==== Sys2Proof/Machine/Code.lean ====
section
/-! DEFINITION. Fetching code (R14, R317, R388, R419), clause headers (Table 01.1), transfer targets (R14, R44), and the tag
formats that a source may have (R74, R188). -/
namespace Sys2Proof.Machine

/-! ### Fetch -/

/-- The 3-bit transfer codes of R44. -/
def codeCause (code : Nat) : Nat := nth [0, cALIGN, cBOUNDS, cPAGE, cLANDING, cILLEGAL, cMEMERR] 0 code

/-- The word at an offset of a code source as memory holds it, or the transfer code of steps 2 and 3 of R14. -/
def codeAt (s : State) (core asid : Nat) (src : CodeSrc) (o : Nat) : Except Nat Word :=
  let die := dieOf core
  match src with
  | .buffer h =>
    match s.bte asid h with
    | none => .error 3
    | some e =>
      if o + 8 > e.length then .error 2
      else if !bit e.rights 2 || e.kind != 0 || (e.owner != asid && e.owner != 0xFFFF) || e.world != s.world core then .error 3
      else
        match linesOf s asid h (s.world core) e (piecesOf o 8) with
        | .error _ => .error 3
        | .ok ls =>
          match readChunks s die false (chunksOf (o % 128) 8 ls) with
          | none => .error 6
          | some bs => .ok (BitVec.ofNat 64 (ofLe bs))
  | .image u k prod =>
    match (mget? s.images (8 * u + k)).filter (fun im => im.prod == prod) with
    | none => .error 3
    | some im => if o + 8 > 8 * im.words.length then .error 2 else .ok (nth im.words 0 (o / 8))
  | .phys =>
    if o + 8 > 2 ^ 39 then .error 2
    else
      let loc := locOf (s.profile 0) o
      if locWorld s loc != s.world core then .error 3
      else
        match readChunk s die false (loc / 128, loc % 128, 8) with
        | none => .error 6
        | some bs => .ok (BitVec.ofNat 64 (ofLe bs))

/-- Where a word stands in a core's instruction cache: by ASID, handle and offset, physical words apart. -/
def cacheKey (asid : Nat) (src : CodeSrc) (o : Nat) : Option Nat :=
  match src with
  | .buffer h => some (asid * 2 ^ 64 + h * 2 ^ 48 + o)
  | .phys => some (2 ^ 80 + o)
  | .image _ _ _ => none

/-- A word as a fetch finds it: a stale cached copy, or the current word (R317). -/
def fetchAt (s : State) (core asid : Nat) (src : CodeSrc) (o : Nat) : Except Nat Word :=
  match codeAt s core asid src o, (cacheKey asid src o).bind (mget? (s.core core).icache) with
  | .ok w, some x => if w = x then .ok w else if Config.cachedWord s.tick then .ok x else .ok w
  | r, _ => r

/-- A fetched word enters the instruction cache (R317), whose 64 KiB hold 8,192 words (Table 00.2). A full cache loses all
that it holds: the spec names no victim (DESIGN CHOICE, log 19). -/
def noteCode (s : State) (core asid : Nat) (src : CodeSrc) (o : Nat) : State :=
  match cacheKey asid src o, fetchAt s core asid src o with
  | some k, .ok w =>
    if (s.core core).icache.length < 8192 then s.modCore core (fun c => { c with icache := mset c.icache k w })
    else s.modCore core (fun c => { c with icache := [(k, w)] })
  | _, _ => s

/-! ### Headers (Table 01.1) -/

/-- The stall count of word `i` of a clause (Table 01.1). -/
def stallOf (header : Word) (i : Nat) : Nat := bits header.toNat (10 + 2 * i) (9 + 2 * i)

/-- NM1 + 1 (Table 01.1). -/
def headerLen (h : Word) : Nat := bits h.toNat 6 3 + 1
/-- LAND (Table 01.1). -/
def headerLand (h : Word) : Bool := bit h.toNat 7

/-- A wait condition's fields: kind, threshold, class. -/
def waitField (h : Word) (i : Nat) : Nat × Nat × Nat :=
  let f := bits h.toNat (51 + 11 * i) (41 + 11 * i)
  (bits f 10 9, bits f 8 3, bits f 2 0)

/-- A wait condition is valid (Table 01.10). -/
def waitOk (f : Nat × Nat × Nat) : Bool :=
  if f.1 = 1 then f.2.2 != 7 else f.1 != 3 && f.2.1 == 0 && f.2.2 == 0

/-- A header is valid (Table 01.10). -/
def headerOk (h : Word) : Bool :=
  bits h.toNat 2 0 < 6 && !bit h.toNat 63 && waitOk (waitField h 0) && waitOk (waitField h 1) &&
    (List.range 16).all (fun i => i < headerLen h || stallOf h i == 0)

/-- R14 for a transfer target: 0 where it passes, else the transfer code of R44. -/
def targetCode (s : State) (core asid : Nat) (src : CodeSrc) (tgt : Int) : Nat :=
  if tgt % 8 ≠ 0 then 1
  else if tgt < 0 ∨ tgt ≥ 2 ^ 48 then 2
  else
    match fetchAt s core asid src tgt.toNat with
    | .error k => k
    | .ok h => if !headerLand h then 4 else if !headerOk h then 5 else 0

/-- The checks of a handler's entry, S.TVEC (R193, R194, R419): those of R14 but LANDING, since a handler's first clause
needs no LAND (R319: the printed handler's has none). -/
def entryCode (s : State) (core asid : Nat) (src : CodeSrc) (tgt : Nat) : Nat :=
  match targetCode s core asid src tgt with
  | 4 =>
    match fetchAt s core asid src tgt with
    | .ok h => if headerOk h then 0 else 5
    | .error k => k
  | k => k

/-- The handle of a code source. -/
def srcHandle : CodeSrc → Nat
  | .buffer h => h
  | _ => 0

/-- The address part of a fault at fetch: ACC 3 (Table 18.4). -/
def fetchAddr (asid : Nat) (src : CodeSrc) (o : Int) : FaultAddr :=
  { asid := asid, handle := srcHandle src, offset := wrap o 64, acc := 3, page := (o / 4096).toNat }

/-- The trap of a fibre whose transfer fails (R44). -/
def transferTrap (asid : Nat) (src : CodeSrc) (code : Nat) (tgt : Int) : Trap :=
  { cause := codeCause code, transfer := code,
    addr := if code = 4 ∨ code = 5 then none else some (fetchAddr asid src tgt) }

/-! ### Formats of sources -/

/-- The live registers of a list: a dead source reads as zero and its format is not checked (R235). -/
def Team.liveRegs (v : Team) (rs : List Nat) : List Nat := rs.filter (fun n => !(v.reg n).isDead)

/-- Every live source of a team has one of the listed formats; S-lane registers carry no tag (R78). -/
def formatsOk (v : Team) (rs : List Nat) (ok : Nat → Bool) : Bool :=
  v.slane || (v.liveRegs rs).all (fun n => ok (v.reg n).fmt)

/-- The tag formats of an operand that is a number (R188). -/
def numFmts : List Nat := [8, 7, 0]

end Sys2Proof.Machine
end

