-- ==== Sys2Proof/Machine/Issue.lean ====
section
/-! DEFINITION. How a word issues and retires: what it reads and writes, its latency, its issue clk, STALL and DEAD_READ,
the DEAD marks, what follows for its path, and the clause that its fetch port stands in (R12, R16–R20, R36, R38, R195,
R234, R235). -/
namespace Sys2Proof.Machine

/-! ### What a word reads and writes -/

/-- The vector registers whose values a word reads, in the order A, B, C, D (R230, R235). -/
def valueSrcs : Raw → List Nat
  | .r op w =>
    let r := rRow op w
    let a := w.va.toNat
    let b := w.vb.toNat
    let imm := bitOf w.md 10 && [0x18, 0x19, 0x1B, 0x1E, 0x1F, 0x20, 0x22, 0x24, 0x25, 0x26, 0x27, 0x28, 0x29].contains op
    if op = 0x16 ∨ op = 0x17 then []
    else if op = 0x37 then [a, a + 1, b, b + 1]
    else if op = 0x4B then List.range' a (qcvtRegs (fieldOf w.md 2 1) w.ty.toNat)
    else
      (if r.va = .reg then [a] else []) ++ (if r.vb = .reg ∧ !imm then [b] else []) ++
        (if r.vc = .reg then [w.vc.toNat] else [])
  | .i op w =>
    if op = 0x02 ∧ w.md ≠ 0 then [w.va.toNat]
    else if op = 0x06 ∨ op = 0x07 then [w.va.toNat]
    else if op = 0x0A ∧ !bitOf w.md 2 then [w.va.toNat]
    else if op = 0x14 then List.range' w.va.toNat w.md.toNat
    else if op = 0x2F ∧ w.md = 6 then [w.vd.toNat]
    else []
  | .m op w =>
    let a := w.va.toNat
    let d := w.vd.toNat
    let wide := w.width = 4
    if op = 0x59 then []
    else if op = 0x52 ∨ op = 0x53 then if wide then [a, d, d + 1] else [a, d]
    else if op = 0x54 then [a, d, d + 1]
    else if op = 0x56 ∨ op = 0x10 then [a, d]
    else if op = 0x57 then if wide then [a, d, d + 1] else [a, d]
    else if op = 0x58 then if wide then [a, d, d + 1, d + 2, d + 3] else [a, d, d + 1]
    else [a]
  | .e op w =>
    let r := eRow op w
    (if r.va = .reg then [w.va.toNat] else []) ++ (if r.vb = .reg then [w.vb.toNat] else []) ++
      (if r.vc = .reg then [w.vc.toNat] else []) ++ (if r.vd = .reg ∧ op ≠ 0x64 ∧ op ≠ 0x6F then [w.vd.toNat] else [])
  | .s op w =>
    let a := [w.va.toNat]
    if op = 0x71 then if bitOf w.md 0 then [] else a
    else if op = 0x74 ∨ op = 0x76 ∨ op = 0x7B ∨ op = 0x7C then a ++ [w.vd.toNat]
    else if op = 0x75 then if w.md = 1 then a ++ [w.vd.toNat] else a
    else if op = 0x73 ∨ op = 0x77 ∨ op = 0x78 ∨ op = 0x79 ∨ op = 0x7A then a
    else []
  | .p w => copSrcs w.op0 ++ copSrcs w.op1

/-- The predicates that a word reads, its guard among them. -/
def predSrcs : Raw → List Nat
  | .r op w =>
    let g := [w.pg.toNat]
    if op = 0x0B then if fieldOf w.md 1 0 = 2 then g else w.va.toNat :: g
    else if op = 0x0C then w.va.toNat :: w.vb.toNat :: g
    else if op = 0x23 then w.vc.toNat :: g
    else if op = 0x1A ∧ bitOf w.md 4 then fieldOf w.md 3 0 :: g
    else g
  | .i _ w => [w.pg.toNat]
  | .m _ w => [w.pg.toNat]
  | .e op w => if op = 0x12 ∧ w.md.toNat < 2 then [w.va.toNat] else []
  | .s _ w => [w.pg.toNat]
  | .p _ => []

/-- The narrow opcodes that read a register through its scale link (R118). -/
def readsScale (op : Nat) : Bool := [0x38, 0x39, 0x3A, 0x3B, 0x3D, 0x3E, 0x3F, 0x4C, 0x4D, 0x4E, 0x56].contains op

/-- The format that a source is converted from: its tag's; TYPE's for a dead source (R115); i64 on the S-lane (R106). -/
def cvtSrc (v : Team) (n ty : Nat) : Nat := if v.slane then 7 else if (v.reg n).isDead then ty else (v.reg n).fmt

/-- A conversion writes part of VD and keeps the rest (R115): its source elements are fewer than its result's. -/
def keepsPart (t : Team) (op : Nat) (w : RW) : Bool :=
  (op == 0x49 || op == 0x4A) && fmtElems (cvtSrc t w.va.toNat w.ty.toNat) < fmtElems w.ty.toNat

/-- What a word reads beside the registers of `valueSrcs`, its predicates and scale links: the register whose tag TAGQ
reads (R70), the VD that a narrowing conversion keeps in part (R115), the scale register that QCVT with FIX or SCADJ
without NORM reads (R122, R124), and the guard slot of a guarded command (R27). -/
def otherSrcs (t : Team) : Raw → List Dst
  | .r op w =>
    (if op = 0x16 then [.vreg w.va.toNat] else []) ++ (if keepsPart t op w then [.vreg w.vd.toNat] else []) ++
      (if (op = 0x4B ∧ bitOf w.md 0 = true) ∨ (op = 0x4D ∧ bitOf w.md 0 = false) then [.scale (fieldOf w.md 10 7)] else [])
  | .e _ w => if w.ge = 1 then [.guard w.gslot.toNat] else []
  | _ => []

/-- Everything that a word reads at a team's tags. -/
def srcsOf (t : Team) (r : Raw) : List Dst :=
  let vs := valueSrcs r
  vs.map .vreg ++ (predSrcs r).map .pred ++
    (if readsScale (rawOp r) then
       vs.filterMap (fun n => if (t.reg n).link = 0 then none else some (.scale ((t.reg n).link - 1)))
     else []) ++ otherSrcs t r

/-- The scale register that SYSR or SYSW names: it waits for every earlier write to it (R239). -/
def scaleWaits : Raw → List Dst
  | .s op w =>
    let n := w.sreg.toNat
    if (op = 0x70 ∨ op = 0x71) ∧ 0x110 ≤ n ∧ n < 0x130 then [.scale ((n - 0x110) / 2)] else []
  | _ => []

/-- Everything that a word writes as its result. A write to p0 is discarded (R42), and DEAD gives no value to the registers
that it marks, so it is no writer that waits or raises STALL (DEDUCED, log 94). -/
def dstsOf : Raw → List Dst
  | .r op w =>
    let r := rRow op w
    let d := w.vd.toNat
    let n := if op = 0x36 ∨ op = 0x45 then 2 else if op = 0x37 then 4
      else if op = 0x4C then dqcvtRegs (fieldOf w.md 5 3) w.ty.toNat else 1
    let narrow := isNarrow w.ty.toNat
    let pred (n : Nat) : List Dst := if n = 0 then [] else [.pred n]
    (if r.vd = .reg then (List.range' d n).map .vreg else if r.vd = .pred then pred d else []) ++
      (if op = 0x1A then pred (fieldOf w.md 8 5) else []) ++
      (if op = 0x4B ∨ (op = 0x4D ∧ bitOf w.md 0 = true) ∨ (narrow ∧ [0x38, 0x39, 0x3A, 0x3B, 0x3D, 0x3E].contains op = true) then
         [.scale (fieldOf w.md 10 7)] else [])
  | .i op w => if op = 0x04 ∨ op = 0x06 ∨ op = 0x07 ∨ op = 0x14 ∨ op = 0x2F then [.vreg w.vd.toNat] else []
  | .m op w =>
    let d := w.vd.toNat
    let two := if w.width = 4 then [.vreg d, .vreg (d + 1)] else [.vreg d]
    if op = 0x50 ∨ op = 0x51 ∨ op = 0x57 ∨ op = 0x58 then two
    else if op = 0x55 then [.vreg d, .scale (fieldOf w.off 10 7)]
    else if op = 0x5F then [.vreg d] else []
  | .e op w => if op = 0x64 ∨ op = 0x6F then [.vreg w.vd.toNat] else if op = 0x11 ∨ op = 0x12 then [.guard w.vd.toNat] else []
  | .s op w =>
    if op = 0x70 ∨ op = 0x73 ∨ op = 0x77 ∨ op = 0x78 ∨ op = 0x7B ∨ op = 0x7C ∨ (op = 0x7E ∧ w.md ≠ 2) then [.vreg w.vd.toNat]
    else []
  | .p w =>
    (if w.op0.cop = 0 then [] else [.vreg w.op0.vd.toNat]) ++ (if w.op1.cop = 0 then [] else [.vreg w.op1.vd.toNat])

/-- The registers that a word's DEAD marks name (R25, R100, Table 01.7). -/
def deadMarks : Raw → List Nat
  | .r op w =>
    let a := w.va.toNat
    let b := w.vb.toNat
    (if bitOf w.dead 0 then (if op = 0x37 then [a, a + 1] else if op = 0x4B then valueSrcs (.r op w) else [a]) else []) ++
      (if bitOf w.dead 1 then (if op = 0x37 then [b, b + 1] else [b]) else []) ++
      (if bitOf w.dead 2 then [w.vc.toNat] else [])
  | .p w =>
    let m (c : Compact) : List Nat :=
      (if bitOf c.dead 0 then [c.va.toNat] else []) ++ (if bitOf c.dead 1 then [c.vb.toNat] else [])
    m w.op0 ++ m w.op1
  | _ => []

/-- The guard of a word: predicate and negation; none for formats E and P (R24, R27, R28). -/
def guardOf : Raw → Nat × Bool
  | .r _ w => (w.pg.toNat, w.pn == 1)
  | .i _ w => (w.pg.toNat, w.pn == 1)
  | .m _ w => (w.pg.toNat, w.pn == 1)
  | .s _ w => (w.pg.toNat, w.pn == 1)
  | .e _ _ => (0, false)
  | .p _ => (0, false)

/-! ### Latency (Table 01.2) -/

/-- The latency class of a class 1 or 2 opcode under a TYPE; 0 stands for scoreboarded. -/
def latencyOf (op ty : Nat) : Nat :=
  if [0x18, 0x19, 0x1A, 0x1F, 0x20, 0x21, 0x22, 0x23, 0x24, 0x25, 0x26, 0x27, 0x28, 0x29, 0x2A, 0x2B, 0x2C, 0x2D, 0x2E,
      0x2F, 0x30, 0x0C, 0x3F, 0x46, 0x16].contains op then 1
  else if op = 0x3D ∨ op = 0x3E then (if typesFloat.contains ty then 1 else 0)
  else if op = 0x1E then 2
  else if op = 0x1B ∨ op = 0x1C ∨ op = 0x1D then (if ty ≥ 7 then 3 else 2)
  else if op = 0x38 ∨ op = 0x39 ∨ op = 0x3A ∨ op = 0x3B then
    (if ty = 12 then 3 else if typesFloat.contains ty then 2 else 0)
  else if op = 0x47 ∨ op = 0x48 ∨ op = 0x49 ∨ op = 0x4A then 3
  else 0

/-- The full opcode of a compact operation (Table 01.8). -/
def copOpcode (c : Nat) : Nat :=
  nth [0x00, 0x2E, 0x18, 0x19, 0x18, 0x19, 0x1B, 0x1C, 0x1F, 0x20, 0x21, 0x24, 0x25, 0x26, 0x27, 0x28, 0x29, 0x2C, 0x2D,
       0x38, 0x39, 0x3A, 0x3D, 0x3E, 0x40, 0x41, 0x42, 0x43, 0x44, 0x38, 0x3A, 0x39] 0 c

/-- The TYPE code of a TYPE3 (Table 01.7); MOV copies the tag. -/
def copType (c : Compact) : Nat :=
  if c.cop = 1 then 31 else 5 + c.ty.toNat

/-- The latency class of each destination of a word; 0 stands for scoreboarded. SYSCALL's VD is written by the last TQPOST
(R68), readable at once to the fibres that it lets go. -/
def latencies (r : Raw) : List (Dst × Nat) :=
  match r with
  | .p w =>
    let one (c : Compact) : List (Dst × Nat) :=
      if c.cop = 0 then [] else [(.vreg c.vd.toNat, latencyOf (copOpcode c.cop.toNat) (copType c))]
    one w.op0 ++ one w.op1
  | .r op w => (dstsOf r).map (fun d => (d, latencyOf op w.ty.toNat))
  | .i op _ => if op = 0x14 then [] else (dstsOf r).map (fun d => (d, latencyOf op 0))
  | _ => (dstsOf r).map (fun d => (d, 0))

/-- The bound of Table 03.5 within which a cross-lane word delivers; 0 where the spec gives none. -/
def deliveryBound (op : Nat) : Nat :=
  if op = 0x31 ∨ op = 0x33 then 6 else if op = 0x32 then 8 else if op = 0x34 ∨ op = 0x35 then 12 else if op = 0x36 then 16
  else if op = 0x37 then 20 else 0

/-- Words that wait for every write to their sources (R92, R149, R172). -/
def waitsSources (op : Nat) : Bool := (0x31 ≤ op && op ≤ 0x37) || op == 0x5B || op == 0x65

/-- The bound within which a word of a quadrant that issues at a clk delivers: its own and those of the quadrant's cross-lane
words that are still to deliver (R93); 0 where the spec gives none. -/
def queuedBound (c : Core) (quad op clk : Nat) : Nat :=
  if deliveryBound op = 0 then 0
  else (c.crossing.filter (fun x => x.quad == quad && x.ready > clk)).foldl (fun a x => a + x.bound) (deliveryBound op)

/-- Clk from issue to delivery of a scoreboarded result within a bound (R17, R93). -/
def scoreDelay (bound tick : Nat) : Nat := if bound = 0 then 1 + Config.latency tick else 1 + Config.delivery tick % bound

/-! ### The path that issues -/

/-- What issues next: the agent, its fetch port where it is a team, its clause, the issuing fibres, and the team. -/
structure Path where
  agent : Agent
  port : Nat
  clause : Clause
  lanes : BitVec 32
  team : Team
  deriving DecidableEq, Repr

/-- Fibres of a set that can issue: live, not parked, not waiting. -/
def readyOf (t : Team) (m : BitVec 32) : BitVec 32 :=
  maskOf (fun i => m.getLsbD i && (t.lane i).live && !(t.lane i).parked && (t.lane i).wait.isNone)

/-- The S context of a core is suspended (R420). -/
def suspended (c : Core) (k : Ctx) : Bool :=
  match k with
  | .s => c.mctx.trap || c.sctx.stopped
  | .m => false

/-- The path at the cursor, if it has a fibre that can issue. -/
def openPath (s : State) : Option Path :=
  match s.cursor with
  | .port c p =>
    match mget? (s.core c).ports p with
    | some cl =>
      match (s.core c).team? cl.slot with
      | some t =>
        let m := readyOf t cl.lanes
        if m = 0 ∨ t.slane = true then none else some ⟨.team c cl.slot, p, cl, m, t⟩
      | none => none
    | none => none
  | .lane c k =>
    match ((s.core c).ctx k).clause with
    | some cl =>
      let t := asTeam (s.core c) k
      if readyOf t 1 = 0 ∨ suspended (s.core c) k = true then none else some ⟨.ctx c k, 0, cl, 1, t⟩
    | none => none

/-- The free lane slots that FORK's mask names. -/
def forkLanes (t : Team) (mask : BitVec 32) : BitVec 32 := mask &&& ~~~t.liveMask

/-- The register that a word would read or write too early (R18). -/
def earlyReg (p : Path) (r : Raw) (clk : Nat) : Option Dst :=
  if (lanesOf p.lanes).any (fun i => (p.team.lane i).stall3) then none
  else
    let busy (score : Bool) (d : Dst) : Bool :=
      (inFlight clk p.team.pend).any (fun x => x.dst == d && x.lanes &&& p.lanes != 0 && (!score || x.scoreboarded))
    let srcs := if waitsSources (rawOp r) then [] else srcsOf p.team r
    (srcs.find? (busy false)).orElse (fun _ => (dstsOf r).find? (busy true))

/-- The number of a destination in a fault record. -/
def dstReg : Dst → Nat
  | .vreg n => n
  | .pred n => n
  | .scale n => n
  | .guard n => n

/-- The fibres of a path for which a word's guard holds (R40, active). -/
def activeOf (v : Team) (lanes : BitVec 32) (r : Raw) : BitVec 32 :=
  let (g, neg) := guardOf r
  if g = 0 then (if neg then 0 else lanes) else maskOf (fun i => lanes.getLsbD i && (v.pred i g != neg))

/-- What a word knows of its issue. -/
def issOf (s : State) (p : Path) (r : Raw) (clk : Nat) : Iss :=
  let c := s.core (agentCore p.agent)
  { core := agentCore p.agent, agent := p.agent, lanes := p.lanes,
    act := activeOf (staleView p.team p.lanes clk) p.lanes r, pc := p.clause.hpc + 8 * (p.clause.idx + 1),
    hpc := p.clause.hpc, clk := clk, deadmode := c.deadmode && !p.team.slane, final := p.clause.words.length ≤ 1,
    bits := wordOfRaw r }

/-- The word is turned away before it has any effect: it is rejected, an early reader, or reads a dead source (R38). -/
def turnedAway (s : State) (p : Path) (iss : Iss) (r : Raw) : Bool :=
  (issueReject p.team.slane p.team.priv p.team.wsize (p.clause.header.toNat % 8) iss.final r).isSome ||
    (((s.core iss.core).stallchk || bit p.clause.header.toNat 8) && (earlyReg p r iss.clk).isSome) ||
    (deadOf iss (staleView p.team p.lanes iss.clk) (valueSrcs r)).isSome

/-- FORK waits, once its checks have passed, for results that an engine has yet to deliver to a slot that it fills (R49). -/
def forkWaits (s : State) (p : Path) (clk : Nat) : Raw → Bool
  | .i 0x07 w =>
    let r : Raw := .i 0x07 w
    let iss := issOf s p r clk
    let v := staleView p.team p.lanes clk
    let x (i : Nat) : Word := (v.reg w.va.toNat).lane i
    (inFlight 0 p.team.pend).any (fun y => y.ready ≥ never && y.wrote &&& forkLanes p.team w.imm != 0) && iss.act != 0 &&
      !turnedAway s p iss r && formatsOk v [w.va.toNat] numFmts.contains && equalOver iss.act x &&
      targetCode s iss.core p.team.asid p.team.code (x (lowest iss.act)).toNat == 0
  | _ => false

/-- The clk at which `fence.ar` completes at the earliest (R308, R309): an earlier strong write of the fibres at its scope or
wider is performed only after the reads that it orders are complete. -/
def fenceClk (p : Path) : Raw → Nat
  | .m 0x59 w =>
    if w.order = 3 then
      p.team.pend.foldl (fun a x => if x.read ≥ 3 + w.scope.toNat ∧ x.lanes &&& p.lanes ≠ 0 then max a x.ready else a) 0
    else 0
  | _ => 0

/-- The clk at which a path's next word issues (R16, R20, R92). A cross-lane word's wait comes before its issue: it reads
when it issues, so what another path's words write meanwhile is seen (log 80). -/
def issueClk (s : State) (p : Path) (r : Raw) : Nat :=
  let e := (lanesOf p.lanes).foldl (fun a i => max a (p.team.lane i).earliest) s.now
  let e := if (lanesOf p.lanes).any (fun i => (p.team.lane i).stall3) then
      readyClk p.team p.lanes false (srcsOf p.team r ++ dstsOf r) e else e
  let e := readyClk p.team p.lanes true (scaleWaits r) e
  let e := if forkWaits s p e r then max e never else e
  let e := max e (fenceClk p r)
  if waitsSources (rawOp r) then readyClk p.team p.lanes true (srcsOf p.team r) e else e

/-- The fibres for which a word with an issue-time cause of its own traps: active(t), or the candidates of an engine
word (R38, R147, R157). -/
def subjects (iss : Iss) (r : Raw) : BitVec 32 :=
  match r with
  | .e _ _ => iss.lanes
  | _ => iss.act

/-! ### Retirement -/

/-- A path's clause after its word: one word further, or closed. -/
def advance (cl : Clause) (lanes : BitVec 32) : Option Clause :=
  if cl.words.length ≤ 1 ∨ lanes = 0 then none
  else some { cl with idx := cl.idx + 1, words := cl.words.drop 1, lanes := lanes }

/-- The lane of a fibre that issued a word and did not trap (R16). -/
def retireLane (iss : Iss) (stall : Nat) (res : Res) (i : Nat) (l : Lane) : Lane :=
  if !l.live then l
  else
    let l := { l with earliest := if stall = 3 then iss.clk + 3 else iss.clk + 1 + stall, stall3 := stall == 3 }
    match res.moves.find? (fun m => m.1 == i) with
    | some m => { l with pc := m.2, hpc := m.2 }
    | none =>
      match res.wait with
      | some x => { l with pc := iss.pc, hpc := iss.hpc, last := iss.final, wait := some (l.wait.getD x) }
      | none => { l with pc := iss.pc + 8, hpc := if iss.final then iss.pc + 8 else iss.hpc }

/-- Words that write every lane of their result (R99, R121, R140). -/
def writesWhole : Raw → Bool
  | .r op w => [0x36, 0x37, 0x4B, 0x4C, 0x4D].contains op ||
      (isNarrow w.ty.toNat && [0x38, 0x39, 0x3A, 0x3B, 0x3D, 0x3E].contains op)
  | .m op _ => op == 0x55
  | _ => false

/-- The lanes of a destination that a word writes for fibres `done`; what is not held by lane is written whole. -/
def wroteOf (slane : Bool) (r : Raw) (done : BitVec 32) : Dst → BitVec 32
  | .vreg _ => if slane || writesWhole r then BitVec.allOnes 32 else done
  | .pred _ => done
  | _ => BitVec.allOnes 32

/-- The writes of a word that are still in flight after it (R16–R19). -/
def pendsOf (before after : Team) (iss : Iss) (r : Raw) (done : BitVec 32) (delay : Nat) : List Pend :=
  (latencies r).filterMap (fun d =>
    let clk := iss.clk + (if d.2 = 0 then delay else d.2)
    if d.2 = 1 || after.pend.any (fun p => p.dst == d.1 && p.ready ≥ never && !before.pend.contains p) then none
    else some { dst := d.1, lanes := iss.lanes, wrote := wroteOf before.slane r done d.1, ready := clk,
                scoreboarded := d.2 == 0, old := oldOf before d.1, read := match r with
                  | .m _ _ => 1
                  | _ => 0 })

/-- A read in flight after a word of its fibres that orders it: a releasing fence, or a strong write that is a release or
comes after such a fence (R145, R308). -/
def Pend.ordered (p : Pend) (iss : Iss) : Raw → Pend
  | .m op w =>
    if p.read = 0 ∨ p.lanes &&& iss.lanes = 0 ∨ iss.act = 0 then p
    else if op = 0x59 ∧ w.order.toNat ≥ 2 then { p with read := max p.read 2 }
    else if [0x52, 0x54, 0x56, 0x57, 0x58].contains op ∧ w.strong = 1 ∧ (w.order.toNat ≥ 2 ∨ p.read ≥ 2) then
      { p with read := max p.read (3 + w.scope.toNat) }
    else p
  | _ => p

/-- The content that a write in flight hides, after a word of another path has written the register: the tag is the
team's, so it follows the younger write. -/
def retag (new : VReg) : Old → Old
  | .vreg r => if new.isDead then .vreg r else .vreg ⟨new.fmt, new.link, .general ((List.range 32).map r.lane)⟩
  | x => x

/-- The writes in flight before a word, after it: a result of latency 1 discards an older write in the lanes that it
wrote (R17, R19), and what another path's write hides takes the tag that the word has set. -/
def overtake (pend : List Pend) (after : Team) (iss : Iss) (r : Raw) (done : BitVec 32) : List Pend :=
  (pend.map (fun p =>
    match (latencies r).find? (fun d => d.1 == p.dst) with
    | none => p
    | some d =>
      let p := if d.2 = 1 then { p with wrote := p.wrote &&& ~~~wroteOf after.slane r done p.dst } else p
      match p.dst with
      | .vreg n => if p.lanes &&& iss.lanes = 0 then { p with old := retag (after.reg n) p.old } else p
      | _ => p)).filter (fun p => p.wrote != 0)

/-- The fibres of a path that a word does not trap. -/
def passedOf (p : Path) (res : Res) : BitVec 32 :=
  maskOf (fun i => p.lanes.getLsbD i && !(res.traps.map (fun x => x.1)).contains i)

/-- Clk from issue to delivery of the scoreboarded results of a word of a path. LOOP, GSET and GRES are delivered in the next
clk: LOOP's counter stands at the end of a team that ends right after it (R221, R360, R395), and the command after a GSET is
held (R65). An ATOM's old value is not there in the clk after it, in which the FEND of Table 20.7 still finds the operand
(R360; all DEDUCED, log 93). -/
def delayOf (s : State) (p : Path) (r : Raw) (clk : Nat) : Nat :=
  if [0x06, 0x11, 0x12].contains (rawOp r) then 1
  else b2n (rawOp r == 0x57) + scoreDelay (match p.agent with
    | .team c slot => queuedBound (s.core c) (slot / 4) (rawOp r) clk
    | .ctx _ _ => 0) s.tick

/-- A region after a word: it is entered once a fibre has left REGION's clause, or a word of its entry clause issues (R53). -/
def enterRegion (before after : Team) (iss : Iss) (r : Region) : Region :=
  let inside (l : Lane) : Bool := l.live && r.at_ < l.pc && l.pc < r.pc
  { r with entered := r.entered || iss.hpc == r.pc ||
      (List.range 32).any (fun i => inside (before.lane i) && (after.lane i).live && !inside (after.lane i)) }

/-- The team after a word, before its traps are taken: its fibres moved on, the word's writes in flight (R16–R19). -/
def retiredTeam (delay : Nat) (p : Path) (iss : Iss) (r : Raw) (res : Res) : Team :=
  let ok := passedOf p res
  let writes := ok &&& iss.act != 0
  let t := res.t.modLanes ok (retireLane iss (stallOf p.clause.header p.clause.idx) res)
  let t := { t with region := t.region.map (enterRegion p.team t iss) }
  let older := t.pend.filter (fun x => p.team.pend.contains x)
  let newer := t.pend.filter (fun x => !p.team.pend.contains x)
  let done := ok &&& iss.act
  { t with pend := ((if writes then overtake older res.t iss r done else older).map (fun x => x.ordered iss r)) ++ newer ++
      (if writes then pendsOf p.team res.t iss r done delay else []) }

/-- A core after a word of a team: the team, its port one word further or free, the port taken for this clk, and a
cross-lane word in its quadrant's queue (R93). -/
def teamDone (p : Path) (iss : Iss) (r : Raw) (delay : Nat) (ok : BitVec 32) (now slot : Nat) (t : Team) (x : Core) : Core :=
  { (x.setTeam slot t) with
    ports := match advance p.clause (maskOf (fun i => ok.getLsbD i && (t.lane i).live && !(t.lane i).parked)) with
      | some cl => mset x.ports p.port cl
      | none => mdel x.ports p.port
    portAt := mset x.portAt p.port (iss.clk + 1)
    crossing := x.crossing.filter (fun y => y.ready > now) ++
      (if deliveryBound (rawOp r) = 0 ∨ ok &&& iss.act = 0 then [] else [⟨slot / 4, iss.clk + delay, deliveryBound (rawOp r)⟩])
    residency := now, residencyPosted := false }

/-- A core after a word of a context. -/
def ctxDone (p : Path) (iss : Iss) (now : Nat) (k : Ctx) (t : Team) (x : Core) : Core :=
  let x := ofTeam x k t
  { (x.setCtx k { x.ctx k with clause := advance p.clause 1 }) with
    portAt := mset x.portAt 8 (iss.clk + 1), residency := now, residencyPosted := false }

/-- The state after a word: traps taken, its path moved on, its port advanced, the clk at which it issued reached. -/
def retire (s0 : State) (p : Path) (iss : Iss) (r : Raw) (res : Res) : State :=
  let delay := delayOf s0 p r iss.clk
  let taken := takeTraps { res.s with now := max res.s.now iss.clk, tick := s0.tick + 1 } iss (retiredTeam delay p iss r res) res.traps
  let s := taken.1
  match p.agent with
  | .team c slot => s.modCore c (teamDone p iss r delay (passedOf p res) s.now slot taken.2)
  | .ctx c k => if res.traps.isEmpty then s.modCore c (ctxDone p iss s.now k taken.2) else s

/-- A word that is turned away before it executes: every listed fibre traps, and it has no other effect. -/
def turnAway (s : State) (t : Team) (m : BitVec 32) (x : Trap) : Res := { s := s, t := t, traps := trapAll m x }

/-- The registers whose DEAD marks take effect: the marks apply when the word's active fibres are all of the team's live
ones and none is parked (R234). -/
def marksOf (iss : Iss) (t : Team) (r : Raw) : List Nat := if compactOk iss t && iss.act != 0 then deadMarks r else []

/-- A team with registers made dead. -/
def killAll (ns : List Nat) (t : Team) : Team := ns.foldl (fun (t : Team) n => t.kill n) t

/-- The candidates of a BRU.r that are no subjects of its issue-time cause, where its guard is divergent: BRU raises
UNIFORM for every candidate that has no earlier cause (R38, R46). -/
def strays (iss : Iss) : Raw → List (Nat × Trap)
  | .i 0x02 _ => if iss.act = 0 ∨ iss.act = iss.lanes then [] else trapAll (iss.lanes &&& ~~~iss.act) { cause := cUNIFORM }
  | _ => []

/-- What a word does, once its path, clk and view are known: the rejections of decode, STALL and DEAD_READ, then the
word's own effect, whose DEAD marks apply where R234 lets them. -/
def effect (s : State) (p : Path) (iss : Iss) (r : Raw) (body : State → Iss → Team → Team → Res) : Res :=
  match issueReject p.team.slane p.team.priv p.team.wsize (p.clause.header.toNat % 8) iss.final r with
  | some x => turnAway s p.team p.lanes { cause := rejectCause x }
  | none =>
    let checking := (s.core iss.core).stallchk || bit p.clause.header.toNat 8
    match (if checking then earlyReg p r iss.clk else none) with
    | some d => turnAway s p.team p.lanes { cause := cSTALL, reg := dstReg d }
    | none =>
      let v := staleView p.team p.lanes iss.clk
      match deadOf iss v (valueSrcs r) with
      | some n => { s := s, t := p.team, traps := trapAll (subjects iss r) { cause := cDEADREAD, reg := n } ++ strays iss r }
      | none =>
        let marks := marksOf iss p.team r
        let res := body s iss v (killAll marks p.team)
        if marks.isEmpty || res.traps.isEmpty then res else body s iss v p.team

/-- A word issues on the path at the cursor and retires. -/
def runWord (r : Raw) (body : State → Iss → Team → Team → Res) (s : State) : Host.Outcome State Fault Refusal :=
  match openPath s with
  | none => .fault .noIssuer
  | some p =>
    let iss := issOf s p r (issueClk s p r)
    .next (retire s p iss r (effect s p iss r body))

end Sys2Proof.Machine
end

