-- ==== Sys2Proof/Machine/Operands.lean ====
section
/-! DEFINITION. Operand forms: which tag formats a source may have (R74, R75, R102), the immediate B (R73), the operands
of engine and class 5 words (R157, R188), shapes of results (R76), and the bodies that element-wise words share. -/
namespace Sys2Proof.Machine

/-- The unsigned integer format of an element width. -/
def unsignedOf (w : Nat) : Nat := if w = 8 then 2 else if w = 16 then 4 else if w = 32 then 6 else if w = 4 then 20 else 8

/-- The signed and the unsigned format of one width (R74). -/
def twin (f g : Nat) : Bool :=
  f == g || (f, g) == (1, 2) || (f, g) == (2, 1) || (f, g) == (3, 4) || (f, g) == (4, 3) || (f, g) == (5, 6) ||
    (f, g) == (6, 5) || (f, g) == (7, 8) || (f, g) == (8, 7) || (f, g) == (19, 20) || (f, g) == (20, 19)

/-- No live source has a scale link (R75). -/
def linksNone (v : Team) (rs : List Nat) : Bool := v.slane || (v.liveRegs rs).all (fun n => (v.reg n).link == 0)

/-- The format of the live sources that supply elements: that of the first, raw64 where all are dead (R74, R235). -/
def commonFmt (v : Team) (rs : List Nat) : Nat :=
  match v.liveRegs rs with
  | n :: _ => (v.reg n).fmt
  | [] => 0

/-- Every live source has one format (R74, t = 31). -/
def sameFmt (v : Team) (rs : List Nat) : Bool :=
  v.slane || (v.liveRegs rs).all (fun n => (v.reg n).fmt == commonFmt v rs)

/-- R74: the sources are accepted for TYPE `t`; `free` for the words that read bits in t's layout whatever the format. -/
def typeOk (v : Team) (rs : List Nat) (t : Nat) (free : Bool) : Bool :=
  if t = 31 then sameFmt v rs else free || formatsOk v rs (twin t)

/-- The result format: TYPE, or with t = 31 that of the sources (R74). -/
def resultFmt (v : Team) (rs : List Nat) (t : Nat) : Nat := if t = 31 then commonFmt v rs else t

/-- The pattern of sub-element `j` of the B immediate (R73), truncated to the element. -/
def immElem (signed : Bool) (w : Nat) (imm : Nat) : Nat := if signed then wrap (sext imm 8) w else imm % 256

/-- The lane of 64 bits that the immediate stands for, every sub-element alike (R73). -/
def immLane (t : Nat) (imm : Nat) : Word :=
  let w := fmtBits t
  ofSubs w (List.replicate (64 / w) (immElem (fmtSigned t) w imm))

/-- A value for sub-element-wise words: each sub-element of the lanes mapped. -/
def map2 (w : Nat) (f : Nat → Nat → Nat) (a b : Word) : Word :=
  ofSubs w ((List.range (64 / w)).map (fun j => f (sub a w j) (sub b w j)))

def map1 (w : Nat) (f : Nat → Nat) (a : Word) : Word := ofSubs w ((List.range (64 / w)).map (fun j => f (sub a w j)))

def map3 (w : Nat) (f : Nat → Nat → Nat → Nat) (a b c : Word) : Word :=
  ofSubs w ((List.range (64 / w)).map (fun j => f (sub a w j) (sub b w j) (sub c w j)))

/-- Formats that admit affine shape (R76). -/
def affineFmt (f : Nat) : Bool := f == 5 || f == 6 || f == 7 || f == 8 || f == 21

/-- A shape that is kept only where the compact form gives every lane its value (R76, R232). -/
def fitWant (fmt : Nat) (want : Want) (val : Nat → Word) : Want :=
  match want with
  | .affine b st =>
    if affineFmt fmt && (List.range 32).all (fun i => payLane fmt (.affine b st) i == val i) then want else .general
  | w => w

/-- A source as far as shape goes: base and stride; `none` for general and dead (R76). -/
def lineOf (r : VReg) : Option (Word × Word) :=
  match r.pay with
  | .uniform p => some (p, 0)
  | .affine b st => some (b, st)
  | _ => none

/-- Whether every register of a list is uniform (R76). -/
def allUniform (v : Team) (rs : List Nat) : Bool := rs.all (fun n => (v.reg n).isUniform)

/-- The low element of a pattern: BASE and STRIDE of a 32-bit format have zero upper bytes (R231). -/
def lowElem (fmt : Nat) (x : Word) : Word := BitVec.ofNat 64 (x.toNat % 2 ^ fmtBits fmt)

/-- Uniform where every register source is (Table 03.2). -/
def uniWant (v : Team) (rs : List Nat) : Want := if !v.slane && allUniform v rs then .uniform else .general

/-- An element-wise result written to VD for active(t) (R79). -/
def writeVal (s : State) (iss : Iss) (t : Team) (vd fmt link : Nat) (want : Want) (val : Nat → Word) : Res :=
  { s := s, t := writeReg iss t vd fmt link (fitWant fmt want val) val }

/-- The word raises FORMAT for active(t). -/
def formatTrap (s : State) (iss : Iss) (t : Team) : Res := resTrap s t iss.act cFORMAT

/-- The word raises UNIFORM for active(t). -/
def uniformTrap (s : State) (iss : Iss) (t : Team) : Res := resTrap s t iss.act cUNIFORM

/-! ### Operands of class 5 and engine words -/

/-- Operands that are one value for the path: each sub-element 0 of the lowest lane of a mask, with a tag format in its
list, and equal across the mask; FORMAT of any comes before UNIFORM of any (R38, R147, R157, R188). -/
def scalarOperands (v : Team) (m : BitVec 32) (ops : List (Nat × List Nat)) : Except Nat (List Word) :=
  if !v.slane && ops.any (fun o => !(v.reg o.1).isDead && !o.2.contains (v.reg o.1).fmt) then .error cFORMAT
  else if ops.any (fun o => !equalOver m (v.reg o.1).lane) then .error cUNIFORM
  else .ok (ops.map (fun o => (v.reg o.1).lane (lowest m)))

/-- The tag formats of an operand that names memory (R188). -/
def addrFmts : List Nat := [21]

/-- An n64 result in VD for active(t): uniform, since it is one value, where R77 holds (R188). -/
def writeScalar (iss : Iss) (t : Team) (vd : Nat) (x : Word) : Team := writeReg iss t vd 8 0 .uniform (fun _ => x)

end Sys2Proof.Machine
end

