-- ==== Sys2Proof/Machine/Teams.lean ====
section
/-! DEFINITION. Control transfers (R14, R44), clauses (R9–R13, R36, R37), the paths of a team
(R217), engine counters (R62), launch records as memory (R364), team arrival (R52), and the end of a team (R50, R51). -/
namespace Sys2Proof.Machine

/-! ### Physical memory at its home L2 -/

/-- `n` bytes of physical memory, within one line, written at the home L2 through profile 0 (R286, R364). -/
def physWrite (s : State) (a n v : Nat) : State :=
  let loc := locOf (s.profile 0) a
  let line := loc / 128
  let h := homeOf line
  let s := fetchLine s h line 0
  match s.l2Line h line with
  | some l =>
    let data := BitVec.ofNat 1024 (v % 2 ^ (8 * n) * 2 ^ (8 * (loc % 128)))
    let mask := BitVec.ofNat 128 ((2 ^ n - 1) * 2 ^ (loc % 128))
    let s := s.setLine h line { l with data := blend l.data data mask, dirty := l.dirty ||| mask }
    rewriteUnits (dropL1 s h line none) (fun k => .l2 h (line * 4 + k)) mask []
  | none => s

/-- `n` bytes of physical memory from an address, over as many lines as they need. -/
def physBytes (s : State) (a : Nat) : Nat → List Byte
  | 0 => []
  | n + 1 => BitVec.ofNat 8 (physRead s a 1) :: physBytes s (a + 1) n

/-- Bytes of physical memory written one after another. -/
def physPut (s : State) (a : Nat) : List Byte → State
  | [] => s
  | b :: bs => physPut (physWrite s a 1 b.toNat) (a + 1) bs

/-- The address of the record of a launch (R364). -/
def recAddr (s : State) (lseq : Nat) : Nat := s.reg 0x700 + 256 * (lseq % max 1 (s.reg 0x701))
def recGet (s : State) (lseq off n : Nat) : Nat := physRead s (recAddr s lseq + off) n
def recSet (s : State) (lseq off n v : Nat) : State := physWrite s (recAddr s lseq + off) n v

/-! ### Transfers -/

/-- The code source after a control transfer: a context takes up S.CODE (R419). -/
def targetSrc (s : State) (a : Agent) (t : Team) : CodeSrc :=
  match a with
  | .team _ _ => t.code
  | .ctx c k =>
    let h := ((s.core c).ctx k).code
    if h = 0 then .phys else .buffer h

/-- A control transfer of fibres to their targets under a check: those that fail it trap, the others move (R44). -/
def transferBy (check : CodeSrc → Int → Nat) (s : State) (iss : Iss) (t : Team) (targets : List (Nat × Int)) : Res :=
  let src := targetSrc s iss.agent t
  let coded := targets.map (fun x => (x.1, x.2, check src x.2))
  let bad := coded.filter (fun x => x.2.2 != 0)
  let good := coded.filter (fun x => x.2.2 == 0)
  let s := match iss.agent with
    | .ctx c k => if good.isEmpty then s else s.modCore c (fun x => x.setCtx k { x.ctx k with fetch := src })
    | .team _ _ => s
  { s := s, t := t, traps := bad.map (fun x => (x.1, transferTrap t.asid src x.2.2 x.2.1)),
    moves := good.map (fun x => (x.1, x.2.1.toNat)) }

/-- A control transfer under R14. -/
def transfer (s : State) (iss : Iss) (t : Team) (targets : List (Nat × Int)) : Res :=
  transferBy (fun src x => targetCode s iss.core t.asid src x) s iss t targets

/-- A context's transfer to its handler. -/
def enterHandler (s : State) (iss : Iss) (t : Team) (tvec : Nat) : Res :=
  transferBy (fun src x => entryCode s iss.core t.asid src x.toNat) s iss t [(0, (tvec : Int))]

/-! ### Clauses -/

/-- The cause at fetch that comes first in the order of R38, of two words' transfer codes: BOUNDS, PAGE, MEMERR. -/
def firstCode (j k : Nat) : Nat := if j = 2 ∨ k = 2 then 2 else if j = 3 ∨ k = 3 then 3 else j

/-- The words of a clause, in order; where some cannot be fetched, the first of their causes in the order of R38. -/
def clauseWords (s : State) (core asid : Nat) (src : CodeSrc) (o : Nat) : Nat → Except Nat (List Word)
  | 0 => .ok []
  | n + 1 =>
    match fetchAt s core asid src o, clauseWords s core asid src (o + 8) n with
    | .ok w, .ok ws => .ok (w :: ws)
    | .error j, .error k => .error (firstCode j k)
    | .error j, .ok _ => .error j
    | .ok _, .error k => .error k

/-- What the next clause of a path is: the header's offset, the header, the words left to issue, and the index of the
first; or where and why it cannot begin: the PC, the cause, the word, and the address part (R36, R37, R38, and the alignment
of R14, which R419 asks of S.TVEC too). A path that stands inside a clause issues the words from its PC. -/
def clauseAt (s : State) (core : Nat) (t : Team) (pc hpc : Nat) :
    Except (Nat × Nat × Word × Option FaultAddr) (Nat × Word × List Word × Nat) :=
  let fail (o k : Nat) (w : Word) : Except (Nat × Nat × Word × Option FaultAddr) (Nat × Word × List Word × Nat) :=
    .error (o, codeCause k, w, some (fetchAddr t.asid t.code o))
  match (if hpc % 8 ≠ 0 then .error 1 else fetchAt s core t.asid t.code hpc) with
  | .error k => fail hpc k 0
  | .ok h0 =>
    let past := pc ≠ hpc ∧ pc > hpc + 8 * headerLen h0
    let o := if past then pc else hpc
    match (if past then fetchAt s core t.asid t.code pc else .ok h0) with
    | .error k => fail o k 0
    | .ok h =>
      match clauseWords s core t.asid t.code (o + 8) (headerLen h) with
      | .error k => fail o k h
      | .ok ws =>
        if !headerOk h then .error (o, cILLEGAL, h, none)
        else
          let raw (w : Word) : Option Reject :=
            match rawOfWord w with
            | none => some .illegal
            | some r => issueReject t.slane t.priv t.wsize (bits h.toNat 2 0) true r
          let check (i : Nat) : Option Reject :=
            let w := nth ws 0 i
            match raw w with
            | some .illegal => some .illegal
            | x =>
              match rawOfWord w with
              | some r => if endsClause (rawOp r) && i + 1 != headerLen h then some .illegal else x
              | none => x
          match (List.range (headerLen h)).find? (fun i => (check i).isSome) with
          | some i => .error (o + 8 * (i + 1), rejectCause ((check i).getD .illegal), nth ws 0 i, none)
          | none =>
            let first := if pc > o ∧ !past then (pc - o) / 8 - 1 else 0
            .ok (o, h, ws.drop first, first)

/-- The header after the clause in which a word stands: for the word at the cursor, by its clause's header. -/
def nextHeader (s : State) (iss : Iss) : Nat :=
  match openPath s with
  | some p => p.clause.hpc + 8 * (headerLen p.clause.header + 1)
  | none => iss.pc + 8

/-! ### Engine counters -/

/-- Who counts the commands of an agent. -/
def issuerOf : Agent → Issuer
  | .team _ slot => .team slot
  | .ctx _ k => .ctx k

/-- Whether a command counts for an issuer; a team is told from its slot's other owners by its number. -/
def Cmd.counts (k : Cmd) (i : Issuer) (uid : Nat) : Bool := (k.issuers.zip k.uids).contains (i, uid)

/-- ec[cls] of an issuer: its accepted commands that have not completed (R62). -/
def ecOf (c : Core) (i : Issuer) (uid cls : Nat) : Nat :=
  (c.cmds.filter (fun k => k.cls == cls && k.st != .suspended && k.counts i uid)).length

/-- A clause-header wait condition holds (R11, R65). -/
def waitHolds (c : Core) (i : Issuer) (t : Team) (f : Nat × Nat × Nat) : Bool :=
  if f.1 = 1 then ecOf c i t.uid f.2.2 ≤ f.2.1
  else if f.1 = 2 then (List.range 8).all (fun g => t.guardSlot g != 2) else true

/-- Both wait conditions of a header hold for a team or a context. -/
def headerReady (c : Core) (i : Issuer) (t : Team) (h : Word) : Bool :=
  waitHolds c i t (waitField h 0) && waitHolds c i t (waitField h 1)

/-! ### Paths (R217) -/

/-- A path that no fetch port carries: its PC, the header it stands at or in, and its fibres. -/
structure Standing where
  pc : Nat
  hpc : Nat
  lanes : BitVec 32
  deriving DecidableEq, Repr

/-- The fibres of a team that a fetch port carries. -/
def carried (c : Core) (slot : Nat) : BitVec 32 :=
  c.ports.foldl (fun m p => if p.2.slot = slot then m ||| p.2.lanes else m) 0

/-- Insert a fibre into a list of paths ordered by PC. -/
def addFibre (pc hpc i : Nat) : List Standing → List Standing
  | [] => [⟨pc, hpc, BitVec.twoPow 32 i⟩]
  | p :: ps =>
    if p.pc = pc ∧ p.hpc = hpc then { p with lanes := p.lanes ||| BitVec.twoPow 32 i } :: ps
    else if pc < p.pc ∨ (pc = p.pc ∧ hpc < p.hpc) then ⟨pc, hpc, BitVec.twoPow 32 i⟩ :: p :: ps
    else p :: addFibre pc hpc i ps

/-- The standing paths of a team, lowest first. -/
def pathsOf (c : Core) (slot : Nat) (t : Team) : List Standing :=
  let m := readyOf t (~~~carried c slot)
  (lanesOf m).foldl (fun ps i => addFibre (t.lane i).pc (t.lane i).hpc i ps) []

/-- A path's header, where it stands at one and it can be fetched. -/
def standingHeader (s : State) (core : Nat) (t : Team) (p : Standing) : Option Word :=
  if p.pc = p.hpc then (fetchAt s core t.asid t.code p.pc).toOption else none

/-- A path waits at its clause header (R11). -/
def headerWaits (s : State) (core slot : Nat) (t : Team) (p : Standing) : Bool :=
  match standingHeader s core t p with
  | some h => headerOk h && !headerReady (s.core core) (.team slot) t h
  | none => false

/-- A path is held: its header has LAND = 1 and a lower path of its team is ready (R217). -/
def isHeld (s : State) (core slot : Nat) (t : Team) (p : Standing) : Bool :=
  match standingHeader s core t p with
  | some h =>
    headerLand h &&
      ((pathsOf (s.core core) slot t).any (fun q => q.pc < p.pc && !headerWaits s core slot t q) ||
        (lanesOf (readyOf t (carried (s.core core) slot))).any (fun i => (t.lane i).pc < p.pc))
  | none => false

/-- The fibres of a team that stand at a clause header whose wait conditions do not hold. -/
def headerWaiting (s : State) (core slot : Nat) (t : Team) : BitVec 32 :=
  ((pathsOf (s.core core) slot t).filter (headerWaits s core slot t)).foldl (fun m p => m ||| p.lanes) 0

/-- The paths of a team that are ready and not held, lowest first. -/
def freePaths (s : State) (core slot : Nat) (t : Team) : List Standing :=
  if t.st = .running then
    (pathsOf (s.core core) slot t).filter (fun p => !headerWaits s core slot t p && !isHeld s core slot t p)
  else []

/-- A team is ready (R215). -/
def teamReady (s : State) (core slot : Nat) : Bool :=
  match (s.core core).team? slot with
  | some t =>
    !(freePaths s core slot t).isEmpty || (t.st == .running && readyOf t (carried (s.core core) slot) != 0)
  | none => false

/-! ### The end of a team (R51) -/

/-- Trap-queue entries of a team, and the faults of it that are still to be posted, are marked ended (R51, R241). -/
def markEnded (c : Core) (uid : Nat) : Core :=
  let close (r : FaultRec) : FaultRec := if r.uid = uid then { r with ended := true } else r
  { c with tq := c.tq.map (fun e => if e.2.uid = uid then (e.1, { e.2 with ended := true }) else e),
           tqWait := c.tqWait.map (fun e => if e.uid = uid then { e with ended := true } else e),
           faults := c.faults.map (fun e => { e with recs := e.recs.map close }), waiting := c.waiting.map close }

/-- Held commands of a team are discarded in their place (R51, R65). -/
def discardHeld (c : Core) (slot uid : Nat) : Core :=
  { c with cmds := c.cmds.map (fun k =>
      if (k.st = .held ∨ k.st = .aside) ∧ k.counts (.team slot) uid = true then { k with st := .discarded } else k) }

/-- Every fibre of a team ends, and the team enters ending. -/
def Team.finish (t : Team) (now : Nat) : Team :=
  { t with st := .ending, lanes := List.replicate 32 freeLane, region := none, sys := [], endAt := now,
           guards := t.guards.map (fun g => if g.2 = 2 then (g.1, 1) else g) }

/-- What EXIT does to the core beside the team itself. -/
def endEffects (s : State) (core slot uid : Nat) : State :=
  s.modCore core (fun c =>
    let c := discardHeld (markEnded c uid) slot uid
    { c with toAccept := c.toAccept.filter (fun k => !k.counts (.team slot) uid),
             ports := c.ports.filter (fun p => p.2.slot != slot) })

/-- A team ends as by EXIT, from outside its own words (R329, R373). -/
def endTeam (s : State) (core slot : Nat) : State :=
  match (s.core core).team? slot with
  | some t =>
    if t.st = .ending ∨ t.st = .ended then s
    else endEffects (s.modCore core (fun c => c.setTeam slot (t.finish s.now))) core slot t.uid
  | none => s

/-! ### Copses -/

/-- The copse of a core by its number. -/
def Core.copse? (c : Core) (id : Nat) : Option Copse := c.copses.find? (fun x => x.id == id)
def Core.setCopse (c : Core) (x : Copse) : Core :=
  { c with copses := c.copses.map (fun y => if y.id == x.id then x else y) }

/-- A fibre is released from a wait to the word after it. -/
def resumeLane (now : Nat) (l : Lane) : Lane :=
  { l with pc := l.pc + 8, hpc := if l.last then l.pc + 8 else l.hpc, wait := none, earliest := max l.earliest (now + 1) }

/-- The fibres of a team whose wait satisfies a test are released. -/
def Team.resume (t : Team) (now : Nat) (f : Wait → Bool) : Team :=
  { t with lanes := t.lanes.map (fun l =>
      match l.wait with
      | some x => if l.live && !l.parked && f x then resumeLane now l else l
      | none => l) }

/-- The fibres of every team of some slots whose wait satisfies a test are released. -/
def resumeSlots (c : Core) (now : Nat) (slots : List Nat) (f : Wait → Bool) : Core :=
  { c with teams := c.teams.map (fun p => if slots.contains p.1 then (p.1, p.2.resume now f) else p) }

/-- Fibres of a team trap at the word they wait at, from outside a word's issue. -/
def trapLanes (s : State) (core slot : Nat) (m : BitVec 32) (w : Word) (x : Trap) : State :=
  match (s.core core).team? slot with
  | none => s
  | some t =>
    (lanesOf m).foldl (fun s i =>
      let l := t.lane i
      let iss : Iss := { core := core, agent := .team core slot, lanes := m, act := m, pc := l.pc, hpc := l.hpc,
                         clk := s.now, deadmode := false, final := false, bits := w }
      match (s.core core).team? slot with
      | some t =>
        let (s, t) := takeTraps s iss t [(i, x)]
        s.modCore core (fun c => c.setTeam slot t)
      | none => s) s

/-- A word's issue followed by a further step of the machine. -/
def thenDo (o : Host.Outcome State Fault Refusal) (f : State → State) : Host.Outcome State Fault Refusal :=
  match o with
  | .next s => .next (f s)
  | o => o

end Sys2Proof.Machine
end

