-- ==== Sys2Proof/Machine/Engine.lean ====
section
/-! DEFINITION. Engine commands: how a word submits one, its queue, its guard, completion in issue order, failure, and
the places an engine reads and writes (R62, R64, R65, R147, R150, R157, R158, R161, R185, R186, R265–R268). -/
namespace Sys2Proof.Machine

/-- Queue entries of a class (Table 13.2); class 4's are per stack. -/
def queueSize (cls : Nat) : Nat := nth [32, 16, 32, 8, 64, 64, 32] 1000 cls

/-- Entries in use of the queue that a command would enter. -/
def queueUse (s : State) (core : Nat) (k : Cmd) : Nat :=
  if k.cls = 4 then
    (s.cores.map (fun p => (p.2.cmds.filter (fun j => j.cls == 4 && j.st != .suspended && j.capt == k.capt)).length)).foldl (· + ·) 0
  else ((s.core core).cmds.filter (fun j => j.cls == k.cls && j.st != .suspended)).length

/-- A command can be accepted: its queue has a free entry and every counter stays at most 63 (R62, R267). -/
def canAccept (s : State) (core : Nat) (k : Cmd) : Bool :=
  queueUse s core k < queueSize k.cls && (k.issuers.zip k.uids).all (fun i => ecOf (s.core core) i.1 i.2 k.cls < 63)

/-- Where a command goes under its guard at a clk: run, discarded, or held until every issuer's slot is resolved (R64,
R159). A slot's result in flight is not seen before it is delivered (R17, R19). An S-lane context has no guard slots: its
command runs as under a true one (DEDUCED, log 94). -/
def guardState (c : Core) (clk : Nat) (k : Cmd) : CmdSt :=
  match k.guard with
  | none => .queued
  | some g =>
    let states := k.issuers.map (fun i =>
      match i with
      | .team slot => match c.team? slot with
        | some t => t.guardAt clk g
        | none => 1
      | .ctx _ => 0)
    if states.contains 2 then .held else if states.contains 1 then .discarded else .queued

/-- The job card as MJOB's acceptance reads it (R166): up to 224 bytes of the A-buffer as words; none where a check unit
of the card is bad. -/
def readCard (s : State) (core off : Nat) : List Word :=
  let n := min 224 (2 ^ 19 - off)
  match readAbuf s (core * 2 ^ 19 + off) n with
  | some bs => (List.range (n / 8)).map (fun i => BitVec.ofNat 64 (ofLe ((bs.drop (8 * i)).take 8)))
  | none =>
    match readAbuf s (core * 2 ^ 19 + off) 8 with
    | none => []
    | some h =>
      let len := min n (64 + 32 * bits (ofLe h) 58 56)
      match readAbuf s (core * 2 ^ 19 + off) len with
      | some bs => (List.range (len / 8)).map (fun i => BitVec.ofNat 64 (ofLe ((bs.drop (8 * i)).take 8)))
      | none => []

/-- A command that a team counts. -/
def Cmd.ofTeam (k : Cmd) : Bool := k.issuers.any (fun i => match i with
  | .team _ => true
  | .ctx _ => false)

/-- An engine accepted, ran, completed or failed a command: the residency counter starts again where the command is one of the
core's teams (R224). -/
def ranFor (now : Nat) (k : Cmd) (c : Core) : Core :=
  if k.ofTeam then { c with residency := now, residencyPosted := false } else c

/-- A command accepted at a clk. -/
def acceptCmd (s : State) (core clk : Nat) (k : Cmd) : State :=
  let k := { k with
    accepted := clk, capt := if k.cls = 2 ∧ k.bits.toNat % 128 = 0x61 then readCard s core (nth k.ops 0 1).toNat else k.capt }
  s.modCore core (fun c =>
    { (ranFor s.now k c) with cmds := c.cmds ++ [{ k with st := guardState c clk k }] })

/-! ### Completion (R62, R65, R150, R161) -/

/-- No earlier command of the class from one of its issuers is still to complete. -/
def isHead (cmds : List Cmd) (k : Cmd) : Bool :=
  (cmds.takeWhile (fun j => j.id != k.id)).all (fun j =>
    j.st == .suspended || !(j.cls == k.cls && (k.issuers.zip k.uids).any (fun i => j.counts i.1 i.2)))

/-- The engine status word after a completion (R185, Table 06.12). AUX is that of the latest failure of a GATHER, SCATTER or
COLL, DETAIL and CAUSE are the first one's (DEDUCED, log 97). -/
def newStatus (old : Word) (k : Cmd) (f : Option CmdFail) : Word :=
  let o := old.toNat
  let o := match f with
    | some x =>
      let o := if bit o 0 then o else (o / 2 ^ 24) * 2 ^ 24 + x.cause * 2 ^ 16 + x.detail * 2 ^ 8 + o % 256
      let o := if k.cls = 1 ∨ k.cls = 3 then x.aux * 2 ^ 32 + o % 2 ^ 32 else o
      o ||| 1
    | none =>
      match k.aux with
      | some a => a % 2 ^ 32 * 2 ^ 32 + o % 2 ^ 32
      | none => o
  BitVec.ofNat 64 (if k.fallback then o ||| 2 else o)

/-- The issuers of a command that are still there to be told of a failure: contexts, and teams that have not ended. -/
def told (c : Core) (k : Cmd) : List Issuer :=
  ((k.issuers.zip k.uids).filter (fun i =>
    match i.1 with
    | .team slot => match c.team? slot with
      | some t => t.uid == i.2 && (t.st == .running || t.st == .halted)
      | none => false
    | .ctx _ => true)).map (fun i => i.1)

/-- Every live fibre of a team parks at its next clause header: at once where it stands at one. -/
def parkAtHeaders (c : Core) (slot : Nat) (t : Team) : Team :=
  let inClause := carried c slot
  t.modLanes (t.freeRunMask) (fun i l =>
    if inClause.getLsbD i || l.wait.isSome || l.pc != l.hpc then { l with parkDue := true } else { l with parked := true })

/-- The AUX field of an issuer's status word of a class (Table 06.12). -/
def auxOf (c : Core) (cls : Nat) : Issuer → Nat
  | .ctx x => (mget (c.ctx x).estat 0 cls).toNat / 2 ^ 32
  | .team slot => ((c.team? slot).map (fun t => (t.estatus cls).toNat / 2 ^ 32)).getD 0

/-- The ENGINE entry of a failed command for one issuer (R161, Table 18.4), with the AUX that its status word now holds, and
the parking of its team's fibres. -/
def postFailure (s : State) (core : Nat) (k : Cmd) (f : CmdFail) (i : Issuer) : State :=
  let ops := le 1 f.detail ++ le 1 f.cause ++ le 1 k.cls ++ le 1 0 ++ le 4 (auxOf (s.core core) k.cls i) ++ le 2 f.devid ++ le 6 0 ++
    le 8 k.bits.toNat ++ le 8 0
  let e : TqEntry := { freeEntry with cause := cENGINE, pc := k.pc, opc := k.pc, operands := ops }
  match i with
  | .ctx c => postEntry s core { e with toM := c == .m }
  | .team slot =>
    match (s.core core).team? slot with
    | some t =>
      let (lseq, opc) := provenance s t k.pc
      let s := postEntry s core { e with
        slot := slot, uid := t.uid, toM := t.priv == 2, fmask := t.freeRunMask, lseq := lseq, opc := opc }
      s.modCore core (fun c => c.setTeam slot (parkAtHeaders c slot t))
    | none => s

/-- The status word of an issuer after a completion. -/
def noteStatus (s : State) (core : Nat) (k : Cmd) (f : Option CmdFail) (i : Issuer × Nat) : State :=
  match i.1 with
  | .ctx c =>
    s.modCore core (fun x =>
      let y := x.ctx c
      x.setCtx c { y with estat := mset y.estat k.cls (newStatus (mget y.estat 0 k.cls) k f) })
  | .team slot =>
    match (s.core core).team? slot with
    | some t =>
      if t.uid = i.2 then
        s.modCore core (fun x => x.setTeam slot { t with estat := mset t.estat k.cls (newStatus (t.estatus k.cls) k f) })
      else s
    | none => s

/-- A rank's collective has completed: it is forgotten, or stands as lost (R182). -/
def noteRank (s : State) (core : Nat) (k : Cmd) (f : Option CmdFail) : State :=
  let mine (r : CollRank) : Bool := r.core == core && r.cmd == k.id
  { s with ranks := if f.isSome then s.ranks.map (fun r => if mine r then { r with lost := true } else r)
      else s.ranks.filter (fun r => !mine r) }

/-- A command completes: its counters fall, its issuers' status is noted, and a failure is reported; an access of the other
world counts towards alarm cause 2 (R321, R347). -/
def completeCmd (s : State) (core : Nat) (k : Cmd) (f : Option CmdFail) : State :=
  let s := noteRank (match f with
    | some x => if x.detail = 1 ∧ x.cause = cWORLD then countWorld s 1 else s
    | none => s) core k f
  let s := s.modCore core (fun c =>
    { (ranFor s.now k c) with cmds := c.cmds.filter (fun j => j.id != k.id) })
  let s := if k.st = .discarded then s else (k.issuers.zip k.uids).foldl (fun s i => noteStatus s core k f i) s
  match f with
  | some x => (told (s.core core) k).foldl (fun s i => postFailure s core k x i) s
  | none => s

/-- A finished command's failure, if it is finished. -/
def finished (k : Cmd) : Option (Option CmdFail) :=
  match k.st with
  | .done f => some f
  | .discarded => some none
  | _ => none

/-- The next command of a core that can complete: finished, first in its issuers' order, and with room in the trap
queue for the entries of a failure (R326); of a class where one is given. -/
def nextDone (c : Core) (want : Cmd → Bool) : Option (Cmd × Option CmdFail) :=
  (c.cmds.find? (fun k =>
    want k && isHead c.cmds k && (match finished k with
      | some none => true
      | some (some _) => (told c k).length ≤ c.tqFree.length
      | none => false))).bind (fun k => (finished k).map (fun f => (k, f)))

/-- Commands of a core complete in their order, as many as can. -/
def completeAll : Nat → State → Nat → State
  | 0, s, _ => s
  | n + 1, s, core =>
    match nextDone (s.core core) (fun k => k.cls < 8) with
    | some (k, f) => completeAll n (completeCmd s core k f) core
    | none => s

/-- Commands held on guard slots are judged again after a slot changed (R65). -/
def judgeHeld (clk : Nat) (c : Core) : Core :=
  { c with cmds := c.cmds.map (fun k => if k.st = .held then { k with st := guardState c clk k } else k) }

/-- A command's record replaced. -/
def setCmd (s : State) (core : Nat) (k : Cmd) : State :=
  s.modCore core (fun c =>
    { (ranFor s.now k c) with cmds := c.cmds.map (fun j => if j.id = k.id then k else j) })

/-! ### Submitting -/

/-- The command that a word submits. -/
def mkCmd (id : Nat) (iss : Iss) (t : Team) (cls : Nat) (w : EW) (ops capt : List Word) : Cmd :=
  { id := id, cls := cls, issuers := [issuerOf iss.agent], uids := [t.uid], bits := iss.bits, ops := ops, capt := capt,
    guard := if w.ge = 1 then some w.gslot.toNat else none, regions := t.openRegion.toList.map Region.id, st := .queued, asid := t.asid,
    world := false, pc := iss.pc, aux := none, fallback := false, progress := 0, failed := none, accepted := 0 }

/-- A word submits its command: accepted at once where there is room, else its fibres wait at the word (R267). -/
def submit (s : State) (iss : Iss) (t : Team) (cls : Nat) (w : EW) (ops capt : List Word) : Res :=
  let (id, s) := s.fresh
  let k := { mkCmd id iss t cls w ops capt with world := s.world iss.core }
  if canAccept s iss.core k then { s := acceptCmd s iss.core iss.clk k, t := t }
  else { s := s.modCore iss.core (fun c => { c with toAccept := c.toAccept ++ [k] }), t := t, wait := some (.accept id) }

/-- Fibres and contexts of a core whose wait satisfies a test are released. -/
def resumeCore (c : Core) (now : Nat) (f : Wait → Bool) : Core :=
  let lane (x : SCtx) : SCtx :=
    match x.lane.wait with
    | some y => if f y then { x with lane := resumeLane now x.lane } else x
    | none => x
  { (resumeSlots c now (c.teams.map (fun p => p.1)) f) with sctx := lane c.sctx, mctx := lane c.mctx }

/-- Waiting commands are accepted in order, each as soon as it finds room (R267). -/
def acceptWaiting : List Cmd → State → Nat → State
  | [], s, _ => s
  | k :: ks, s, core =>
    if canAccept s core k then
      let s := acceptCmd s core s.now k
      let s := s.modCore core (fun c => resumeCore { c with toAccept := c.toAccept.filter (fun j => j.id != k.id) } s.now
        (fun w => w == .accept k.id))
      acceptWaiting ks s core
    else acceptWaiting ks s core

/-- Operands of an engine word: the values, or its trap for every candidate (R147, R157). -/
def engOperands (s : State) (iss : Iss) (v t : Team) (ops : List (Nat × List Nat)) (go : List Word → Res) : Res :=
  match scalarOperands v iss.lanes ops with
  | .error c => resTrap s t iss.lanes c
  | .ok vals => go vals

/-- The first failing check traps the candidates; with none the word goes on. -/
def checked (s : State) (iss : Iss) (t : Team) (checks : List (Option Trap)) (go : Res) : Res :=
  match checks.find? Option.isSome with
  | some (some x) => { s := s, t := t, traps := trapAll iss.lanes x }
  | _ => go

/-- An address cause without a buffer: SPACE 1 and 2 and typed buffers. -/
def spaceTrap (t : Team) (cause off : Nat) (write : Bool) : Option Trap :=
  some { cause := cause, addr := some { asid := t.asid, handle := 0, offset := off, acc := b2n write, page := off / 4096 } }

/-- ALIGN of an offset or stride. -/
def alignCheck (t : Team) (off align : Nat) : Option Trap := if off % align ≠ 0 then spaceTrap t cALIGN off false else none
/-- BOUNDS of a count or of a range beyond its space. -/
def boundCheck (t : Team) (ok : Bool) (off : Nat) (write : Bool) : Option Trap :=
  if ok then none else spaceTrap t cBOUNDS off write

/-- Steps 2 to 6 of Table 05.3 for a whole memory range of an engine command, with its EMASK bit (R157, R283). -/
def memCheck (s : State) (iss : Iss) (t : Team) (v : Word) (n align rights : Nat) (kinds : List Nat) (cls acc : Nat) :
    Option Trap :=
  let off := v.toNat % 2 ^ 48
  let h := v.toNat / 2 ^ 48
  if allOnes v then
    some { cause := cBOUNDS, addr := some { asid := t.asid, handle := h, offset := off, acc := acc, page := off / 4096 } }
  else
    match check0 s { asid := t.asid, core := iss.core, handle := h, off := off, n := n, align := align, rights := rights,
                     kinds := kinds, emask := some cls, acc := acc } false with
    | .error (c, fa) => some { cause := c, addr := some fa }
    | .ok _ => none

/-- Kinds that copies, gathers and drains reach (R131, R351). -/
def copyKinds : List Nat := [0, 3]

/-- The size of a space that an engine names: 1 cluster SRAM, 2 A-buffer, 3 W-buffer (R158). -/
def spaceLen (s : State) (core : Nat) (t : Team) (space : Nat) : Nat :=
  if space = 1 then (sramOf s core t).2 else if space = 2 then 2 ^ 19 else 2 ^ 20

/-- The check at issue of a range in one of the four spaces: 0 is memory. -/
def placeCheck (s : State) (iss : Iss) (t : Team) (space : Nat) (v : Word) (n : Nat) (write : Bool) (cls : Nat)
    (kinds : List Nat) : Option Trap :=
  if space = 0 then memCheck s iss t v n 1 (if write then 2 else 1) kinds cls (b2n write)
  else boundCheck t (v.toNat + n ≤ spaceLen s iss.core t space) v.toNat write

/-! ### What an engine reads and writes -/

/-- The agent whose accesses a command's are. -/
def cmdAgent (core : Nat) (k : Cmd) : Agent :=
  match k.issuers with
  | .team slot :: _ => .team core slot
  | .ctx c :: _ => .ctx core c
  | [] => .ctx core .m

/-- The base of the cluster SRAM allotment of a command's team. -/
def cmdSram (s : State) (core : Nat) (k : Cmd) : Nat :=
  match k.issuers with
  | .team slot :: _ =>
    match (s.core core).team? slot with
    | some t => (sramOf s core t).1
    | none => clusterOf core * 2 ^ 24
  | _ => clusterOf core * 2 ^ 24

/-- A failure with detail ADDRESS (Table 06.3). -/
def failAddr (cause aux : Nat) : CmdFail := ⟨1, cause, aux, 0⟩

/-- Steps 2 to 7 of Table 05.3 for a range of a command during execution. -/
def engReq (core : Nat) (k : Cmd) (v : Word) (o : Int) (n rights : Nat) (kinds : List Nat) : Req :=
  { asid := k.asid, core := core, handle := v.toNat / 2 ^ 48, off := (v.toNat % 2 ^ 48 : Nat) + o, n := n, align := 1,
    rights := rights, kinds := kinds, emask := some k.cls, acc := b2n (bit rights 1) }

/-- `n` bytes read by an engine at byte `o` of a place: a space and an addr or offset. -/
def engRead (s : State) (core : Nat) (k : Cmd) (space : Nat) (v : Word) (o : Int) (n : Nat) (kinds : List Nat) :
    State × Except CmdFail (List Byte) :=
  let here := ((v.toNat : Int) + o).toNat
  let done (r : Option (List Byte)) : Except CmdFail (List Byte) :=
    match r with
    | some bs => .ok bs
    | none => .error (failAddr cMEMERR 0)
  if space = 0 then
    let q := engReq core k v o n 1 kinds
    match check0 s q true with
    | .error (c, _) => (s, .error (failAddr c 0))
    | .ok (tgt, e) =>
      let s := noteAccess s q e
      let (s, r) := readTgt s { engMode core (cmdAgent core k) with cls := evClass 0 e } tgt n
      (s, done r)
  else if space = 1 then (s, done (readSram s (cmdSram s core k + here) n))
  else if space = 2 then (s, done (readAbuf s (core * 2 ^ 19 + here) n))
  else (s, done (readWbuf s (core * 2 ^ 20 + here) n))

/-- Bytes written by an engine at byte `o` of a place; a memory write of class no-allocate goes on to DRAM (R134,
R275). -/
def engWrite (s : State) (core : Nat) (k : Cmd) (space : Nat) (v : Word) (o : Int) (evp : Nat) (kinds : List Nat)
    (bs : List Byte) : State × Option CmdFail :=
  let here := ((v.toNat : Int) + o).toNat
  let bytes := bs.map some
  if space = 0 then
    let q := engReq core k v o bs.length 2 kinds
    match check0 s q true with
    | .error (c, _) => (s, some (failAddr c 0))
    | .ok (tgt, e) =>
      let s := noteAccess s q e
      let cls := evClass evp e
      let s := writeTgt s { engMode core (cmdAgent core k) with cls := cls } tgt bytes
      match tgt with
      | .dram _ ls => (if cls = 3 then ls.foldl cleanEverywhere s else s, none)
      | _ => (s, none)
  else if space = 1 then (writeSram s (cmdSram s core k + here) bytes, none)
  else if space = 2 then (writeAbuf s (core * 2 ^ 19 + here) bytes, none)
  else (writeWbuf s (core * 2 ^ 20 + here) bytes, none)

/-- Bytes written at home in a replacement class (R134, R294): the put's data, COLL data, SREAD output and SGEMV results. -/
def homeBytes (s : State) (first cls : Nat) (lines : List Nat) (bs : List Byte) : State :=
  (chunksOf first bs.length lines).foldl (fun (acc : State × List Byte) c =>
    let part := acc.2.take c.2.2
    (homeStore acc.1 c.1 cls (BitVec.ofNat 1024 (ofLe part * 2 ^ (8 * c.2.1)))
      (BitVec.ofNat 128 ((2 ^ c.2.2 - 1) * 2 ^ c.2.1)), acc.2.drop c.2.2)) (s, bs) |>.1

/-- Bytes written by an engine whose memory writes are home-side writes, under an EVP (R134); with EVP 3 they end in DRAM
(R275). -/
def engHome (s : State) (core : Nat) (k : Cmd) (space : Nat) (v : Word) (o : Int) (evp : Nat) (kinds : List Nat)
    (bs : List Byte) : State × Option CmdFail :=
  if space = 0 then
    let q := engReq core k v o bs.length 2 kinds
    match check0 s q true with
    | .error (c, _) => (s, some (failAddr c 0))
    | .ok (.dram first lines, e) =>
      let cls := evClass evp e
      let s := homeBytes (noteAccess s q e) first cls lines bs
      (if evp = 3 then lines.foldl cleanEverywhere s else s, none)
    | .ok (tgt, e) => (writeTgt (noteAccess s q e) (engMode core (cmdAgent core k)) tgt (bs.map some), none)
  else engWrite s core k space v o evp kinds bs

/-- Pieces of at most 128 bytes of a length: offset and count. -/
def stretches (n : Nat) : List (Nat × Nat) := (List.range (ceilDiv n 128)).map (fun i => (128 * i, min 128 (n - 128 * i)))

/-- Bytes moved piece by piece; the first failure ends the move, and what was written stays. -/
def movePieces (rd : State → Nat → Nat → State × Except CmdFail (List Byte))
    (wr : State → Nat → List Byte → State × Option CmdFail) : List (Nat × Nat) → State → State × Option CmdFail
  | [], s => (s, none)
  | (o, n) :: ps, s =>
    match rd s o n with
    | (s, .error f) => (s, some f)
    | (s, .ok bs) =>
      match wr s o bs with
      | (s, some f) => (s, some f)
      | (s, none) => movePieces rd wr ps s

/-- Bytes written piece by piece. -/
def writePieces (wr : State → Nat → List Byte → State × Option CmdFail) (bs : List Byte) (s : State) :
    State × Option CmdFail :=
  movePieces (fun s o n => (s, .ok ((bs.drop o).take n))) wr (stretches bs.length) s

/-- Bytes read piece by piece. -/
def readPieces (rd : State → Nat → Nat → State × Except CmdFail (List Byte)) :
    List (Nat × Nat) → State → State × Except CmdFail (List Byte)
  | [], s => (s, .ok [])
  | (o, n) :: ps, s =>
    match rd s o n with
    | (s, .error f) => (s, .error f)
    | (s, .ok bs) =>
      match readPieces rd ps s with
      | (s, .error f) => (s, .error f)
      | (s, .ok cs) => (s, .ok (bs ++ cs))

/-! ### Results that a command delivers later (R160, R185) -/

/-- A register write in flight whose delivery waits for command `id`: later writes of its lanes discard it (R19). -/
def latePend (t : Team) (iss : Iss) (vd id : Nat) : Team :=
  { t with pend := t.pend ++ [⟨.vreg vd, iss.act, iss.act, never + id, true, .vreg (t.reg vd), 0⟩] }

/-- A late result put into a register in the lanes of a mask: the whole of it becomes uniform where `compact` says so. -/
def putLate (m : BitVec 32) (fmt : Nat) (compact : Bool) (val : Nat → Word) (old : VReg) : VReg :=
  ⟨fmt, 0, if compact then .uniform (val (lowest m))
    else .general ((List.range 32).map (fun i => if m.getLsbD i then val i else old.lane i))⟩

/-- The result of command `id` delivered to the team: written in the lanes that no younger write has taken, and put under
the younger writes still in flight (R19). -/
def deliver (t : Team) (vd id fmt : Nat) (val : Nat → Word) (now : Nat) : Team :=
  match t.pend.find? (fun p => p.ready == never + id) with
  | none => t
  | some p =>
    let younger (q : Pend) : Bool := q.dst == .vreg vd && q.ready != never + id
    let after := (t.pend.dropWhile (fun q => q.ready != never + id)).filter younger
    let m := after.foldl (fun m q => m &&& ~~~q.wrote) p.wrote
    let compact := t.liveMask &&& ~~~m == 0 && t.parkedMask == 0 && equalOver m val && fmt == 8
    let r := t.reg vd
    let t' := if after.isEmpty then t.setReg vd (putLate m fmt compact val r)
      else if m = 0 then t else t.setReg vd ⟨r.fmt, r.link, (putLate m fmt false val r).pay⟩
    { t' with pend := t.pend.map (fun q =>
        if q.ready = never + id then { q with ready := now + 1 }
        else if after.contains q then { q with old := match q.old with
          | .vreg o => .vreg (putLate p.wrote fmt false val o)
          | o => o }
        else q) }

end Sys2Proof.Machine
end

