-- ==== Sys2Proof/Machine/Float.lean ====
section
/-! DEFINITION. The IEEE formats f16, bf16, f32 and f64 on exact fractions: decoding, one rounding, the operations of
R105–R117 and the approximations of R111–R113. Patterns are numbers; a result is a pattern with the flags it sets
(R104: 1 F.NV, 2 F.DZ, 4 F.OF, 8 F.UF, 16 F.NX, 32 Q.SAT, 64 Q.INF). -/
namespace Sys2Proof.Machine

/-- An exact fraction; `den` is positive in every fraction this file forms. -/
structure Q where
  num : Int
  den : Nat
  deriving DecidableEq, Repr

def Q.ofInt (x : Int) : Q := ⟨x, 1⟩
def Q.zero : Q := ⟨0, 1⟩
def Q.add (a b : Q) : Q := ⟨a.num * b.den + b.num * a.den, a.den * b.den⟩
def Q.neg (a : Q) : Q := ⟨-a.num, a.den⟩
def Q.sub (a b : Q) : Q := a.add b.neg
def Q.mul (a b : Q) : Q := ⟨a.num * b.num, a.den * b.den⟩
def Q.div (a b : Q) : Q := ⟨a.num * b.den * (if b.num < 0 then -1 else 1), a.den * b.num.natAbs⟩
def Q.le (a b : Q) : Bool := a.num * b.den ≤ b.num * a.den
def Q.lt (a b : Q) : Bool := a.num * b.den < b.num * a.den
def Q.eq (a b : Q) : Bool := a.num * b.den == b.num * a.den
def Q.abs (a : Q) : Q := ⟨a.num.natAbs, a.den⟩
def Q.isZero (a : Q) : Bool := a.num == 0
def Q.floor (a : Q) : Int := a.num / a.den
/-- 2^e as a fraction. -/
def Q.pow2 (e : Int) : Q := if e ≥ 0 then ⟨2 ^ e.toNat, 1⟩ else ⟨1, 2 ^ (-e).toNat⟩
/-- 10^e as a fraction. -/
def Q.pow10 (e : Int) : Q := if e ≥ 0 then ⟨10 ^ e.toNat, 1⟩ else ⟨1, 10 ^ (-e).toNat⟩
/-- The nearest integer, ties to even. -/
def Q.roundNE (a : Q) : Int :=
  let m := a.floor
  let r := a.num - m * a.den
  if 2 * r > a.den ∨ (2 * r = a.den ∧ m % 2 = 1) then m + 1 else m

/-- An IEEE format: exponent and fraction widths (Table 12.2). -/
structure FFmt where
  eb : Nat
  mb : Nat
  deriving DecidableEq, Repr

/-- The IEEE format of a code; f64 where the code is none (Table 12.2). -/
def ffmt (code : Nat) : FFmt :=
  if code = 9 then ⟨5, 10⟩ else if code = 10 then ⟨8, 7⟩ else if code = 11 then ⟨8, 23⟩ else ⟨11, 52⟩

def FFmt.width (f : FFmt) : Nat := f.eb + f.mb + 1
def FFmt.bias (f : FFmt) : Nat := 2 ^ (f.eb - 1) - 1
def FFmt.emin (f : FFmt) : Int := 1 - (f.bias : Int)
def FFmt.infBits (f : FFmt) : Nat := (2 ^ f.eb - 1) * 2 ^ f.mb
def FFmt.signBit (f : FFmt) (neg : Bool) : Nat := if neg then 2 ^ (f.eb + f.mb) else 0
/-- CanonNaN (R40, R248). -/
def FFmt.canon (f : FFmt) : Nat := f.infBits + 2 ^ (f.mb - 1)
def FFmt.inf (f : FFmt) (neg : Bool) : Nat := f.signBit neg + f.infBits
def FFmt.maxFinite (f : FFmt) (neg : Bool) : Nat := f.signBit neg + f.infBits - 1

/-- A value read from a pattern: a NaN, an infinity, or a finite value with the sign that a zero has. -/
inductive FVal where
  | nan
  | inf (neg : Bool)
  | fin (neg : Bool) (q : Q)
  deriving DecidableEq, Repr

def fNeg (f : FFmt) (x : Nat) : Bool := x.testBit (f.eb + f.mb)
def fMag (f : FFmt) (x : Nat) : Nat := x % 2 ^ (f.eb + f.mb)
def fIsNaN (f : FFmt) (x : Nat) : Bool := fMag f x > f.infBits
def fIsSNaN (f : FFmt) (x : Nat) : Bool := fIsNaN f x && !x.testBit (f.mb - 1)
def fIsInf (f : FFmt) (x : Nat) : Bool := fMag f x == f.infBits
def fIsZero (f : FFmt) (x : Nat) : Bool := fMag f x == 0
def fIsSub (f : FFmt) (x : Nat) : Bool := fMag f x != 0 && fMag f x < 2 ^ f.mb
/-- The NaN with its quiet bit set (R248). -/
def fQuiet (f : FFmt) (x : Nat) : Nat := if x.testBit (f.mb - 1) then x else x + 2 ^ (f.mb - 1)

/-- The value of a pattern (R247). -/
def fDecode (f : FFmt) (x : Nat) : FVal :=
  let neg := fNeg f x
  let mag := fMag f x
  let e := mag / 2 ^ f.mb
  let m := mag % 2 ^ f.mb
  if mag > f.infBits then .nan
  else if mag = f.infBits then .inf neg
  else
    let s : Int := if neg then -1 else 1
    if e = 0 then .fin neg (Q.mul ⟨s * m, 1⟩ (Q.pow2 (f.emin - f.mb)))
    else .fin neg (Q.mul ⟨s * (2 ^ f.mb + m), 1⟩ (Q.pow2 ((e : Int) - f.bias - f.mb)))

/-- x with a subnormal replaced by the zero of its sign (R40). -/
def ftz (f : FFmt) (on : Bool) (x : Nat) : Nat := if on && fIsSub f x then f.signBit (fNeg f x) else x

/-- ⌊log2⌋ of a positive fraction n / d. -/
def qlog2 (n d : Nat) : Int :=
  let e : Int := (ilog2 n : Int) - ilog2 d
  if e ≥ 0 then (if n < d * 2 ^ e.toNat then e - 1 else e) else (if n * 2 ^ (-e).toNat < d then e - 1 else e)

/-- Whether to round up an integer part `m` with remainder `r` of `d`, under a rounding mode and sign (R40). -/
def roundUp (rm : Nat) (neg : Bool) (m r d : Nat) : Bool :=
  if rm = 0 then 2 * r > d || (2 * r == d && m % 2 == 1)
  else if rm = 1 then false
  else if rm = 2 then neg && r != 0
  else !neg && r != 0

/-- n / d scaled by 2^−u: its integer part, remainder and divisor. -/
def scaleDown (n d : Nat) (u : Int) : Nat × Nat × Nat :=
  let n' := if u ≥ 0 then n else n * 2 ^ (-u).toNat
  let d' := if u ≥ 0 then d * 2 ^ u.toNat else d
  (n' / d', n' % d', d')

/-- Round the magnitude n / d to a format: the pattern without sign on the unbounded grid of R249, whether it is
inexact, and whether it is tiny after rounding (R104, R249). -/
def roundMag (f : FFmt) (rm : Nat) (neg : Bool) (n d : Nat) : Nat × Bool × Bool :=
  if n = 0 then (0, false, false)
  else
    let e := qlog2 n d
    let qe := max e f.emin
    let (m, r, d') := scaleDown n d (qe - f.mb)
    let m' := if roundUp rm neg m r d' then m + 1 else m
    let tiny := e < f.emin &&
      (let (m2, r2, d2) := scaleDown n d (e - f.mb)
       let m3 := if roundUp rm neg m2 r2 d2 then m2 + 1 else m2
       !(e == f.emin - 1 && m3 == 2 ^ (f.mb + 1)))
    ((qe - f.emin).toNat * 2 ^ f.mb + m', r != 0, tiny)

/-- Round a non-zero or zero exact value with the sign a zero takes, under R105: pattern and flags. -/
def fRound (f : FFmt) (rm : Nat) (flush : Bool) (negZero : Bool) (q : Q) : Nat × Nat :=
  if q.num = 0 then (f.signBit negZero, 0)
  else
    let neg : Bool := q.num < 0
    let (b, inexact, tiny) := roundMag f rm neg q.num.natAbs q.den
    if b ≥ f.infBits then
      let toInf := rm = 0 ∨ (rm = 2 ∧ neg) ∨ (rm = 3 ∧ ¬ neg)
      (if toInf then f.inf neg else f.maxFinite neg, 4 + 16)
    else if flush && b != 0 && b < 2 ^ f.mb then (f.signBit neg, 8 + 16)
    else (f.signBit neg + b, (if inexact then 16 else 0) + (if inexact && tiny then 8 else 0))

/-- Round(x, fmt, rm) of R40 with no flags, the sign of a zero given. -/
def roundF (code rm : Nat) (negZero : Bool) (q : Q) : Nat := (fRound (ffmt code) rm false negZero q).1

/-- FirstNaN of the operands with F.NV where one signals; none where no operand is a NaN (R105). -/
def firstNaN (f : FFmt) (xs : List Nat) : Option (Nat × Nat) :=
  match xs.find? (fIsNaN f) with
  | none => none
  | some x => some (fQuiet f x, if xs.any (fIsSNaN f) then 1 else 0)

/-- The sign of an exact zero sum: the common sign, else −0 only under RM 2 (R105). -/
def zeroSumNeg (rm : Nat) (a b : Bool) : Bool := if a == b then a else rm == 2

/-- a + b of two decoded values that are no NaN (R105, R107). -/
def fAddVal (f : FFmt) (rm : Nat) (flush : Bool) (a b : FVal) : Nat × Nat :=
  match a, b with
  | .inf s, .inf t => if s == t then (f.inf s, 0) else (f.canon, 1)
  | .inf s, _ => (f.inf s, 0)
  | _, .inf t => (f.inf t, 0)
  | .fin s p, .fin t q =>
    fRound f rm flush (if p.isZero && q.isZero then zeroSumNeg rm s t else rm == 2) (p.add q)
  | _, _ => (f.canon, 0)

/-- The opposite value. -/
def FVal.negate : FVal → FVal
  | .nan => .nan
  | .inf s => .inf (!s)
  | .fin s q => .fin (!s) q.neg

/-- FADD, FSUB on patterns (R107). -/
def fAdd (f : FFmt) (rm : Nat) (fz : Bool) (a b : Nat) : Nat × Nat :=
  let a := ftz f fz a
  let b := ftz f fz b
  match firstNaN f [a, b] with
  | some r => r
  | none => fAddVal f rm fz (fDecode f a) (fDecode f b)

def fSub (f : FFmt) (rm : Nat) (fz : Bool) (a b : Nat) : Nat × Nat :=
  let a := ftz f fz a
  let b := ftz f fz b
  match firstNaN f [a, b] with
  | some r => r
  | none => fAddVal f rm fz (fDecode f a) (fDecode f b).negate

/-- An exact product: its sign, and its value or infinity; none for 0 × ∞. -/
def fMulVal (a b : FVal) : Option FVal :=
  match a, b with
  | .fin s p, .fin t q => some (.fin (s != t) (p.mul q))
  | .inf s, .inf t => some (.inf (s != t))
  | .inf s, .fin t q => if q.isZero then none else some (.inf (s != t))
  | .fin s p, .inf t => if p.isZero then none else some (.inf (s != t))
  | _, _ => none

/-- FMUL on patterns (R107). -/
def fMul (f : FFmt) (rm : Nat) (fz : Bool) (a b : Nat) : Nat × Nat :=
  let a := ftz f fz a
  let b := ftz f fz b
  match firstNaN f [a, b] with
  | some r => r
  | none =>
    match fMulVal (fDecode f a) (fDecode f b) with
    | none => (f.canon, 1)
    | some (.inf s) => (f.inf s, 0)
    | some (.fin s q) => fRound f rm fz s q
    | some .nan => (f.canon, 1)

/-- FFMA on patterns (R107). -/
def fFma (f : FFmt) (rm : Nat) (fz : Bool) (a b c : Nat) : Nat × Nat :=
  let a := ftz f fz a
  let b := ftz f fz b
  let c := ftz f fz c
  let prod := if fIsNaN f a || fIsNaN f b then some .nan else fMulVal (fDecode f a) (fDecode f b)
  match firstNaN f [a, b, c] with
  | some (x, fl) => (x, if prod = none then 1 else fl)
  | none =>
    match prod with
    | none => (f.canon, 1)
    | some v => fAddVal f rm fz v (fDecode f c)

/-- FDIV on patterns (R107). -/
def fDiv (f : FFmt) (rm : Nat) (fz : Bool) (a b : Nat) : Nat × Nat :=
  let a := ftz f fz a
  let b := ftz f fz b
  match firstNaN f [a, b] with
  | some r => r
  | none =>
    let s := fNeg f a != fNeg f b
    match fDecode f a, fDecode f b with
    | .inf _, .inf _ => (f.canon, 1)
    | .inf _, _ => (f.inf s, 0)
    | _, .inf _ => (f.signBit s, 0)
    | .fin _ p, .fin _ q =>
      if q.isZero then (if p.isZero then (f.canon, 1) else (f.inf s, 2)) else fRound f rm fz s (p.div q)
    | _, _ => (f.canon, 0)

/-- ⌊√n⌋ by its bits from bit `k` down. -/
def isqrtBits (n : Nat) : Nat → Nat → Nat
  | 0, r => if (r + 1) * (r + 1) ≤ n then r + 1 else r
  | k + 1, r =>
    let t := r + 2 ^ (k + 1)
    isqrtBits n k (if t * t ≤ n then t else r)

def isqrt (n : Nat) : Nat := isqrtBits n (ilog2 n / 2 + 1) 0

/-- √(n / d) rounded to a format: pattern without sign and inexactness (R111). Results of the IEEE formats are normal. -/
def sqrtMag (f : FFmt) (rm : Nat) (n d : Nat) : Nat × Bool :=
  let e := qlog2 n d / 2
  let u := e - f.mb
  let (t, r, d') := scaleDown n d (2 * u)
  let m := isqrt t
  let exact := r == 0 && m * m == t
  let num := t * d' + r
  let above : Bool := 4 * num > (4 * m * m + 4 * m + 1) * d'
  let up := if rm = 0 then above else rm = 3 && !exact
  ((e - f.emin).toNat * 2 ^ f.mb + (if up then m + 1 else m), !exact)

/-- FSQRT on a pattern (R111). -/
def fSqrt (f : FFmt) (rm : Nat) (fz : Bool) (a : Nat) : Nat × Nat :=
  let a := ftz f fz a
  match firstNaN f [a] with
  | some r => r
  | none =>
    if fIsZero f a then (a, 0)
    else if fNeg f a then (f.canon, 1)
    else match fDecode f a with
      | .fin _ q =>
        let (b, inexact) := sqrtMag f rm q.num.natAbs q.den
        (b, if inexact then 16 else 0)
      | _ => (a, 0)

/-- Order of two values that are no NaN, −0 below +0 where `zeros` holds. -/
def fLess (zeros : Bool) (a b : FVal) : Bool :=
  match a, b with
  | .inf s, .inf t => s && !t
  | .inf s, _ => s
  | _, .inf t => !t
  | .fin s p, .fin t q => if p.isZero && q.isZero then zeros && s && !t else p.lt q
  | _, _ => false

def fSame (a b : FVal) : Bool :=
  match a, b with
  | .inf s, .inf t => s == t
  | .fin _ p, .fin _ q => p.eq q
  | _, _ => false

/-- FMIN (`big` false) and FMAX on patterns; `nanMode` is the NAN modifier (R108). -/
def fMinMax (f : FFmt) (big nanMode fz : Bool) (a b : Nat) : Nat × Nat :=
  let a := ftz f fz a
  let b := ftz f fz b
  let na := fIsNaN f a
  let nb := fIsNaN f b
  let nv := if fIsSNaN f a || fIsSNaN f b then 1 else 0
  if nanMode && (na || nb) then (fQuiet f (if na then a else b), nv)
  else if na && nb then (fQuiet f a, nv)
  else if na then (b, nv)
  else if nb then (a, nv)
  else
    let aLess := fLess true (fDecode f a) (fDecode f b)
    let bLess := fLess true (fDecode f b) (fDecode f a)
    (if big then (if aLess then b else a) else (if bLess then b else a), 0)

/-- The comparison of FCMP on two values, `unord` where one is a NaN (R109). -/
def fTest (cond : Nat) (a b : FVal) : Bool :=
  let unord := a == .nan || b == .nan
  if cond = 0 then !unord && fSame a b
  else if cond = 1 then unord || !fSame a b
  else if cond = 2 then !unord && fLess false a b
  else if cond = 3 then !unord && (fLess false a b || fSame a b)
  else if cond = 4 then !unord && fLess false b a
  else if cond = 5 then !unord && (fLess false b a || fSame a b)
  else if cond = 6 then unord
  else !unord

/-- FCLASS's mask (R110). -/
def fClass (f : FFmt) (x : Nat) : Nat :=
  let neg := fNeg f x
  if fIsNaN f x then (if fIsSNaN f x then 2 ^ 8 else 2 ^ 9)
  else if fIsInf f x then (if neg then 2 ^ 0 else 2 ^ 7)
  else if fIsZero f x then (if neg then 2 ^ 3 else 2 ^ 4)
  else if fIsSub f x then (if neg then 2 ^ 2 else 2 ^ 5)
  else (if neg then 2 ^ 1 else 2 ^ 6)

/-- An exact fraction rounded to an integer under a rounding mode. -/
def qRoundInt (rm : Nat) (q : Q) : Int :=
  let m := q.num.natAbs / q.den
  let r := q.num.natAbs % q.den
  let neg : Bool := q.num < 0
  let m' := if roundUp rm neg m r q.den then m + 1 else m
  if neg then -(m' : Int) else m'

/-- FRND on a pattern (R114). -/
def fRnd (f : FFmt) (rm : Nat) (exactFlag fz : Bool) (a : Nat) : Nat × Nat :=
  let a := ftz f fz a
  match firstNaN f [a] with
  | some r => r
  | none =>
    match fDecode f a with
    | .fin s q =>
      let x := qRoundInt rm q
      ((fRound f 0 false s (Q.ofInt x)).1, if exactFlag && !(Q.eq q (Q.ofInt x)) then 16 else 0)
    | _ => (a, 0)

/-- FSCALE: a × 2^n in one rounding (R114). A scale past every finite result is taken at the least that overflows or
underflows alike. -/
def fScale (f : FFmt) (rm : Nat) (fz : Bool) (a : Nat) (n : Int) : Nat × Nat :=
  let a := ftz f fz a
  match firstNaN f [a] with
  | some r => r
  | none =>
    match fDecode f a with
    | .fin s q => fRound f rm fz s (q.mul (Q.pow2 (max (-5000) (min n 5000))))
    | _ => (a, 0)

/-- A NaN carried from one format to another: sign kept, quiet bit set, payload shifted (R90, R116, R126). -/
def fNaNConv (f g : FFmt) (x : Nat) : Nat :=
  let m := fMag f x % 2 ^ f.mb
  let m' := if g.mb ≥ f.mb then m * 2 ^ (g.mb - f.mb) else m / 2 ^ (f.mb - g.mb)
  let y := g.signBit (fNeg f x) + g.infBits + m' % 2 ^ g.mb
  if y.testBit (g.mb - 1) then y else y + 2 ^ (g.mb - 1)

/-- An exact value whose magnitude lies below a format's smallest normal number, zero apart. -/
def isTiny (g : FFmt) (q : Q) : Bool := q.num != 0 && Q.lt q.abs (Q.pow2 g.emin)

/-- FCVT between IEEE formats (R116). Under FTZ a source value that is subnormal in the result's format is replaced by the
zero of its sign, which sets no flag (R104, R105). -/
def fConv (f g : FFmt) (rm : Nat) (fz : Bool) (x : Nat) : Nat × Nat :=
  if fIsNaN f x then (fNaNConv f g x, if fIsSNaN f x then 1 else 0)
  else
    match fDecode f x with
    | .inf s => (g.inf s, 0)
    | .fin s q => if fz && isTiny g q then (g.signBit s, 0) else fRound g rm fz s q
    | .nan => (g.canon, 0)

/-- FCVT from an integer (R116). -/
def fOfInt (g : FFmt) (rm : Nat) (fz : Bool) (x : Int) : Nat × Nat := fRound g rm fz false (Q.ofInt x)

/-- ICVT from a float: rounded, saturated to the type's range (R117). -/
def iOfFloat (f : FFmt) (rm : Nat) (signed : Bool) (w x : Nat) : Nat × Nat :=
  match fDecode f x with
  | .nan => (0, 1)
  | .inf s => (wrap (satBy signed (if s then -(2 ^ 80 : Int) else 2 ^ 80) w) w, 1)
  | .fin _ q =>
    let r := qRoundInt rm q
    let t := satBy signed r w
    (wrap t w, if t != r then 1 else if Q.eq q (Q.ofInt r) then 0 else 16)

/-! ### Approximations (R111–R113): fixed-point references with `p` fraction bits. -/

/-- Σ_{k=1}^{n} 1 / (k 2^k), n terms from k: ln 2 in fixed point. -/
def ln2Sum (p : Nat) : Nat → Nat
  | 0 => 0
  | k + 1 => 2 ^ p / ((k + 1) * 2 ^ (k + 1)) + ln2Sum p k

def ln2Fix (p : Nat) : Nat := ln2Sum (p + 16) (p + 16) / 2 ^ 16

/-- Horner steps of e^y − 1 in fixed point: 1 + y/k (1 + y/(k+1) (…)). -/
def expHorner (p y : Nat) : Nat → Nat → Nat
  | 0, acc => acc
  | k + 1, acc => expHorner p y k (2 ^ p + y * acc / 2 ^ p / (k + 1))

/-- 2^f for a fraction f in [0, 1), in fixed point. -/
def exp2Fix (p : Nat) (num den : Nat) : Nat :=
  let y := num * ln2Fix p / den
  expHorner p y (p / 4 + 30) (2 ^ p)

/-- Σ z^(2k+1) / (2k+1) in fixed point: atanh. -/
def atanhSum (p z2 : Nat) : Nat → Nat → Nat → Nat
  | 0, _, _ => 0
  | n + 1, zk, k => zk / (2 * k + 1) + atanhSum p z2 n (zk * z2 / 2 ^ p) (k + 1)

/-- log2 of n / d in [1, 2), in fixed point. -/
def log2Fix (p : Nat) (n d : Nat) : Nat :=
  let z := (n - d) * 2 ^ p / (n + d)
  2 * atanhSum p (z * z / 2 ^ p) (p / 3 + 4) z 0 * 2 ^ p / ln2Fix p

/-- Σ ± 1 / ((2k+1) x^(2k+1)) in fixed point: arctan(1/x), n terms left from term k. -/
def atanInv (p x : Nat) : Nat → Nat → Int
  | 0, _ => 0
  | n + 1, k =>
    let t : Int := (2 ^ p / ((2 * k + 1) * x ^ (2 * k + 1)) : Nat)
    (if k % 2 = 0 then t else -t) + atanInv p x n (k + 1)

/-- π in fixed point, by 16 arctan(1/5) − 4 arctan(1/239). -/
def piFix (p : Nat) : Nat :=
  let q := p + 16
  ((16 * atanInv q 5 (q / 4) 0 - 4 * atanInv q 239 (q / 15 + 2) 0) / 2 ^ 16).toNat

/-- Horner form of sin y / y (`a` 1) or cos y (`a` 0) from y², in fixed point. -/
def trigHorner (p y2 a : Nat) : Nat → Int → Int
  | 0, acc => acc
  | k + 1, acc => trigHorner p y2 a k ((2 ^ p : Int) - y2 * acc / (2 ^ p) / ((2 * (k + 1) - 1 + a) * (2 * (k + 1) + a)))

/-- sin(π n / d) for 0 ≤ n / d ≤ 1/2 as an exact fraction near it. -/
def sinPi (p n d : Nat) : Q :=
  let y := n * piFix p / d
  let h := trigHorner p (y * y / 2 ^ p) 1 (p / 5 + 16) (2 ^ p)
  ⟨h * (n * piFix p), 2 ^ p * 2 ^ p * d⟩

/-- cos(π n / d) for 0 ≤ n / d ≤ 1/2; formed as the sine of the complement. -/
def cosPi (p n d : Nat) : Q := sinPi p (d - 2 * n) (2 * d)

/-- Fraction bits of the references for a format: enough for its smallest results. -/
def refBits (f : FFmt) : Nat := if f.mb = 52 then 1240 else if f.mb = 23 then 320 else if f.eb = 8 then 320 else 128

/-- The bound of Table 04.2 in ulp: 0 stands for correctly rounded. -/
def ulpBound (op code : Nat) : Nat :=
  if code = 9 ∨ code = 10 then 0
  else if op ≤ 1 then 1 else if op ≤ 3 then 2 else if code = 11 then 2 else 3

/-- The result of an approximation whose exact value is `y` up to 2^−p of it: RoundNE(y) where the format asks for it
or the free candidate misses the bound of R112, else the candidate (R111). -/
def fApprox (op code x : Nat) (y : Q) : Nat :=
  let f := ffmt code
  let ne := (fRound f 0 false (y.num < 0) y).1
  let n := ulpBound op code
  if n = 0 then ne
  else
    let c := Config.approx op code x % 2 ^ f.width
    match fDecode f c with
    | .fin _ q =>
      let e := max (qlog2 y.num.natAbs y.den) f.emin
      let slack := Q.mul y.abs (Q.pow2 (-(f.mb + 60 : Int)))
      if Q.le (Q.add (Q.sub q y).abs slack) (Q.mul ⟨n, 1⟩ (Q.pow2 (e - f.mb))) then c else ne
    | _ => ne

/-- An approximated result with F.OF where it lies beyond range (Table 04.3). -/
def fApproxOf (op code x : Nat) (y : Q) : Nat × Nat :=
  let f := ffmt code
  let ne := (fRound f 0 false (y.num < 0) y).1
  if fIsInf f ne then (ne, 4)
  else
    let c := fApprox op code x y
    (c, 0)

/-- FRCP (R113). -/
def fRcp (code : Nat) (fz : Bool) (a : Nat) : Nat × Nat :=
  let f := ffmt code
  let a := ftz f fz a
  match firstNaN f [a] with
  | some r => r
  | none =>
    match fDecode f a with
    | .inf s => (f.signBit s, 0)
    | .fin s q =>
      if q.isZero then (f.inf s, 2)
      else
        let (r, fl) := fApproxOf 0 code a (Q.div ⟨1, 1⟩ q)
        (ftz f fz r, fl)
    | .nan => (f.canon, 0)

/-- FRSQ (R113). The exact 1/√a enters as √ of the inverse, taken to 80 bits beyond the format where it is irrational. -/
def fRsq (code : Nat) (fz : Bool) (a : Nat) : Nat × Nat :=
  let f := ffmt code
  let a := ftz f fz a
  match firstNaN f [a] with
  | some r => r
  | none =>
    if fIsZero f a then (f.inf (fNeg f a), 2)
    else if fNeg f a then (f.canon, 1)
    else match fDecode f a with
      | .fin _ q =>
        let (ne, _) := sqrtMag f 0 q.den q.num.natAbs
        if ulpBound 1 code = 0 then (ne, 0)
        else
          let e := qlog2 q.den q.num.natAbs / 2
          let k : Int := e - f.mb - 80
          let (t, _, _) := scaleDown q.den q.num.natAbs (2 * k)
          (fApprox 1 code a (Q.mul ⟨isqrt t, 1⟩ (Q.pow2 k)), 0)
      | _ => (0, 0)

/-- FEXP2 (R113). -/
def fExp2 (code : Nat) (fz : Bool) (a : Nat) : Nat × Nat :=
  let f := ffmt code
  let a := ftz f fz a
  match firstNaN f [a] with
  | some r => r
  | none =>
    match fDecode f a with
    | .inf s => (if s then 0 else f.inf false, 0)
    | .fin _ q =>
      let n := q.floor
      if n > f.bias then (f.inf false, 4)
      else if n < -(2 * f.bias + 2 * f.mb : Int) then (0, 0)
      else
        let r := q.num - n * q.den
        if r = 0 then (ftz f fz (fRound f 0 false false (Q.pow2 n)).1, 0)
        else
          let p := refBits f
          let y := Q.mul ⟨exp2Fix p r.toNat q.den, 2 ^ p⟩ (Q.pow2 n)
          let (c, fl) := fApproxOf 2 code a y
          (ftz f fz c, fl)
    | .nan => (f.canon, 0)

/-- FLOG2 (R113). -/
def fLog2 (code : Nat) (fz : Bool) (a : Nat) : Nat × Nat :=
  let f := ffmt code
  let a := ftz f fz a
  match firstNaN f [a] with
  | some r => r
  | none =>
    if fIsZero f a then (f.inf true, 2)
    else if fNeg f a then (f.canon, 1)
    else match fDecode f a with
      | .inf _ => (f.inf false, 0)
      | .fin _ q =>
        let e := qlog2 q.num.natAbs q.den
        let m := Q.mul q (Q.pow2 (-e))
        if m.num = m.den then (fRound f 0 false false (Q.ofInt e)).map id (fun _ => 0)
        else
          let p := refBits f
          let y := Q.add (Q.ofInt e) ⟨log2Fix p m.num.toNat m.den, 2 ^ p⟩
          (ftz f fz (fApprox 3 code a y), 0)
      | .nan => (f.canon, 0)

/-- sin(π r) and cos(π r) for 0 ≤ r = n / d < 2, near-exact: by quarter turns. -/
def sinCosPi (p n d : Nat) : Q × Q :=
  let k := 2 * n / d
  let rem := 2 * n - k * d
  let s := sinPi p rem (2 * d)
  let c := cosPi p rem (2 * d)
  if k = 0 then (s, c) else if k = 1 then (c, s.neg) else if k = 2 then (s.neg, c.neg) else (c.neg, s)

/-- FSINCOS: the sine's pattern, the cosine's, and the flags (R113). -/
def fSinCos (code : Nat) (fz : Bool) (a : Nat) : Nat × Nat × Nat :=
  let f := ffmt code
  let a := ftz f fz a
  match firstNaN f [a] with
  | some (r, fl) => (r, r, fl)
  | none =>
    match fDecode f a with
    | .inf _ => (f.canon, f.canon, 1)
    | .fin s q =>
      let one (neg : Bool) : Nat := f.signBit neg + f.bias * 2 ^ f.mb
      let h := Q.mul q ⟨2, 1⟩
      if q.num % q.den = 0 then (f.signBit s, one (q.floor % 2 = 1), 0)
      else if h.num % h.den = 0 then (one (q.floor % 2 = 1), 0, 0)
      else
        let n := q.num % (2 * (q.den : Int))
        let (sn, cs) := sinCosPi (refBits f) n.toNat q.den
        (ftz f fz (fApprox 4 code a sn), ftz f fz (fApprox 5 code a cs), 0)
    | .nan => (f.canon, f.canon, 0)

end Sys2Proof.Machine
end

