-- ==== Sys2Proof/Machine/Narrow.lean ====
section
/-! DEFINITION. The narrow element formats, block scales, block quantisation and re-expression, and D8 (R118–R120, R125,
R250–R257). A block is a list of exact values; a scale is its byte. -/
namespace Sys2Proof.Machine

/-- Exponent width, mantissa width and bias of a floating narrow format (Table 12.3). -/
def narrowShape (code : Nat) : Nat × Nat × Nat :=
  if code = 13 then (4, 3, 7) else if code = 14 then (5, 2, 15) else if code = 15 then (2, 3, 1)
  else if code = 16 then (3, 2, 3) else (2, 1, 1)

/-- emax of a format (Table 12.3). -/
def narrowEmax (code : Nat) : Int :=
  if code = 13 then 8 else if code = 14 then 15 else if code = 15 then 2 else if code = 16 then 4
  else if code = 17 then 2 else 0

/-- The largest finite code without sign (Table 12.3). -/
def narrowMax (code : Nat) : Nat :=
  if code = 13 then 0x7E else if code = 14 then 0x7B else if code = 15 ∨ code = 16 then 0x1F
  else if code = 17 then 7 else 0x7F

/-- The value of a D8 code at decade 0 (R254). -/
def d8Value (c : Nat) : FVal :=
  let m := c % 128
  if m = 0 then (if c = 0x80 then .nan else .fin false Q.zero)
  else
    let p := ilog2 m
    let f := m % 2 ^ p
    let v := Q.mul ⟨2 ^ p + 9 * f, 2 ^ p⟩ (Q.pow10 ((p : Int) - 6))
    if c ≥ 128 then .fin true v.neg else .fin false v

/-- elem(e) of R118: the value of an element code at unit scale (Table 12.3). -/
def narrowElem (code c : Nat) : FVal :=
  if code = 18 then d8Value c
  else if code = 1 then .fin false ⟨sext c 8, 64⟩
  else
    let (eb, mb, bias) := narrowShape code
    let neg := c.testBit (eb + mb)
    let s : Int := if neg then -1 else 1
    let e := c / 2 ^ mb % 2 ^ eb
    let m := c % 2 ^ mb
    if code = 13 ∧ e = 15 ∧ m = 7 then .nan
    else if code = 14 ∧ e = 31 then (if m = 0 then .inf neg else .nan)
    else if e = 0 then .fin neg (Q.mul ⟨s * m, 1⟩ (Q.pow2 (1 - (bias : Int) - mb)))
    else .fin neg (Q.mul ⟨s * (2 ^ mb + m), 1⟩ (Q.pow2 ((e : Int) - bias - mb)))

/-- unit(s) of a scale byte; none for the NaN scale (R118, R253). -/
def unitOf (code s : Nat) : Option Q :=
  if code = 18 then (if s = 0x80 then none else some (Q.pow10 (sext s 8)))
  else if s = 0xFF then none else some (Q.pow2 ((s : Int) - 127))

/-- The value of an element under its block's scale byte (R118). -/
def narrowValue (code s c : Nat) : FVal :=
  match unitOf code s with
  | none => .nan
  | some u =>
    match narrowElem code c with
    | .fin neg q => .fin neg (q.mul u)
    | v => v

/-- ⌊log10⌋ of a positive fraction, from a first guess that is at most two too high or low. -/
def qlog10 (q : Q) : Int :=
  let g : Int := qlog2 q.num.natAbs q.den * 1233 / 4096
  let ok (e : Int) : Bool := Q.le (Q.pow10 e) q
  if ok (g + 2) then g + 2 else if ok (g + 1) then g + 1 else if ok g then g else if ok (g - 1) then g - 1 else g - 2

/-- D8Code of R255 for a finite value already divided by 10^d: the code, and whether it saturates. -/
def d8Code (v : Q) : Nat × Bool :=
  let s := if v.num < 0 then 0x80 else 0
  let a := v.abs
  if Q.lt a (Q.pow10 (-6)) then (if Q.lt (Q.mul (Q.pow10 (-6)) ⟨1, 2⟩) a then s + 1 else 0, false)
  else
    let k : Nat := if Q.le ⟨1, 1⟩ a then 0 else (-(qlog10 a)).toNat
    let p := 6 - k
    let x := Q.mul (Q.sub (Q.mul a (Q.pow10 k)) ⟨1, 1⟩) ⟨2 ^ p, 9⟩
    let f := x.roundNE.toNat
    if f ≥ 2 ^ p then (if k = 0 then (s + 0x7F, true) else (s + 2 ^ (p + 1), false)) else (s + 2 ^ p + f, false)

/-- A finite value already divided by the unit, rounded to a code of the format, saturating: the code, and whether it
saturates (R119 step 3, R251, R252). `neg` is the sign of a zero: a −0 element keeps it in a format that has −0 (DEDUCED,
log 82). -/
def narrowRound (code : Nat) (neg : Bool) (v : Q) : Nat × Bool :=
  if code = 18 then d8Code v
  else if code = 1 then
    let r := (Q.mul v ⟨64, 1⟩).roundNE
    let c := satI r 8
    (wrap c 8, c != r)
  else
    let (eb, mb, bias) := narrowShape code
    let sign := 2 ^ (eb + mb)
    if v.num = 0 then (if neg then sign else 0, false)
    else
      let n : Bool := v.num < 0
      let emin : Int := 1 - (bias : Int)
      let qe := max (qlog2 v.num.natAbs v.den) emin
      let (m, r, d) := scaleDown v.num.natAbs v.den (qe - mb)
      let m' := if roundUp 0 n m r d then m + 1 else m
      let b := (qe - emin).toNat * 2 ^ mb + m'
      let sat := b > narrowMax code
      ((if n then sign else 0) + (if sat then narrowMax code else b), sat)

/-- The signed largest finite code (R119 step 4, Table 12.3). -/
def narrowInf (code : Nat) (neg : Bool) : Nat :=
  if code = 1 then (if neg then 0x81 else 0x7F)
  else narrowMax code + (if neg then 2 ^ (fmtBits code - 1) else 0)

/-- The scale byte of zero blocks (R119). -/
def zeroScale (code : Nat) : Nat := if code = 18 then 0 else 0x7F

/-- The NaN scale byte (R253). -/
def nanScale (code : Nat) : Nat := if code = 18 then 0x80 else 0xFF

/-- The largest finite magnitude of a block (R119 step 2). -/
def blockMax (vs : List FVal) : Q :=
  vs.foldl (fun acc v => match v with
    | .fin _ q => if Q.lt acc q.abs then q.abs else acc
    | _ => acc) Q.zero

/-- The new scale byte of a block without NaN (R119 step 2). -/
def blockScale (code : Nat) (vs : List FVal) : Nat :=
  let a := blockMax vs
  if a.isZero then zeroScale code
  else if code = 18 then wrap (max (-127) (min 127 (qlog10 a))) 8
  else (max (-127) (min 127 (qlog2 a.num.natAbs a.den - narrowEmax code)) + 127).toNat

/-- One value written at a unit: code and flags (R119 steps 3 and 4). -/
def blockElem (code : Nat) (u : Q) (v : FVal) : Nat × Nat :=
  match v with
  | .nan => (0, 0)
  | .inf neg => (narrowInf code neg, 32 + 64)
  | .fin neg q =>
    let (c, sat) := narrowRound code neg (q.div u)
    (c, if sat then 32 else 0)

/-- Flags of a list of results joined. -/
def orFlags (l : List Nat) : Nat := l.foldl (fun a b => a ||| b) 0

/-- Block quantisation (R119): the scale byte, and each element's code with the flags whose conditions it meets (R104). -/
def blockQuant (code : Nat) (vs : List FVal) : Nat × List (Nat × Nat) :=
  if vs.contains .nan then (nanScale code, vs.map (fun _ => (0, 0)))
  else
    let s := blockScale code vs
    (s, vs.map (blockElem code ((unitOf code s).getD ⟨1, 1⟩)))

/-- The NaN code of a format, the zero code where it has none (R120). -/
def nanCode (code : Nat) : Nat := if code = 13 ∨ code = 14 then 0x7F else if code = 18 then 0x80 else 0

/-- Block re-expression at a scale byte (R120): codes with their flags. An infinity is written as R119 step 4 gives. -/
def blockReexpress (code s : Nat) (vs : List FVal) : List (Nat × Nat) :=
  match unitOf code s with
  | none => vs.map (fun _ => (nanCode code, 1))
  | some u => if vs.contains .nan then vs.map (fun _ => (nanCode code, 1)) else vs.map (blockElem code u)

/-- QCVT's block: at a set scale with `.fix`, else afresh (R122). -/
def blockQcvt (code : Nat) (fix : Bool) (s : Nat) (vs : List FVal) : Nat × List (Nat × Nat) :=
  if !fix then blockQuant code vs
  else if (unitOf code s).isNone || vs.contains .nan then (nanScale code, vs.map (fun _ => (0, 0)))
  else (s, blockReexpress code s vs)

/-- Whether one scale byte's unit is below another's (R125). -/
def scaleLt (code a b : Nat) : Bool := if code = 18 then sext a 8 < sext b 8 else a < b

/-- The largest scale of a list (R125, R183). -/
def scaleMax (code : Nat) (l : List Nat) : Nat :=
  match l with
  | [] => zeroScale code
  | x :: xs => xs.foldl (fun a b => if scaleLt code a b then b else a) x

/-- A source's elements realigned to scale `S` where its own scale is below (R125): exact values. -/
def realign (code s S : Nat) (cs : List Nat) : List FVal :=
  if scaleLt code s S then
    let u := (unitOf code S).getD ⟨1, 1⟩
    cs.map (fun c => match narrowValue code s c with
      | .fin neg q =>
        match narrowElem code (narrowRound code neg (q.div u)).1 with
        | .fin n r => .fin n (r.mul u)
        | v => v
      | v => v)
  else cs.map (narrowValue code s)

/-- The operations of block-scaled arithmetic (R125). -/
inductive NOp where
  | add
  | sub
  | mul
  | fma
  | min
  | max
  deriving DecidableEq, Repr

/-- A sum of exact values with infinities; .nan for ∞ − ∞. -/
def exactAdd (a b : FVal) : FVal :=
  match a, b with
  | .inf s, .inf t => if s == t then .inf s else .nan
  | .inf s, .fin _ _ => .inf s
  | .fin _ _, .inf t => .inf t
  | .fin s p, .fin t q => .fin (if p.isZero && q.isZero then s && t else false) (p.add q)
  | _, _ => .nan

/-- OP of the realigned exact values (R125). -/
def narrowOp (op : NOp) (a b c : FVal) : FVal :=
  match op with
  | .add => exactAdd a b
  | .sub => exactAdd a b.negate
  | .mul => (fMulVal a b).getD .nan
  | .fma => exactAdd ((fMulVal a b).getD .nan) c
  | .min => if fLess true b a then b else a
  | .max => if fLess true a b then b else a

/-- One block of a block-scaled operation (R125): sources as (scale byte, codes); scale byte, codes with their flags. -/
def blockOp (op : NOp) (code : Nat) (srcs : List (Nat × List Nat)) : Nat × List (Nat × Nat) :=
  let n := (srcs.map (fun s => s.2.length)).foldl Nat.max 0
  let bad := srcs.any (fun s => (unitOf code s.1).isNone || (s.2.any (fun c => narrowElem code c == .nan)))
  if bad then (nanScale code, List.replicate n (0, 0))
  else
    let S := scaleMax code (srcs.map (·.1))
    let vals := srcs.map (fun s => realign code s.1 S s.2)
    let at_ (k i : Nat) : FVal := nth (nth vals [] k) (.fin false Q.zero) i
    let vs := (List.range n).map (fun i => narrowOp op (at_ 0 i) (at_ 1 i) (at_ 2 i))
    let (s, cs) := blockQuant code vs
    (s, (vs.zip cs).map (fun p => (p.2.1, p.2.2 ||| (if p.1 = .nan then 1 else 0))))

end Sys2Proof.Machine
end

