-- ==== Sys2Proof/Machine/Epilogue.lean ====
section
/-! DEFINITION. The epilogue processor: program words and their validation (R174, Tables 06.8, 06.9), its operations
(R176), and the conversion of an output row (R177). -/
namespace Sys2Proof.Machine

/-- Fields of an epilogue word (Table 06.8). -/
structure EpiWord where
  op : Nat
  ed : Nat
  ea : Nat
  eb : Nat
  ec : Nat
  ft : Nat
  imm : Nat
  deriving DecidableEq, Repr

def epiOf (w : BitVec 32) : EpiWord :=
  let x := w.toNat
  ⟨bits x 31 27, bits x 26 23, bits x 22 19, bits x 18 15, bits x 14 11, bits x 10 10, bits x 9 0⟩

/-- Every field a word does not use is 0, and every value lies in its range (R174, Table 06.9). -/
def epiOk (e : EpiWord) : Bool :=
  match e.op with
  | 0 | 1 | 2 => e.ec == 0 && (if e.ft = 0 then e.imm < 2 else e.imm == 0)
  | 3 => if e.ft = 0 then e.imm < 2 else e.imm == 0
  | 4 => e.ec == 0 && e.ft == 0 && e.imm == 0
  | 5 => e.ec == 0 && e.ft == 0 && e.imm < 64 && (bit e.imm 5 || e.eb == 0)
  | 6 | 7 => e.ec == 0 && e.imm == 0
  | 8 => e.imm == 0
  | 9 => e.ec == 0 && e.imm < 6
  | 10 => e.ft == 0 && e.imm == 0
  | 11 => e.eb == 0 && e.ec == 0 && e.imm == 0
  | 12 => e.ea == 0 && e.eb == 0 && e.ec == 0 && e.ft == 0
  | 13 => e.ea == 0 && e.eb == 0 && e.ec == 0 && e.ft == 0 && (!bit e.imm 9 || e.imm == 512)
  | 14 => e.eb == 0 && e.ec == 0 && e.ft == 0 && (if bit e.imm 9 then e.ea == 0 else e.imm == 0)
  | 15 => e.ed == 0 && e.eb == 0 && e.ec == 0 && [1, 2, 3, 4, 5, 6, 9, 10, 11].contains e.imm
  | 16 => e.ed == 0 && e.ea == 0 && e.eb == 0 && e.ec == 0 && e.ft == 0 && e.imm == 0
  | _ => false

/-- The words that a program runs per row: those before the first EEND. -/
def epiRun (ws : List (BitVec 32)) : List EpiWord := (ws.map epiOf).takeWhile (fun e => e.op != 16)

/-- A row stride of MDRAIN that a program's EOUT does not fit: below 16 elements, or for memory no multiple of one (R177). -/
def shortStride (prog : List EpiWord) (stride : Nat) (mem : Bool) : Bool :=
  (prog.filter (fun e => e.op == 15)).any (fun e =>
    stride < 2 * fmtBits e.imm || (mem && stride % (fmtBits e.imm / 8) != 0))

/-- A program is valid (R174). -/
def programOk (ws : List (BitVec 32)) : Bool :=
  ws.all (fun w => epiOk (epiOf w)) && ws.any (fun w => (epiOf w).op == 16) &&
    ((epiRun ws).filter (fun e => e.op == 15)).length ≤ 1

/-- A NaN of a format as its canonical NaN (R164, R176). -/
def canonical (f : FFmt) (x : Nat) : Nat := if fIsNaN f x then f.canon else x

def f32 : FFmt := ffmt 11

/-- The comparison of ECMP on f32 patterns, COND as R83; an unordered pair meets only COND 1. -/
def epiTest (cond a b : Nat) : Bool :=
  let x := fDecode f32 a
  let y := fDecode f32 b
  if fIsNaN f32 a || fIsNaN f32 b then cond == 1
  else
    match cond with
    | 0 => fSame x y
    | 1 => !fSame x y
    | 2 => fLess false x y
    | 3 => fLess false x y || fSame x y
    | 4 => fLess false y x
    | 5 => fLess false y x || fSame x y
    | _ => false

/-- EMIN and EMAX on patterns. -/
def epiMin (ft : Nat) (big : Bool) (a b : Nat) : Nat :=
  if ft = 1 then canonical f32 (fMinMax f32 big false false a b).1
  else if big then wrap (max (sext a 32) (sext b 32)) 32 else wrap (min (sext a 32) (sext b 32)) 32

/-- The effect of an element-wise word on one element's sources (Table 06.9). -/
def epiElem (e : EpiWord) (a b c : Nat) : Nat :=
  let ia := sext a 32
  let ib := sext b 32
  let ic := sext c 32
  let int (x : Int) : Nat := wrap (if bit e.imm 0 then satI x 32 else x) 32
  match e.op with
  | 0 => if e.ft = 1 then canonical f32 (fAdd f32 0 false a b).1 else int (ia + ib)
  | 1 => if e.ft = 1 then canonical f32 (fSub f32 0 false a b).1 else int (ia - ib)
  | 2 => if e.ft = 1 then canonical f32 (fMul f32 0 false a b).1 else int (ia * ib)
  | 3 => if e.ft = 1 then canonical f32 (fFma f32 0 false a b c).1 else int (ia * ib + ic)
  | 4 => wrap (satI ((ia * ib + 2 ^ 30) / 2 ^ 31) 32) 32
  | 5 =>
    let s := if bit e.imm 5 then b % 32 else e.imm % 32
    if s = 0 then a else wrap ((ia + 2 ^ (s - 1)) / 2 ^ s) 32
  | 6 => epiMin e.ft false a b
  | 7 => epiMin e.ft true a b
  | 8 => epiMin e.ft false (epiMin e.ft true a b) c
  | 9 => if (if e.ft = 1 then epiTest e.imm a b else intTest e.imm ia ib) then 2 ^ 32 - 1 else 0
  | 10 => if c ≠ 0 then a else b
  | 11 => if e.ft = 1 then (fOfInt f32 0 false ia).1 else (iOfFloat f32 0 true 32 a).1
  | 14 => if bit e.imm 9 then wrap (sext e.imm 9) 32 else a
  | _ => 0

/-- One element of an output row in its type (R177). -/
def epiOut (ft ty x : Nat) : Nat :=
  let w := fmtBits ty
  if ty ≤ 6 then
    if ft = 1 then (iOfFloat f32 0 (fmtSigned ty) w x).1 else wrap (satBy (fmtSigned ty) (sext x 32) w) w
  else if ft = 1 then (if ty = 11 then x else canonical (ffmt ty) (fConv f32 (ffmt ty) 0 false x).1)
  else (fOfInt (ffmt ty) 0 false (sext x 32)).1

/-- What a row's run needs: the column and row tables and the RSUM tile's slot, each where it can be read. -/
structure EpiEnv where
  col : Nat → Nat → Option Nat
  row : Nat → Option Nat
  rsum : Option Nat

/-- The registers of an epilogue: register `r`, element `n` under number 16 r + n. -/
def ereg (m : List (Nat × BitVec 32)) (r n : Nat) : Nat := (mget m 0 (16 * r + n)).toNat

/-- A list of options all of whose entries are there. -/
def allSome {α : Type} : List (Option α) → Option (List α)
  | [] => some []
  | none :: _ => none
  | some x :: xs =>
    match allSome xs with
    | some ys => some (x :: ys)
    | none => none

/-- One word of a row: the registers after it, and the output row where it is EOUT; none where a table word is bad. -/
def epiStep (env : EpiEnv) (m : List (Nat × BitVec 32)) (e : EpiWord) :
    Option (List (Nat × BitVec 32) × Option (Nat × List Nat)) :=
  let lanes := List.range 16
  let write (xs : List Nat) : List (Nat × BitVec 32) :=
    (lanes.zip xs).foldl (fun m p => mset m (16 * e.ed + p.1) (BitVec.ofNat 32 p.2)) m
  match e.op with
  | 12 => (allSome (lanes.map (fun n => env.col e.imm n))).map (fun xs => (write xs, none))
  | 13 => (if bit e.imm 9 then env.rsum else env.row e.imm).map (fun x => (write (lanes.map (fun _ => x)), none))
  | 15 => some (m, some (e.imm, lanes.map (fun n => epiOut e.ft e.imm (ereg m e.ea n))))
  | _ => some (write (lanes.map (fun n => epiElem e (ereg m e.ea n) (ereg m e.eb n) (ereg m e.ec n))), none)

/-- The words of a row in order. -/
def epiRow (env : EpiEnv) : List EpiWord → List (Nat × BitVec 32) → Option (Nat × List Nat) →
    Option (List (Nat × BitVec 32) × Option (Nat × List Nat))
  | [], m, out => some (m, out)
  | e :: es, m, out =>
    match epiStep env m e with
    | none => none
    | some (m, o) => epiRow env es m (o.orElse (fun _ => out))

end Sys2Proof.Machine
end

