-- ==== Sys2Proof/Machine/Matrix.lean ====
section
/-! DEFINITION. What the matrix engine's commands do (R162–R169, R172–R175, R261, R265, R273): MMA, the steps of a job
card, MPERM, ACCWR, ACCZ, EPLD and MDRAIN, and the checks that their operands meet at signature completion or issue. -/
namespace Sys2Proof.Machine

/-! ### Operands in the typed buffers -/

/-- A format whose rows carry block scales in the matrix engine (R162, R163: code 1 is plain there). -/
def blockScaled (f : Nat) : Bool := [13, 14, 15, 16, 17, 18].contains f

/-- The bytes of one row of A, or column of B: its elements and its scale bytes (R162). -/
def rowLen (f k : Nat) : Nat := k * fmtBits f / 8 + (if blockScaled f then ceilDiv k 32 else 0)

/-- Element `k` of a row held as a number (R162). -/
def rowElem (f : Nat) (row k : Nat) : Nat := (row >>> (fmtBits f * k)) % 2 ^ fmtBits f

/-- The scale byte of element `k` (R162). -/
def rowScale (f : Nat) (row len k : Nat) : Nat := (row >>> (len * fmtBits f + 8 * (k / 32))) % 256

/-- The value of an element that enters a product (R164). -/
def operandValue (f row len k : Nat) : FVal :=
  let c := rowElem f row k
  if f = 18 then
    match narrowValue 18 (rowScale f row len k) c with
    | .fin neg q => fDecode f32 (roundF 11 0 neg q)
    | v => v
  else if blockScaled f then narrowValue f (rowScale f row len k) c
  else fDecode (ffmt f) c

/-- An integer element (R164). -/
def operandInt (f row k : Nat) : Int := elemInt (fmtSigned f) (fmtBits f) (rowElem f row k)

/-- Every number of a list of reads; none where one is bad. -/
def readRows (rd : Nat → Option (List Byte)) (offs : List Nat) : Option (List Nat) :=
  allSome (offs.map (fun o => (rd o).map ofLe))

def aRows (s : State) (core off stride len : Nat) : Option (List Nat) :=
  readRows (fun m => readAbuf s (core * 2 ^ 19 + off + m * stride) len) (List.range 16)
def bCols (s : State) (core off stride len : Nat) : Option (List Nat) :=
  readRows (fun n => readWbuf s (core * 2 ^ 20 + off + n * stride) len) (List.range 16)

/-- The address of a tile in the file of all C-buffers. -/
def tileAt (core t : Nat) : Nat := core * 2 ^ 18 + t * 1024

/-- The elements of a tile: 32-bit slots, or the 64-bit elements of an FP64 tile, in row order (R158). -/
def readTile (s : State) (core t : Nat) (wide : Bool) : Option (List Nat) :=
  let b := if wide then 8 else 4
  (readCbuf s (tileAt core t) (256 * b)).map (fun bs => (List.range 256).map (fun i => ofLe ((bs.drop (b * i)).take b)))

/-- A tile written whole. -/
def writeTile (s : State) (core t : Nat) (wide : Bool) (xs : List Nat) : State :=
  writeCbuf s (tileAt core t) ((xs.flatMap (fun x => leBytes (if wide then 8 else 4) x)).map some)

/-- Tiles set to zero. -/
def zeroTiles (s : State) (core t n : Nat) : State := writeCbuf s (tileAt core t) (List.replicate (1024 * n) (some 0))

/-! ### One multiplication -/

/-- c + a × b with one rounding, a NaN as the canonical one (R164). -/
def accumulate (f : FFmt) (c : Nat) (a b : FVal) : Nat :=
  if fIsNaN f c || a == .nan || b == .nan then f.canon
  else
    match fMulVal a b with
    | none => f.canon
    | some p => canonical f (fAddVal f 0 false p (fDecode f c)).1

/-- The value of one element of C after every atom, in ascending order (R164). -/
def dotAtoms (g : MGroup) (af bf : Nat) (sat : Bool) (k : Nat) (a b c : Nat) : Nat :=
  let ka := atomK g
  if groupInt g then
    (List.range (k / ka)).foldl (fun c q =>
      let sum := (List.range' (q * ka) ka).foldl (fun (x : Int) j => x + operandInt af a j * operandInt bf b j) 0
      if sat then wrap (satI (sext c 32 + sum) 32) 32 else wrap (sext c 32 + sum) 32) c
  else
    let f := if g = .fp64 then ffmt 12 else f32
    (List.range k).foldl (fun c j => accumulate f c (operandValue af a k j) (operandValue bf b k j)) c

/-- What one step of the matrix engine multiplies. -/
structure Step where
  af : Nat
  bf : Nat
  sat : Bool
  tile : Nat
  aoff : Nat
  sa : Nat
  boff : Nat
  sb : Nat
  k : Nat
  deriving DecidableEq, Repr

/-- The MMA of R164 on one tile: the state, or MEMERR. `zero` starts from zero. -/
def runStep (s : State) (core : Nat) (g : MGroup) (x : Step) (zero : Bool) : State × Option CmdFail :=
  let wide := g = .fp64
  let c0 := if zero then some (List.replicate 256 0) else readTile s core x.tile wide
  match aRows s core x.aoff x.sa (rowLen x.af x.k), bCols s core x.boff x.sb (rowLen x.bf x.k), c0 with
  | some as, some bs, some cs =>
    (writeTile s core x.tile wide ((List.range 256).map (fun i =>
      dotAtoms g x.af x.bf x.sat x.k (nth as 0 (i / 16)) (nth bs 0 (i % 16)) (nth cs 0 i))), none)
  | _, _, _ => (s, some (failAddr cMEMERR 0))

/-- Row sums into the RSUM tile (R165). -/
def runRsum (s : State) (core : Nat) (x : Step) (zero : Bool) (rtile rrow : Nat) : State × Option CmdFail :=
  match aRows s core x.aoff x.sa (rowLen x.af x.k) with
  | none => (s, some (failAddr cMEMERR 0))
  | some as =>
    let rs := as.map (fun a => (List.range x.k).foldl (fun (t : Int) j => t + operandInt x.af a j) 0)
    let a := tileAt core rtile + 64 * rrow
    match (if zero then some (List.replicate 64 (0 : Byte)) else readCbuf s a 64) with
    | none => (s, some (failAddr cMEMERR 0))
    | some old =>
      let bs := (List.range 16).flatMap (fun m =>
        let r := nth rs 0 m
        let o := sext (ofLe ((old.drop (4 * m)).take 4)) 32
        leBytes 4 (if zero then wrap r 32 else if x.sat then wrap (satI (o + r) 32) 32 else wrap (o + r) 32))
      (writeCbuf s a (bs.map some), none)

/-! ### Operand values -/

/-- A K extent is valid for an atom (R162). -/
def extentOk (k atom : Nat) : Bool := 1 ≤ k && k % atom == 0

/-- The operand values of MMA and MPERM (Table 06.4): TILE, AOFF, SA, BOFF, SB, K. -/
def mmaStep (af bf : Nat) (sat : Bool) (ops : List Word) : Step :=
  let v i := (nth ops 0 i).toNat
  { af := af, bf := bf, sat := sat, tile := v 0 % 256, aoff := v 1 % 2 ^ 24, sa := bits (v 1) 39 24,
    boff := v 2 % 2 ^ 24, sb := bits (v 2) 39 24, k := bits (v 3) 31 16 }

/-- The group of a command word's MOD16 (Table 06.5). -/
def groupOf (md : BitVec 16) : MGroup := (mmaGroup (fieldOf md 4 0) (fieldOf md 9 5)).getD .fp32

/-- A step's operands lie in their buffers. -/
def footprintOk (x : Step) : Bool :=
  x.aoff + 15 * x.sa + rowLen x.af x.k ≤ 2 ^ 19 && x.boff + 15 * x.sb + rowLen x.bf x.k ≤ 2 ^ 20

/-- The checks of MMA, MJOB and MPERM at signature completion: the cause (R157, R162, R166, R169). -/
def signedCheck (bitsW : Word) (ops : List Word) : Option Nat :=
  match rawOfWord bitsW with
  | some (.e 0x61 _) =>
    let a := (nth ops 0 1).toNat
    if a % 16 ≠ 0 then some cALIGN else if a + 96 > 2 ^ 19 then some cBOUNDS else none
  | some (.e op w) =>
    let perm := op = 0x62
    let af := fieldOf w.md 4 0
    let x := mmaStep af (if perm then 2 else fieldOf w.md 9 5) false ops
    let wide := if perm then fmtBits af = 64 else groupOf w.md = .fp64
    if x.aoff % 16 ≠ 0 ∨ x.sa % 16 ≠ 0 ∨ x.boff % 16 ≠ 0 ∨ x.sb % 16 ≠ 0 then some cALIGN
    else if wide ∧ x.tile % 2 = 1 then some cALIGN
    else if !extentOk x.k (if perm then 64 else atomK (groupOf w.md)) then some cBOUNDS
    else if !footprintOk x then some cBOUNDS else none
  | _ => none

/-! ### MMA, MJOB, MPERM -/

def runMma (s : State) (core : Nat) (w : EW) (ops : List Word) : State × Option CmdFail :=
  let x := mmaStep (fieldOf w.md 4 0) (fieldOf w.md 9 5) (bitOf w.md 10) ops
  let zero := bitOf w.md 11
  match runStep s core (groupOf w.md) x zero with
  | (s, some f) => (s, some f)
  | (s, none) =>
    if bitOf w.md 12 then runRsum s core x zero (bits (nth ops 0 3).toNat 55 48) (bits (nth ops 0 3).toNat 59 56)
    else (s, none)

/-- A level of a job card (Table 06.7): extent and the signed steps. -/
structure Level where
  ext : Nat
  astr : Int
  bstr : Int
  cstr : Int
  deriving DecidableEq, Repr

/-- A level record, where its reserved field is 0 and its extent is not. -/
def levelOf (ws : List Word) : Option Level :=
  let v i := (nth ws 0 i).toNat
  if v 0 / 2 ^ 17 ≠ 0 ∨ v 0 % 2 ^ 16 = 0 then none
  else some ⟨v 0 % 2 ^ 16, sext (v 1) 32, sext (v 2) 32, sext (v 3) 16⟩

/-- The lowest and highest value of an affine function of the indices. -/
def spanOf (base : Int) (ls : List Level) (f : Level → Int) : Int × Int :=
  ls.foldl (fun acc l =>
    let d := f l * ((l.ext : Int) - 1)
    if d < 0 then (acc.1 + d, acc.2) else (acc.1, acc.2 + d)) (base, base)

/-- The steps of a job in the default order: offsets of A, of B, and the tile (R167, R168). -/
def jobSteps : List Level → Int → Int → Int → List (Int × Int × Int)
  | [], a, b, c => [(a, b, c)]
  | l :: ls, a, b, c =>
    (List.range l.ext).flatMap (fun (i : Nat) =>
      jobSteps ls (a + (i : Int) * l.astr) (b + (i : Int) * l.bstr) (c + (i : Int) * l.cstr))

/-- A job card: its first step and its levels, where it is not malformed (R166, R167). One whose level records pass the end of
the A-buffer counts as malformed (DEDUCED, log 97). -/
def cardOf (w : EW) (card : List Word) : Option (Step × List Level) :=
  let h0 := (nth card 0 0).toNat
  let h1 := (nth card 0 1).toNat
  let n := bits h0 58 56
  let g := groupOf w.md
  let x : Step := { af := fieldOf w.md 4 0, bf := fieldOf w.md 9 5, sat := bitOf w.md 10, tile := bits h0 55 48,
                    aoff := h0 % 2 ^ 24, sa := h1 % 2 ^ 16, boff := bits h0 47 24, sb := bits h1 31 16, k := bits h1 47 32 }
  let ls := (List.range n).map (fun i => levelOf ((card.drop (8 + 4 * i)).take 4))
  match allSome ls with
  | none => none
  | some ls =>
    let a := spanOf x.aoff ls (·.astr)
    let b := spanOf x.boff ls (·.bstr)
    let c := spanOf x.tile ls (·.cstr)
    let wide := g = .fp64
    if card.length < 8 + 4 * n ∨ n < 1 ∨ n > 5 ∨ bits h0 63 59 ≠ 0 ∨ bits h1 63 48 ≠ 0 ∨
        ((card.drop 2).take 6).any (· != 0) = true then none
    else if !extentOk x.k (atomK g) ∨ x.sa % 16 ≠ 0 ∨ x.sb % 16 ≠ 0 ∨
        ls.any (fun l => l.astr % 16 != 0 || l.bstr % 16 != 0) = true then none
    else if a.1 < 0 ∨ a.2 + 15 * x.sa + rowLen x.af x.k > 2 ^ 19 ∨ b.1 < 0 ∨ b.2 + 15 * x.sb + rowLen x.bf x.k > 2 ^ 20 ∨
        c.1 < 0 ∨ c.2 > 255 then none
    else if wide ∧ (x.tile % 2 = 1 ∨ ls.any (fun l => l.ext > 1 && l.cstr % 2 != 0) = true) then none
    else some (x, ls)

/-- The steps of a job one after another, in the default order, which R168 lets a walker choose (DESIGN CHOICE, log 97); with
ZERO a tile starts from zero at its first step. -/
def runSteps (core : Nat) (g : MGroup) (x : Step) (zero : Bool) :
    List (Int × Int × Int) → List Nat → State → State × Option CmdFail
  | [], _, s => (s, none)
  | (a, b, c) :: ps, seen, s =>
    let t := c.toNat
    match runStep s core g { x with aoff := a.toNat, boff := b.toNat, tile := t } (zero && !seen.contains t) with
    | (s, some f) => (s, some f)
    | (s, none) => runSteps core g x zero ps (if zero then t :: seen else seen) s

/-- MJOB from the card read at acceptance; detail CARD where the card is malformed. -/
def runMjob (s : State) (core : Nat) (w : EW) (card : List Word) : State × Option CmdFail :=
  if card.isEmpty then (s, some (failAddr cMEMERR 0))
  else
    match cardOf w card with
    | none => (s, some ⟨2, 0, 0, 0⟩)
    | some (x, ls) => runSteps core (groupOf w.md) x (bitOf w.md 11) (jobSteps ls x.aoff x.boff x.tile) [] s

/-- The row at which a one-hot column of bytes holds 1 (R169). -/
def oneHot (col k : Nat) : Option Nat :=
  let l := (List.range k).filter (fun j => rowElem 2 col j != 0)
  match l with
  | [j] => if rowElem 2 col j = 1 then some j else none
  | _ => none

/-- MPERM (R169). -/
def runMperm (s : State) (core : Nat) (w : EW) (ops : List Word) : State × Option CmdFail :=
  let af := fieldOf w.md 4 0
  let x := mmaStep af 2 false ops
  match aRows s core x.aoff x.sa (rowLen af x.k), bCols s core x.boff x.sb x.k with
  | some as, some bs =>
    match allSome (bs.map (fun b => oneHot b x.k)) with
    | none => (s, some ⟨3, 0, 0, 0⟩)
    | some ks =>
      (writeTile s core x.tile (fmtBits af = 64) ((List.range 256).map (fun i =>
        rowElem af (nth as 0 (i / 16)) (nth ks 0 (i % 16)))), none)
  | _, _ => (s, some (failAddr cMEMERR 0))

/-! ### ACCRD, ACCWR, ACCZ, EPLD, MDRAIN -/

/-- The address of a quarter of a tile: lane i at 8 i (R172). -/
def quarterAt (core : Nat) (md : BitVec 16) : Nat := tileAt core (fieldOf md 15 8) + 256 * fieldOf md 7 5

/-- The 32 lanes of a quarter. -/
def readQuarter (s : State) (core : Nat) (md : BitVec 16) : Option (List Word) :=
  (readCbuf s (quarterAt core md) 256).map (fun bs =>
    (List.range 32).map (fun i => BitVec.ofNat 64 (ofLe ((bs.drop (8 * i)).take 8))))

def runAccwr (s : State) (core : Nat) (w : EW) (capt : List Word) : State × Option CmdFail :=
  (writeCbuf s (quarterAt core w.md) ((capt.flatMap (fun x => leBytes 8 x.toNat)).map some), none)

def runAccz (s : State) (core : Nat) (w : EW) : State × Option CmdFail :=
  (zeroTiles s core (fieldOf w.md 15 8) (fieldOf w.md 7 0 + 1), none)

/-- A program slot of a core set, or emptied. -/
def setProgram (s : State) (core slot : Nat) (p : Option (List (BitVec 32))) : State :=
  s.modCore core (fun c => { c with eprog := match p with
    | some ws => mset c.eprog slot ws
    | none => mdel c.eprog slot })

/-- EPLD (R174). -/
def runEpld (s : State) (core : Nat) (w : EW) (ops : List Word) : State × Option CmdFail :=
  let n := fieldOf w.md 7 2 + 1
  let slot := fieldOf w.md 1 0
  match readAbuf s (core * 2 ^ 19 + (nth ops 0 1).toNat) (4 * n) with
  | none => (s, some (failAddr cMEMERR 0))
  | some bs =>
    let ws := (List.range n).map (fun i => BitVec.ofNat 32 (ofLe ((bs.drop (4 * i)).take 4)))
    if programOk ws then (setProgram s core slot (some ws), none) else (setProgram s core slot none, some ⟨4, 0, 0, 0⟩)

/-- A 32-bit word of the A-buffer or of the C-buffer. -/
def tableWord (s : State) (core off : Nat) : Option Nat := (readAbuf s (core * 2 ^ 19 + off) 4).map ofLe
def slotWord (s : State) (core t m n : Nat) : Option Nat := (readCbuf s (tileAt core t + 64 * m + 4 * n) 4).map ofLe

/-- The rows of a drain in order (R175): a failure keeps the rows already written. -/
def drainRows (core : Nat) (k : Cmd) (w : EW) (prog : List EpiWord) (ops : List Word) :
    List Nat → State → State × Option CmdFail
  | [], s => (s, none)
  | m :: ms, s =>
    let v i := (nth ops 0 i).toNat
    let tile := fieldOf w.md 15 8
    let env : EpiEnv :=
      { col := fun i n => tableWord s core (v 2 + 64 * i + 4 * n), row := fun i => tableWord s core (v 3 + 64 * i + 4 * m),
        rsum := slotWord s core (bits (v 1) 23 16) (bits (v 1) 27 24) m }
    match allSome ((List.range 16).map (fun n => slotWord s core tile m n)) with
    | none => (s, some (failAddr cMEMERR 0))
    | some xs =>
      let regs := ((List.range 16).zip xs).foldl (fun r p => mset r p.1 (BitVec.ofNat 32 p.2)) (s.core core).ereg
      match epiRow env prog regs none with
      | none => (s, some (failAddr cMEMERR 0))
      | some (regs, out) =>
        let s := s.modCore core (fun c => { c with ereg := regs })
        match out with
        | none => drainRows core k w prog ops ms s
        | some (ty, ys) =>
          let bs := ys.flatMap (fun y => leBytes (fmtBits ty / 8) y)
          match engWrite s core k (if bitOf w.md 2 then 0 else 2) (nth ops 0 0) (m * (v 1 % 2 ^ 16) : Nat) 0 copyKinds bs with
          | (s, some f) => (s, some f)
          | (s, none) => drainRows core k w prog ops ms s

/-- MDRAIN from its start (R175): NOPROG, the table rows, the stride of its output, then the rows. -/
def runMdrain (s : State) (core : Nat) (k : Cmd) (w : EW) (ops : List Word) : State × Option CmdFail :=
  match mget? (s.core core).eprog (fieldOf w.md 1 0) with
  | none => (s, some ⟨5, 0, 0, 0⟩)
  | some ws =>
    let prog := epiRun ws
    let v i := (nth ops 0 i).toNat
    let beyond (e : EpiWord) : Bool :=
      (e.op == 12 && v 2 + 64 * e.imm + 64 > 2 ^ 19) || (e.op == 13 && !bit e.imm 9 && v 3 + 64 * e.imm + 64 > 2 ^ 19)
    let stride := v 1 % 2 ^ 16
    let outs := prog.filter (fun e => e.op == 15)
    let past (e : EpiWord) : Bool := !bitOf w.md 2 && v 0 + 15 * stride + 2 * fmtBits e.imm > 2 ^ 19
    if prog.any beyond then (s, some (failAddr cBOUNDS 0))
    else if shortStride prog stride (bitOf w.md 2) then (s, some (failAddr cALIGN 0))
    else if outs.any past then (s, some (failAddr cBOUNDS 0))
    else
      let s := s.modCore core (fun c => { c with ereg := c.ereg.filter (fun p => p.1 < 16) })
      match drainRows core k w prog ops (List.range 16) s with
      | (s, some f) => (s, some f)
      | (s, none) => (if bitOf w.md 3 then zeroTiles s core (fieldOf w.md 15 8) 1 else s, none)

/-- A matrix-engine command runs. -/
def runMatrix (s : State) (core : Nat) (k : Cmd) : State × Option CmdFail :=
  match rawOfWord k.bits with
  | some (.e op w) =>
    if op = 0x60 then runMma s core w k.ops
    else if op = 0x61 then runMjob s core w k.capt
    else if op = 0x62 then runMperm s core w k.ops
    else if op = 0x65 then runAccwr s core w k.capt
    else if op = 0x66 then runAccz s core w
    else if op = 0x67 then runEpld s core w k.ops
    else runMdrain s core k w k.ops
  | _ => (s, none)

end Sys2Proof.Machine
end

