-- ==== Sys2Proof/Machine/Arrive.lean ====
section
/-! DEFINITION. What a team's arrival does (R52): signatures on convergence registers (R59, R159), barriers (R61), and
the acceptance of the commands that signatures complete. -/
namespace Sys2Proof.Machine

/-- The word, PC and operand values at which every live, unparked fibre of a team has arrived (R52). -/
def arrivedAt (t : Team) : Option (Nat × Word × List Word × Bool) :=
  let m := t.freeRunMask
  let first := t.lane (lowest m)
  if m = 0 then none
  else
    match first.wait with
    | some (.arrive b ops) =>
      if (lanesOf m).all (fun i => (t.lane i).pc == first.pc && (match (t.lane i).wait with
          | some (.arrive b' _) => b' == b
          | _ => false)) then
        some (first.pc, b, ops, (lanesOf m).all (fun i => (t.lane i).wait == some (.arrive b ops)))
      else none
    | _ => none

/-- SIGN_MISMATCH of a team's waiting fibres (R59, R61). -/
def mismatch (s : State) (core slot : Nat) (t : Team) (b : Word) (n : Nat) : State :=
  trapLanes s core slot t.freeRunMask b { cause := cSIGN, reg := n }

/-- The waiting fibres of a team wait on for something else. -/
def Team.rewait (t : Team) (f : Wait → Bool) (x : Wait) : Team :=
  { t with lanes := t.lanes.map (fun l =>
      match l.wait with
      | some y => if l.live && !l.parked && f y then { l with wait := some x } else l
      | none => l) }

/-- The signers of a mask: slot and team number pairs of a copse. -/
def signersOf (c : Core) (cp : Copse) (mask : BitVec 16) : List (Nat × Nat) :=
  ((List.range 16).filter (fun i => mask.getLsbD i)).filterMap (fun i =>
    (cp.slots[i]?).bind (fun slot => (c.team? slot).map (fun t => (slot, t.uid))))

/-- A signature on MMA, MJOB or MPERM completes: its checks trap every signer, else the command is accepted once for
all of them, as soon as there is room (R157, R159, R267). -/
def acceptSigned (s : State) (core : Nat) (cp : Copse) (cvn : Nat) (mask : BitVec 16) (b : Word) (ops : List Word)
    (pc : Nat) : State :=
  let c := s.core core
  let signers := signersOf c cp mask
  match signedCheck b ops with
  | some cause =>
    signers.foldl (fun s p =>
      match (s.core core).team? p.1 with
      | some t =>
        let m := maskOf (fun i => (t.lane i).live && !(t.lane i).parked && (t.lane i).wait == some (.signed cvn))
        trapLanes s core p.1 m b { cause := cause, addr := some ⟨t.asid, 0, 0, 0, 0⟩ }
      | none => s) s
  | none =>
    match rawOfWord b with
    | some (.e _ w) =>
      let (id, s) := s.fresh
      let regions := signers.filterMap (fun p => (c.team? p.1).bind (fun t => t.openRegion.map Region.id))
      let k : Cmd :=
        { id := id, cls := 2, issuers := signers.map (fun p => .team p.1), uids := signers.map (fun p => p.2), bits := b,
          ops := ops, capt := [], guard := if w.ge = 1 then some w.gslot.toNat else none, regions := regions,
          st := .queued, asid := cp.asid, world := s.world core, pc := pc, aux := none, fallback := false, progress := 0, failed := none, accepted := 0 }
      let slots := signers.map (fun p => p.1)
      if canAccept s core k then
        (acceptCmd s core s.now k).modCore core (fun c => resumeSlots c s.now slots (fun x => x == .signed cvn))
      else
        s.modCore core (fun c => { c with
          toAccept := c.toAccept ++ [k],
          teams := c.teams.map (fun p =>
            if slots.contains p.1 then (p.1, p.2.rewait (fun x => x == .signed cvn) (.accept id)) else p) })
    | _ => s

/-- A team presents a word on a convergence register (R59). -/
def present (s : State) (core slot : Nat) (t : Team) (cp : Copse) (cvn : Nat) (mask : BitVec 16) (b : Word)
    (ops : List Word) (pc : Nat) (matrix : Bool) : State :=
  let cv := mget cp.cv ⟨false, 0, [], 0, 0⟩ cvn
  let me := BitVec.twoPow 16 t.tno
  if mask &&& me = 0 then mismatch s core slot t b cvn
  else if cv.collecting ∧ (cv.word ≠ b ∨ cv.ops ≠ ops ∨ cv.arrived &&& me ≠ 0) then mismatch s core slot t b cvn
  else
    let arrived := if cv.collecting then cv.arrived ||| me else me
    let s := s.modCore core (fun c =>
      c.setTeam slot (t.rewait (fun x => match x with
        | .arrive _ _ => true
        | _ => false) (.signed cvn)))
    if arrived = mask then
      let s := s.modCore core (fun c => c.setCopse { cp with cv := mdel cp.cv cvn })
      if matrix then acceptSigned s core cp cvn mask b ops pc
      else s.modCore core (fun c => resumeSlots c s.now (cp.slots) (fun x => x == .signed cvn))
    else s.modCore core (fun c => c.setCopse { cp with cv := mset cp.cv cvn ⟨true, b, ops, mask, arrived⟩ })

/-- A team arrives at a barrier (R61). -/
def arriveBar (s : State) (core slot : Nat) (t : Team) (cp : Copse) (b : Word) (w : IW) : State :=
  let n := fieldOf w.imm 3 0
  let count := fieldOf w.imm 7 4 + 1
  let bar := mget cp.bar ⟨0, 0, false⟩ n
  if bar.arrived ≠ 0 ∧ count ≠ bar.expected then mismatch s core slot t b n
  else
    let full := bar.arrived + 1 = count
    let new : Bar := if full then ⟨count, 0, !bar.phase⟩ else ⟨count, bar.arrived + 1, bar.phase⟩
    let here (x : Wait) : Bool := match x with
      | .arrive _ _ => true
      | _ => false
    let t := if bitOf w.md 0 then t.resume s.now here else t.rewait here (.barPhase n bar.phase)
    s.modCore core (fun c =>
      let c := (c.setTeam slot t).setCopse { cp with bar := mset cp.bar n new }
      if full then resumeSlots c s.now cp.slots (fun x => match x with
        | .barPhase m _ => m == n
        | _ => false)
      else c)

/-- The arrival of one team, where it has arrived (R52). -/
def arriveTeam (s : State) (core slot : Nat) : State :=
  match (s.core core).team? slot with
  | none => s
  | some t =>
    match arrivedAt t, (s.core core).copse? t.copse with
    | some (pc, b, ops, same), some cp =>
      match rawOfWord b with
      | some (.e 0x0D w) => present s core slot t cp (fieldOf w.vd 3 0) w.md b [] pc false
      | some (.e _ w) =>
        if same then present s core slot t cp w.cv.toNat (BitVec.ofNat 16 (nth ops 0 3).toNat) b ops pc true
        else mismatch s core slot t b w.cv.toNat
      | some (.i _ w) => arriveBar s core slot t cp b w
      | _ => s
    | _, _ => s

/-- The arrivals of a core's teams, in slot order. -/
def arriveCore (s : State) (core : Nat) : State :=
  ((s.core core).teams.map (fun p => p.1)).foldl (fun s slot => arriveTeam s core slot) s

/-- The core of the path at the cursor. -/
def cursorCore (s : State) : Nat :=
  match s.cursor with
  | .port c _ => c
  | .lane c _ => c

/-- A word after which its core's teams may have arrived. -/
def andArrive (s0 : State) (o : Host.Outcome State Fault Refusal) : Host.Outcome State Fault Refusal :=
  thenDo o (fun s => arriveCore s (cursorCore s0))

end Sys2Proof.Machine
end

