-- ==== Sys2Proof/Machine/Memory.lean ====
section
/-! DEFINITION. The meanings of the format M words of class 3 and of DRAIN: loads and stores (R135–R139), scaled records
(R140, R141), atomics (R142–R144), fences and drains (R145, R146), prefetch, maintenance and probing (R152–R154), for the
fibres of a team and for lane 0 of the S-lane (R155). -/
namespace Sys2Proof.Machine

/-! ### One fibre's access -/

/-- The bytes of a WIDTH (R130). -/
def widthBytes (w : MW) : Nat := 2 ^ w.width.toNat

/-- How the access of a format M word is made (R133, R134). -/
def mMode (iss : Iss) (w : MW) (e : Option Bte) : Mode :=
  { core := iss.core, agent := iss.agent, strong := w.strong == 1, order := w.order.toNat, scope := w.scope.toNat,
    cls := evClass w.evp.toNat e, nt := w.nt == 1 }

/-- The trap of a failed check (R131). -/
def checkTrap (x : Nat × FaultAddr) : Trap := { cause := x.1, addr := some x.2 }

/-- What each fibre of a word does, in ascending lane order (R137): the state, the fibres' values, and their traps. -/
def eachLane {α : Type} (f : State → Nat → State × Except Trap α) :
    List Nat → State → State × List (Nat × α) × List (Nat × Trap)
  | [], s => (s, [], [])
  | i :: is, s =>
    let (s, r) := f s i
    let (s, vals, traps) := eachLane f is s
    match r with
    | .ok x => (s, (i, x) :: vals, traps)
    | .error x => (s, vals, (i, x) :: traps)

/-- The value of a lane in a list of fibres' values. -/
def laneVal {α : Type} (d : α) (vals : List (Nat × α)) (i : Nat) : α :=
  match vals.find? (fun p => p.1 == i) with
  | some p => p.2
  | none => d

/-- The word's issue for the fibres that have values. -/
def only (iss : Iss) {α : Type} (vals : List (Nat × α)) : Iss :=
  { iss with act := maskOf (fun i => iss.act.getLsbD i && vals.any (fun p => p.1 == i)) }

/-- VA's format is one that the word's SPACE admits (R130). -/
def addrOk (v : Team) (w : MW) : Bool := formatsOk v [w.va.toNat] (addrFormats w.space).contains

/-- The place that a fibre names, before any check: handle and offset. -/
def placeOf (iss : Iss) (v : Team) (w : MW) (disp : Int) (i : Nat) : Nat × Int :=
  let r := v.reg w.va.toNat
  let q := mReq iss v w (r.lane i) r.fmt 1 1 disp 0 [] 0
  (q.handle, q.off)

/-- Whether the fibres of a mask name one place. -/
def samePlace (iss : Iss) (v : Team) (w : MW) (disp : Int) (m : BitVec 32) : Bool :=
  (lanesOf m).all (fun i => placeOf iss v w disp i == placeOf iss v w disp (lowest m))

/-- The checks of one fibre's access of `n` bytes (R131). -/
def laneCheck (s : State) (iss : Iss) (v : Team) (w : MW) (n : Nat) (disp : Int) (rights acc : Nat) (kinds : List Nat)
    (i : Nat) : Req × Checked :=
  let r := v.reg w.va.toNat
  mCheck s iss v w (r.lane i) r.fmt n (min n 16) disp rights kinds acc

/-- One fibre's load of `n` bytes (R131, R133, R134). -/
def loadLane (s : State) (iss : Iss) (v : Team) (w : MW) (n : Nat) (disp : Int) (i : Nat) :
    State × Except Trap (List Byte) :=
  let (q, chk) := laneCheck s iss v w n disp (if w.last = 1 then 3 else 1) 0 [0, 3] i
  match chk with
  | .error x => (s, .error (checkTrap x))
  | .ok (tgt, e) =>
    match readTgt (noteAccess s q e) (mMode iss w e) tgt n with
    | (_, none) => (s, .error (memErr q e))
    | (s, some bs) => (if w.last = 1 then lastDrop s tgt n else s, .ok bs)

/-- One fibre's store of the bytes of a list that are there (R131, R133, R134). -/
def storeLane (s : State) (iss : Iss) (v : Team) (w : MW) (bs : List (Option Byte)) (disp : Int) (i : Nat) :
    State × Except Trap Unit :=
  let (q, chk) := laneCheck s iss v w bs.length disp 2 1 [0, 3] i
  match chk with
  | .error x => (s, .error (checkTrap x))
  | .ok (tgt, e) => (writeTgt (noteAccess s q e) (mMode iss w e) tgt bs, .ok ())

/-! ### Loads -/

/-- The tag format of a loaded value (R135). -/
def widthFmt (w : MW) : Nat := nth [2, 4, 6, 8, 8] 8 w.width.toNat

/-- The 64 bits of a loaded value that start at byte `o`. -/
def loadedWord (bs : List Byte) (o : Nat) : Word := BitVec.ofNat 64 (ofLe ((bs.drop o).take 8))

/-- A loaded value in VD, or in VD and VD + 1 (R135). -/
def writeLoaded (iss : Iss) (t : Team) (w : MW) (want : Want) (vals : List (Nat × List Byte)) : Team :=
  let iss := only iss vals
  let t := writeReg iss t w.vd.toNat (widthFmt w) 0 want (fun i => loadedWord (laneVal [] vals i) 0)
  if w.width = 4 then writeReg iss t (w.vd.toNat + 1) 8 0 want (fun i => loadedWord (laneVal [] vals i) 8) else t

/-- A load by each active fibre. -/
def loadBody (w : MW) (s : State) (iss : Iss) (v t : Team) : Res :=
  if !addrOk v w then formatTrap s iss t
  else
    let (s, vals, traps) := eachLane (fun s i => loadLane s iss v w (widthBytes w) (mDisp w) i) (lanesOf iss.act) s
    { s := s, t := writeLoaded iss t w .general vals, traps := traps }

/-- LD (R135). -/
def execLd (w : MW) (s : State) : Host.Outcome State Fault Refusal := runWord (.m 0x50 w) (loadBody w) s

/-- LDU (R135): one access for every active fibre. -/
def execLdu (w : MW) (s : State) : Host.Outcome State Fault Refusal :=
  runWord (.m 0x51 w) (fun s iss v t =>
    if t.slane || iss.act == 0 then loadBody w s iss v t
    else if !addrOk v w then formatTrap s iss t
    else if !samePlace iss v w (mDisp w) iss.act then uniformTrap s iss t
    else
      match loadLane s iss v w (widthBytes w) (mDisp w) (lowest iss.act) with
      | (s, .error x) => { s := s, t := t, traps := trapAll iss.act x }
      | (s, .ok bs) =>
        { s := s, t := writeLoaded iss t w .uniform ((lanesOf iss.act).map (fun i => (i, bs))) }) s

/-! ### Stores -/

/-- The bytes that a fibre stores: the low bytes of VS, with VS + 1 for WIDTH 4 (R136). -/
def storeBytes (v : Team) (w : MW) (i : Nat) : List Byte :=
  let lo := ((v.reg w.vd.toNat).lane i).toNat
  let hi := if w.width = 4 then ((v.reg (w.vd.toNat + 1)).lane i).toNat else 0
  leBytes (widthBytes w) (lo + hi * 2 ^ 64)

/-- A store by each active fibre, in ascending lane order: the highest lane's bytes stay (R137). -/
def storeBody (w : MW) (bytes : Team → Nat → List (Option Byte)) (s : State) (iss : Iss) (v t : Team) : Res :=
  if !addrOk v w then formatTrap s iss t
  else
    let (s, _, traps) := eachLane (fun s i => storeLane s iss v w (bytes v i) (mDisp w) i) (lanesOf iss.act) s
    { s := s, t := t, traps := traps }

/-- ST (R136). -/
def execSt (w : MW) (s : State) : Host.Outcome State Fault Refusal :=
  runWord (.m 0x52 w) (storeBody w (fun v i => (storeBytes v w i).map some)) s

/-- STU (R136): one write for every active fibre. -/
def execStu (w : MW) (s : State) : Host.Outcome State Fault Refusal :=
  runWord (.m 0x53 w) (fun s iss v t =>
    let bytes (v : Team) (i : Nat) : List (Option Byte) := (storeBytes v w i).map some
    if t.slane || iss.act == 0 then storeBody w bytes s iss v t
    else if !addrOk v w then formatTrap s iss t
    else if !samePlace iss v w (mDisp w) iss.act ||
        !(lanesOf iss.act).all (fun i => storeBytes v w i == storeBytes v w (lowest iss.act)) then uniformTrap s iss t
    else
      match storeLane s iss v w (bytes v (lowest iss.act)) (mDisp w) (lowest iss.act) with
      | (s, .error x) => { s := s, t := t, traps := trapAll iss.act x }
      | (s, .ok _) => { s := s, t := t }) s

/-- The bytes of VS that the mask in VS + 1 lets through (R138). -/
def maskedBytes (v : Team) (w : MW) (i : Nat) : List (Option Byte) :=
  let x := ((v.reg w.vd.toNat).lane i).toNat
  let m := ((v.reg (w.vd.toNat + 1)).lane i).toNat
  ((leBytes 8 x).zipIdx).map (fun p => if bit m p.2 then some p.1 else none)

/-- STM (R138). -/
def execStm (w : MW) (s : State) : Host.Outcome State Fault Refusal :=
  runWord (.m 0x54 w) (storeBody w (fun v i => maskedBytes v w i)) s

/-! ### Scaled records -/

/-- The displacement of LDS and STS (R140). -/
def recordDisp (w : MW) : Int := sext (fieldOf w.off 6 0) 7 * 16

/-- The fibre whose address a record word uses, where the word may go on (R140). -/
def recordLane (s : State) (iss : Iss) (v t : Team) (w : MW) (go : Nat → Res) : Res :=
  if iss.act = 0 then { s := s, t := t }
  else if !addrOk v w then formatTrap s iss t
  else if !wholeTeam iss t || !samePlace iss v w (recordDisp w) iss.lanes then resTrap s t iss.lanes cUNIFORM
  else go (lowest iss.lanes)

/-- LDS (R140, R141). -/
def execLds (w : MW) (s : State) : Host.Outcome State Fault Refusal :=
  runWord (.m 0x55 w) (fun s iss v t =>
    let nfmt := fieldOf w.off 15 11
    let x := fieldOf w.off 10 7
    recordLane s iss v t w (fun i =>
      match loadLane s iss v w 272 (recordDisp w) i with
      | (s, .error e) => { s := s, t := t, traps := trapAll iss.act e }
      | (s, .ok bs) =>
        let scale := ((bs.drop 256).take (fmtElems nfmt)).map BitVec.toNat
        { s := s, t := writeAll (t.setScale x (scaleOf scale)) w.vd.toNat nfmt (x + 1) (fun l => loadedWord bs (8 * l)) })) s

/-- The scale bytes of a narrow register in a record (R141). -/
def recordScale (v : Team) (n : Nat) : List Byte :=
  let r := v.reg n
  if r.isDead ∨ r.link = 0 then List.replicate 16 (if !r.isDead && r.fmt == 18 then 0 else 0x7F)
  else leBytes 16 (v.scaleReg (r.link - 1)).toNat

/-- STS (R140, R141). -/
def execSts (w : MW) (s : State) : Host.Outcome State Fault Refusal :=
  runWord (.m 0x56 w) (fun s iss v t =>
    let n := w.vd.toNat
    if iss.act ≠ 0 ∧ !formatsOk v [n] isNarrow then formatTrap s iss t
    else recordLane s iss v t w (fun i =>
      let bytes := (List.range 32).flatMap (fun l => leBytes 8 ((v.reg n).lane l).toNat) ++ recordScale v n
      match storeLane s iss v w (bytes.map some) (recordDisp w) i with
      | (s, .error e) => { s := s, t := t, traps := trapAll iss.act e }
      | (s, .ok _) => { s := s, t := t })) s

/-! ### Atomics -/

/-- One fibre's indivisible step on `n` bytes (R131, R144). -/
def atomLane (s : State) (iss : Iss) (v : Team) (w : MW) (n : Nat) (f : Nat → Option Nat) (i : Nat) : State × Except Trap Nat :=
  let (q, chk) := laneCheck s iss v w n (mDisp w) 11 2 [0] i
  match chk with
  | .error x => (s, .error (checkTrap x))
  | .ok (tgt, e) =>
    match atomTgt (noteAccess s q e) { mMode iss w e with strong := true, nt := false } tgt n f with
    | (_, none) => (s, .error (memErr q e))
    | (s, some old) => (s, .ok old)

/-- The operand of ATOM, or a value of CAS, from a register and the one after it (R142, R143). -/
def wideOperand (v : Team) (w : MW) (n i : Nat) : Nat :=
  let lo := ((v.reg n).lane i).toNat
  if w.width = 4 then lo + ((v.reg (n + 1)).lane i).toNat * 2 ^ 64 else lo % 2 ^ (8 * widthBytes w)

/-- Old values written to VD, or to VD and VD + 1. -/
def writeOld (iss : Iss) (t : Team) (w : MW) (fmt : Nat) (vals : List (Nat × Nat)) : Team :=
  let iss := only iss vals
  let t := writeReg iss t w.vd.toNat fmt 0 .general (fun i => BitVec.ofNat 64 (laneVal 0 vals i))
  if w.width = 4 then writeReg iss t (w.vd.toNat + 1) 8 0 .general (fun i => BitVec.ofNat 64 (laneVal 0 vals i / 2 ^ 64)) else t

/-- The tag format of ATOM's result (R142): SGN, the first of the rule's list, decides where AK = 1 holds too (DEDUCED,
log 96). -/
def atomFmt (w : MW) : Nat :=
  let wide := w.width ≠ 2
  if w.last = 1 then (if wide then 7 else 5) else if w.nt = 1 then (if wide then 12 else 11) else if wide then 8 else 6

/-- ATOM with an operation on memory and operand patterns (R142, R144). -/
def atomBody (w : MW) (op : Nat → Nat → Nat) (s : State) (iss : Iss) (v t : Team) : Res :=
  if !addrOk v w then formatTrap s iss t
  else
    let (s, vals, traps) := eachLane (fun s i =>
      atomLane s iss v w (widthBytes w) (fun m => some (op m (wideOperand v w w.vd.toNat i))) i) (lanesOf iss.act) s
    { s := s, t := writeOld iss t w (atomFmt w) vals, traps := traps }

/-- Bits of an atomic's operand. -/
def atomBits (w : MW) : Nat := 8 * widthBytes w

/-- Whether one pattern is less than another under SGN. -/
def atomLess (w : MW) (a b : Nat) : Bool :=
  if w.last = 1 then decide (sext a (atomBits w) < sext b (atomBits w)) else decide (a < b)

/-- The float format of an atomic (R142). -/
def atomFloat (w : MW) : FFmt := ffmt (if w.width = 2 then 11 else 12)

/-- `atom.add` (R142). -/
def execAtomAdd (w : MW) (s : State) : Host.Outcome State Fault Refusal :=
  runWord (.m 0x57 w) (atomBody w (fun m a => zext (m + a) (atomBits w))) s
/-- `atom.min` (R142). -/
def execAtomMin (w : MW) (s : State) : Host.Outcome State Fault Refusal :=
  runWord (.m 0x57 w) (atomBody w (fun m a => if atomLess w a m then a else m)) s
/-- `atom.max` (R142). -/
def execAtomMax (w : MW) (s : State) : Host.Outcome State Fault Refusal :=
  runWord (.m 0x57 w) (atomBody w (fun m a => if atomLess w m a then a else m)) s
/-- `atom.and` (R142). -/
def execAtomAnd (w : MW) (s : State) : Host.Outcome State Fault Refusal := runWord (.m 0x57 w) (atomBody w (fun m a => m &&& a)) s
/-- `atom.or` (R142). -/
def execAtomOr (w : MW) (s : State) : Host.Outcome State Fault Refusal := runWord (.m 0x57 w) (atomBody w (fun m a => m ||| a)) s
/-- `atom.xor` (R142). -/
def execAtomXor (w : MW) (s : State) : Host.Outcome State Fault Refusal := runWord (.m 0x57 w) (atomBody w (fun m a => m ^^^ a)) s
/-- `atom.exch` (R142). -/
def execAtomExch (w : MW) (s : State) : Host.Outcome State Fault Refusal := runWord (.m 0x57 w) (atomBody w (fun _ a => a)) s
/-- `atom.incw` (R142). -/
def execAtomIncw (w : MW) (s : State) : Host.Outcome State Fault Refusal :=
  runWord (.m 0x57 w) (atomBody w (fun m a => if m ≥ a then 0 else m + 1)) s
/-- `atom.fadd` (R142): no flush, no flag. -/
def execAtomFadd (w : MW) (s : State) : Host.Outcome State Fault Refusal :=
  runWord (.m 0x57 w) (atomBody w (fun m a => (fAdd (atomFloat w) 0 false m a).1)) s
/-- `atom.fmin` (R142). -/
def execAtomFmin (w : MW) (s : State) : Host.Outcome State Fault Refusal :=
  runWord (.m 0x57 w) (atomBody w (fun m a => (fMinMax (atomFloat w) false false false m a).1)) s
/-- `atom.fmax` (R142). -/
def execAtomFmax (w : MW) (s : State) : Host.Outcome State Fault Refusal :=
  runWord (.m 0x57 w) (atomBody w (fun m a => (fMinMax (atomFloat w) true false false m a).1)) s

/-- CAS (R143). -/
def execCas (w : MW) (s : State) : Host.Outcome State Fault Refusal :=
  runWord (.m 0x58 w) (fun s iss v t =>
    let d := w.vd.toNat
    let second := if w.width = 4 then d + 2 else d + 1
    if !addrOk v w then formatTrap s iss t
    else
      let (s, vals, traps) := eachLane (fun s i =>
        atomLane s iss v w (widthBytes w)
          (fun m => if m = wideOperand v w d i then some (wideOperand v w second i) else none) i) (lanesOf iss.act) s
      { s := s, t := writeOld iss t w (if w.width = 2 then 6 else 8) vals, traps := traps }) s

/-! ### Fences and drains -/

/-- The L2 effects of a fence (R133, R145); `fence.ar` also completes the agent's own strong writes (R309). -/
def fenceEffects (s : State) (iss : Iss) (w : MW) (rel acq : Bool) : State :=
  if iss.act = 0 ∨ w.scope.toNat < 5 then s
  else
    let die := dieOf iss.core
    let s := if rel && acq then propagateAll s iss.agent else s
    let s := if rel then releaseDie s die else s
    if acq then acquireDie s iss.core die else s

/-- `fence.acq` (R145). -/
def execFenceAcq (w : MW) (s : State) : Host.Outcome State Fault Refusal :=
  runWord (.m 0x59 w) (fun s iss _ t => { s := fenceEffects s iss w false true, t := t }) s
/-- `fence.rel` (R145). -/
def execFenceRel (w : MW) (s : State) : Host.Outcome State Fault Refusal :=
  runWord (.m 0x59 w) (fun s iss _ t => { s := fenceEffects s iss w true false, t := t }) s
/-- `fence.ar` (R145, R309). -/
def execFenceAr (w : MW) (s : State) : Host.Outcome State Fault Refusal :=
  runWord (.m 0x59 w) (fun s iss _ t => { s := fenceEffects s iss w true true, t := t }) s

/-- The opcode of a command's word. -/
def Cmd.op (k : Cmd) : Nat := k.bits.toNat % 128
/-- MOD16 of a command's word (Table 01.5). -/
def Cmd.md (k : Cmd) (hi lo : Nat) : Nat := Machine.bits k.bits.toNat (48 + hi) (48 + lo)

/-- A command that has yet to make its writes: not held on a guard slot, not finished (R146). -/
def Cmd.writing (k : Cmd) : Bool :=
  match k.st with
  | .held => false
  | .aside => false
  | .done _ => false
  | .discarded => false
  | .suspended => false
  | _ => true

/-- A drain holds its path until the commands that a test names have made their writes (R146). -/
def drainBody (f : Cmd → Bool) (s : State) (iss : Iss) (_ t : Team) : Res :=
  let ids := ((s.core iss.core).cmds.filter (fun k => k.writing && f k)).map (fun k => k.id)
  if iss.act = 0 ∨ ids = [] then { s := s, t := t } else { s := s, t := t, wait := some (.drain ids) }

/-- `drain.w`: copies and stack-side GEMV results into the W-buffer (R146, R177, R174). -/
def execDrainW (w : IW) (s : State) : Host.Outcome State Fault Refusal :=
  runWord (.i 0x5C w) (drainBody (fun k => (k.op == 0x69 && k.md 2 1 == 3) || (k.op == 0x63 && k.md 6 5 == 2))) s

/-- `drain.a`: engine writes into the A-buffer (R146). -/
def execDrainA (w : IW) (s : State) : Host.Outcome State Fault Refusal :=
  runWord (.i 0x5C w) (drainBody (fun k =>
    (k.op == 0x69 && k.md 2 1 == 2) || (k.op == 0x6A && k.md 7 6 == 2) || (k.op == 0x63 && k.md 6 5 == 0) ||
      (k.op == 0x6E && k.md 1 0 == 2) || (k.op == 0x68 && k.md 2 2 == 0))) s

/-- `drain.c`: writes into the C-buffer by the matrix engine, the epilogue, ACCWR and ACCZ (R146). -/
def execDrainC (w : IW) (s : State) : Host.Outcome State Fault Refusal :=
  runWord (.i 0x5C w) (drainBody (fun k =>
    [0x60, 0x61, 0x62, 0x65, 0x66].contains k.op || (k.op == 0x68 && k.md 3 3 == 1))) s

/-- `drain.k`: copies into cluster SRAM (R146). -/
def execDrainK (w : IW) (s : State) : Host.Outcome State Fault Refusal :=
  runWord (.i 0x5C w) (drainBody (fun k => k.op == 0x69 && k.md 2 1 == 1)) s

/-- `drain.nt`: the NT stores of the issuing team, or of the context (R146, R155, R312). -/
def execDrainNt (w : IW) (s : State) : Host.Outcome State Fault Refusal :=
  runWord (.i 0x5C w) (fun s iss _ t =>
    { s := if iss.act = 0 then s else ntPerformAll s iss.agent, t := t }) s

/-! ### Prefetch, maintenance, probing -/

/-- PREF: each active fibre's line is fetched; a failed check drops it (R152). -/
def prefBody (w : MW) (l1 : Bool) (s : State) (iss : Iss) (v t : Team) : Res :=
  if !addrOk v w then formatTrap s iss t
  else
    let (s, _, _) := eachLane (α := Unit) (fun s i =>
      let (q, chk) := laneCheck s iss v w 1 (mDisp w) 1 0 [0] i
      match chk with
      | .ok (.dram _ ls, e) =>
        let m : Mode := { weakMode iss.core iss.agent with cls := evClass w.evp.toNat e }
        let s := noteAccess s q e
        let l := nth ls 0 0
        let s := fetchLine s (dieOf iss.core) l m.cls
        (if l1 then noteL1 s m l else s, .ok ())
      | _ => (s, .ok ())) (lanesOf iss.act) s
    { s := s, t := t }

/-- `pref.l1` (R152). -/
def execPrefL1 (w : MW) (s : State) : Host.Outcome State Fault Refusal := runWord (.m 0x5D w) (prefBody w true) s
/-- `pref.l2` (R152). -/
def execPrefL2 (w : MW) (s : State) : Host.Outcome State Fault Refusal := runWord (.m 0x5D w) (prefBody w false) s

/-- CMAINT: an action on the line of each active fibre's address (R153). -/
def cmaintBody (w : MW) (rights : Nat) (f : State → Nat → Nat → State) (s : State) (iss : Iss) (v t : Team) : Res :=
  if !addrOk v w then formatTrap s iss t
  else
    let (s, _, traps) := eachLane (α := Unit) (fun s i =>
      let (q, chk) := laneCheck s iss v w 1 (mDisp w) rights (if rights = 1 then 0 else 1) [0] i
      match chk with
      | .error x => (s, .error (checkTrap x))
      | .ok (.dram _ ls, e) => (f (noteAccess s q e) (evClass 0 e) (nth ls 0 0), .ok ())
      | .ok _ => (s, .ok ())) (lanesOf iss.act) s
    { s := s, t := t, traps := traps }

/-- A line in a die's L2 as dirty zeros, with no read of memory (R153). One that is absent is allocated, in class normal
where the entry's class is no-allocate, which `cmaint.zero` cannot follow (DESIGN CHOICE, log 86); one that is there is hit. -/
def zeroLine (s : State) (die cls line : Nat) : State :=
  let s := match s.l2Line die line with
    | some _ => limitKeep s die line cls
    | none => makeRoom s die line cls
  let (c, used) := match s.l2Line die line with
    | some l => if cls = 3 then (l.cls, l.used) else (cls, s.tick)
    | none => (if cls = 3 then 0 else cls, s.tick)
  dropUnits (dropL1 (s.setLine die line ⟨0, BitVec.allOnes 128, c, used⟩) die line none) die line

/-- `cmaint.clean` (R153). -/
def execCmaintClean (w : MW) (s : State) : Host.Outcome State Fault Refusal :=
  runWord (.m 0x5E w) (cmaintBody w 1 (fun s _ l => cleanEverywhere s l)) s
/-- `cmaint.inv` (R153). -/
def execCmaintInv (w : MW) (s : State) : Host.Outcome State Fault Refusal :=
  runWord (.m 0x5E w) (cmaintBody w 2 (fun s _ l => dropEverywhere s l)) s
/-- `cmaint.cinv` (R153). -/
def execCmaintCinv (w : MW) (s : State) : Host.Outcome State Fault Refusal :=
  runWord (.m 0x5E w) (cmaintBody w 2 (fun s _ l => flushEverywhere s l)) s
/-- `cmaint.zero` (R153). -/
def execCmaintZero (w : MW) (s : State) : Host.Outcome State Fault Refusal :=
  runWord (.m 0x5E w) (fun s iss v t => cmaintBody w 2 (fun s cls l => zeroLine s (dieOf iss.core) cls l) s iss v t) s

/-- The fields of a PROBE result that the steps before and at a failing step have read (Table 05.7): the kind at step 4,
the world at step 6, page size and profile at step 7. -/
def probeFields (s : State) (core : Nat) (e : Bte) (cause : Nat) : Nat :=
  let reached := if cause = cRIGHTS ∨ cause = cOWNER then 4
    else if cause = cWORLD ∧ e.world ≠ s.world core then 6
    else if cause = 0 ∨ cause = cPAGE ∨ cause = cWORLD then 7 else 0
  (if reached ≥ 4 then e.kind * 2 ^ 8 else 0) + (if reached ≥ 6 then b2n e.world * 2 ^ 15 else 0) +
    (if reached ≥ 7 then e.psize * 2 ^ 10 + e.profile * 2 ^ 12 else 0)

/-- PROBE's result for one fibre (R154). -/
def probeLane (s : State) (iss : Iss) (v : Team) (w : MW) (i : Nat) : Word :=
  let (q, chk) := laneCheck s iss v w (widthBytes w) (mDisp w) (if w.nt = 1 then 2 else 1) (b2n (w.nt == 1)) [0, 3] i
  let cause := match chk with
    | .error x => x.1
    | .ok _ => 0
  let fields := if w.space ≠ 0 then 0 else
    match s.bte q.asid q.handle with
    | some e => probeFields s iss.core e cause
    | none => 0
  BitVec.ofNat 64 (fields + cause)

/-- PROBE (R154). -/
def execProbe (w : MW) (s : State) : Host.Outcome State Fault Refusal :=
  runWord (.m 0x5F w) (fun s iss v t =>
    if !addrOk v w then formatTrap s iss t
    else writeVal s iss t w.vd.toNat 8 0 (uniWant v [w.va.toNat]) (probeLane s iss v w)) s

end Sys2Proof.Machine
end

