-- ==== Sys2Proof/Machine/EngineWords.lean ====
section
/-! DEFINITION. The engine words at issue: operands, checks, and the command that each submits (R147–R149, R156–R159,
R170, R172–R175, R178–R186). What the commands do is in Matrix.lean, Copies.lean, Collective.lean and Remit.lean. -/
namespace Sys2Proof.Machine

/-- The operand values VD, VA, VB, VC of a format E word, given the tag formats of each; a field that its row does not
read is 0 (R147, R157). -/
def fourOperands (s : State) (iss : Iss) (v t : Team) (op : Nat) (w : EW) (fd fa fb fc : List Nat)
    (go : List Word → Res) : Res :=
  let r := eRow op w
  let all : List (Bool × Nat × List Nat) :=
    [(r.vd == .reg, w.vd.toNat, fd), (r.va == .reg, w.va.toNat, fa), (r.vb == .reg, w.vb.toNat, fb),
      (r.vc == .reg, w.vc.toNat, fc)]
  engOperands s iss v t ((all.filter (fun x => x.1)).map (fun x => x.2)) (fun vals => go (fill (all.map (fun x => x.1)) vals))
where
  fill : List Bool → List Word → List Word
    | [], _ => []
    | true :: bs, x :: xs => x :: fill bs xs
    | _ :: bs, xs => 0 :: fill bs xs

/-- Operand `i` of a list as a number. -/
def opn (ops : List Word) (i : Nat) : Nat := (nth ops 0 i).toNat

/-! ### Puts -/

/-- The kind and device of the remote buffer that an addr names. -/
def remoteDev (s : State) (asid : Nat) (v : Word) : Option Nat :=
  match s.bte asid (v.toNat / 2 ^ 48) with
  | some e => if e.kind = 2 then some (e.k2 % 2 ^ 16) else none
  | none => none

/-- The check of a put's counter (R147, R148): memory of this device with W and atomic, or remote on the destination's
device with W. -/
def counterCheck (s : State) (iss : Iss) (t : Team) (w : EW) (ops : List Word) : Option Trap :=
  let n := if bitOf w.md 3 then 4 else 8
  let vc := nth ops 0 3
  let wrong : Option Trap :=
    some { cause := cRIGHTS, addr := some (addrOf t.asid vc 1) }
  if fieldOf w.md 2 0 = 0 then none
  else
    match remoteDev s t.asid (nth ops 0 2) with
    | none => memCheck s iss t vc n 1 10 [0] 5 2
    | some d =>
      match memCheck s iss t vc n 1 2 [2] 5 1 with
      | some x => some x
      | none => if remoteDev s t.asid vc = some d then none else wrong

/-- PUT and PUTR after their operands: ALIGN of the counter, BOUNDS of the length, then the ranges (R147–R149). -/
def putBody (s : State) (iss : Iss) (t : Team) (w : EW) (ops capt : List Word) (src : Option Trap) (len : Nat) : Res :=
  let vc := opn ops 3
  let c32 := bitOf w.md 3
  checked s iss t
    [ if fieldOf w.md 2 0 ≠ 0 ∧ !allOnes (nth ops 0 3) ∧ vc % 2 ^ 48 % (if c32 then 4 else 8) ≠ 0 then
        some { cause := cALIGN, addr := some (addrOf t.asid (nth ops 0 3) (if (remoteDev s t.asid (nth ops 0 2)).isSome then 1 else 2)) }
      else none,
      boundCheck t (len ≤ 2 ^ 32) len false, src, memCheck s iss t (nth ops 0 2) len 1 2 [0, 3, 2] 5 1,
      counterCheck s iss t w ops ]
    (submit s iss t 5 w ops capt)

/-- The checks of a put's source at issue, all of Table 05.3 (R131, R147, R301). -/
def sourceCheck (s : State) (iss : Iss) (t : Team) (v : Word) (n : Nat) : Option Trap :=
  (memCheck s iss t v n 1 1 [0, 3] 5 0).orElse (fun _ =>
    let q : Req := { asid := t.asid, core := iss.core, handle := v.toNat / 2 ^ 48, off := (v.toNat % 2 ^ 48 : Nat), n := n, align := 1,
                     rights := 1, kinds := [0, 3], emask := some 5, acc := 0 }
    match check0 s q true with
    | .ok (tgt, e) => if unitsBad s (engMode iss.core iss.agent) tgt n then some (memErr q e) else none
    | .error (c, fa) => some { cause := c, addr := some fa })

/-- PUT (R147, R148). -/
def execPut (w : EW) (s : State) : Host.Outcome State Fault Refusal :=
  runWord (.e 0x5A w) (fun s iss v t =>
    fourOperands s iss v t 0x5A w numFmts addrFmts addrFmts addrFmts (fun ops =>
      let len := opn ops 0
      let n := min len (2 ^ 32)
      putBody s iss t w ops [] (sourceCheck s iss t (nth ops 0 1) n) len)) s

/-- PUTR (R149): the lanes sent are captured at issue. -/
def execPutr (w : EW) (s : State) : Host.Outcome State Fault Refusal :=
  runWord (.e 0x5B w) (fun s iss v t =>
    let n := if t.slane then 1 else fieldOf w.md 12 8 + 1
    let capt := (List.range n).map (v.reg w.va.toNat).lane
    let vc := if fieldOf w.md 2 0 = 0 then [] else [(w.vc.toNat, addrFmts)]
    engOperands s iss v t ((w.vb.toNat, addrFmts) :: vc) (fun vals =>
      putBody s iss t w [BitVec.ofNat 64 (8 * n), 0, nth vals 0 0, nth vals 0 1] capt none (8 * n))) s

/-! ### Matrix-engine commands -/

/-- A word whose team signs on a convergence register (R159): its fibres present it with its operand values. -/
def signBody (op : Nat) (w : EW) (s : State) (iss : Iss) (v t : Team) : Res :=
  fourOperands s iss v t op w numFmts numFmts numFmts numFmts (fun ops =>
    checked s iss t [boundCheck t (opn ops 3 % 2 ^ 16 != 0) 0 false]
      { s := s, t := t, wait := some (.arrive iss.bits ops) })

/-- MMA (R159, R162, R163). -/
def execMma (w : EW) (s : State) : Host.Outcome State Fault Refusal := andArrive s (runWord (.e 0x60 w) (signBody 0x60 w) s)
/-- MJOB (R159, R166). -/
def execMjob (w : EW) (s : State) : Host.Outcome State Fault Refusal := andArrive s (runWord (.e 0x61 w) (signBody 0x61 w) s)
/-- MPERM (R159, R169). -/
def execMperm (w : EW) (s : State) : Host.Outcome State Fault Refusal := andArrive s (runWord (.e 0x62 w) (signBody 0x62 w) s)

/-- The bytes of a row of B in SGEMV (R170). -/
def gemvRow (f k : Nat) : Nat := ceilDiv (rowLen f k) 64 * 64

/-- The profile value of the buffer that an addr names, where it is a memory buffer. -/
def profileOf (s : State) (asid : Nat) (v : Word) : Nat :=
  match s.bte asid (v.toNat / 2 ^ 48) with
  | some e => s.profile e.profile
  | none => 0

/-- SGEMV (R170): the command belongs to the stack that holds B. -/
def execSgemv (w : EW) (s : State) : Host.Outcome State Fault Refusal :=
  runWord (.e 0x63 w) (fun s iss v t =>
    let dst := fieldOf w.md 6 5
    let f := fieldOf w.md 4 0
    fourOperands s iss v t 0x63 w (if dst = 1 then addrFmts else numFmts) numFmts addrFmts numFmts (fun ops =>
      let k := bits (opn ops 3) 16 0
      let n := bits (opn ops 3) 47 24
      let nv := bits (opn ops 3) 49 48 + 1
      let prof := profileOf s t.asid (nth ops 0 2)
      let b := nth ops 0 2
      checked s iss t
        [ alignCheck t (opn ops 1) 16, if dst = 1 then none else alignCheck t (opn ops 0) 16,
          boundCheck t (32 ≤ k && k ≤ 65536 && k % 32 == 0 && 1 ≤ n) k false,
          boundCheck t (opn ops 1 + 2 * k * nv ≤ 2 ^ 19) (opn ops 1) false,
          if dst = 1 then none else boundCheck t (opn ops 0 + 4 * n * nv ≤ spaceLen s iss.core t (if dst = 0 then 2 else 3)) (opn ops 0) true,
          memCheck s iss t b (n * gemvRow f k) 1 1 [0] 4 0,
          if bit prof 0 then none
          else some { cause := cRIGHTS, addr := some { addrOf t.asid b 0 with page := pageIn s t.asid (b.toNat / 2 ^ 48) (b.toNat % 2 ^ 48) } },
          if dst = 1 then memCheck s iss t (nth ops 0 0) (4 * n * nv) 1 2 [0] 4 1 else none ]
        (submit s iss t 4 w ops [BitVec.ofNat 64 (bits prof 5 3)]))) s

/-! ### The C-buffer from a team -/

/-- An earlier command of the class is still to complete. -/
def busyClass (c : Core) (f : Cmd → Bool) : Bool := c.cmds.any f

/-- A result that waits for earlier commands: a command of no class that delivers it (R160, R185). -/
def deferResult (s : State) (iss : Iss) (t : Team) (w : EW) (cls : Nat) (lanes : BitVec 32) : Res :=
  let (id, s) := s.fresh
  let k := mkCmd id iss t cls { w with ge := 0 } [] []
  { s := s.modCore iss.core (fun c => { c with cmds := c.cmds ++ [k] }),
    t := latePend t { iss with act := lanes } w.vd.toNat id }

/-- The address part of a fault on the C-buffer. -/
def cFault (t : Team) (off : Nat) : FaultAddr := { asid := t.asid, handle := 0, offset := off, acc := 0, page := off / 4096 }

/-- ACCRD (R172): it reads once every ec2 command accepted before it has completed (R160). -/
def execAccrd (w : EW) (s : State) : Host.Outcome State Fault Refusal :=
  runWord (.e 0x64 w) (fun s iss _ t =>
    if !wholeTeam iss t then resTrap s t iss.lanes cUNIFORM
    else if busyClass (s.core iss.core) (fun k => k.cls == 2) then deferResult s iss t w 8 (BitVec.allOnes 32)
    else
      match readQuarter s iss.core w.md with
      | none => { s := s, t := t, traps := trapAll iss.lanes { cause := cMEMERR, addr := some (cFault t (fieldOf w.md 15 8 * 1024)) } }
      | some xs => { s := s, t := writeAll t w.vd.toNat (fieldOf w.md 4 0) 0 (fun i => nth xs 0 i) }) s

/-- ACCWR (R172): the lanes are captured at issue. -/
def execAccwr (w : EW) (s : State) : Host.Outcome State Fault Refusal :=
  runWord (.e 0x65 w) (fun s iss v t =>
    let va := w.va.toNat
    if !formatsOk v [va] (twin (fieldOf w.md 4 0)) then resTrap s t iss.lanes cFORMAT
    else if !wholeTeam iss t then resTrap s t iss.lanes cUNIFORM
    else submit s iss t 2 w [] ((List.range 32).map (v.reg va).lane)) s

/-- ACCZ (R173). -/
def execAccz (w : EW) (s : State) : Host.Outcome State Fault Refusal :=
  runWord (.e 0x66 w) (fun s iss _ t => submit s iss t 2 w [] []) s

/-- EPLD (R174). -/
def execEpld (w : EW) (s : State) : Host.Outcome State Fault Refusal :=
  runWord (.e 0x67 w) (fun s iss v t =>
    fourOperands s iss v t 0x67 w [] numFmts [] [] (fun ops =>
      let n := fieldOf w.md 7 2 + 1
      checked s iss t [alignCheck t (opn ops 1) 4, boundCheck t (opn ops 1 + 4 * n ≤ 2 ^ 19) (opn ops 1) false]
        (submit s iss t 2 w ops []))) s

/-- The stride of MDRAIN against the program in its slot (R177): ALIGN at issue where that program is already fixed, with no
earlier EPLD of the slot still to run. Where one is, the command meets its program only in its ec2 place and fails there
(DEDUCED, log 88). -/
def drainStride (s : State) (iss : Iss) (t : Team) (w : EW) (stride : Nat) : Option Trap :=
  let c := s.core iss.core
  let slot := fieldOf w.md 1 0
  let loading := c.cmds.any (fun k => k.op == 0x67 && k.md 1 0 == slot)
  match mget? c.eprog slot with
  | some ws => if !loading && shortStride (epiRun ws) stride (bitOf w.md 2) then spaceTrap t cALIGN stride true else none
  | none => none

/-- MDRAIN (R175): the table offsets, the stride and the 16 output rows are checked at acceptance. A row's width is the
program's, which is not read then: the last row counts as 16 bytes, and wider rows fail at the start (DEDUCED, log 88). -/
def execMdrain (w : EW) (s : State) : Host.Outcome State Fault Refusal :=
  runWord (.e 0x68 w) (fun s iss v t =>
    let mem := bitOf w.md 2
    fourOperands s iss v t 0x68 w (if mem then addrFmts else numFmts) numFmts numFmts numFmts (fun ops =>
      let len := 15 * (opn ops 1 % 2 ^ 16) + 16
      checked s iss t
        [ alignCheck t (opn ops 2) 64, alignCheck t (opn ops 3) 64, drainStride s iss t w (opn ops 1 % 2 ^ 16),
          boundCheck t (opn ops 2 < 2 ^ 19) (opn ops 2) false, boundCheck t (opn ops 3 < 2 ^ 19) (opn ops 3) false,
          if mem then memCheck s iss t (nth ops 0 0) len 1 2 copyKinds 2 1
          else boundCheck t (opn ops 0 + len ≤ 2 ^ 19) (opn ops 0) true ]
        (submit s iss t 2 w ops []))) s

/-! ### Copies, gathers, scatters -/

/-- The formats of an operand that names a place in a space: addr for memory, else a number (R157). -/
def placeFmts (space : Nat) : List Nat := if space = 0 then addrFmts else numFmts

/-- The rows of a DCOPY: bytes per row, rows, source stride, destination stride (R178). -/
def copyRows (w : EW) (ops : List Word) : Nat × Nat × Nat × Nat :=
  if bitOf w.md 5 then (opn ops 0 % 2 ^ 32, opn ops 0 / 2 ^ 32, opn ops 3 % 2 ^ 32, opn ops 3 / 2 ^ 32)
  else (opn ops 0, 1, 0, 0)

/-- The bytes that rows span from their base: none where there are no bytes. -/
def rowsSpan (len rows stride : Nat) : Nat := if len = 0 ∨ rows = 0 then 0 else (rows - 1) * stride + len

/-- DCOPY (R178). -/
def execDcopy (w : EW) (s : State) : Host.Outcome State Fault Refusal :=
  runWord (.e 0x69 w) (fun s iss v t =>
    let ssp := fieldOf w.md 0 0
    let dsp := fieldOf w.md 2 1
    fourOperands s iss v t 0x69 w numFmts (placeFmts ssp) (placeFmts dsp) numFmts (fun ops =>
      let (len, rows, ss, ds) := copyRows w ops
      checked s iss t
        [ boundCheck t (bitOf w.md 5 || len ≤ 2 ^ 32) len false,
          placeCheck s iss t ssp (nth ops 0 1) (rowsSpan len rows ss) false 0 copyKinds,
          placeCheck s iss t dsp (nth ops 0 2) (rowsSpan len rows ds) true 0 copyKinds ]
        (submit s iss t 0 w ops []))) s

/-- The check at issue of a buffer that indices address: its entry, whatever the offsets (R180, R283). The fault names the
operand's own offset (Table 18.4). -/
def entryCheck (s : State) (iss : Iss) (t : Team) (v : Word) (rights cls acc : Nat) : Option Trap :=
  if allOnes v then memCheck s iss t v 0 1 rights copyKinds cls acc
  else
    let off := v.toNat % 2 ^ 48
    (memCheck s iss t (BitVec.ofNat 64 (v.toNat / 2 ^ 48 * 2 ^ 48)) 0 1 rights copyKinds cls acc).map (fun x =>
      { x with addr := x.addr.map (fun a => { a with offset := off, page := pageIn s t.asid a.handle off }) })

/-- The bytes of an index list. -/
def listBytes (w : EW) (n : Nat) : Nat := n * (if bitOf w.md 4 then 8 else 4)

/-- GATHER (R180). -/
def execGather (w : EW) (s : State) : Host.Outcome State Fault Refusal :=
  runWord (.e 0x6A w) (fun s iss v t =>
    let sp := fieldOf w.md 7 6
    let isp := fieldOf w.md 5 5
    fourOperands s iss v t 0x6A w numFmts addrFmts (placeFmts sp) (placeFmts isp) (fun ops =>
      let n := opn ops 0
      checked s iss t
        [ placeCheck s iss t isp (nth ops 0 3) (listBytes w n) false 1 copyKinds, entryCheck s iss t (nth ops 0 1) 1 1 0,
          placeCheck s iss t sp (nth ops 0 2) (n * 2 ^ fieldOf w.md 3 0) true 1 copyKinds ]
        (submit s iss t 1 w ops []))) s

/-- SCATTER (R180). -/
def execScatter (w : EW) (s : State) : Host.Outcome State Fault Refusal :=
  runWord (.e 0x6B w) (fun s iss v t =>
    let sp := fieldOf w.md 7 6
    let isp := fieldOf w.md 5 5
    fourOperands s iss v t 0x6B w numFmts (placeFmts sp) addrFmts (placeFmts isp) (fun ops =>
      let n := opn ops 0
      checked s iss t
        [ placeCheck s iss t isp (nth ops 0 3) (listBytes w n) false 1 copyKinds,
          placeCheck s iss t sp (nth ops 0 1) (n * 2 ^ fieldOf w.md 3 0) false 1 copyKinds,
          entryCheck s iss t (nth ops 0 2) 2 1 1 ]
        (submit s iss t 1 w ops []))) s

/-- ROWCOPY (R179). -/
def execRowcopy (w : EW) (s : State) : Host.Outcome State Fault Refusal :=
  runWord (.e 0x6C w) (fun s iss v t =>
    fourOperands s iss v t 0x6C w numFmts addrFmts addrFmts [] (fun ops =>
      checked s iss t
        [memCheck s iss t (nth ops 0 1) (opn ops 0) 1 1 [0] 0 0, memCheck s iss t (nth ops 0 2) (opn ops 0) 1 2 [0] 0 1]
        (submit s iss t 0 w ops []))) s

/-- `rowcopy.init` (R179). -/
def execRowcopyInit (w : EW) (s : State) : Host.Outcome State Fault Refusal :=
  runWord (.e 0x6C w) (fun s iss v t =>
    fourOperands s iss v t 0x6C w numFmts numFmts addrFmts [] (fun ops =>
      checked s iss t
        [boundCheck t (opn ops 0 % 8 == 0) (opn ops 0) true, memCheck s iss t (nth ops 0 2) (opn ops 0) 1 2 [0] 0 1]
        (submit s iss t 0 w ops []))) s

/-! ### Collectives and storage -/

/-- The bytes of `e` elements of a collective's type, with the scale bytes of `coll.nsum` (R183). -/
def collBytes (op ty e : Nat) : Nat := ceilDiv (e * fmtBits ty) 8 + (if op = 3 then e / 32 else 0)

/-- COLL (R181): the ranges that the operands fix are the source, the header of the record and, where the group's size
does not enter, the destination. -/
def collBody (w : EW) (s : State) (iss : Iss) (v t : Team) : Res :=
  let op := fieldOf w.md 2 0
  let ty := fieldOf w.md 7 3
  fourOperands s iss v t 0x6D w numFmts addrFmts addrFmts addrFmts (fun ops =>
    let n := collBytes op ty (opn ops 0)
    checked s iss t
      [ boundCheck t (op != 3 || opn ops 0 % 32 == 0) (opn ops 0) false,
        memCheck s iss t (nth ops 0 1) n 1 1 [0] 3 0,
        memCheck s iss t (nth ops 0 2) (if op = 4 ∨ op = 6 then 0 else n) 1 2 [0] 3 1,
        memCheck s iss t (nth ops 0 3) 64 1 1 [0] 3 0 ]
      (submit s iss t 3 w ops []))

/-- `coll.sum` (R181, R182). -/
def execCollSum (w : EW) (s : State) : Host.Outcome State Fault Refusal := runWord (.e 0x6D w) (collBody w) s
/-- `coll.min` (R181, R182). -/
def execCollMin (w : EW) (s : State) : Host.Outcome State Fault Refusal := runWord (.e 0x6D w) (collBody w) s
/-- `coll.max` (R181, R182). -/
def execCollMax (w : EW) (s : State) : Host.Outcome State Fault Refusal := runWord (.e 0x6D w) (collBody w) s
/-- `coll.nsum` (R181, R183). -/
def execCollNsum (w : EW) (s : State) : Host.Outcome State Fault Refusal := runWord (.e 0x6D w) (collBody w) s
/-- `coll.gath` (R181). -/
def execCollGath (w : EW) (s : State) : Host.Outcome State Fault Refusal := runWord (.e 0x6D w) (collBody w) s
/-- `coll.bcast` (R181). -/
def execCollBcast (w : EW) (s : State) : Host.Outcome State Fault Refusal := runWord (.e 0x6D w) (collBody w) s
/-- `coll.rsum` (R181, R182). -/
def execCollRsum (w : EW) (s : State) : Host.Outcome State Fault Refusal := runWord (.e 0x6D w) (collBody w) s

/-- The LBA size of the namespace that a storage buffer names: 0 where it is not listed (R353). -/
def lbaOf (s : State) (asid : Nat) (v : Word) : Nat :=
  match s.bte asid (v.toNat / 2 ^ 48) with
  | some e => (namespaceOf s (bits e.k2 39 32) (e.k2 % 2 ^ 32)).1
  | none => 0

/-- Misaligned offset of a storage buffer. -/
def lbaCheck (s : State) (t : Team) (v : Word) : Option Trap :=
  let lba := lbaOf s t.asid v
  if lba ≠ 0 ∧ v.toNat % 2 ^ 48 % lba ≠ 0 then
    some { cause := cALIGN, addr := some { asid := t.asid, handle := v.toNat / 2 ^ 48, offset := v.toNat % 2 ^ 48, acc := 0,
                                           page := v.toNat % 2 ^ 48 / 4096 } }
  else none

/-- SREAD (R184). -/
def execSread (w : EW) (s : State) : Host.Outcome State Fault Refusal :=
  runWord (.e 0x6E w) (fun s iss v t =>
    let dsp := fieldOf w.md 1 0
    let z := bitOf w.md 2
    fourOperands s iss v t 0x6E w numFmts addrFmts (placeFmts dsp) addrFmts (fun ops =>
      let n := opn ops 0 % 2 ^ 32
      let cap := opn ops 0 / 2 ^ 32
      let lba := lbaOf s t.asid (nth ops 0 1)
      checked s iss t
        [ lbaCheck s t (nth ops 0 1), boundCheck t ((lba == 0 || n % lba == 0) && (z || cap == 0)) n false,
          memCheck s iss t (nth ops 0 1) n 1 1 [1] 6 0,
          placeCheck s iss t dsp (nth ops 0 2) (if z then cap else n) true 6 [0],
          if bitOf w.md 3 then memCheck s iss t (nth ops 0 3) 0 1 1 [0] 6 0 else none ]
        (submit s iss t 6 w ops []))) s

/-! ### Engine status -/

/-- ESTAT's word of an issuer (R185). -/
def estatNow (s : State) (t : Team) (a : Agent) (c : Nat) : Word :=
  match a with
  | .team _ _ => t.estatus c
  | .ctx core k => mget ((s.core core).ctx k).estat 0 c

/-- ESTAT (R185, R186): it reads once every earlier command of the class from its issuer has completed. -/
def execEstat (w : EW) (s : State) : Host.Outcome State Fault Refusal :=
  runWord (.e 0x6F w) (fun s iss _ t =>
    let c := fieldOf w.md 2 0
    if busyClass (s.core iss.core) (fun k => k.cls == c && k.counts (issuerOf iss.agent) t.uid) then
      deferResult s iss t w 9 iss.act
    else
      let x := t.estatus c
      let t := if bitOf w.md 3 then { t with estat := mdel t.estat c } else t
      { s := s, t := writeScalar iss t w.vd.toNat x }) s

end Sys2Proof.Machine
end

