-- ==== Sys2Proof/Machine/ZstdBlock.lean ====
section
/-! DEFINITION. The compressed blocks of Zstandard as RFC 8878 defines them (R184, log 90): FSE tables, Huffman tables, the
literals and sequences of a block, and the tables of a dictionary. -/
namespace Sys2Proof.Machine

/-! ### Bit streams -/

/-- A stream of bits that is read from its last bit back: the bits, and how many of them are left. A read past the first bit
finds zeros, and leaves a negative number. -/
structure ZBits where
  x : Nat
  left : Int
  deriving DecidableEq, Repr

/-- A stream that ends with a set bit and its padding. -/
def zBits (bs : List Byte) : Option ZBits :=
  if (bs.getLast?.getD 0) = 0 then none else some ⟨ofLe bs, (bitLength (ofLe bs) : Int) - 1⟩

/-- The next bits of a stream. -/
def ZBits.peek (z : ZBits) (n : Nat) : Nat :=
  if z.left ≥ n then (z.x >>> (z.left - n).toNat) % 2 ^ n else (z.x % 2 ^ z.left.toNat) <<< (n - z.left.toNat)

def ZBits.skip (z : ZBits) (n : Nat) : ZBits := { z with left := z.left - n }

def ZBits.read (z : ZBits) (n : Nat) : Nat × ZBits := (z.peek n, z.skip n)

/-! ### FSE tables -/

/-- A cell of an FSE table: its symbol, and the bits and base of the next state. -/
structure FseCell where
  sym : Nat
  bits : Nat
  base : Nat
  deriving DecidableEq, Repr

/-- An FSE table of 2^log cells. -/
structure FseTable where
  log : Nat
  cells : List FseCell
  deriving DecidableEq, Repr

def FseTable.at_ (t : FseTable) (st : Nat) : FseCell := nth t.cells ⟨0, 0, 0⟩ st

/-- The cells from the symbols of the states in ascending order; `next` holds the next count of each symbol. -/
def fseCells (log : Nat) : List Nat → List (Nat × Nat) → List FseCell
  | [], _ => []
  | sym :: syms, next =>
    let n := mget next 1 sym
    let nb := log + 1 - bitLength n
    ⟨sym, nb, n * 2 ^ nb - 2 ^ log⟩ :: fseCells log syms (mset next sym (n + 1))

/-- The table of a distribution: −1 stands for a probability below 1. -/
def fseTable (log : Nat) (probs : List Int) : FseTable :=
  let size := 2 ^ log
  let ps := probs.zipIdx
  let low := (ps.filter (fun p => p.1 == -1)).map (fun p => p.2)
  let high := size - low.length
  let syms := ps.flatMap (fun p => List.replicate p.1.toNat p.2)
  let step := size / 2 + size / 8 + 3
  let place := ((List.range size).map (fun i => i * step % size)).filter (fun i => i < high)
  let spread := (place.zip syms).foldl (fun m p => mset m p.1 p.2) ([] : List (Nat × Nat))
  let table := (List.range high).map (fun i => mget spread 0 i) ++ low.reverse
  ⟨log, fseCells log table (ps.foldl (fun m p => if p.1 > 0 then mset m p.2 p.1.toNat else m) [])⟩

/-- The table of one symbol. -/
def fseOne (sym : Nat) : FseTable := ⟨0, [⟨sym, 0, 0⟩]⟩

/-- How many zero probabilities a run of 2-bit flags at a bit of a description adds, and the bit behind it. -/
def fseZeros (x : Nat) : Nat → Nat → Nat × Nat
  | 0, at_ => (0, at_)
  | fuel + 1, at_ =>
    let n := (x >>> at_) % 4
    if n = 3 then
      let (m, e) := fseZeros x fuel (at_ + 2)
      (3 + m, e)
    else (n, at_ + 2)

/-- The probabilities of a description from a bit on, and the bit behind them; `left` cells are still to be given. -/
def fseProbs (x : Nat) : Nat → Nat → Nat → List Int × Nat × Nat
  | 0, left, at_ => ([], left, at_)
  | fuel + 1, left, at_ =>
    if left = 0 then ([], 0, at_)
    else
      let n := bitLength (left + 1)
      let v := (x >>> at_) % 2 ^ n
      let short := 2 ^ n - 1 - (left + 1)
      let low := v % 2 ^ (n - 1)
      let (v, used) := if low < short then (low, n - 1) else if v ≥ 2 ^ (n - 1) then (v - short, n) else (v, n)
      let p : Int := (v : Int) - 1
      if v = 1 then
        let (zs, e) := fseZeros x fuel (at_ + used)
        let (ps, r) := fseProbs x fuel left e
        (p :: List.replicate zs 0 ++ ps, r)
      else
        let (ps, r) := fseProbs x fuel (left - p.natAbs) (at_ + used)
        (p :: ps, r)

/-- A table description: its table and the bytes behind it; none where its log, its symbols or its length is wrong. -/
def readFse (most maxLog : Nat) (bs : List Byte) : Option (FseTable × List Byte) :=
  let x := ofLe (bs.take 512)
  let log := x % 16 + 5
  let (ps, left, e) := fseProbs x 512 (2 ^ log) 4
  if bs.isEmpty ∨ log > maxLog ∨ left ≠ 0 ∨ ps.length > most + 1 ∨ ceilDiv e 8 > bs.length then none
  else some (fseTable log ps, bs.drop (ceilDiv e 8))

/-! ### Huffman tables -/

/-- A Huffman table: the longest code, and per value of that many bits the symbol and the length of its code. -/
structure HufTable where
  log : Nat
  cells : List (Nat × Nat)
  deriving DecidableEq, Repr

/-- The weights of an FSE stream with two states in turn, until a state's bits are not there. -/
def hufWeights (t : FseTable) : Nat → Nat → Nat → ZBits → List Nat
  | 0, _, _, _ => []
  | fuel + 1, a, b, z =>
    let c := t.at_ a
    let (v, z) := z.read c.bits
    if z.left < 0 then [c.sym, (t.at_ b).sym] else c.sym :: hufWeights t fuel b (c.base + v) z

/-- The weights of a tree's description, all but the last, and the bytes behind it. -/
def readWeights (bs : List Byte) : Option (List Nat × List Byte) :=
  match bs with
  | [] => none
  | h :: rest =>
    let n := h.toNat
    if n ≥ 128 then
      let k := n - 127
      if rest.length < ceilDiv k 2 then none
      else some (((rest.take (ceilDiv k 2)).flatMap (fun b => [b.toNat / 16, b.toNat % 16])).take k, rest.drop (ceilDiv k 2))
    else if rest.length < n then none
    else
      match readFse 255 6 (rest.take n) with
      | none => none
      | some (t, tail) =>
        match zBits tail with
        | none => none
        | some z =>
          let (a, z) := z.read t.log
          let (b, z) := z.read t.log
          if z.left < 0 then none else some (hufWeights t 256 a b z, rest.drop n)

/-- The table of a tree's weights, the last of which is what completes a power of two. -/
def hufTable (ws : List Nat) : Option HufTable :=
  let sum := (ws.map (fun w => if w = 0 then 0 else 2 ^ (w - 1))).foldl (· + ·) 0
  let log := bitLength sum
  let gap := 2 ^ log - sum
  if sum = 0 ∨ log > 11 ∨ ws.length > 255 ∨ gap ≠ 2 ^ (bitLength gap - 1) then none
  else
    let all := (ws ++ [bitLength gap]).zipIdx
    some ⟨log, (List.range' 1 log).flatMap (fun w =>
      (all.filter (fun p => p.1 == w)).flatMap (fun p => List.replicate (2 ^ (w - 1)) (p.2, log + 1 - w)))⟩

/-- A tree's description. -/
def readHuf (bs : List Byte) : Option (HufTable × List Byte) :=
  (readWeights bs).bind (fun p => (hufTable p.1).map (fun t => (t, p.2)))

/-- `n` symbols of a stream, which they use up. -/
def hufStream (t : HufTable) : Nat → ZBits → Option (List Byte)
  | 0, z => if z.left = 0 then some [] else none
  | n + 1, z =>
    let c := nth t.cells (0, 1) (z.peek t.log)
    (hufStream t n (z.skip c.2)).map (fun bs => BitVec.ofNat 8 c.1 :: bs)

def hufDecode (t : HufTable) (n : Nat) (bs : List Byte) : Option (List Byte) := (zBits bs).bind (hufStream t n)

/-- Four streams behind their jump table. -/
def hufFour (t : HufTable) (n : Nat) (bs : List Byte) : Option (List Byte) :=
  let l (i : Nat) : Nat := ofLe ((bs.drop (2 * i)).take 2)
  let q := (n + 3) / 4
  let body := bs.drop 6
  if bs.length < 6 ∨ n < 3 * q ∨ body.length < l 0 + l 1 + l 2 then none
  else
    match hufDecode t q (body.take (l 0)), hufDecode t q ((body.drop (l 0)).take (l 1)),
        hufDecode t q ((body.drop (l 0 + l 1)).take (l 2)), hufDecode t (n - 3 * q) (body.drop (l 0 + l 1 + l 2)) with
    | some a, some b, some c, some d => some (a ++ b ++ c ++ d)
    | _, _, _, _ => none

/-! ### What a frame keeps from block to block -/

/-- The tables that a later block can repeat, and the three last offsets. -/
structure ZState where
  huf : Option HufTable
  lits : Option FseTable
  offs : Option FseTable
  matches_ : Option FseTable
  reps : List Nat
  deriving DecidableEq, Repr

def ZState.start : ZState := ⟨none, none, none, none, [1, 4, 8]⟩

/-! ### Literals -/

/-- The literals section: the literals, the Huffman table then, and the bytes behind. -/
def zLiterals (st : ZState) (bs : List Byte) : Option (List Byte × Option HufTable × List Byte) :=
  let b := ofLe (bs.take 1)
  let kind := b % 4
  let form := b / 4 % 4
  if bs.isEmpty then none
  else if kind < 2 then
    let (size, n) := if form = 1 then (2, bits (ofLe (bs.take 2)) 15 4)
      else if form = 3 then (3, bits (ofLe (bs.take 3)) 23 4) else (1, b / 8)
    let body := bs.drop size
    if bs.length < size ∨ body.length < (if kind = 0 then n else 1) then none
    else if kind = 0 then some (body.take n, st.huf, body.drop n)
    else some (List.replicate n (nth body 0 0), st.huf, body.drop 1)
  else
    let w := nth [10, 10, 14, 18] 0 form
    let size := nth [3, 3, 4, 5] 0 form
    let h := ofLe (bs.take size)
    let n := (h >>> 4) % 2 ^ w
    let len := (h >>> (4 + w)) % 2 ^ w
    let body := bs.drop size
    if bs.length < size ∨ body.length < len then none
    else
      match (if kind = 2 then readHuf (body.take len) else st.huf.map (fun t => (t, body.take len))) with
      | none => none
      | some (t, data) =>
        (if form = 0 then hufDecode t n data else hufFour t n data).map (fun ls => (ls, some t, body.drop len))

/-! ### Sequences -/

def litBase : List (Nat × Nat) :=
  (List.range 16).map (fun i => (i, 0)) ++
    [(16, 1), (18, 1), (20, 1), (22, 1), (24, 2), (28, 2), (32, 3), (40, 3), (48, 4), (64, 6), (128, 7), (256, 8), (512, 9),
     (1024, 10), (2048, 11), (4096, 12), (8192, 13), (16384, 14), (32768, 15), (65536, 16)]

def matchBase : List (Nat × Nat) :=
  (List.range 32).map (fun i => (i + 3, 0)) ++
    [(35, 1), (37, 1), (39, 1), (41, 1), (43, 2), (47, 2), (51, 3), (59, 3), (67, 4), (83, 4), (99, 5), (131, 7), (259, 8),
     (515, 9), (1027, 10), (2051, 11), (4099, 12), (8195, 13), (16387, 14), (32771, 15), (65539, 16)]

/-- The default distributions. -/
def litDefault : FseTable :=
  fseTable 6 ([4, 3] ++ List.replicate 11 2 ++ [1, 1, 1] ++ List.replicate 9 2 ++ [3, 2, 1, 1, 1, 1, 1] ++ List.replicate 4 (-1))

def matchDefault : FseTable :=
  fseTable 6 ([1, 4, 3] ++ List.replicate 6 2 ++ List.replicate 37 1 ++ List.replicate 7 (-1))

def offDefault : FseTable :=
  fseTable 5 (List.replicate 6 1 ++ [2, 2, 2] ++ List.replicate 15 1 ++ List.replicate 5 (-1))

/-- The table that a mode of the sequences header names, and the bytes behind its description. -/
def zTable (mode most maxLog : Nat) (default_ : FseTable) (old : Option FseTable) (bs : List Byte) :
    Option (FseTable × List Byte) :=
  if mode = 0 then some (default_, bs)
  else if mode = 1 then
    match bs with
    | [] => none
    | b :: rest => if b.toNat > most then none else some (fseOne b.toNat, rest)
  else if mode = 2 then readFse most maxLog bs
  else old.map (fun t => (t, bs))

/-- A sequence: a number of literals, a length and an offset value. -/
abbrev ZSeq := Nat × Nat × Nat

/-- The sequences of a stream from its three states; after the last one the stream is used up. -/
def zSeqs (lt ot mt : FseTable) : Nat → Nat → Nat → Nat → ZBits → Option (List ZSeq)
  | 0, _, _, _, z => if z.left = 0 then some [] else none
  | n + 1, l, o, m, z =>
    let lc := lt.at_ l
    let oc := ot.at_ o
    let mc := mt.at_ m
    let (ov, z) := z.read oc.sym
    let mb := nth matchBase (0, 0) mc.sym
    let (mv, z) := z.read mb.2
    let lb := nth litBase (0, 0) lc.sym
    let (lv, z) := z.read lb.2
    let one : ZSeq := (lb.1 + lv, mb.1 + mv, 2 ^ oc.sym + ov)
    if n = 0 then (zSeqs lt ot mt n l o m z).map (fun xs => one :: xs)
    else
      let (a, z) := z.read lc.bits
      let (b, z) := z.read mc.bits
      let (c, z) := z.read oc.bits
      (zSeqs lt ot mt n (lc.base + a) (oc.base + c) (mc.base + b) z).map (fun xs => one :: xs)

/-- The sequences section: its sequences, and the tables then. -/
def zSequences (st : ZState) (bs : List Byte) : Option (List ZSeq × ZState) :=
  let b0 := ofLe (bs.take 1)
  let (n, size) := if b0 < 128 then (b0, 1)
    else if b0 < 255 then ((b0 - 128) * 256 + ofLe ((bs.drop 1).take 1), 2)
    else (ofLe ((bs.drop 1).take 2) + 0x7F00, 3)
  if bs.length < size then none
  else if n = 0 then if bs.length = size then some ([], st) else none
  else
    match bs.drop size with
    | [] => none
    | modes :: rest =>
      if modes.toNat % 4 ≠ 0 then none
      else
        match zTable (bits modes.toNat 7 6) 35 9 litDefault st.lits rest with
        | none => none
        | some (lt, rest) =>
          match zTable (bits modes.toNat 5 4) 31 8 offDefault st.offs rest with
          | none => none
          | some (ot, rest) =>
            match zTable (bits modes.toNat 3 2) 52 9 matchDefault st.matches_ rest with
            | none => none
            | some (mt, rest) =>
              match zBits rest with
              | none => none
              | some z =>
                let (l, z) := z.read lt.log
                let (o, z) := z.read ot.log
                let (m, z) := z.read mt.log
                (zSeqs lt ot mt n l o m z).map (fun xs => (xs, { st with lits := some lt, offs := some ot, matches_ := some mt }))

/-- The offset of an offset value, and the three last offsets then; 0 for an invalid one. -/
def zOffset (reps : List Nat) (v lits : Nat) : Nat × List Nat :=
  let r (i : Nat) : Nat := nth reps 0 i
  if v > 3 then (v - 3, [v - 3, r 0, r 1])
  else
    let i := if lits = 0 then v else v - 1
    if i = 0 then (r 0, reps)
    else if i = 1 then (r 1, [r 1, r 0, r 2])
    else
      let x := if i = 2 then r 2 else r 0 - 1
      (x, [x, r 0, r 1])

/-- `len` bytes that repeat what stands `off` bytes back. -/
def zCopy (history : List Byte) (off len : Nat) : List Byte :=
  let seg := history.drop (history.length - off)
  ((List.replicate (len / off + 1) seg).flatten).take len

/-- The content after a list of sequences, the literals left, and the last offsets; none where a sequence takes more literals
than there are or reaches too far back: into the dictionary while the content is within the window, then not past the window. -/
def zExecute (dict : List Byte) (window : Nat) : List ZSeq → List Byte → List Byte → List Nat → Option (List Byte × List Nat)
  | [], lits, out, reps => some (out ++ lits, reps)
  | (ll, ml, v) :: xs, lits, out, reps =>
    let (off, reps) := zOffset reps v ll
    let out := out ++ lits.take ll
    let reach := if out.length ≤ window then out.length + dict.length else window
    if lits.length < ll ∨ off = 0 ∨ off > reach then none
    else zExecute dict window xs (lits.drop ll) (out ++ zCopy (dict ++ out) off ml) reps

/-- A compressed block: the frame's content after it, and what the frame keeps. -/
def zBlock (dict : List Byte) (window : Nat) (st : ZState) (out bs : List Byte) : Option (List Byte × ZState) :=
  match zLiterals st bs with
  | none => none
  | some (lits, huf, rest) =>
    match zSequences { st with huf := huf } rest with
    | none => none
    | some (xs, st) => (zExecute dict window xs lits out st.reps).map (fun p => (p.1, { st with reps := p.2 }))

/-! ### Dictionaries -/

/-- A dictionary's content and what a frame starts with: one that begins with the magic number has tables and offsets, any
other is content alone; none where its tables or offsets are wrong. -/
def zDictionary (bs : List Byte) : Option (List Byte × ZState) :=
  if ofLe (bs.take 4) ≠ 0xEC30A437 then some (bs, .start)
  else
    match readHuf (bs.drop 8) with
    | none => none
    | some (h, bs) =>
      match readFse 31 8 bs with
      | none => none
      | some (o, bs) =>
        match readFse 52 9 bs with
        | none => none
        | some (m, bs) =>
          match readFse 35 9 bs with
          | none => none
          | some (l, bs) =>
            let reps := (List.range 3).map (fun i => ofLe ((bs.drop (4 * i)).take 4))
            let content := bs.drop 12
            if bs.length < 12 ∨ reps.any (fun r => r == 0 || r > content.length) then none
            else some (content, ⟨some h, some l, some o, some m, reps⟩)

end Sys2Proof.Machine
end

