-- ==== Sys2Proof/Machine/Zstd.lean ====
section
/-! DEFINITION. The Zstandard frames of an SREAD with `.z` (R184, R354, Table 06.11): frame headers, blocks, content sizes,
dictionaries and checksums by RFC 8878 (PRESUMED, log 90). -/
namespace Sys2Proof.Machine

/-! ### Frame headers -/

/-- A frame header: the window size, the dictionary ID (0 for none), the content size where it is given, and whether a
checksum follows the blocks. -/
structure ZHeader where
  window : Nat
  dictId : Nat
  size : Option Nat
  checksum : Bool
  deriving DecidableEq, Repr

/-- Detail codes of Table 06.3 that a frame can fail with. -/
def zFrame : Nat := 7
def zWindow : Nat := 8
def zDict : Nat := 9
def zCheck : Nat := 10
def zCapacity : Nat := 11

/-- The window size of a Window_Descriptor byte. -/
def zWindowOf (b : Nat) : Nat :=
  let base := 2 ^ (10 + b / 8)
  base + base / 8 * (b % 8)

/-- A frame header after its magic number, with the bytes behind it; none where it is cut short or sets its reserved bit. -/
def zHeader (bs : List Byte) : Option (ZHeader × List Byte) :=
  match bs with
  | [] => none
  | d :: rest =>
    let x := d.toNat
    let single := bit x 5
    let nw := if single then 0 else 1
    let nd := nth [0, 1, 2, 4] 0 (x % 4)
    let nf := nth [b2n single, 2, 4, 8] 0 (bits x 7 6)
    if rest.length < nw + nd + nf ∨ bit x 3 then none
    else
      let id := ofLe ((rest.drop nw).take nd)
      let f := ofLe ((rest.drop (nw + nd)).take nf)
      let size := if nf = 0 then none else some (if nf = 2 then f + 256 else f)
      let window := if single then size.getD 0 else zWindowOf (ofLe (rest.take 1))
      some (⟨window, id, size, bit x 2⟩, rest.drop (nw + nd + nf))

/-- The ID of a dictionary: that of one that begins with the magic number 0xEC30_A437, else 0, for raw content (R184). -/
def zDictId (dict : List Byte) : Nat := if ofLe (dict.take 4) = 0xEC30A437 then ofLe ((dict.drop 4).take 4) else 0

/-! ### Blocks -/

/-- What the blocks of a frame have given: its content so far and the bytes behind; or the content before the failure, with its
detail. -/
inductive ZOut where
  | ok (content : List Byte) (rest : List Byte)
  | bad (content : List Byte) (detail : Nat)
  deriving DecidableEq, Repr

/-- The blocks of a frame, from a content and what the frame keeps of the blocks before; `room` bytes are left of the
capacity. -/
def zBlocks (dict : List Byte) (window room : Nat) : Nat → List Byte → List Byte → ZState → ZOut
  | 0, _, out, _ => .bad out zFrame
  | fuel + 1, bs, out, st =>
    let most := min window 131072
    let h := ofLe (bs.take 3)
    let kind := bits h 2 1
    let n := h / 8
    let body := bs.drop 3
    let used := if kind = 1 then 1 else n
    if bs.length < 3 ∨ kind = 3 ∨ n > most ∨ body.length < used then .bad out zFrame
    else
      match (if kind = 0 then some (out ++ body.take n, st)
          else if kind = 1 then some (out ++ List.replicate n (nth body 0 0), st)
          else zBlock dict window st out (body.take n)) with
      | none => .bad out zFrame
      | some (all, st) =>
        if all.length > out.length + most then .bad out zFrame
        else if all.length > room then .bad (all.take room) zCapacity
        else if h % 2 = 1 then .ok all (body.drop used)
        else zBlocks dict window room fuel (body.drop used) all st

/-- One frame after its magic number: the checks of Table 06.11 in the order in which its bytes reach them. A malformed
dictionary fails it as an invalid table does (log 90). -/
def zOneFrame (dict : Option (List Byte)) (room : Nat) (bs : List Byte) : ZOut :=
  match zHeader bs with
  | none => .bad [] zFrame
  | some (h, rest) =>
    if h.window > 2 ^ 23 then .bad [] zWindow
    else if h.dictId ≠ 0 ∧ dict.all (fun d => zDictId d != h.dictId) then .bad [] zDict
    else
      match (zDictionary (dict.getD [])).elim (.bad [] zFrame) (fun d => zBlocks d.1 h.window room (rest.length + 1) rest [] d.2) with
      | .bad c d => .bad c d
      | .ok c rest =>
        if h.size.any (fun n => n != c.length) then .bad c zFrame
        else if h.checksum then
          if rest.length < 4 then .bad c zFrame
          else if ofLe (rest.take 4) ≠ (xxh64 c).toNat % 2 ^ 32 then .bad c zCheck else .ok c (rest.drop 4)
        else .ok c rest

/-! ### The input -/

/-- The frames of an input, decoded in order into a capacity: the content of the whole frames, the content of the frame that
failed as far as it was decoded, and 0 or the failure's detail. -/
def zFrames (dict : Option (List Byte)) (cap : Nat) : Nat → List Byte → List Byte → List Byte × List Byte × Nat
  | 0, _, out => (out, [], zFrame)
  | fuel + 1, bs, out =>
    if bs.isEmpty then (out, [], 0)
    else
      let magic := ofLe (bs.take 4)
      let n := ofLe ((bs.drop 4).take 4)
      if bs.length < 4 then (out, [], zFrame)
      else if magic = 0xFD2FB528 then
        match zOneFrame dict (cap - out.length) (bs.drop 4) with
        | .ok c rest => zFrames dict cap fuel rest (out ++ c)
        | .bad c d => (out, c, d)
      else if magic / 16 = 0x184D2A5 ∧ bs.length ≥ 8 + n then zFrames dict cap fuel (bs.drop (8 + n)) out
      else (out, [], zFrame)

/-- The decoding of an SREAD's input (R184): the bytes that reach the destination, the length of the whole output, and 0 or
the failure's detail. Of the frame that failed, the destination gets a first part whose length the spec leaves open. -/
def zDecode (dict : Option (List Byte)) (cap tick : Nat) (bs : List Byte) : List Byte × Nat :=
  let (out, part, detail) := zFrames dict cap (bs.length + 1) bs []
  (out ++ part.take (Config.freeIndex tick % (part.length + 1)), detail)

end Sys2Proof.Machine
end

