-- ==== Sys2Proof/Machine/Copies.lean ====
section
/-! DEFINITION. What the copy, gather/scatter, stack-side GEMV and storage engines do (R170, R171, R178–R180, R184,
R268, R275, R299, R301, R353, R354). -/
namespace Sys2Proof.Machine

/-- Pieces of a length whose boundaries are multiples of 128 from an offset: offset from the start, and count. -/
def stretchesAt (a n : Nat) : List (Nat × Nat) :=
  let first := min n (128 - a % 128)
  if first = 0 then [] else (0, first) :: (stretches (n - first)).map (fun p => (first + p.1, p.2))

/-! ### DCOPY -/

/-- Rows copied one after another (R178). -/
def copyAll (core : Nat) (k : Cmd) (ssp dsp evp len ss ds : Nat) (src dst : Word) (skinds dkinds : List Nat) :
    List Nat → State → State × Option CmdFail
  | [], s => (s, none)
  | r :: rs, s =>
    match movePieces (fun s o n => engRead s core k ssp src ((r * ss + o : Nat) : Int) n skinds)
        (fun s o bs => engWrite s core k dsp dst ((r * ds + o : Nat) : Int) evp dkinds bs)
        (stretchesAt (dst.toNat + r * ds) len) s with
    | (s, some f) => (s, some f)
    | (s, none) => copyAll core k ssp dsp evp len ss ds src dst skinds dkinds rs s

/-- What a part of a copy leaves: the state, the failure, how far the copy has come, and whether it is over. -/
structure Part where
  s : State
  fail : Option CmdFail
  progress : Nat
  finished : Bool
  deriving DecidableEq, Repr

/-- The end of the next part of a DCOPY's only row: the next 4 KiB of its destination (R330). -/
def partEnd (dst : Word) (o len : Nat) : Nat := min len (o + (4096 - (dst.toNat + o) % 4096))

/-- The next part of a DCOPY (R178, R330): a row where it is 2D, else up to the next 4 KiB of its destination. -/
def runDcopy (s : State) (core : Nat) (k : Cmd) (w : EW) : Part :=
  let (len, rows, ss, ds) := copyRows w k.ops
  let ssp := fieldOf w.md 0 0
  let dsp := fieldOf w.md 2 1
  let evp := fieldOf w.md 4 3
  let src := nth k.ops 0 1
  let dst := nth k.ops 0 2
  let p := k.progress
  if bitOf w.md 5 then
    if rows ≤ p then ⟨s, none, p, true⟩
    else
      let (s, f) := copyAll core k ssp dsp evp len ss ds src dst copyKinds copyKinds [p] s
      ⟨s, f, p + 1, f.isSome || rows ≤ p + 1⟩
  else
    let e := partEnd dst p len
    let (s, f) := movePieces (fun s o n => engRead s core k ssp src ((p + o : Nat) : Int) n copyKinds)
      (fun s o bs => engWrite s core k dsp dst ((p + o : Nat) : Int) evp copyKinds bs) (stretchesAt (dst.toNat + p) (e - p)) s
    ⟨s, f, e, f.isSome || len ≤ e⟩

/-! ### ROWCOPY -/

/-- The DRAM row that `n` bytes of a range begin, in row mode: the profile under which they are translated is coarse or
stack-resident, and they stand at the row's first byte (R290, R299). -/
def wholeRow (s : State) (core : Nat) (k : Cmd) (v : Word) (o n rights : Nat) : Option Nat :=
  let q := engReq core k v o n rights [0]
  match check0 s q true with
  | .ok (.dram 0 (l :: _), some e) =>
    match translate s q.asid q.handle (s.world core) e (q.off.toNat / 2 ^ pshift e.psize) with
    | .ok (_, prof) => if (bit prof 0 || bit prof 1) && q.off.toNat % 1024 == 0 && l % 8 == 0 then some (l / 8) else none
    | .error _ => none
  | _ => none

/-- Stack, channel, bank and subarray of a DRAM row (R287). -/
def subarrayOf (row : Nat) : Nat := row / 512

/-- The rows of a command in row mode: source (none for a pattern) and destination, or none where it takes the channel
(R299). -/
def rowPairs (s : State) (core : Nat) (k : Cmd) (init : Bool) : List Nat → Option (List (Option Nat × Nat))
  | [] => some []
  | i :: is =>
    match wholeRow s core k (nth k.ops 0 2) (1024 * i) 1024 2, rowPairs s core k init is with
    | some d, some rest =>
      if init then some ((none, d) :: rest)
      else
        match wholeRow s core k (nth k.ops 0 1) (1024 * i) 1024 1 with
        | some x => if subarrayOf x = subarrayOf d then some ((some x, d) :: rest) else none
        | none => none
    | _, _ => none

/-- One row written from its source row, or from the pattern, inside the DRAM (R299): a bad sector stays bad in the
copy. -/
def copyRow (pattern : Nat) (s : State) (p : Option Nat × Nat) : State :=
  (List.range 8).foldl (fun s j =>
    let dl := p.2 * 8 + j
    match p.1 with
    | some x =>
      dramWrite s dl (dramLine s (x * 8 + j)) (BitVec.allOnes 128) (sectorsOf (badDram s (x * 8 + j)))
    | none => dramWrite s dl (BitVec.ofNat 1024 ((List.range 16).foldl (fun a i => a + pattern * 2 ^ (64 * i)) 0))
        (BitVec.allOnes 128) []) s

/-- The lines of a DRAM row. -/
def rowLines (r : Nat) : List Nat := List.range' (8 * r) 8

/-- Whether a command with L = 0 is in row mode: its ranges begin at a row as those of a longer one do (R299). -/
def rowStart (s : State) (core : Nat) (k : Cmd) (init : Bool) : Bool :=
  (wholeRow s core k (nth k.ops 0 2) 0 1 2).isSome && (init || (wholeRow s core k (nth k.ops 0 1) 0 1 1).isSome)

/-- The first step of row mode for the sources: their dirty bytes are written back (R299). -/
def cleanRows (s : State) (ps : List (Option Nat × Nat)) : State :=
  (ps.filterMap (fun p => p.1)).foldl (fun s r => (rowLines r).foldl cleanEverywhere s) s

/-- Row mode once the sources are clean (R299). -/
def runRows (s : State) (pattern : Nat) (ps : List (Option Nat × Nat)) : State :=
  let s := ps.foldl (fun s p => (rowLines p.2).foldl flushEverywhere s) s
  let s := ps.foldl (copyRow pattern) s
  ps.foldl (fun s p => (rowLines p.2).foldl dropEverywhere s) s

/-- Whether a source row, clean in every L2, has a bad sector in DRAM; the copy engine then reports it (R301). -/
def badRow (s : State) (r : Nat) : Bool := !s.bad.isEmpty && (rowLines r).any (fun l => (List.range 4).any (badDram s l))

/-- ROWCOPY (R179, R299): the failure, and whether it took the channel. -/
def runRowcopy (s : State) (core : Nat) (k : Cmd) (w : EW) : State × Option CmdFail × Bool :=
  let len := opn k.ops 0
  let init := bitOf w.md 0
  match (if len % 1024 = 0 ∧ (len ≠ 0 ∨ rowStart s core k init) then rowPairs s core k init (List.range (len / 1024))
      else none) with
  | some ps =>
    let s := cleanRows s ps
    if (ps.filterMap (fun p => p.1)).any (badRow s) then (s, some (failAddr cMEMERR 0), false)
    else (runRows s (opn k.ops 1) ps, none, false)
  | none =>
    if init then
      let bs := leBytes 8 (opn k.ops 1)
      let (s, f) := movePieces (fun s o n => (s, .ok ((List.range' o n).map (fun j => nth bs 0 (j % 8)))))
        (fun s o bs => engWrite s core k 0 (nth k.ops 0 2) (o : Nat) 0 [0] bs) (stretchesAt (opn k.ops 2) len) s
      (s, f, true)
    else
      let (s, f) := copyAll core k 0 0 0 len 0 0 (nth k.ops 0 1) (nth k.ops 0 2) [0] [0] [0] s
      (s, f, true)

/-! ### GATHER and SCATTER -/

/-- Index `i` of a command's list (R180). -/
def readIndex (s : State) (core : Nat) (k : Cmd) (w : EW) (i : Nat) : State × Except CmdFail Int :=
  let n := if bitOf w.md 4 then 8 else 4
  match engRead s core k (fieldOf w.md 5 5) (nth k.ops 0 3) ((n * i : Nat) : Int) n copyKinds with
  | (s, .error f) => (s, .error f)
  | (s, .ok bs) => (s, .ok (if bitOf w.md 4 then sext (ofLe bs) 64 else ((ofLe bs : Nat) : Int)))

/-- One element moved whole (R180). -/
def moveElement (s : State) (core : Nat) (k : Cmd) (w : EW) (gather : Bool) (i : Nat) : State × Option CmdFail :=
  let n : Nat := 2 ^ fieldOf w.md 3 0
  let sp := fieldOf w.md 7 6
  match readIndex s core k w i with
  | (s, .error f) => (s, some f)
  | (s, .ok x) =>
    if x < 0 then (s, some (failAddr cBOUNDS 0))
    else
      let far : Int := x * (n : Int)
      let near : Int := (Int.ofNat (i * n))
      let (ssp, so, dsp, d) := if gather then (0, far, sp, near) else (sp, near, 0, far)
      match engRead s core k ssp (nth k.ops 0 1) so n copyKinds with
      | (s, .error f) => (s, some f)
      | (s, .ok bs) => engWrite s core k dsp (nth k.ops 0 2) d (fieldOf w.md 9 8) copyKinds bs

/-- Every element in ascending order; the failure of the lowest failing element, with its number in AUX (R180). -/
def moveElements (core : Nat) (k : Cmd) (w : EW) (gather : Bool) : List Nat → State → Option CmdFail → State × Option CmdFail
  | [], s, f => (s, f)
  | i :: is, s, f =>
    let (s, r) := moveElement s core k w gather i
    moveElements core k w gather is s (f.orElse (fun _ => r.map (fun x => { x with aux := i })))

/-- The next part of a GATHER or SCATTER: up to the next multiple of 64 elements (R180, R330). -/
def runGather (s : State) (core : Nat) (k : Cmd) (w : EW) (gather : Bool) : Part :=
  let n := opn k.ops 0
  let e := min n ((k.progress / 64 + 1) * 64)
  let (s, f) := moveElements core k w gather (List.range' k.progress (e - k.progress)) s k.failed
  ⟨s, f, e, n ≤ e⟩

/-! ### SREAD -/

/-- The dictionary of an SREAD (R184): its bytes, or none where the word gives none; a failure where it is above 64 KiB. -/
def readDict (s : State) (core : Nat) (k : Cmd) (w : EW) : State × Except CmdFail (Option (List Byte)) :=
  if !bitOf w.md 3 then (s, .ok none)
  else
    let v := nth k.ops 0 3
    match s.bte k.asid (v.toNat / 2 ^ 48) with
    | none => (s, .error (failAddr cNULLH 0))
    | some e =>
      let n := e.length - v.toNat % 2 ^ 48
      if n > 65536 then (s, .error ⟨zDict, 0, 0, 0⟩)
      else
        match readPieces (fun s o n => engRead s core k 0 v (o : Nat) n [0]) (stretches n) s with
        | (s, .error f) => (s, .error f)
        | (s, .ok bs) => (s, .ok (some bs))

/-- The bytes of a range of a storage buffer (R184, R353). -/
def storageBytes (s : State) (e : Bte) (o n : Nat) : List Byte :=
  let port := bits e.k2 39 32
  let nsid := e.k2 % 2 ^ 32
  (List.range n).map (fun j => Config.nvmeByte port nsid (e.k3 * (namespaceOf s port nsid).1 + o + j))

/-- SREAD (R184, R353, R354): the failure, and the bytes written. A read past the namespace's capacity is an NVMe completion
with error status. -/
def runSread (s : State) (core : Nat) (k : Cmd) (w : EW) : State × Option CmdFail × Option Nat :=
  let v := nth k.ops 0 1
  let n := opn k.ops 0 % 2 ^ 32
  let cap := opn k.ops 0 / 2 ^ 32
  let dsp := fieldOf w.md 1 0
  let put (s : State) (bs : List Byte) : State × Option CmdFail :=
    movePieces (fun s o n => (s, .ok ((bs.drop o).take n)))
      (fun s o bs => engHome s core k dsp (nth k.ops 0 2) ((o : Nat) : Int) 0 [0] bs) (stretchesAt (opn k.ops 2) bs.length) s
  match check0 s (engReq core k v 0 n 1 [1]) true with
  | .error (c, _) => (s, some (failAddr c 0), none)
  | .ok (_, none) => (s, some (failAddr cNULLH 0), none)
  | .ok (_, some e) =>
    let port := bits e.k2 39 32
    let nsid := e.k2 % 2 ^ 32
    let o := v.toNat % 2 ^ 48
    let (lba, blocks) := namespaceOf s port nsid
    if bit (s.reg 0x804) (12 + port) ≠ k.world then (s, some (failAddr cWORLD 0), none)
    else if e.k3 * lba + o + n > lba * blocks ∨ lba = 0 ∨
        s.nvmeFatal.getLsbD port ∨ Config.nvmeError port nsid o s.tick then
      (s, some ⟨6, 0, 0, 0⟩, none)
    else
      let raw := storageBytes s e o n
      if !bitOf w.md 2 then
        match put s raw with
        | (s, some f) => (s, some f, none)
        | (s, none) => (s, none, some n)
      else
        match readDict s core k w with
        | (s, .error f) => (s, some f, none)
        | (s, .ok dict) =>
          let (out, detail) := zDecode dict cap s.tick raw
          match put { s with tick := s.tick + 1 } out with
          | (s, some f) => (s, some f, none)
          | (s, none) =>
            if detail ≠ 0 then (s, some ⟨detail, 0, 0, 0⟩, none)
            else (s, none, some out.length)

/-- The I/O die of the port of an SREAD's storage buffer. -/
def sreadDie (s : State) (k : Cmd) : Option Nat :=
  (s.bte k.asid ((nth k.ops 0 1).toNat / 2 ^ 48)).map (fun e => bits e.k2 39 32 / 2)

/-- The decompression engines of an I/O die that decode for commands of any core. -/
def decoding (s : State) (die : Option Nat) : Nat :=
  (s.cores.flatMap (fun p => p.2.cmds)).countP (fun k => k.op == 0x6E && k.md 2 2 == 1 && k.st == .started && sreadDie s k == die)

/-- An SREAD can go on: one that decodes begins once one of the four engines of its port's I/O die is free (R354). -/
def sreadReady (s : State) (k : Cmd) : Bool :=
  k.st == .started || k.md 2 2 == 0 || decoding s (sreadDie s k) < 4

/-- A step of an SREAD: one that decodes takes its engine first, which it holds until it has run (R354). -/
def stepSread (s : State) (core : Nat) (k : Cmd) (w : EW) : State :=
  if k.st = .queued ∧ bitOf w.md 2 = true then setCmd s core { k with st := .started }
  else
    let (s, f, n) := runSread s core k w
    setCmd s core { k with st := .done f, aux := n }

/-! ### SGEMV -/

/-- A row of B as it stands in DRAM (R275), as a number. -/
def gemvRead (s : State) (core : Nat) (k : Cmd) (o n : Nat) : Except CmdFail Nat :=
  match check0 s (engReq core k (nth k.ops 0 2) o n 1 [0]) true with
  | .error (c, _) => .error (failAddr c 0)
  | .ok (.dram first ls, _) =>
    let cs := chunksOf first n ls
    if !s.bad.isEmpty && cs.any (fun c => (List.range 4).any (fun j =>
        c.2.1 < 32 * (j + 1) && 32 * j < c.2.1 + c.2.2 && badDram s c.1 j)) then .error (failAddr cMEMERR 0)
    else .ok (ofLe (cs.flatMap (fun c => cread s.dram (c.1 * 128 + c.2.1) c.2.2)))
  | .ok _ => .error (failAddr cRIGHTS 0)

/-- The dot product of a row of B with a vector by the tree of R171. -/
def gemvDot (f k a b : Nat) : Nat :=
  let partial_ (j : Nat) : Nat :=
    ((List.range k).filter (fun i => i / 256 % 16 == j)).foldl (fun c i =>
      accumulate f32 c (operandValue 10 a k i) (operandValue f b k i)) 0
  nth (pairTree (fun x y => canonical f32 (fAdd f32 0 false x y).1) 4 ((List.range 16).map partial_)) 0 0

/-- Rows of B read in order. -/
def gemvRows (s : State) (core : Nat) (k : Cmd) (rb : Nat) : List Nat → Except CmdFail (List Nat)
  | [] => .ok []
  | n :: ns =>
    match gemvRead s core k (n * rb) rb with
    | .error f => .error f
    | .ok x =>
      match gemvRows s core k rb ns with
      | .error f => .error f
      | .ok xs => .ok (x :: xs)

/-- SGEMV (R170, R171, R275). -/
def runSgemv (s : State) (core : Nat) (c : Cmd) (w : EW) : State × Option CmdFail :=
  let f := fieldOf w.md 4 0
  let dst := fieldOf w.md 6 5
  let k := bits (opn c.ops 3) 16 0
  let n := bits (opn c.ops 3) 47 24
  let nv := bits (opn c.ops 3) 49 48 + 1
  let space := if dst = 1 then 0 else if dst = 0 then 2 else 3
  match readAbuf s (core * 2 ^ 19 + opn c.ops 1) (2 * k * nv) with
  | none => (s, some (failAddr cMEMERR 0))
  | some abs =>
    match gemvRows s core c (gemvRow f k) (List.range n) with
    | .error x => (s, some x)
    | .ok rows =>
      let out := (List.range nv).flatMap (fun v =>
        let a := ofLe ((abs.drop (2 * k * v)).take (2 * k))
        rows.flatMap (fun b => leBytes 4 (gemvDot f k a b)))
      movePieces (fun s o n => (s, .ok ((out.drop o).take n)))
        (fun s o bs => engHome s core c space (nth c.ops 0 0) ((o : Nat) : Int) 0 [0] bs)
        (stretchesAt (opn c.ops 0) out.length) s

end Sys2Proof.Machine
end

