-- ==== Sys2Proof/Machine/Frame.lean ====
section
/-! DEFINITION. The Ethernet ports' registers and routes (R404, R415, R416), Remit packets (R405, R407), and the frames that
carry them (R402, R403). Times are in clk of 2.25 GHz. -/
namespace Sys2Proof.Machine

/-! ### Port registers -/

def ethBase (p : Nat) : Nat := 0x400 + 32 * p
/-- Register k of a port (Table 24.7). -/
def State.eth (s : State) (p k : Nat) : Nat := s.reg (ethBase p + k)
def State.setEth (s : State) (p k v : Nat) : State := s.setReg (ethBase p + k) v
/-- A saturating counter of a port rises by 1 (R415). -/
def State.bumpEth (s : State) (p k : Nat) : State := s.setEth p k (min 0xFFFFFFFF (s.eth p k + 1))
/-- A register whose write of 0 writes 1 (R415, R421). -/
def State.ethPos (s : State) (p k : Nat) : Nat := max 1 (s.eth p k)
/-- ETH.DROP rises. -/
def State.dropAt (s : State) (p : Nat) : State := s.bumpEth p 3

def State.devId (s : State) : Nat := s.reg 0x580 % 2 ^ 16

/-- A port carries Remit traffic once its mode is set (R421). -/
def State.portOn (s : State) (p : Nat) : Bool := s.eth p 0 % 4 != 0

/-- The world of an Ethernet port (Table 19.2). -/
def State.portWorld (s : State) (p : Nat) : Bool := bit (s.reg 0x804) p

/-- TIMER.NOW: it rises by 1 each clk, from the value last written (Table 07.3). -/
def State.timer (s : State) : Nat := (s.now + s.reg 0x210) % 2 ^ 64

/-- clk of a number of µs, ns × 4 of a number of clk × 9. -/
def usClk (us : Nat) : Nat := 2250 * us

/-- The route entry of a device: primary and alternate port (R404). -/
def routeEntry (s : State) (dev : Nat) : Option (Nat × Nat) :=
  let e := physRead s (s.reg 0x583 + 2 * dev) 2
  if bit e 15 && bits e 14 8 == 0 then some (bits e 3 0, bits e 7 4) else none

/-- The egress port towards a device (R404). -/
def egressPort (s : State) (dev : Nat) (path : Bool) : Option Nat :=
  match routeEntry s dev with
  | some (pri, alt) => let p := if path then alt else pri
                       if p < 12 then some p else none
  | none => none

/-! ### Packets -/

def emptyPacket : Packet :=
  { type := 0, trim := false, retx := false, ordered := false, last := false, ctr := false, c32 := false, prev := false,
    cls := 0, evp := 0, csc := 0, src := 0, dst := 0, flow := 0, psn := 0, msg := 0, rcause := 0, mlen := 0, daddr := 0,
    poff := 0, plen := 0, dasid := 0, caddr := 0, stime := 0, pmsg := 0, path := false, payload := [], olen := 0, tdev := 0,
    tport := 0, oclass := 0, ttime := 0 }

/-- The IPv6 packet length (R402, R407). -/
def packetBytes (k : Packet) : Nat := 40 + 8 + 64 + (if k.trim then 16 else k.plen)

/-- A trimmed header (R407, Table 24.4). -/
def trimmed (s : State) (p : Nat) (k : Packet) : Packet :=
  { k with trim := true, cls := 0, plen := 0, payload := [], olen := k.plen, tdev := s.devId, tport := p, oclass := k.cls,
           ttime := s.timer }

/-- The fields of a packet lie within their bits, its TYPE is valid, and its payload has PLEN bytes (Table 24.3); otherwise it
is dropped and counted (R405). -/
def headerFits (k : Packet) : Bool :=
  k.type < 4 && k.cls < 8 && k.evp < 4 && k.csc < 8 && k.src < 2 ^ 16 && k.dst < 2 ^ 16 && k.flow < 2 ^ 24 &&
    k.flow % 2 ^ 10 == 0 && k.rcause < 256 && k.mlen < 2 ^ 40 && k.poff < 2 ^ 32 && k.plen ≤ 4096 && k.dasid < 2 ^ 16 &&
    k.stime < 2 ^ 32 && k.psn < 2 ^ 32 && k.msg < 2 ^ 32 && k.pmsg < 2 ^ 32 && k.payload.length == k.plen &&
    k.olen < 2 ^ 13 && k.tdev < 2 ^ 16 && k.tport < 16 && k.oclass < 8 && k.ttime < 2 ^ 64

/-! ### Bytes on the wire -/

/-- The flags of a header, bit 0 first. -/
def flagsOf (bs : List Bool) : Nat := bs.foldr (fun b x => b.toNat + 2 * x) 0

/-- The 64-byte header (Table 24.3); every byte and bit that the table does not list is 0. -/
def headerBytes (k : Packet) : List Byte :=
  le 1 (16 + k.type) ++ le 1 (flagsOf [k.trim, k.retx, k.ordered, k.last, k.ctr, k.c32, k.prev]) ++ le 1 k.cls ++
    le 1 (8 * k.evp + k.csc) ++ le 2 k.src ++ le 2 k.dst ++ le 4 k.flow ++ le 4 k.psn ++ le 4 k.msg ++ le 4 k.rcause ++
    le 8 k.mlen ++ le 8 k.daddr.toNat ++ le 4 k.poff ++ le 2 k.plen ++ le 2 k.dasid ++ le 8 k.caddr.toNat ++ le 4 k.stime ++
    le 4 k.pmsg

/-- The trailer of a trimmed header (Table 24.4). -/
def trailerBytes (k : Packet) : List Byte :=
  le 2 k.olen ++ le 2 k.tdev ++ le 1 k.tport ++ le 1 k.oclass ++ le 2 0 ++ le 8 k.ttime

/-- A Remit packet (R405): its header, and its payload or its trailer. -/
def remitBytes (k : Packet) : List Byte := headerBytes k ++ (if k.trim then trailerBytes k else k.payload)

/-- The packet that bytes hold, with the PATH of its UDP source port; none where a field that Table 24.3 or 24.4 does not list
is not 0, VER is not 1, or TYPE is 4–15 (R405). -/
def packetOfBytes (path : Bool) (bs : List Byte) : Option Packet :=
  let f (o n : Nat) : Nat := ofLe ((bs.drop o).take n)
  let trim := bit (f 1 1) 0
  let t (o n : Nat) : Nat := if trim then f (64 + o) n else 0
  let k : Packet :=
    { type := f 0 1 % 16, trim := trim, retx := bit (f 1 1) 1, ordered := bit (f 1 1) 2, last := bit (f 1 1) 3,
      ctr := bit (f 1 1) 4, c32 := bit (f 1 1) 5, prev := bit (f 1 1) 6, cls := f 2 1, evp := f 3 1 / 8, csc := f 3 1 % 8,
      src := f 4 2, dst := f 6 2, flow := f 8 4, psn := f 12 4, msg := f 16 4, rcause := f 20 4, mlen := f 24 8,
      daddr := BitVec.ofNat 64 (f 32 8), poff := f 40 4, plen := f 44 2, dasid := f 46 2, caddr := BitVec.ofNat 64 (f 48 8),
      stime := f 56 4, pmsg := f 60 4, path := path, payload := if trim then [] else bs.drop 64, olen := t 0 2, tdev := t 2 2,
      tport := t 4 1, oclass := t 5 1, ttime := t 8 8 }
  if headerFits k ∧ remitBytes k = bs then some k else none

/-- A number in network order. -/
def be (n x : Nat) : List Byte := (leBytes n x).reverse
def ofBe (bs : List Byte) : Nat := ofLe bs.reverse

/-- The IPv6 address of a device (R403). -/
def ipOf (s : State) (dev : Nat) : List Byte := be 8 (s.reg 0x581) ++ be 6 0 ++ be 2 dev

/-- The sum of the 16-bit words of a list of bytes, an odd last byte filled with zero (RFC 768). -/
def sumWords : List Byte → Nat
  | [] => 0
  | [a] => 256 * a.toNat
  | a :: b :: bs => 256 * a.toNat + b.toNat + sumWords bs

/-- A sum in 16-bit one's complement. -/
def fold16 (n : Nat) : Nat := if n = 0 then 0 else if n % 65535 = 0 then 65535 else n % 65535

/-- The words that a UDP checksum covers (RFC 8200, RFC 768): the pseudo-header and the datagram. -/
def udpSum (src dst datagram : List Byte) : Nat := fold16 (sumWords (src ++ dst ++ be 4 datagram.length ++ be 4 17 ++ datagram))

/-- The checksum of a datagram whose checksum field is 0: never 0 itself. -/
def udpCheck (src dst datagram : List Byte) : Nat :=
  let x := 65535 - udpSum src dst datagram
  if x = 0 then 65535 else x

/-- The UDP source port of a packet (R403). -/
def sourcePort (k : Packet) : Nat := 0xC000 + 0x2000 * k.path.toNat + bits k.flow 23 11

/-- The frame by which a packet leaves a port (R402, R403): Ethernet II, IPv6, UDP with its checksum, the packet. -/
def frameOf (s : State) (p : Nat) (k : Packet) : List Byte :=
  let r := remitBytes k
  let n := 8 + r.length
  let ports := be 2 (sourcePort k) ++ be 2 (s.reg 0x582 % 2 ^ 16) ++ be 2 n
  be 6 (s.eth p 18) ++ be 6 ((s.reg 0x584 + p) % 2 ^ 48) ++ be 2 0x86DD ++
    be 4 (6 * 2 ^ 28 + 4 * (8 * k.cls) * 2 ^ 20 + k.flow % 2 ^ 20) ++ be 2 n ++ be 1 17 ++ be 1 64 ++ ipOf s k.src ++ ipOf s k.dst ++
    ports ++ be 2 (udpCheck (ipOf s k.src) (ipOf s k.dst) (ports ++ [0, 0] ++ r)) ++ r

/-- The Remit packet of a frame's datagram. -/
def framePacket (frame : List Byte) : Option Packet :=
  packetOfBytes (bit (ofBe ((frame.drop 54).take 2)) 13) ((frame.drop 62).take (ofBe ((frame.drop 58).take 2) - 8))

/-- A received frame is dropped and counted (R402, R405): IPv4; IPv6 whose next header is not UDP, with extension headers; a
bad length or checksum; a UDP port that is neither Remit's nor, on port 0, SPDM's; an invalid Remit packet. A frame of another
EtherType carries none of these and is no traffic of the port. -/
def frameDropped (s : State) (p : Nat) (frame : List Byte) : Bool :=
  let f (o n : Nat) : Nat := ofBe ((frame.drop o).take n)
  let n := f 58 2
  let datagram := (frame.drop 54).take n
  if f 12 2 = 0x0800 then true
  else if f 12 2 ≠ 0x86DD then false
  else if f 14 1 / 16 ≠ 6 ∨ f 20 1 ≠ 17 ∨ n < 8 ∨ f 18 2 ≠ n ∨ datagram.length ≠ n then true
  else if f 60 2 = 0 ∨ udpSum ((frame.drop 22).take 16) ((frame.drop 38).take 16) datagram ≠ 65535 then true
  else if f 56 2 = s.reg 0x582 % 2 ^ 16 then (framePacket frame).isNone
  else !(p == 0 && f 56 2 == bits (s.reg 0x582) 31 16)

end Sys2Proof.Machine
end

