-- ==== Sys2Proof/Machine/Remit.lean ====
section
/-! DEFINITION. Puts on the mesh and between devices (R401, R404): messages and their packets (R406), trimming (R408),
receiving (R409–R413), and sending (R414). Times are in clk of 2.25 GHz. -/
namespace Sys2Proof.Machine

/-! ### Egress queues -/

/-- Bytes queued at a port, of classes 2–7 or of the others. -/
def queuedBytes (s : State) (p : Nat) (low : Bool) : Nat :=
  ((s.egress.filter (fun e => e.port == p && e.class0 == low)).map (fun e => e.bytes)).foldl (· + ·) 0

/-- A port is about to trim a packet (R408). -/
def trims (s : State) (p : Nat) (k : Packet) : Bool :=
  k.type == 0 && !k.trim && k.plen != 0 && k.cls ≥ 2 && s.eth p 4 != 0 && queuedBytes s p false > s.eth p 4

/-- Whether a port's queue of a packet's classes has no room for it (R408). -/
def queueFull (s : State) (p : Nat) (k : Packet) : Bool :=
  queuedBytes s p (k.cls < 2) + packetBytes k > (if k.cls < 2 then 65536 else 2 ^ 20)

/-- The I/O die of a port (Table 19.1). -/
def ioDie (p : Nat) : Nat := p / 6

/-- The kind of traffic as which a packet crosses the mesh to an egress port, from an ingress port or a core (R396, R404); a
transit packet between ports of one I/O die does not cross it. -/
def meshKind (from_ : Option Nat) (p : Nat) (k : Packet) : Option Traffic :=
  if (from_.map ioDie) = some (ioDie p) then none
  else if k.type ≠ 0 ∨ k.trim = true then some .remitControl
  else if from_.isSome then some .transit
  else if k.cls = 5 then some .collData else some .putData

/-- A packet put in a port's egress queues, from an ingress port or from this device: trimmed where the port is congested,
dropped where its queue is full (R408). Where it came through a port with credit-based flow control it waits at that port
instead, behind what waits there. -/
def enqueue (s : State) (from_ : Option Nat) (p : Nat) (k : Packet) : State :=
  let x := if trims s p k then trimmed s p k else k
  let stop : Option Nat := from_.filter (fun q => bit (s.eth q 1) 2 && (queueFull s p x || s.ingress.any (fun i => i.port == q)))
  match stop with
  | some q => { s with ingress := s.ingress ++ [⟨q, p, k⟩] }
  | none =>
    let s := if trims s p k then s.bumpEth p 10 else s
    if queueFull s p x then s.dropAt p
    else { s with egress := s.egress ++ [⟨p, x.cls < 2, packetBytes x, x, meshKind from_ p k⟩] }

/-- An RREQ, ACK or REFUSE towards the device of a packet (R406); without a route it is not sent. -/
def answer (s : State) (port type dev flow msg psn poff cause : Nat) (path : Bool) : State :=
  match egressPort s dev path with
  | none => s.dropAt port
  | some p =>
    enqueue s none p { emptyPacket with
      type := type, src := s.devId, dst := dev, flow := flow, msg := msg, psn := psn, poff := poff, rcause := cause,
      stime := s.timer % 2 ^ 32, path := path }

/-! ### Sending -/

/-- The FLOW of an issuer (Table 24.3). -/
def flowOf (core : Nat) (k : Cmd) : Nat :=
  core * 2 ^ 16 + (match k.issuers with
    | .team slot :: _ => slot * 2 ^ 12
    | .ctx .s :: _ => 2 ^ 10
    | .ctx .m :: _ => 2 * 2 ^ 10
    | [] => 0)

/-- The message and packet numbers that a flow gives next (R406). -/
def nextNumbers (s : State) (dst flow : Nat) : Nat × Nat :=
  match s.txFlows.find? (fun f => f.dst == dst && f.flow == flow) with
  | some f => (f.msg, f.psn)
  | none => (0, 0)

def setNumbers (s : State) (dst flow msg psn : Nat) : State :=
  { s with txFlows := ⟨dst, flow, msg % 2 ^ 32, psn % 2 ^ 32⟩ :: s.txFlows.filter (fun f => !(f.dst == dst && f.flow == flow)) }

/-- Where a message goes (Table 15.3): device, addr on it. -/
def remoteAddr (e : Bte) (v : Word) : Nat × Word :=
  (e.k2 % 2 ^ 16, BitVec.ofNat 64 (bits e.k2 31 16 * 2 ^ 48 + (e.k3 + v.toNat % 2 ^ 48) % 2 ^ 48))

/-- What a message is to carry (R147, R148, R406). -/
structure Outgoing where
  dst : Nat
  daddr : Word
  caddr : Word
  csc : Nat
  c32 : Bool
  ordered : Bool
  evp : Nat
  cls : Nat
  data : List Byte
  rank : Nat
  deriving DecidableEq, Repr

/-- The packets of a message in ascending offset (R406). -/
def packetsOf (s : State) (o : Outgoing) (flow msg psn asid : Nat) (prev : Option Nat) : List Packet :=
  let len := o.data.length
  let n := max 1 (ceilDiv len 4096)
  (List.range n).map (fun i =>
    { emptyPacket with
      ordered := o.ordered, last := i + 1 == n, ctr := o.csc != 0, c32 := o.c32, prev := prev.isSome, cls := o.cls,
      evp := o.evp, csc := o.csc, src := s.devId, dst := o.dst, flow := flow, psn := (psn + i) % 2 ^ 32, msg := msg,
      mlen := len, daddr := o.daddr, poff := 4096 * i, plen := min 4096 (len - 4096 * i), dasid := asid,
      caddr := if o.csc = 0 then 0 else o.caddr, stime := s.timer % 2 ^ 32, pmsg := prev.getD 0,
      payload := (o.data.drop (4096 * i)).take 4096 })

/-- The port by which a packet of a message leaves now (R404, R414), or why it cannot: its route entry is invalid, or the port
is of another world than its core. -/
def portFor (s : State) (m : TxMsg) (path : Bool) : Except CmdFail Nat :=
  match egressPort s m.key.dst path with
  | none => .error ⟨13, 0, 0, m.key.dst⟩
  | some p => if s.portWorld p ≠ m.world then .error (failAddr cWORLD 0) else .ok p

/-- A packet of a message whose trim count has reached RETX.LIMIT of the primary port goes by the alternate path (R414). -/
def pathOf (s : State) (m : TxMsg) (k : Packet) : Bool :=
  match egressPort s m.key.dst false with
  | some p => s.eth p 7 != 0 && mget m.trims 0 k.psn ≥ s.eth p 7
  | none => false

/-- Packets of a message sent, each by the route entry of its moment; the first that cannot leave fails the put (R404, R414). -/
def sendPackets (m : TxMsg) (retx : Bool) : List Packet → State → State × Option CmdFail
  | [], s => (s, none)
  | k :: ks, s =>
    match portFor s m (pathOf s m k) with
    | .error f => (s, some f)
    | .ok p =>
      let u := if retx then s.bumpEth p 14 else s
      sendPackets m retx ks (enqueue u none p { k with retx := retx, path := pathOf s m k, stime := u.timer % 2 ^ 32 })

/-- A message sent by a put or a collective of a core (R406, R414): its key, or why it cannot leave. -/
def sendMessage (s : State) (core : Nat) (k : Cmd) (o : Outgoing) : State × Except CmdFail MsgKey :=
  let flow := flowOf core k
  let (msg, psn) := nextNumbers s o.dst flow
  let prev := if o.ordered then
      ((s.tx.filter (fun m => m.key.dst == o.dst && m.key.flow == flow && m.ordered)).getLast?).map (fun m => m.key.msg)
    else none
  let ps := packetsOf s o flow msg psn k.asid prev
  let key : MsgKey := ⟨s.devId, o.dst, flow, msg⟩
  let m : TxMsg := ⟨key, core, k.id, ps, o.ordered, s.now, 0, [], (egressPort s o.dst false).getD 0, k.world, o.rank⟩
  match sendPackets m false ps { setNumbers s o.dst flow (msg + 1) (psn + ps.length) with tx := s.tx ++ [m] } with
  | (_, some f) => (s, .error f)
  | (s, none) => (s, .ok key)

/-! ### The put engine -/

/-- `n` bytes from the `o`-th that a put carries: read from its source, or captured (R148, R149). -/
def putData (s : State) (core : Nat) (k : Cmd) (o n : Nat) : State × Except CmdFail (List Byte) :=
  if k.op = 0x5B then (s, .ok (((k.capt.flatMap (fun x => leBytes 8 x.toNat)).drop o).take n))
  else readPieces (fun s p m => engRead s core k 0 (nth k.ops 0 1) ((o + p : Nat) : Int) m [0, 3]) (stretches n) s

/-- The packets of a put within the device, of 256 bytes (R401), that have not landed; bit i of `progress` says that packet i
has (R314). -/
def unlanded (k : Cmd) : List Nat := (List.range (ceilDiv (opn k.ops 0) 256)).filter (fun i => !bit k.progress i)

/-- A put within the device: its next packet lands, whichever that is (R148, R314); the last one completes it, or leaves it
to its counter (R401). -/
def landPart (s : State) (core : Nat) (k : Cmd) : State :=
  let dest := nth k.ops 0 2
  let len := opn k.ops 0
  let ps := unlanded k
  let whole : CmdSt := if k.md 2 0 = 0 then .done none else .landed
  match ps[Config.freeIndex s.tick % ps.length]? with
  | none => setCmd s core { k with st := whole }
  | some i =>
    let n := min 256 (len - 256 * i)
    let s := { s with tick := s.tick + 1 }
    match putData s core k (256 * i) n with
    | (s, .error f) => setCmd s core { k with st := .done (some f) }
    | (s, .ok data) =>
      match movePieces (fun s o m => (s, .ok ((data.drop o).take m)))
          (fun s o bs => engHome s core k 0 dest ((256 * i + o : Nat) : Int) (k.md 5 4) [0, 3] bs)
          (stretchesAt (dest.toNat + 256 * i) n) s with
      | (s, some f) => setCmd s core { k with st := .done (some f) }
      | (s, none) =>
        setCmd s core { k with st := if ps.length ≤ 1 then whole else .started, progress := k.progress + 2 ^ i }

/-- The entry of the buffer that an addr of a command names. -/
def cmdEntry (s : State) (k : Cmd) (v : Word) : Option Bte := s.bte k.asid (v.toNat / 2 ^ 48)

/-- The device that a put's destination lies on: none for this one (R148). -/
def putDev (s : State) (k : Cmd) : Option Nat :=
  match cmdEntry s k (nth k.ops 0 2) with
  | some e => if e.kind = 2 then some (remoteAddr e (nth k.ops 0 2)).1 else none
  | none => none

/-- The earlier ORD puts of a command's issuers that have neither increased their counter nor failed, nor left as a message
(R151): the held ones among them too, but for those set aside while their team is saved. -/
def ordPuts (c : Core) (k : Cmd) : List Cmd :=
  (c.cmds.takeWhile (fun j => j.id != k.id)).filter (fun j =>
    j.cls == 5 && j.md 7 7 == 1 && j.issuers == k.issuers && j.uids == k.uids &&
      (match j.st with
        | .held => true
        | .queued => true
        | .started => true
        | .landed => true
        | _ => false))

/-- Those of them to the device of a put. -/
def orderedBefore (s : State) (c : Core) (k : Cmd) : List Cmd := (ordPuts c k).filter (fun j => putDev s j == putDev s k)

/-- A put takes its next part: a packet lands on this device, or the whole leaves as a message (R148, R401, R406). An ORD put
to another device leaves once no earlier one of its team to that device is still to leave, so that the PREV of its message
names every one before it (R151, R406). -/
def runPut (s : State) (core : Nat) (k : Cmd) : State :=
  let dest := nth k.ops 0 2
  match cmdEntry s k dest with
  | none => setCmd s core { k with st := .done (some (failAddr cNULLH 0)) }
  | some e =>
    if e.kind ≠ 2 then landPart s core k
    else if k.md 7 7 = 1 ∧ orderedBefore s (s.core core) k ≠ [] then s
    else
      match putData s core k 0 (opn k.ops 0) with
      | (s, .error f) => setCmd s core { k with st := .done (some f) }
      | (s, .ok data) =>
        let (dev, daddr) := remoteAddr e dest
        let caddr := match cmdEntry s k (nth k.ops 0 3) with
          | some c => (remoteAddr c (nth k.ops 0 3)).2
          | none => 0
        match sendMessage s core k ⟨dev, daddr, caddr, k.md 2 0, k.md 3 3 == 1, k.md 7 7 == 1, k.md 5 4, 3, data, 0⟩ with
        | (s, .error f) => setCmd s core { k with st := .done (some f) }
        | (s, .ok key) => setCmd s core { k with st := .sent key }

/-- An increase by 1 of a counter at its home (R148), in a world; the failing cause otherwise. Its release needs no
write-back: the put's data were home-side writes. -/
def increase (s : State) (core asid : Nat) (world : Bool) (v : Word) (c32 : Bool) (emask : Option Nat) :
    State × Option Nat :=
  let n := if c32 then 4 else 8
  let q : Req := { asid := asid, core := core, handle := v.toNat / 2 ^ 48, off := (v.toNat % 2 ^ 48 : Nat), n := n, align := n,
                   rights := 10, kinds := [0], emask := emask, acc := 2 }
  match checkIn s world q true with
  | .error (c, _) => (s, some c)
  | .ok (tgt, _) =>
    let home := match tgt with
      | .dram _ (l :: _) => homeOf l
      | _ => 0
    let m : Mode := { core := home * 64, agent := .ctx (home * 64) .m, strong := true, order := 0, scope := 5,
                      cls := 0, nt := false }
    match atomTgt s m tgt n (fun x => some ((x + 1) % 2 ^ (8 * n))) with
    | (s, some _) => (s, none)
    | (s, none) => (s, some cMEMERR)

/-- Whether a landed put may increase its counter: with ORD, every earlier ORD put of its team to this device has
increased its own or has failed (R151). -/
def ordReady (s : State) (c : Core) (k : Cmd) : Bool := k.md 7 7 == 0 || (orderedBefore s c k).isEmpty

/-- The counter increase of a local put (R401): the first landed put that may. -/
def execMeshPutCounterIncrease (core : Nat) (s : State) : Host.Outcome State Fault Refusal :=
  let c := s.core core
  match c.cmds.find? (fun k => k.cls == 5 && k.st == .landed && ordReady s c k) with
  | none => .next s
  | some k =>
    let (s, f) := increase s core k.asid k.world (nth k.ops 0 3) (k.md 3 3 == 1) (some 5)
    .next (setCmd s core { k with st := .done (f.map (fun c => failAddr c 0)) })

/-! ### Receiving -/

/-- The lowest incomplete message of a flow's record (R412). -/
def lowOf (s : State) (src flow : Nat) : Nat :=
  match s.rxLow.find? (fun x => x.1 == src && x.2.1 == flow) with
  | some x => x.2.2
  | none => 0

def setLow (s : State) (src flow low : Nat) : State :=
  { s with rxLow := (src, flow, low) :: s.rxLow.filter (fun x => !(x.1 == src && x.2.1 == flow)) }

def keyOf (s : State) (k : Packet) : MsgKey := ⟨k.src, s.devId, k.flow, k.msg⟩
def State.rxOf (s : State) (key : MsgKey) : Option RxMsg := s.rx.find? (fun m => m.key == key)
def setRx (s : State) (m : RxMsg) : State := { s with rx := m :: s.rx.filter (fun x => x.key != m.key) }

/-- A message is over: complete or failed. -/
def RxMsg.settled (m : RxMsg) : Bool :=
  match m.st with
  | .complete => true
  | .failed _ => true
  | _ => false

/-- How far a message number lies above another, modulo 2^32. -/
def ahead (msg low : Nat) : Nat := (msg + 2 ^ 32 - low) % 2 ^ 32

/-- A message below the record's window has completed (R412). -/
def belowLow (s : State) (key : MsgKey) : Bool := ahead key.msg (lowOf s key.src key.flow) ≥ 2 ^ 31
def beyondWindow (s : State) (key : MsgKey) : Bool := !belowLow s key && ahead key.msg (lowOf s key.src key.flow) ≥ 256

/-- The record's lowest incomplete message moves up over messages that are over. -/
def raiseLow (s : State) (src flow : Nat) : Nat → State
  | 0 => s
  | n + 1 =>
    let low := lowOf s src flow
    match s.rxOf ⟨src, s.devId, flow, low⟩ with
    | some m => if m.settled then raiseLow (setLow s src flow ((low + 1) % 2 ^ 32)) src flow n else s
    | none => s

/-- Holes freed, each closing with its age where its packet landed (Table 24.5). -/
def freeHoles (s : State) (f : Hole → Bool) (landed : Bool) : State :=
  let s := if landed then (s.holes.filter f).foldl (fun s h =>
      s.setEth h.port 17 (max (s.eth h.port 17) (min 0xFFFFFFFF ((s.now - h.openAt) * 4 / 9)))) s else s
  { s with holes := s.holes.filter (fun h => !f h) }

/-- A message fails (R413): holes freed, REFUSE sent. -/
def failMessage (s : State) (m : RxMsg) (port : Nat) (path : Bool) (cause : Nat) : State :=
  let s := setRx s { m with st := .failed cause, doneAt := s.now }
  let s := freeHoles s (fun h => h.key == m.key) false
  let s := answer s port 3 m.key.src m.key.flow m.key.msg 0 0 cause path
  raiseLow s m.key.src m.key.flow 256

/-- The first byte of a message that has not landed, at or after one: `n` bounds the packets that cover it in turn. -/
def landedTo (xs : List (Nat × Nat)) : Nat → Nat → Nat
  | 0, at_ => at_
  | n + 1, at_ =>
    match xs.find? (fun x => x.1 ≤ at_ && at_ < x.1 + x.2) with
    | some x => landedTo xs n (x.1 + x.2)
    | none => at_

/-- Whether every byte in [0, MLEN) has landed (R409). -/
def allLanded (m : RxMsg) : Bool := !m.landed.isEmpty && landedTo m.landed m.landed.length 0 ≥ m.head.mlen

/-- A DATA packet lands, or fails its message (R409, R413). -/
def landPacket (s : State) (port : Nat) (k : Packet) (m : RxMsg) : State :=
  let v := k.daddr
  let q : Req := { asid := k.dasid, core := 0, handle := v.toNat / 2 ^ 48, off := (v.toNat % 2 ^ 48 + k.poff : Nat), n := k.plen,
                   align := 1, rights := 2, kinds := [0, 3], emask := some 5, acc := 1 }
  match checkIn s (s.portWorld port) q true with
  | .error (c, _) => failMessage s m port k.path c
  | .ok (tgt, e) =>
    let s := match tgt with
      | .dram first ls => homeBytes s first (evClass k.evp e) ls k.payload
      | .host a => { s with hostOut := s.hostOut ++ (List.range' a k.payload.length).zip k.payload }
      | _ => s
    let s := match tgt with
      | .dram _ ls => if k.evp = 3 then ls.foldl cleanEverywhere s else s
      | _ => s
    let s := freeHoles s (fun h => h.key == m.key && h.psn == k.psn) true
    let m := { m with landed := (k.poff, k.plen) :: m.landed, port := port, path := k.path }
    setRx s { m with st := if allLanded m then .landed else .open_ }

/-- The assembly record of a packet's message, or a fresh one. -/
def recordFor (s : State) (port : Nat) (k : Packet) : RxMsg :=
  match s.rxOf (keyOf s k) with
  | some m => m
  | none => ⟨keyOf s k, { k with payload := [] }, [], .open_, port, k.path, 0⟩

/-- A packet of a TYPE, trimmed or not, for this device at a live port; what it leaves where it is none: an invalid packet is
dropped and counted whatever its TYPE (R405). -/
def reception (s : State) (port type : Nat) (trim : Bool) (k : Packet) : Option State :=
  if !s.portOn port then some s
  else if !headerFits k then some (s.dropAt port)
  else if k.type != type || k.trim != trim || k.dst != s.devId then some s
  else none

/-- A DATA packet with TRIM = 0 for this device (R409, R412). -/
def execRemitDataReceive (port : Nat) (k : Packet) (s : State) : Host.Outcome State Fault Refusal :=
  let key := keyOf s k
  let m := recordFor s port k
  if let some t := reception s port 0 false k then .next t
  else if belowLow s key && (s.rxOf key).isNone then .next (answer (s.dropAt port) port 2 k.src k.flow k.msg 0 0 0 k.path)
  else if beyondWindow s key then .next (s.dropAt port)
  else
    match m.st with
    | .complete => .next (answer (s.dropAt port) port 2 k.src k.flow k.msg 0 0 0 k.path)
    | .failed c => .next (answer (s.dropAt port) port 3 k.src k.flow k.msg 0 0 c k.path)
    | .landed => .next (s.dropAt port)
    | .open_ => if m.landed.any (fun x => x.1 == k.poff) then .next (s.dropAt port) else .next (landPacket s port k m)

/-- A landed message completes (R409): its PREV, its counter, its ACK. -/
def execMessageComplete (key : MsgKey) (s : State) : Host.Outcome State Fault Refusal :=
  match s.rxOf key with
  | none => .next s
  | some m =>
    let pkey : MsgKey := { key with msg := m.head.pmsg }
    let before := !m.head.prev || belowLow s pkey || (match s.rxOf pkey with
      | some p => p.settled
      | none => false)
    if m.st ≠ .landed ∨ !before then .next s
    else
      let (s, f) := if m.head.csc = 0 then (s, none)
        else increase s 0 m.head.dasid (s.portWorld m.port) m.head.caddr m.head.c32 none
      match f with
      | some c => .next (failMessage s m m.port m.path c)
      | none =>
        let s := setRx s { m with st := .complete, doneAt := s.now }
        let s := freeHoles s (fun h => h.key == key) false
        let s := answer s m.port 2 key.src key.flow key.msg 0 0 0 m.path
        .next (raiseLow s key.src key.flow 256)

/-! ### Holes -/

/-- HOLE.OPEN of a port (Table 24.7). -/
def holeOpen (s : State) (p : Nat) : Nat := (s.holes.filter (fun h => h.port == p)).length

/-- A trimmed header for this device (R410, Table 24.5). -/
def execTrimmedHeaderReceive (port : Nat) (k : Packet) (s : State) : Host.Outcome State Fault Refusal :=
  let key := keyOf s k
  let mine (h : Hole) : Bool := h.key == key && h.psn == k.psn
  if let some t := reception s port 0 true k then .next t
  else if beyondWindow s key then .next (s.dropAt port)
  else
    let done := belowLow s key || (match s.rxOf key with
      | some m => m.settled || m.st == .landed || m.landed.any (fun x => x.1 == k.poff)
      | none => false)
    if done then .next (s.bumpEth port 11)
    else if s.holes.any mine then
      .next { (s.bumpEth port 11) with holes := s.holes.map (fun h => if mine h then { h with requested := none, path := k.path } else h) }
    else if holeOpen s port ≥ 1024 then .next (s.dropAt port)
    else
      let s := s.bumpEth port 11
      let h : Hole := ⟨port, key, k.psn, k.poff, k.olen, k.path, s.now, none⟩
      let s := { s with holes := s.holes ++ [h] }
      .next (s.setEth port 16 (max (s.eth port 16) (holeOpen s port)))

/-- The bucket of a source at a port, brought up to the present; times in quarters of a clk (R411). -/
def bucketOf (s : State) (port src : Nat) : Bucket :=
  let burst := s.ethPos port 6
  let rate := 9 * s.ethPos port 5
  match s.buckets.find? (fun b => b.port == port && b.src == src) with
  | none => ⟨port, src, burst, 4 * s.now, 0⟩
  | some b =>
    let got := (4 * s.now - b.at_) / rate
    if b.tokens + got ≥ burst then { b with tokens := burst, at_ := 4 * s.now } else { b with tokens := b.tokens + got, at_ := b.at_ + got * rate }

/-- A bucket put back; a new one reuses the bucket whose last RREQ is oldest where 256 are in use (R411). -/
def putBucket (s : State) (b : Bucket) : State :=
  let rest := s.buckets.filter (fun x => !(x.port == b.port && x.src == b.src))
  let here := rest.filter (fun x => x.port == b.port)
  let rest := if here.length < 256 then rest
    else match here.foldl (fun (a : Option Bucket) x => match a with
        | none => some x
        | some y => if x.lastReq < y.lastReq then some x else some y) none with
      | some old => rest.filter (fun x => x != old)
      | none => rest
  { s with buckets := b :: rest }

/-- An RREQ leaves for the oldest waiting hole of a source (R410, R411). -/
def execRreqSend (port src : Nat) (s : State) : Host.Outcome State Fault Refusal :=
  let b := bucketOf s port src
  match s.holes.find? (fun h => h.port == port && h.key.src == src && h.requested.isNone) with
  | none => .next s
  | some h =>
    if b.tokens = 0 then .next s
    else
      let s := putBucket s { b with tokens := b.tokens - 1, lastReq := s.now }
      let s := s.bumpEth port 12
      let s := { s with holes := s.holes.map (fun x => if x = h then { x with requested := some s.now } else x) }
      .next (answer s port 1 src h.key.flow h.key.msg h.psn h.poff 0 h.path)

/-- HOLE.RETRY µs after its RREQ a hole waits again (R410). -/
def execHoleRetryExpiry (port : Nat) (key : MsgKey) (psn : Nat) (s : State) : Host.Outcome State Fault Refusal :=
  .next { s with holes := s.holes.map (fun h =>
    if h.port = port ∧ h.key = key ∧ h.psn = psn then
      match h.requested with
      | some r => if s.now ≥ r + usClk (s.ethPos port 9) then { h with requested := none } else h
      | none => h
    else h) }

/-! ### The sender's side of answers -/

/-- The command of a message fails or completes (R150, R414). -/
def finishMessage (s : State) (m : TxMsg) (f : Option CmdFail) : State :=
  let s := { s with tx := s.tx.filter (fun x => x.key != m.key) }
  match (s.core m.core).cmds.find? (fun k => k.id == m.cmd) with
  | none => s
  | some k =>
    match k.st with
    | .sent key => if key = m.key then setCmd s m.core { k with st := .done f } else s
    | .coll _ _ =>
      match f with
      | some x => setCmd s m.core { k with st := .done (some ⟨13, 0, m.rank, x.devid⟩) }
      | none => s
    | _ => s

/-- The put engine sent packets of a message again: it ran the message's command (R224). -/
def ranPut (s : State) (m : TxMsg) : State :=
  match (s.core m.core).cmds.find? (fun k => k.id == m.cmd) with
  | some k => s.modCore m.core (ranFor s.now k)
  | none => s

/-- The message that an answer names. -/
def answered (s : State) (k : Packet) : Option TxMsg := s.tx.find? (fun m => m.key == (⟨s.devId, k.src, k.flow, k.msg⟩ : MsgKey))

/-- Packets of a message sent again: the put engine ran its command (R224), which fails where one cannot leave. -/
def resend (s : State) (m : TxMsg) (ps : List Packet) : State :=
  match sendPackets m true ps s with
  | (s, some f) => finishMessage s m (some f)
  | (s, none) => ranPut s m

/-- An RREQ (R414): the packet is sent again. -/
def execRreqReceive (port : Nat) (k : Packet) (s : State) : Host.Outcome State Fault Refusal :=
  if let some t := reception s port 1 false k then .next t
  else
    match answered s k with
    | none => .next s
    | some m =>
      let s := s.bumpEth port 13
      let m := { m with timeouts := 0, trims := mset m.trims k.psn (mget m.trims 0 k.psn + 1), sentAt := s.now }
      let s := { s with tx := s.tx.map (fun x => if x.key = m.key then m else x) }
      .next (resend s m (m.pkts.filter (fun p => p.psn == k.psn)))

/-- An ACK (R414). -/
def execAckReceive (port : Nat) (k : Packet) (s : State) : Host.Outcome State Fault Refusal :=
  if let some t := reception s port 2 false k then .next t
  else
    match answered s k with
    | none => .next s
    | some m => .next (finishMessage s m none)

/-- A REFUSE (R414): the put fails with its cause. -/
def execRefuseReceive (port : Nat) (k : Packet) (s : State) : Host.Outcome State Fault Refusal :=
  if let some t := reception s port 3 false k then .next t
  else
    match answered s k with
    | none => .next s
    | some m => .next (finishMessage s m (some { detail := 1, cause := k.rcause, aux := 0, devid := k.src }))

/-- RETX.TIMEOUT µs without an answer (R414): every packet again, or after eight in a row the put fails. -/
def execRetxTimeout (key : MsgKey) (s : State) : Host.Outcome State Fault Refusal :=
  match s.tx.find? (fun (m : TxMsg) => m.key == key) with
  | none => .next s
  | some m =>
    if s.now < m.sentAt + usClk (s.ethPos m.port 8) then .next s
    else if m.timeouts + 1 ≥ 8 then .next (finishMessage s m (some ⟨13, 0, 0, key.dst⟩))
    else
      let m := { m with timeouts := m.timeouts + 1, sentAt := s.now }
      let s := { s with tx := s.tx.map (fun x => if x.key = key then m else x) }
      .next (resend s m m.pkts)

/-- A flow's record is dropped, at least 16 ms after the last of its messages was over (R412). -/
def execFlowRecordExpiry (src flow : Nat) (s : State) : Host.Outcome State Fault Refusal :=
  let mine := s.rx.filter (fun m => m.key.src == src && m.key.flow == flow)
  if mine.all (fun m => m.settled && s.now ≥ m.doneAt + 36000000) then
    .next { s with rx := s.rx.filter (fun m => !(m.key.src == src && m.key.flow == flow)) }
  else .next s

/-! ### Transit and ports -/

/-- A packet for another device (R404): forwarded by this device's own route, keeping PATH. -/
def execTransitForward (port : Nat) (k : Packet) (s : State) : Host.Outcome State Fault Refusal :=
  if !s.portOn port then .next s
  else if !headerFits k then .next (s.dropAt port)
  else if k.dst = s.devId then .next s
  else
    match egressPort s k.dst k.path with
    | none => .next (s.dropAt port)
    | some p => if s.portWorld p ≠ s.portWorld port then .next (s.dropAt port) else .next (enqueue s (some port) p k)

/-- The packets that wait at an ingress try again, in their order (R408). -/
def retryIngress (s : State) : State :=
  s.ingress.foldl (fun s i => enqueue s (some i.port) i.egress i.pkt) { s with ingress := [] }

/-- The packet that a port sends next: the first, on a port with credit-based flow control the first whose class has a credit
(R402, R408). -/
def nextEgress (s : State) (port : Nat) : Option Egress :=
  s.egress.find? (fun e => e.port == port && (!bit (s.eth port 1) 2 || Config.ethCredit port e.pkt.cls s.tick))

/-- The last byte of the packet that a port is sending has left, in its frame (R403, R408); a port whose mode is off sends
nothing (R421). -/
def execEgressLastByteLeft (port : Nat) (s : State) : Host.Outcome State Fault Refusal :=
  if !s.portOn port then .next s
  else
    match nextEgress s port with
    | none => .next { s with tick := s.tick + 1 }
    | some e =>
      .next (retryIngress { s with egress := s.egress.erase e, wire := mset s.wire port (frameOf s port e.pkt),
                                   tick := s.tick + 1 })

/-- A frame that a port receives and drops (R402, R405). -/
def execReceivedFrameDrop (f : FrameIn) (s : State) : Host.Outcome State Fault Refusal :=
  if s.portOn f.port && frameDropped s f.port f.bytes then .next (s.dropAt f.port) else .next s

/-- The link of a port went down (Table 24.7). -/
def execEthLinkDown (port : Nat) (s : State) : Host.Outcome State Fault Refusal :=
  .next ((s.setEth port 1 0).setEth port 2 (s.eth port 2 ||| 1))

/-- The link of a port came up: its mode's features are active (Table 24.7). -/
def execEthLinkUp (port : Nat) (s : State) : Host.Outcome State Fault Refusal :=
  let mode := s.eth port 0
  if mode % 4 = 0 then .next s
  else .next ((s.setEth port 1 (1 + 2 * bits mode 3 2)).setEth port 2 (s.eth port 2 ||| 2))

/-- Link-level retry gave up (Table 24.7). -/
def execEthRetryGiveUp (port : Nat) (s : State) : Host.Outcome State Fault Refusal :=
  .next (s.setEth port 2 (s.eth port 2 ||| 4))

end Sys2Proof.Machine
end

