-- ==== Sys2Proof/Machine/Collective.lean ====
section
/-! DEFINITION. Collectives (R181–R183, R259, R260, R417, R418): the group record, the slots of the scratch buffer, what
each phase sends, and the result. The layout of a slot's header, and the codes by which `coll.nsum` carries NaN and
infinities, are the model's (notes/assumptions). -/
namespace Sys2Proof.Machine

/-- A collective as one rank sees it: its word's fields and operands, its group, and the length S of a slot. -/
structure Coll where
  op : Nat
  ty : Nat
  e : Nat
  src : Word
  dst : Word
  n : Nat
  me : Nat
  root : Nat
  scratch : Word
  ranks : List (Word × Word)
  slot : Nat
  deriving DecidableEq, Repr

/-- Elements, or blocks for `coll.nsum`, that are sliced over the ranks (R417). -/
def Coll.units (g : Coll) : Nat := if g.op = 3 then g.e / 32 else g.e
/-- The first unit of slice q. -/
def Coll.lo (g : Coll) (q : Nat) : Nat := q * g.units / g.n
/-- The bits of one unit. -/
def Coll.bits (g : Coll) : Nat := (if g.op = 3 then 32 else 1) * fmtBits g.ty
/-- The units of slice q. -/
def Coll.count (g : Coll) (q : Nat) : Nat := g.lo (q + 1) - g.lo q
/-- The bytes of slice q's elements. -/
def Coll.sliceLen (g : Coll) (q : Nat) : Nat := ceilDiv (g.count q * g.bits) 8
/-- The bytes of all E elements. -/
def Coll.allLen (g : Coll) : Nat := ceilDiv (g.e * fmtBits g.ty) 8

/-- W and G of a type (Table 12.9, R183). -/
def nsumW (ty : Nat) : Nat := nth [19, 33, 7, 10, 5] 8 (if ty = 1 then 9 else ty - 13)
def nsumG (ty : Nat) : Nat := nth [9, 16, 3, 4, 1] 6 (if ty = 1 then 9 else ty - 13)
/-- The bits of a mantissa on the wire (R259, R418). -/
def Coll.mant (g : Coll) : Nat := nsumW g.ty + bitLength (g.n - 1)

/-- The bytes that rank r's put to rank q carries in phase A, B or C (Table 24.9). -/
def Coll.partLen (g : Coll) (r q phase : Nat) : Nat :=
  match g.op, phase with
  | 3, 0 => g.e / 32
  | 3, 1 => ceilDiv (g.count q * 32 * g.mant) 8
  | 3, _ => g.sliceLen r + g.count r
  | 4, 0 => g.allLen
  | 5, 0 => if r = g.root then g.allLen else 0
  | 6, 0 => g.sliceLen q
  | 4, _ => 0
  | 5, _ => 0
  | 6, _ => 0
  | _, 0 => g.sliceLen q
  | _, 1 => 0
  | _, _ => g.sliceLen r

/-- Where a part starts in a slot: part A at byte 64, B after it, C after B (R417). -/
def Coll.partAt (g : Coll) (r q phase : Nat) : Nat :=
  64 + (if phase ≥ 1 then g.partLen r q 0 else 0) + (if phase ≥ 2 then g.partLen r q 1 else 0)

/-- The byte of the scratch buffer at which rank r's slot starts in epoch k (R417). -/
def Coll.slotAt (g : Coll) (k r : Nat) : Nat := g.slot * (k % 2 * g.n + r)

/-- The header of a slot: OP, TYPE, E, NRANKS and k as words, then zeros. -/
def Coll.header (g : Coll) (k : Nat) : List Byte :=
  le 8 g.op ++ le 8 g.ty ++ le 8 g.e ++ le 8 g.n ++ le 8 k ++ le 24 0

/-! ### Memory of a collective -/

/-- A failing rank in AUX. -/
def peerFail (r : Nat) : CmdFail := ⟨13, 0, r, 0⟩
def cardFail : CmdFail := ⟨2, 0, 0, 0⟩

/-- Bytes read by a collective at an addr. -/
def collRead (s : State) (core : Nat) (k : Cmd) (v : Word) (o n : Nat) : State × Except CmdFail (List Byte) :=
  readPieces (fun s p m => engRead s core k 0 v ((o + p : Nat) : Int) m [0]) (stretches n) s

/-- Bytes written by a collective at an addr: home-side writes (R294). -/
def collWrite (s : State) (core : Nat) (k : Cmd) (v : Word) (o : Nat) (bs : List Byte) : State × Option CmdFail :=
  movePieces (fun s p m => (s, .ok ((bs.drop p).take m)))
    (fun s p bs => engHome s core k 0 v ((o + p : Nat) : Int) 0 [0] bs) (stretchesAt (v.toNat + o) bs.length) s

/-- Entries of the group record. -/
def rankEntries (bs : List Byte) (n : Nat) : List (Word × Word) :=
  (List.range n).map (fun r => (BitVec.ofNat 64 (ofLe ((bs.drop (16 * r)).take 8)),
    BitVec.ofNat 64 (ofLe ((bs.drop (16 * r + 8)).take 8))))

/-- The kind of the buffer that an addr of a command names. -/
def kindOf (s : State) (k : Cmd) (v : Word) : Option Nat := (cmdEntry s k v).map (fun e => e.kind)

/-- The buffers of a group record (R181): word 1 is memory of this device; the two of a rank are both memory of this device
or both remote, and this rank's own are not remote. An addr that names no buffer is left to the access that uses it. -/
def groupOk (s : State) (k : Cmd) (g : Coll) : Bool :=
  kindOf s k g.scratch == some 0 &&
    g.ranks.zipIdx.all (fun p => match kindOf s k p.1.1, kindOf s k p.1.2 with
      | some a, some c => a == c && (a == 0 || (a == 2 && p.2 != g.me))
      | _, _ => true)

/-- The group that a record's bytes describe: its header, and the entries of its ranks. -/
def recordGroup (s : State) (k : Cmd) (h bs : List Byte) : Coll :=
  let w0 := ofLe (h.take 8)
  let n := bits w0 15 0
  let scratch : Word := BitVec.ofNat 64 (ofLe ((h.drop 8).take 8))
  let len := match cmdEntry s k scratch with
    | some e => e.length - scratch.toNat % 2 ^ 48
    | none => 0
  { op := k.md 2 0, ty := k.md 7 3, e := opn k.ops 0, src := nth k.ops 0 1, dst := nth k.ops 0 2, n := n, me := bits w0 31 16,
    root := bits w0 47 32, scratch := scratch, ranks := rankEntries bs n, slot := len / (2 * n) / 64 * 64 }

/-- The header of a record keeps R181. -/
def Coll.headOk (g : Coll) (h : List Byte) : Bool :=
  2 ≤ g.n && g.n ≤ 4096 && g.me < g.n && g.root < g.n && ofLe ((h.drop 6).take 2) == 0 && (h.drop 16).all (fun b => b == 0)

/-- The whole record keeps R181, and a slot holds every part (R418). -/
def Coll.ok (s : State) (k : Cmd) (g : Coll) : Bool :=
  let most (phase : Nat) : Nat :=
    ((List.range g.n).map (fun q => max (g.partLen g.me q phase) (g.partLen q g.me phase))).foldl max 0
  (g.op != 6 || g.e % g.n == 0) && groupOk s k g && g.slot ≥ 64 + most 0 + most 1 + most 2

/-- The group of a command (R181, R418); a record that breaks a rule fails it with detail CARD. -/
def readGroup (s : State) (core : Nat) (k : Cmd) : State × Except CmdFail Coll :=
  let rec_ := nth k.ops 0 3
  match collRead s core k rec_ 0 64 with
  | (s, .error f) => (s, .error f)
  | (s, .ok h) =>
    if !(recordGroup s k h []).headOk h then (s, .error cardFail)
    else
      match collRead s core k rec_ 64 (16 * (recordGroup s k h []).n) with
      | (s, .error f) => (s, .error f)
      | (s, .ok bs) =>
        let g := recordGroup s k h bs
        if g.ok s k then (s, .ok g) else (s, .error cardFail)

/-- The arrival counter of this rank, read at home. -/
def readCounter (s : State) (core : Nat) (k : Cmd) (g : Coll) : State × Except CmdFail Nat :=
  let v := (nth g.ranks (0, 0) g.me).2
  match check0 s (engReq core k v 0 8 1 [0]) true with
  | .error (c, _) => (s, .error (failAddr c 0))
  | .ok (tgt, _) =>
    match readTgt s (devMode core (cmdAgent core k) 1) tgt 8 with
    | (s, none) => (s, .error (failAddr cMEMERR 0))
    | (s, some bs) => (s, .ok (ofLe bs))

/-- The DRAM location of a rank's arrival counter, where it is memory of this device. -/
def counterPlace (s : State) (core : Nat) (k : Cmd) (g : Coll) (r : Nat) : Option Nat :=
  match check0 s (engReq core k (nth g.ranks (0, 0) r).2 0 8 1 [0]) true with
  | .ok (.dram first (l :: _), _) => some (128 * l + first)
  | _ => none

/-- The first rank that has failed in a collective of this base, or that stays unreachable (R182): one on this device is
known by the place of its counter, and one that failed with its counter unread counts in every base; how a device learns of
one on another device the spec does not say, so that is free (log 89). -/
def lostPeer (s : State) (core : Nat) (k : Cmd) (g : Coll) (base : Nat) : Option Nat :=
  (List.range g.n).find? (fun r => r != g.me &&
    ((s.ranks.any (fun x => x.lost) && (match counterPlace s core k g r with
        | some p => s.ranks.any (fun x => x.lost && x.place == p && (x.base == none || x.base == some base))
        | none => false)) ||
      (kindOf s k (nth g.ranks (0, 0) r).1 == some 2 && Config.peerLost r s.tick)))

/-- A rank has begun a collective; what an earlier one of it left is forgotten. -/
def beginRank (s : State) (core : Nat) (k : Cmd) (g : Coll) (base : Option Nat) : State :=
  match counterPlace s core k g g.me with
  | some p => { s with ranks := ⟨core, k.id, p, base, false⟩ :: s.ranks.filter (fun x => x.place != p) }
  | none => s

/-- The base of a collective that starts with a counter value (R417). -/
def Coll.baseOf (g : Coll) (c : Nat) : Nat := c - c % (3 * (g.n - 1))

/-- A collective whose record does not hold begins all the same, where the record tells its rank, so that its peers learn of
its failure (R182). -/
def beginLoose (s : State) (core : Nat) (k : Cmd) : State :=
  match collRead s core k (nth k.ops 0 3) 0 64 with
  | (_, .error _) => s
  | (_, .ok h) =>
    let n := (recordGroup s k h []).n
    match collRead s core k (nth k.ops 0 3) 64 (16 * min n 4096) with
    | (_, .error _) => s
    | (_, .ok bs) =>
      let g := recordGroup s k h bs
      if g.me ≥ g.n ∨ g.n < 2 then s
      else
        match readCounter s core k g with
        | (_, .ok c) => beginRank s core k g (some (g.baseOf c))
        | (_, .error _) => beginRank s core k g none

/-- The checks of a put of a collective that stand for those of PUT at issue (R148): a remote counter lies on the device of
its buffer. -/
def collRights (s : State) (core : Nat) (k : Cmd) (v c : Word) (n : Nat) : Option CmdFail :=
  match check0 s (engReq core k v 0 n 2 [0, 2]) false, check0 s (engReq core k c 0 8 2 [0, 2]) false with
  | .error (x, _), _ => some (failAddr x 0)
  | _, .error (x, _) => some (failAddr x 0)
  | .ok (_, some e), .ok (_, some ce) =>
    if e.kind = 2 ∧ (remoteAddr e v).1 ≠ (remoteAddr ce c).1 then some (failAddr cRIGHTS 0) else none
  | _, _ => none

/-- One put of a collective (R417): on this device it is performed at once, else it leaves as an ORD message. -/
def collPut (s : State) (core : Nat) (k : Cmd) (g : Coll) (q o : Nat) (bs : List Byte) : State × Option CmdFail :=
  let (v, c) := nth g.ranks (0, 0) q
  match cmdEntry s k v, cmdEntry s k c with
  | some e, some ce =>
    if let some f := collRights s core k v c (o + bs.length) then (s, some f)
    else if e.kind = 2 then
      let (dev, a) := remoteAddr e v
      match sendMessage s core k ⟨dev, a + BitVec.ofNat 64 o, (remoteAddr ce c).2, 6, false, true, 0, 5, bs, q⟩ with
      | (s, .error f) => (s, some { f with aux := q })
      | (s, .ok _) => (s, none)
    else
      match collWrite s core k v o bs with
      | (s, some f) => (s, some f)
      | (s, none) =>
        let (s, f) := increase s core k.asid k.world c false none
        (s, f.map (fun c => failAddr c 0))
  | _, _ => (s, some (failAddr cNULLH 0))

/-- The puts of a phase to every other rank. -/
def collPuts (core : Nat) (k : Cmd) (g : Coll) (f : Nat → Nat × List Byte) : List Nat → State → State × Option CmdFail
  | [], s => (s, none)
  | q :: qs, s =>
    if q = g.me then collPuts core k g f qs s
    else
      match collPut s core k g q (f q).1 (f q).2 with
      | (s, some x) => (s, some x)
      | (s, none) => collPuts core k g f qs s

/-- The part that rank r sent in a phase, as it lies in this rank's scratch. -/
def partFrom (s : State) (core : Nat) (k : Cmd) (g : Coll) (epoch r phase : Nat) : State × Except CmdFail (List Byte) :=
  collRead s core k g.scratch (g.slotAt epoch r + g.partAt r g.me phase) (g.partLen r g.me phase)

/-- What a list of ranks sent in a phase; this rank's own part is given. -/
def partsFrom (core : Nat) (k : Cmd) (g : Coll) (epoch phase : Nat) (own : List Byte) :
    List Nat → State → State × Except CmdFail (List (List Byte))
  | [], s => (s, .ok [])
  | r :: rs, s =>
    match (if r = g.me then (s, .ok own) else partFrom s core k g epoch r phase) with
    | (s, .error f) => (s, .error f)
    | (s, .ok bs) =>
      match partsFrom core k g epoch phase own rs s with
      | (s, .error f) => (s, .error f)
      | (s, .ok xs) => (s, .ok (bs :: xs))

/-! ### Values -/

/-- Units of a slice out of a number that holds all of them. -/
def Coll.slice (g : Coll) (x q : Nat) : Nat := (x >>> (g.lo q * g.bits)) % 2 ^ (g.count q * g.bits)

/-- One node of the tree of R182. -/
def collNode (op ty a b : Nat) : Nat :=
  let w := fmtBits ty
  if ty ≤ 8 then
    let x := elemInt (fmtSigned ty) w a
    let y := elemInt (fmtSigned ty) w b
    wrap (if op = 1 then min x y else if op = 2 then max x y else x + y) w
  else
    let f := ffmt ty
    if op = 1 ∨ op = 2 then canonical f (fMinMax f (op == 2) false false a b).1 else canonical f (fAdd f 0 false a b).1

/-- The tree of R182 over the ranks; an absent leaf adds nothing. -/
def collTree (op ty : Nat) (xs : List Nat) : Nat := nth (pairTree (collNode op ty) (bitLength (xs.length - 1)) xs) 0 0

/-- A slice of the result of sum, min, max or rsum from every rank's slice. -/
def reduceSlice (g : Coll) (q : Nat) (parts : List (List Byte)) : List Byte :=
  let w := fmtBits g.ty
  let xs := parts.map ofLe
  let out := (List.range (g.count q)).map (fun i => collTree g.op g.ty (xs.map (fun x => (x >>> (w * i)) % 2 ^ w)))
  out.flatMap (fun x => leBytes (w / 8) x)

/-! ### The narrow sum -/

/-- Element i of a block held in a number of elements. -/
def blockCode (ty x b i : Nat) : Nat := (x >>> (fmtBits ty * (32 * b + i))) % 2 ^ fmtBits ty

/-- The scale bytes that a rank sends: the NaN scale for a block that holds a NaN element. -/
def sentScales (g : Coll) (elems : Nat) (scales : List Byte) : List Byte :=
  scales.zipIdx.map (fun p =>
    if (List.range 32).any (fun i => narrowElem g.ty (blockCode g.ty elems p.2 i) == .nan) then BitVec.ofNat 8 (nanScale g.ty) else p.1)

/-- The mantissa of an element at the agreed scale, as the wire carries it (R183, R259). -/
def mantissa (g : Coll) (scale agreed c : Nat) : Nat :=
  let m := g.mant
  match narrowValue g.ty scale c, unitOf g.ty agreed with
  | .inf neg, _ => if neg then 2 ^ (m - 1) else 2 ^ (m - 1) - 1
  | .fin _ q, some u =>
    let r := (Q.mul (Q.div q u) (Q.pow2 (nsumG g.ty))).roundNE
    wrap r m
  | _, _ => 0

/-- The value of a mantissa field; +∞ and −∞ have the extreme codes where the type has infinities. -/
def mantissaValue (g : Coll) (agreed x : Nat) : FVal :=
  let m := g.mant
  if g.ty = 14 ∧ x = 2 ^ (m - 1) then .inf true
  else if g.ty = 14 ∧ x = 2 ^ (m - 1) - 1 then .inf false
  else
    let u := (unitOf g.ty agreed).getD ⟨1, 1⟩
    .fin (decide (sext x m < 0)) (Q.mul (Q.mul (Q.ofInt (sext x m)) u) (Q.pow2 (-(nsumG g.ty : Int))))

/-- The agreed scale of a block: none for a NaN block. -/
def agreedScale (g : Coll) (ss : List Nat) : Option Nat :=
  if ss.any (fun x => (unitOf g.ty x).isNone) then none else some (scaleMax g.ty ss)

/-- The mantissas of this rank's blocks of slice q, packed (R418). -/
def packMantissas (g : Coll) (elems : Nat) (own : List Byte) (all : List (List Byte)) (q : Nat) : List Byte :=
  let blocks := List.range' (g.lo q) (g.count q)
  let fields := blocks.flatMap (fun b =>
    match agreedScale g (all.map (fun l => (nth l 0 b).toNat)) with
    | none => List.replicate 32 0
    | some a => (List.range 32).map (fun i => mantissa g (nth own 0 b).toNat a (blockCode g.ty elems b i)))
  leBytes (ceilDiv (g.count q * 32 * g.mant) 8) (fields.reverse.foldl (fun acc x => acc * 2 ^ g.mant + x) 0)

/-- This rank's slice of the narrow sum: elements, then scale bytes (R183, R260). -/
def nsumSlice (g : Coll) (scales mants : List (List Byte)) (q : Nat) : List Byte :=
  let xs := mants.map ofLe
  let blocks := (List.range (g.count q)).map (fun j =>
    match agreedScale g (scales.map (fun l => (nth l 0 (g.lo q + j)).toNat)) with
    | none => blockQuant g.ty (List.replicate 32 .nan)
    | some a =>
      blockQuant g.ty ((List.range 32).map (fun i =>
        (xs.map (fun x => mantissaValue g a ((x >>> (g.mant * (32 * j + i))) % 2 ^ g.mant))).foldl exactAdd (.fin false Q.zero))))
  let codes := blocks.flatMap (fun b => b.2.map (·.1))
  leBytes (g.sliceLen q) (codes.reverse.foldl (fun acc x => acc * 2 ^ fmtBits g.ty + x) 0) ++ blocks.map (fun b => BitVec.ofNat 8 b.1)

/-! ### The phases -/

/-- The source of this rank: its elements as a number, and its scale bytes for `coll.nsum`. -/
def collSource (s : State) (core : Nat) (k : Cmd) (g : Coll) : State × Except CmdFail (Nat × List Byte) :=
  match collRead s core k g.src 0 (collBytes g.op g.ty g.e) with
  | (s, .error f) => (s, .error f)
  | (s, .ok bs) => (s, .ok (ofLe (bs.take g.allLen), bs.drop g.allLen))

/-- Part A of this rank's put to rank q (Table 24.9). -/
def partA (g : Coll) (x : Nat × List Byte) (q : Nat) : List Byte :=
  match g.op with
  | 3 => sentScales g x.1 x.2
  | 4 => leBytes g.allLen x.1
  | 5 => if g.me = g.root then leBytes g.allLen x.1 else []
  | _ => leBytes (g.sliceLen q) (g.slice x.1 q)

/-- A command that goes on to a state, or fails. -/
def collGo (s : State) (core : Nat) (k : Cmd) (f : Option CmdFail) (st : CmdSt) : State :=
  setCmd s core { k with st := match f with
    | some x => .done (some x)
    | none => st }

/-- The start of a collective: base, epoch, phase A (R417). -/
def collStart (s : State) (core : Nat) (k : Cmd) (g : Coll) : State :=
  match readCounter s core k g with
  | (s, .error f) => collGo (beginRank s core k g none) core k (some f) .queued
  | (s, .ok c) =>
    let base := g.baseOf c
    let e := base / (3 * (g.n - 1))
    match collSource (beginRank s core k g (some base)) core k g with
    | (s, .error f) => collGo s core k (some f) .queued
    | (s, .ok x) =>
      let (s, f) := collPuts core k g (fun q => (g.slotAt e g.me, g.header e ++ partA g x q)) (List.range g.n) s
      collGo s core k f (.coll 1 base)

/-- The first rank whose header differs in OP, TYPE, E, NRANKS or k (R182, R417). -/
def mismatched (core : Nat) (k : Cmd) (g : Coll) (e : Nat) : List Nat → State → State × Except CmdFail (Option Nat)
  | [], s => (s, .ok none)
  | r :: rs, s =>
    if r = g.me then mismatched core k g e rs s
    else
      match collRead s core k g.scratch (g.slotAt e r) 40 with
      | (s, .error f) => (s, .error f)
      | (s, .ok bs) => if bs = (g.header e).take 40 then mismatched core k g e rs s else (s, .ok (some r))

/-- Phase B, once every phase-A put has arrived. -/
def collB (s : State) (core : Nat) (k : Cmd) (g : Coll) (base : Nat) : State :=
  let e := base / (3 * (g.n - 1))
  match mismatched core k g e (List.range g.n) s with
  | (s, .error f) => collGo s core k (some f) .queued
  | (s, .ok (some r)) => collGo s core k (some ⟨12, 0, r, 0⟩) .queued
  | (s, .ok none) =>
    match collSource s core k g with
    | (s, .error f) => collGo s core k (some f) .queued
    | (s, .ok x) =>
      match (if g.op = 3 then partsFrom core k g e 0 (partA g x g.me) (List.range g.n) s else (s, .ok [])) with
      | (s, .error f) => collGo s core k (some f) .queued
      | (s, .ok scales) =>
        let (s, f) := collPuts core k g (fun q => (g.slotAt e g.me + g.partAt g.me q 1,
          if g.op = 3 then packMantissas g x.1 x.2 scales q else [])) (List.range g.n) s
        collGo s core k f (.coll 2 base)

/-- This rank's slice of the result, once every phase-B put has arrived (R182, R183). -/
def ownSlice (s : State) (core : Nat) (k : Cmd) (g : Coll) (e : Nat) : State × Except CmdFail (List Byte) :=
  match collSource s core k g with
  | (s, .error f) => (s, .error f)
  | (s, .ok x) =>
    match partsFrom core k g e 0 (partA g x g.me) (List.range g.n) s with
    | (s, .error f) => (s, .error f)
    | (s, .ok as) =>
      if g.op ≠ 3 then (s, .ok (reduceSlice g g.me as))
      else
        match partsFrom core k g e 1 (packMantissas g x.1 x.2 as g.me) (List.range g.n) s with
        | (s, .error f) => (s, .error f)
        | (s, .ok bs) => (s, .ok (nsumSlice g as bs g.me))

/-- Phase C. -/
def collC (s : State) (core : Nat) (k : Cmd) (g : Coll) (base : Nat) : State :=
  let e := base / (3 * (g.n - 1))
  if g.op = 4 ∨ g.op = 5 ∨ g.op = 6 then
    let (s, f) := collPuts core k g (fun q => (g.slotAt e g.me + g.partAt g.me q 2, [])) (List.range g.n) s
    collGo s core k f (.coll 3 base)
  else
    match ownSlice s core k g e with
    | (s, .error f) => collGo s core k (some f) .queued
    | (s, .ok own) =>
      let (s, f) := collPuts core k g (fun q => (g.slotAt e g.me + g.partAt g.me q 2, own)) (List.range g.n) s
      collGo s core k f (.coll 3 base)

/-- The whole result at VB (Table 06.10). -/
def collResult (s : State) (core : Nat) (k : Cmd) (g : Coll) (e : Nat) : State × Except CmdFail (List Byte) :=
  if g.op = 6 then ownSlice s core k g e
  else if g.op = 4 ∨ g.op = 5 then
    match collSource s core k g with
    | (s, .error f) => (s, .error f)
    | (s, .ok x) =>
      match partsFrom core k g e 0 (partA g x g.me) (List.range g.n) s with
      | (s, .error f) => (s, .error f)
      | (s, .ok ps) =>
        if g.op = 5 then (s, .ok (nth ps [] g.root))
        else
          let w := g.e * fmtBits g.ty
          let x := (ps.reverse.map (fun p => ofLe p % 2 ^ w)).foldl (fun acc p => acc * 2 ^ w + p) 0
          (s, .ok (leBytes (ceilDiv (g.n * w) 8) x))
  else
    match ownSlice s core k g e with
    | (s, .error f) => (s, .error f)
    | (s, .ok own) =>
      match partsFrom core k g e 2 own (List.range g.n) s with
      | (s, .error f) => (s, .error f)
      | (s, .ok ps) =>
        if g.op ≠ 3 then (s, .ok ps.flatten)
        else
          let elems := ps.zipIdx.flatMap (fun p => p.1.take (g.sliceLen p.2))
          let scales := ps.zipIdx.flatMap (fun p => p.1.drop (g.sliceLen p.2))
          (s, .ok (elems ++ scales))

/-- The result written at VB, once every phase-C put has arrived. -/
def collEnd (s : State) (core : Nat) (k : Cmd) (g : Coll) (base : Nat) : State :=
  match collResult s core k g (base / (3 * (g.n - 1))) with
  | (s, .error f) => collGo s core k (some f) .queued
  | (s, .ok bs) =>
    let (s, f) := collWrite s core k g.dst 0 bs
    collGo s core k f (.done none)

/-- A phase that puts waits: an earlier ORD put of the issuers to a device of the group has neither increased its counter
nor failed, and the phase's puts have ORD = 1 (R151, R417). -/
def putsWait (s : State) (core : Nat) (k : Cmd) (g : Coll) : Bool :=
  let dev (v : Word) : Option Nat := match cmdEntry s k v with
    | some e => if e.kind = 2 then some (remoteAddr e v).1 else none
    | none => none
  (ordPuts (s.core core) k).any (fun j => g.ranks.zipIdx.any (fun p => p.2 != g.me && dev p.1.1 == putDev s j))

/-- The collective at the head of a core's engine. -/
def collHead (c : Core) : Option Cmd :=
  c.cmds.find? (fun k => k.cls == 3 && (match k.st with
    | .queued => true
    | .coll _ _ => true
    | _ => false))

/-- One phase of the collective at the head of a core's engine (R417): it starts, or goes on once its counter has risen
by NRANKS − 1 for its phase; it fails with PEER where a rank that it waits for has failed or stays unreachable (R182). -/
def execCollPhaseAdvance (core : Nat) (s : State) : Host.Outcome State Fault Refusal :=
  match collHead (s.core core) with
  | none => .next s
  | some k =>
    match readGroup s core k with
    | (u, .error f) => .next (collGo (if k.st = .queued then beginLoose u core k else u) core k (some f) .queued)
    | (s, .ok g) =>
      match k.st with
      | .coll phase base =>
        match readCounter s core k g with
        | (s, .error f) => .next (collGo s core k (some f) .queued)
        | (s, .ok c) =>
          if (c + 2 ^ 64 - base) % 2 ^ 64 < phase * (g.n - 1) then
            match lostPeer s core k g base with
            | some r => .next (collGo s core k (some (peerFail r)) .queued)
            | none => .next s
          else if phase < 3 ∧ putsWait s core k g = true then .next s
          else if phase = 1 then .next (collB s core k g base)
          else if phase = 2 then .next (collC s core k g base)
          else .next (collEnd s core k g base)
      | _ => if putsWait s core k g then .next s else .next (collStart s core k g)

end Sys2Proof.Machine
end

