-- ==== Sys2Proof/Machine/EngineEvents.lean ====
section
/-! DEFINITION. The events of the engines: acceptance, starts, completion and failure in issue order, and the delivery of
results (R17, R62, R146, R160, R161, R185, R266–R270, R276). -/
namespace Sys2Proof.Machine

/-! ### Results that wait for commands -/

/-- The commands before a command in acceptance order. -/
def earlier (c : Core) (k : Cmd) : List Cmd := c.cmds.takeWhile (fun j => j.id != k.id)

/-- A deferred result waits for a command: ACCRD for one of ec2, ESTAT for its issuer's of its class, but for one that has
completed as suspended (R160, R185, R330). -/
def Cmd.awaits (k j : Cmd) : Bool :=
  j.st != .suspended &&
    (if k.cls = 8 then j.cls == 2
     else k.cls == 9 && j.cls == k.md 2 0 && (k.issuers.zip k.uids).any (fun i => j.counts i.1 i.2))

/-- A deferred result can be read: every earlier command that it waits for has completed (R160, R185). -/
def resultReady (c : Core) (k : Cmd) : Bool := k.cls ≥ 8 && !(earlier c k).any k.awaits

/-- A finished command whose place in its class's order lies behind a held one: nothing but the order keeps it (R65). -/
def behindHeld (cmds : List Cmd) (k : Cmd) : Bool :=
  (finished k).isSome && (cmds.takeWhile (fun j => j.id != k.id)).any (fun j =>
    (j.st == .held || j.st == .aside) && j.cls == k.cls && (k.issuers.zip k.uids).any (fun i => j.counts i.1 i.2))

/-- The ec2 command that a core's matrix engine comes to next, in acceptance order (R160). While a team is saved, its held
commands do not keep the ones behind them from running to completion (Table 18.5). -/
def matrixNext (c : Core) : Option Cmd :=
  c.cmds.find? (fun k => k.cls == 2 && k.st != .aside &&
    !(behindHeld c.cmds k && (earlier c k).any (fun j => j.cls == 2 && j.st == .aside)))

/-- The register that a deferred result goes to. -/
def Cmd.vd (k : Cmd) : Nat := Machine.bits k.bits.toNat 15 8

/-- A deferred result written to its issuer as a team view, or the trap of its live fibres. -/
def deliverTo (s : State) (core : Nat) (k : Cmd) (t : Team) : State × Team × Bool :=
  if k.cls = 8 then
    match readQuarter s core (BitVec.ofNat 16 (k.md 15 0)) with
    | some xs => (s, deliver t k.vd k.id (k.md 4 0) (fun i => nth xs 0 i) s.now, true)
    | none => (s, { t with pend := t.pend.filter (fun p => p.ready != never + k.id) }, false)
  else
    let c := k.md 2 0
    let x := t.estatus c
    let t := deliver t k.vd k.id 8 (fun _ => x) s.now
    (s, if k.md 3 3 = 1 then { t with estat := mdel t.estat c } else t, true)

/-- One deferred result delivered, and its record dropped. -/
def deliverOne (s : State) (core : Nat) (k : Cmd) : State :=
  let s := s.modCore core (fun c => { c with cmds := c.cmds.filter (fun j => j.id != k.id) })
  match k.issuers, k.uids with
  | .team slot :: _, uid :: _ =>
    match (s.core core).team? slot with
    | some t =>
      if t.uid ≠ uid ∨ t.st = .ended ∨ t.st = .ending then s
      else
        let (s, t', ok) := deliverTo s core k t
        let s := s.modCore core (fun c => c.setTeam slot t')
        if ok then s
        else
          let iss : Iss := { core := core, agent := .team core slot, lanes := t'.freeRunMask, act := t'.freeRunMask, pc := k.pc, hpc := k.pc,
                             clk := s.now, deadmode := false, final := false, bits := k.bits }
          let (s, t'') := takeTraps s iss t' (trapAll t'.freeRunMask { cause := cMEMERR, addr := some (cFault t (k.md 15 8 * 1024)) })
          s.modCore core (fun c => c.setTeam slot t'')
    | none => s
  | .ctx x :: _, _ =>
    let (s, t, _) := deliverTo s core k (asTeam (s.core core) x)
    s.putTeam (.ctx core x) t
  | _, _ => s

/-- Every deferred result of a core that can be read. -/
def deliverAll (s : State) (core : Nat) : State :=
  ((s.core core).cmds.filter (fun k => k.cls ≥ 8)).foldl (fun s k =>
    if resultReady (s.core core) k then deliverOne s core k else s) s

/-- The delivery of a team's results (R17): writes in flight that are due are over, results whose commands have
completed are read, and held commands see the guard slots (R65). -/
def execResultDelivery (core slot : Nat) (s : State) : Host.Outcome State Fault Refusal :=
  let s := ((s.core core).cmds.filter (fun k => k.cls ≥ 8 && k.issuers == [.team slot])).foldl (fun s k =>
    if resultReady (s.core core) k then deliverOne s core k else s) s
  match (s.core core).team? slot with
  | some t =>
    let t := { t with pend := inFlight s.now t.pend }
    .next (s.modCore core (fun c => judgeHeld s.now (c.setTeam slot t)))
  | none => .next s

/-! ### Acceptance and starts -/

/-- Waiting commands are accepted where there is room (R62, R267). -/
def execEngineAccept (core : Nat) (s : State) : Host.Outcome State Fault Refusal :=
  .next (acceptWaiting (s.core core).toAccept s core)

/-- The state of a command whose body has run. -/
def ranTo (f : Option CmdFail) : CmdSt := .done f

/-- The first ec2 command of a core runs once every earlier one has completed (R160, R270). -/
def execMatrixCommandStart (core : Nat) (s : State) : Host.Outcome State Fault Refusal :=
  match matrixNext (s.core core) with
  | some k =>
    if k.st = .queued then
      let (s, f) := runMatrix s core k
      .next (setCmd s core { k with st := ranTo f })
    else .next s
  | none => .next s

/-- The cores with a command in the queue of a stack, each with its first that is not held. -/
def stackQueue (s : State) (stack : Nat) : List (Nat × Cmd) :=
  s.cores.filterMap (fun p =>
    (p.2.cmds.find? (fun k => k.cls == 4 && k.st == .queued && k.capt == [BitVec.ofNat 64 stack])).map (fun k => (p.1, k)))

/-- The first command of a stack's queue runs: the earliest accepted (R275, R276). -/
def execSgemvStart (stack : Nat) (s : State) : Host.Outcome State Fault Refusal :=
  match (stackQueue s stack).foldl (fun (a : Option (Nat × Cmd)) p => match a with
    | none => some p
    | some q => if p.2.accepted < q.2.accepted ∨ (p.2.accepted = q.2.accepted ∧ p.2.id < q.2.id) then some p else some q) none with
  | some (core, k) =>
    match rawOfWord k.bits with
    | some (.e _ w) =>
      let (s, f) := runSgemv s core k w
      .next (setCmd s core { k with st := ranTo f })
    | _ => .next s
  | none => .next s

/-! ### Completion -/

/-- A copy after one of its parts: finished, or started and as far as it has come (R330). -/
def afterPart (core : Nat) (k : Cmd) (p : Part) : State :=
  setCmd p.s core { k with st := if p.finished then .done p.fail else .started, progress := p.progress, failed := p.fail }

/-- A command whose engine has no start event of its own runs; a copy, gather or scatter runs one part (R266, R267, R330). -/
def runOne (s : State) (core : Nat) (k : Cmd) : State :=
  match rawOfWord k.bits with
  | some (.e op w) =>
    if op = 0x69 then afterPart core k (runDcopy s core k w)
    else if op = 0x6C then
      let (s, f, channel) := runRowcopy s core k w
      setCmd s core { k with st := ranTo f, fallback := channel }
    else if op = 0x6A ∨ op = 0x6B then afterPart core k (runGather s core k w (op == 0x6A))
    else if op = 0x6E then stepSread s core k w
    else if op = 0x5A ∨ op = 0x5B then runPut s core k
    else s
  | _ => s

/-- A command that its class's engine takes up next: one in its queue, or a copy or put with parts left; an
SREAD waits for a decompression engine (R354); a put to another
device waits for the earlier ones it must follow (R151). -/
def runnable (s : State) (c : Core) (k : Cmd) : Bool :=
  (k.st == .queued || (k.st == .started && [0x69, 0x6A, 0x6B, 0x5A, 0x5B, 0x6E].contains k.op)) &&
    (k.op != 0x6E || sreadReady s k) &&
    !(k.cls == 5 && k.md 7 7 == 1 && (putDev s k).isSome && !(orderedBefore s c k).isEmpty)

/-- The command of a class that goes on next. One of ec6 that waits for an engine waits in its place (R354). -/
def nextRun (s : State) (c : Core) (cls : Nat) : Option Cmd :=
  match c.cmds.find? (fun k => k.cls == cls && (cls == 6 || runnable s c k) && (k.st == .queued || k.st == .started)) with
  | some k => if runnable s c k then some k else none
  | none => none

/-- The next command of a class runs, unless one is finished and first in its order. -/
def runClass (s : State) (core cls : Nat) : State :=
  if (nextDone (s.core core) (fun k => k.cls == cls)).isSome ∨ cls = 2 ∨ cls = 3 ∨ cls = 4 then s
  else
    match nextRun s (s.core core) cls with
    | some k => runOne s core k
    | none => s

/-- Whether a finished command failed. -/
def failedCmd (k : Cmd) : Bool :=
  match k.st with
  | .done (some _) => true
  | _ => false

/-- A command completes in its place, and results that waited for it are delivered. -/
def completeNext (s : State) (core : Nat) (want : Cmd → Bool) : State :=
  match nextDone (s.core core) want with
  | some (k, f) => deliverAll (completeCmd s core k f) core
  | none => s

/-- An engine command completes in issue order and its counter falls (R62, R65, R268). -/
def execEngineCommandComplete (core cls : Nat) (s : State) : Host.Outcome State Fault Refusal :=
  .next (completeNext (runClass s core cls) core (fun k => k.cls == cls && !failedCmd k))

/-- A command that failed after acceptance completes as failed (R150, R161). -/
def execEngineCommandFail (core cls : Nat) (s : State) : Host.Outcome State Fault Refusal :=
  .next (completeNext (runClass s core cls) core (fun k => k.cls == cls && failedCmd k))

end Sys2Proof.Machine
end

