-- ==== Sys2Proof/Machine/Tokens.lean ====
section
/-! DEFINITION. The release of paths that wait at class 5 words, and power tokens (R205, R355, R367, R372). -/
namespace Sys2Proof.Machine

/-! ### Paths that wait for a result -/

/-- The issue of a result that arrives after its word: only its lanes matter. -/
def lateIss (core : Nat) (m : BitVec 32) : Iss :=
  { core := core, agent := .ctx core .m, lanes := m, act := m, pc := 0, hpc := 0, clk := 0, deadmode := false, final := false,
    bits := 0 }

/-- Fibres of a team whose wait satisfies a test go on; `res` gives the register and the value that such a wait writes. -/
def Team.releaseWith (t : Team) (core now : Nat) (sel : Wait → Bool) (res : Wait → Option (Nat × Word)) : Team :=
  let waits := ((t.lanes.filterMap (fun l => if l.live && !l.parked then l.wait else none)).filter sel).eraseDups
  let t := waits.foldl (fun (t : Team) w =>
    match res w with
    | some (vd, x) =>
      writeScalar (lateIss core (maskOf (fun i => (t.lane i).live && !(t.lane i).parked && (t.lane i).wait == some w))) t vd x
    | none => t) t
  t.resume now sel

/-- The same for every team and context of a core. -/
def releaseCore (s : State) (core : Nat) (sel : Wait → Bool) (res : Wait → Option (Nat × Word)) : State :=
  let c := s.core core
  let c := { c with teams := c.teams.map (fun p => (p.1, p.2.releaseWith core s.now sel res)) }
  let c := [Ctx.s, Ctx.m].foldl (fun c k => ofTeam c k ((asTeam c k).releaseWith core s.now sel res)) c
  s.setCore core c

/-- Every fibre of the issuing path waits; each keeps whether it is active. -/
def waitEach (s : State) (iss : Iss) (t : Team) (w : Bool → Wait) : Res :=
  { s := s, t := t.modLanes iss.lanes (fun i l => { l with wait := some (w (iss.act.getLsbD i)) }), wait := some (w true) }

/-! ### The pool -/

/-- The pool's size (R355). -/
def poolSize (s : State) : Nat := min 256 (2 * max 800 (min 3200 (s.reg 0x720)) / 25)

def Core.holdsToken (c : Core) : Bool := !c.holders.isEmpty

def tokensHeld (s : State) : Nat := (s.cores.filter (fun p => p.2.holdsToken)).length

/-- POWER.FREE (Table 21.6); a waiting request makes it read 0 (R372). -/
def tokensFree (s : State) : Nat := if s.tokens.isEmpty then poolSize s - tokensHeld s else 0

/-- The holder that an agent is (R205). -/
def holderOf (s : State) : Agent → Holder
  | .ctx c k => .ctx c k
  | .team c slot =>
    match (s.core c).team? slot with
    | some t => .copse t.copse
    | none => .copse 0

def Core.hold (c : Core) (h : Holder) : Core := if c.holders.contains h then c else { c with holders := c.holders ++ [h] }
def Core.unhold (c : Core) (h : Holder) : Core := { c with holders := c.holders.filter (fun x => x != h) }

/-- `token.take` (R205). -/
def execTokenTake (w : SW) (s : State) : Host.Outcome State Fault Refusal :=
  runWord (.s 0x7E w) (fun s iss _ t =>
    let h := holderOf s iss.agent
    if iss.act = 0 then { s := s, t := t }
    else if (s.core iss.core).holdsToken then
      { s := s.modCore iss.core (fun c => c.hold h), t := writeScalar iss t w.vd.toNat 1 }
    else
      waitEach { s with tokens := s.tokens ++ [⟨iss.core, h, some iss.agent, s.now, false⟩] } iss t
        (fun a => .token w.vd.toNat a)) s

/-- `token.try` (R205). -/
def execTokenTry (w : SW) (s : State) : Host.Outcome State Fault Refusal :=
  runWord (.s 0x7E w) (fun s iss _ t =>
    if iss.act = 0 then { s := s, t := t }
    else if (s.core iss.core).holdsToken || tokensFree s > 0 then
      { s := s.modCore iss.core (fun c => c.hold (holderOf s iss.agent)), t := writeScalar iss t w.vd.toNat 1 }
    else { s := s, t := writeScalar iss t w.vd.toNat 0 }) s

/-- `token.give` (R205). -/
def execTokenGive (w : SW) (s : State) : Host.Outcome State Fault Refusal :=
  runWord (.s 0x7E w) (fun s iss _ t =>
    if iss.act = 0 then { s := s, t := t }
    else { s := s.modCore iss.core (fun c => c.unhold (holderOf s iss.agent)), t := t }) s

/-- What a token wait writes when its token comes. -/
def tokenResult : Wait → Option (Nat × Word)
  | .token vd true => some (vd, 1)
  | _ => none

def isTokenWait : Wait → Bool
  | .token _ _ => true
  | _ => false

/-- The oldest request can be granted. -/
def tokenReady (s : State) : Bool :=
  match s.tokens with
  | r :: _ => (s.core r.core).holdsToken || tokensHeld s < poolSize s
  | [] => false

/-- A grant (R205): every requester of the core becomes a holder. -/
def execTokenGrant (s : State) : Host.Outcome State Fault Refusal :=
  match s.tokens with
  | [] => .next s
  | r :: _ =>
    if !tokenReady s then .next s
    else
      let mine := s.tokens.filter (fun x => x.core == r.core)
      let s := { s with tokens := s.tokens.filter (fun x => x.core != r.core) }
      let s := s.modCore r.core (fun c => mine.foldl (fun c x => c.hold x.holder) c)
      .next (releaseCore s r.core isTokenWait tokenResult)

/-- A request has waited 100 µs (R367, Table 21.6). -/
def execTokenWaitExpiry (s : State) : Host.Outcome State Fault Refusal :=
  let late (r : TokenReq) : Bool := !r.flagged && s.now ≥ r.since + usClk 100
  if s.tokens.any late then
    .next ({ s with tokens := s.tokens.map (fun r => if late r then { r with flagged := true } else r) }.setReg 0x724
      (s.reg 0x724 ||| 2))
  else .next s

/-- A write to POWER.CAP (R355): the pool's new size applies to new grants. -/
def execPowerCapWrite (value : Word) (s : State) : Host.Outcome State Fault Refusal :=
  let cap := max 800 (min 3200 (value.toNat % 2 ^ 12))
  let s := if cap = s.reg 0x720 then s else s.setReg 0x724 (s.reg 0x724 ||| 1)
  .next (s.setReg 0x720 cap)

/-- A write to POWER.ADMIT by a context of a core (R372); a mask of 0 names no core without a token, so it reads as
admitted. -/
def execPowerAdmitWrite (core : Nat) (ctx : Ctx) (value : Word) (s : State) : Host.Outcome State Fault Refusal :=
  let v := value.toNat
  let first := 8 * (v % 32)
  let h : Holder := .ctx core ctx
  let note (s : State) (b : Bool) : State := s.modCore core (fun c => c.setCtx ctx { c.ctx ctx with admits := b })
  if bits v 15 8 = 0 then
    .next (note ((List.range' first 8).foldl (fun s n => s.modCore n (fun c => c.unhold h)) s) true)
  else
    let mine := (List.range' first 8).filter (fun n => bit v (8 + n - first))
    let need := (mine.filter (fun n => !(s.core n).holdsToken)).length
    if need ≤ tokensFree s then .next (note (mine.foldl (fun s n => s.modCore n (fun c => c.hold h)) s) true)
    else .next (note s false)

end Sys2Proof.Machine
end

