-- ==== Sys2Proof/Machine/Boot.lean ====
section
/-! DEFINITION. Resets, the boot chain, flash, measurements, alarms, the host link and storage controllers (R191, R338–R343,
R347, R351–R353, R421). -/
namespace Sys2Proof.Machine

/-! ### Flash -/

/-- A byte of flash; an erased byte reads 0xFF. -/
def flashGet (m : Cells) (o : Nat) : Byte := cgetD 0xFF m o

def flashBytes (m : Cells) (o : Nat) : Nat → List Byte
  | 0 => []
  | n + 1 => flashGet m o :: flashBytes m (o + 1) n

def flashPut (m : Cells) (o : Nat) : List Byte → Cells
  | [] => m
  | b :: bs => flashPut (csetD 0xFF m o b) (o + 1) bs

/-- A little-endian word of flash. -/
def flashWord (m : Cells) (o : Nat) : Nat := ofLe (flashBytes m o 8)

/-- The header of the flash (R339, R343). -/
def headerOf (s : State) : FlashHeader :=
  let m := s.flash.filter (fun c => c.1 < 0x100000)
  s.header.getD ⟨Config.headerPrefersB m, [Config.headerSlot m 0, Config.headerSlot m 1], 0⟩

/-- The offset, length and SVN of a slot. -/
def slotOf (s : State) (slot : Nat) : Nat × Nat × Nat := nth (headerOf s).slots (0, 0, 0) slot

/-- Bytes of flash as a transfer reads them: those of a header that the device has rewritten, in its two 4 KiB copies, are
not given (R343). -/
def flashRead (s : State) (o n : Nat) : List Byte :=
  match s.header with
  | none => flashBytes s.flash o n
  | some h => (flashBytes s.flash o n).zipIdx.map (fun p =>
      if o + p.2 < 0x2000 then Config.headerByte (o + p.2) h.seq h.prefersB h.slots else p.1)

/-- The withdrawal masks that the record at 0x10_0000 gives (R340): zero where it is ignored. -/
def withdrawalMasks (m : Cells) : List Nat :=
  let masks := (List.range 4).map (fun i => flashWord m (0x100000 + 8 * i))
  if flashWord m 0x100020 ≠ 0xCA5D0030 ∨ masks.all (fun x => x == 2 ^ 64 - 1) then [0, 0, 0, 0] else masks

/-! ### The boot chain (R339) -/

/-- The kinds of reset. -/
inductive ResetKind where
  | powerOn
  | full
  | alarm
  deriving DecidableEq, Repr

/-- Step 3 for an image and its SVN: its key hashes, its signatures and the SVN (log 11). -/
def imageAccepted (s : State) (image : List Byte) (svn : Nat) : Bool :=
  let (rsaKey, slhKey, signed, rsaSig, slhSig, _) := Config.imageParts image
  sha384 rsaKey == Config.keyHash 0 && sha384 slhKey == Config.keyHash 1 &&
    rsaVerify (Config.rsaKey rsaKey) signed rsaSig && slhVerify slhKey signed slhSig && svn ≥ s.fuseSvn

/-- The image of a slot. -/
def slotImage (s : State) (slot : Nat) : List Byte := flashBytes s.flash (slotOf s slot).1 (slotOf s slot).2.1

/-- Step 3 for one slot. -/
def slotAccepted (s : State) (slot : Nat) : Bool := imageAccepted s (slotImage s slot) (slotOf s slot).2.2

/-- The measurement n as 48 bytes (Table 19.2). -/
def measurement (s : State) (n : Nat) : List Byte :=
  (List.range 6).flatMap (fun k => leBytes 8 (s.reg (0x890 + 6 * n + k)))

def setMeasurement (s : State) (n : Nat) (digest : List Byte) : State :=
  (List.range 6).foldl (fun s k => s.setReg (0x890 + 6 * n + k) (ofLe ((digest.drop (8 * k)).take 8))) s

/-- The measurement extended with some bytes (R342). -/
def extend (s : State) (n : Nat) (bs : List Byte) : State :=
  setMeasurement s n (sha384 (measurement s n ++ bs))

/-- The M context of a core leaves reset at a physical address (R339, R419). -/
def releaseMctx (entry : Nat) (c : Core) : Core :=
  { c with released := true, mctx := { c.mctx with lane := { freeLane with live := true, pc := entry, hpc := entry } } }

/-- The cores that are in service. -/
def inService (s : State) : List Nat := (List.range 256).filter (fun n => !s.withdrawn n)

/-- The slot that the ROM accepts, and whether it is the second one tried (steps 2 to 4). -/
def chosenSlot (s : State) : Option (Nat × Bool) :=
  let first := b2n (headerOf s).prefersB
  if slotAccepted s first then some (first, false)
  else if slotAccepted s (1 - first) then some (1 - first, true) else none

/-- Steps 5 and 6: measurement 0, the payload, BOOT.STAT, and the release of every core in service. -/
def startMonitor (s : State) (slot : Nat) (fallback : Bool) : State :=
  let image := slotImage s slot
  let payload := (Config.imageParts image).2.2.2.2.2
  let s := setMeasurement s 0 (sha384 (List.replicate 48 0 ++ sha384 image))
  let s := physPut s (Config.imageBase image) payload
  let s := s.setReg 0x880 (2 + 16 * slot + 32 * b2n fallback + 256 * ((slotOf s slot).2.2 % 256))
  (inService s).foldl (fun s n => s.modCore n (releaseMctx (Config.imageEntry image))) s

/-- Storage initialisation finds which ports' links are up and, of those, whose controllers are ready, and writes the storage
map of both (R353). -/
def storageInit (s : State) : State :=
  let s : State := { s with nvmeUp := (List.range 4).foldl (fun x p =>
    if Config.nvmeLink p s.tick && Config.nvmeReady p s.tick then x ||| BitVec.twoPow 4 p else x) 0 }
  let ports := (List.range 4).map (fun p => (Config.nvmeLink p s.tick, s.nvmeUp.getLsbD p, listed s p))
  (physPut s Config.storageMapAddr (Config.storageMap ports)).setReg 0x8AC (Config.storageMapAddr % 2 ^ 39)

/-- The registers of the 0x800 block that a reset keeps (R338): all but BOOT.STAT and the measurements on an alarm reset;
SEC.ALOG alone on a full reset. SEC.KSTAT and SEC.SVN stand apart in the state. -/
def keptRegs (k : ResetKind) (regs : List (Nat × Word)) : List (Nat × Word) :=
  match k with
  | .powerOn => []
  | .full => regs.filter (fun p => p.1 == 0x806)
  | .alarm => regs.filter (fun p => 0x800 ≤ p.1 && p.1 < 0x900 && !(0x880 ≤ p.1 && p.1 < 0x8A8 && p.1 != 0x881))

/-- The state that a reset leaves before the boot chain: every register at its reset value (R191, R338, R421), memory,
shadow slots and queues lost (R347); flash, fuses and the key store keep their contents. -/
def resetState (k : ResetKind) (s : State) : State :=
  { State.reset with
    now := s.now, tick := s.tick, nextId := s.nextId, flash := s.flash, header := s.header, fuseSvn := s.fuseSvn, keys := s.keys,
    hostOut := s.hostOut, replies := s.replies, wire := s.wire, worldStart := s.now,
    regs := ((keptRegs k s.regs).foldl (fun m p => mset m p.1 p.2)
      (mset State.reset.regs 0x210 (BitVec.ofNat 64 (2 ^ 64 - s.now % 2 ^ 64)))) }

/-- A reset and the boot chain (R339–R341). -/
def bootChain (k : ResetKind) (s : State) : State :=
  let s := resetState k s
  let s := match k with
    | .alarm => s
    | _ => (List.range 4).foldl (fun s i => s.setReg (0x810 + i) (nth (withdrawalMasks s.flash) 0 i)) s
  let s := { s with booted := true }
  match chosenSlot s with
  | some (slot, fallback) => storageInit (startMonitor s slot fallback)
  | none => { raiseAlarm (s.setReg 0x880 (1 + 32)) 3 with recovery := true }

/-- Power-on reset (R339). -/
def execPowerOnReset (s : State) : Host.Outcome State Fault Refusal := .next (bootChain .powerOn s)
/-- A host-requested full reset (R339, R352). -/
def execFullReset (s : State) : Host.Outcome State Fault Refusal := .next (bootChain .full s)
/-- The reset that an alarm policy orders (R339, R347). -/
def execAlarmReset (s : State) : Host.Outcome State Fault Refusal := .next (bootChain .alarm s)

/-! ### Alarms (R347) -/

/-- A tamper sensor event. -/
def execTamperAlarm (s : State) : Host.Outcome State Fault Refusal := .next (raiseAlarm s 0)
/-- A voltage or clock glitch. -/
def execGlitchAlarm (s : State) : Host.Outcome State Fault Refusal := .next (raiseAlarm s 1)

/-- A counting period of WORLD faults ends (R347). -/
def execWorldPeriodEnd (s : State) : Host.Outcome State Fault Refusal :=
  if s.now < s.worldStart + 2 ^ 24 then .next s
  else
    let th := s.reg 0x807
    let s' : State := { s with worldFaults := 0, worldRaised := false, worldStart := s.now - (s.now - s.worldStart) % 2 ^ 24 }
    if th ≠ 0 ∧ s.worldFaults ≥ th ∧ s.worldRaised = false then .next (raiseAlarm s' 2) else .next s'

/-! ### Flash transfers (R343) -/

/-- A write to BOOT.FCMD of an operation starts a transfer, unless one is under way. -/
def flashStart (core : Nat) (value : Word) (s : State) : State :=
  if s.flashOp.isSome then s
  else
    let cmd := value.toNat % 4
    let o := s.reg 0x8A9
    let n := if cmd = 2 then 0x10000 else bits value.toNat 31 12 * 4096
    let o := if cmd = 2 then o / 0x10000 * 0x10000 else o
    let s := s.setReg 0x8AB 0
    { s with flashOp := some ⟨core, cmd, o, n, BitVec.ofNat 64 (s.reg 0x8A8), o + n > 2 ^ 29, cmd ≠ 0 ∧ o < 0x100000⟩ }

/-- BOOT.FCMD operation 0. -/
def execFlashRead (core : Nat) (value : Word) (s : State) : Host.Outcome State Fault Refusal :=
  .next (if value.toNat % 4 = 0 then flashStart core value s else s)
/-- BOOT.FCMD operation 1. -/
def execFlashProgram (core : Nat) (value : Word) (s : State) : Host.Outcome State Fault Refusal :=
  .next (if value.toNat % 4 = 1 then flashStart core value s else s)
/-- BOOT.FCMD operation 2. -/
def execFlashErase (value : Word) (s : State) : Host.Outcome State Fault Refusal :=
  .next (if value.toNat % 4 = 2 then flashStart 0 value s else s)

/-- A range of the M context's address space, of ASID 0x0000. -/
def bootReq (core : Nat) (v : Word) (o n rights : Nat) : Req :=
  { asid := 0, core := core, handle := v.toNat / 2 ^ 48, off := (v.toNat % 2 ^ 48 + o : Nat), n := n, align := 1,
    rights := rights, kinds := [0, 3], emask := none, acc := b2n (rights == 2) }

/-- The memory side of a program transfer, read piece by piece as weak reads. -/
def bootRead (core : Nat) (v : Word) : List (Nat × Nat) → State → State × Option (List Byte)
  | [], s => (s, some [])
  | (o, n) :: ps, s =>
    let q := bootReq core v o n 1
    match check0 s q true with
    | .error _ => (s, none)
    | .ok (tgt, e) =>
      match readTgt (noteAccess s q e) (weakMode core (.ctx core .m)) tgt n with
      | (s, none) => (s, none)
      | (s, some bs) =>
        match bootRead core v ps s with
        | (s, some cs) => (s, some (bs ++ cs))
        | (s, none) => (s, none)

/-- The memory side of a read transfer, written at home. -/
def bootWrite (core : Nat) (v : Word) (bs : List Byte) : List (Nat × Nat) → State → State × Bool
  | [], s => (s, true)
  | (o, n) :: ps, s =>
    let q := bootReq core v o n 2
    match check0 s q true with
    | .error _ => (s, false)
    | .ok (.dram first ls, e) => bootWrite core v (bs.drop n) ps (homeBytes (noteAccess s q e) first (evClass 0 e) ls (bs.take n))
    | .ok (tgt, e) =>
      bootWrite core v (bs.drop n) ps
        (writeTgt (noteAccess s q e) (weakMode core (.ctx core .m)) tgt ((bs.take n).map some))

/-- What follows a program transfer that ends a flash update (R343, log 92): the slot that was not booted is read back and
verified, and the header is rewritten so that it is preferred; where it fails, the header stays. -/
def endUpdate (s : State) (f : FlashOp) : State :=
  let slot := 1 - bits (s.reg 0x880) 4 4
  let (o, n, _) := slotOf s slot
  let image := slotImage s slot
  let svn := Config.imageSvn image
  let h := headerOf s
  if f.offset < o + n ∧ o < f.offset + f.length ∧ Config.updateEnds s.tick = true ∧ imageAccepted s image svn = true then
    { s with header := some ⟨slot == 1, h.slots.set slot (o, n, svn), h.seq + 1⟩ }
  else s

/-- A flash transfer ends (R341, R343): BUSY clears, with ERROR or the protected-range bit as needed. -/
def execFlashTransferDone (s : State) : Host.Outcome State Fault Refusal :=
  match s.flashOp with
  | none => .next s
  | some f =>
    let s := { s with flashOp := none, tick := s.tick + 1 }
    let fail (s : State) : State := s.setReg 0x8AB 2
    if f.protectedHit then .next (s.setReg 0x8AB 4)
    else if f.error then .next (fail s)
    else if f.cmd = 2 then .next { s with flash := s.flash.filter (fun c => !(f.offset ≤ c.1 && c.1 < f.offset + f.length)) }
    else if f.cmd = 1 then
      if s.flash.any (fun c => f.offset ≤ c.1 && c.1 < f.offset + f.length) then .next (fail s)
      else
        match bootRead f.core f.addr (stretchesAt f.addr.toNat f.length) s with
        | (s, some bs) => .next (endUpdate { s with flash := flashPut s.flash f.offset bs } f)
        | (s, none) => .next (fail s)
    else
      match bootWrite f.core f.addr (flashRead s f.offset f.length) (stretchesAt f.addr.toNat f.length) s with
      | (s, true) => .next s
      | (s, false) => .next (fail s)

/-- A write to BOOT.EXTEND (R342): the state, or the trap of the read of the digest. -/
def bootExtend (core : Nat) (value : Word) (s : State) : State × Option Trap :=
  let n := value.toNat % 4
  let v := BitVec.ofNat 64 (s.reg 0x881)
  let q := bootReq core v 0 48 1
  if n = 0 then (s, none)
  else
    match check0 s q true with
    | .error (c, a) => (s, some { cause := c, addr := some a })
    | .ok (tgt, e) =>
      match readTgt (noteAccess s q e) (devMode core (.ctx core .m) 1) tgt 48 with
      | (s, none) => (s, some { cause := cMEMERR, addr := some ⟨0, q.handle, v.toNat % 2 ^ 48, 0, 0⟩ })
      | (s, some bs) => (extend s n bs, none)

/-- BOOT.EXTEND is written (R342). -/
def execBootExtend (core : Nat) (value : Word) (s : State) : Host.Outcome State Fault Refusal :=
  .next (bootExtend core value s).1

/-! ### The host link (R351, R352) -/

/-- A host write to BAR0 offset 0. -/
def execHostDoorbellWrite (value : Word) (s : State) : Host.Outcome State Fault Refusal :=
  .next (s.setReg 0x8C2 (s.reg 0x8C2 ||| value.toNat))

/-- In recovery, where a host endpoint is fitted, a host write through BAR1 rewrites flash from 0x10_0000 upward (R341). -/
def execHostBar1Write (offset : Nat) (bytes : List Byte) (s : State) : Host.Outcome State Fault Refusal :=
  if s.recovery ∧ bit (s.reg 0x8C1) 1 ∧ 0x100000 + offset + bytes.length ≤ 2 ^ 29 then
    .next { s with flash := flashPut s.flash (0x100000 + offset) bytes }
  else .next s

/-- What a hot reset or a link-down does under HOST.RSTPOLICY (R352). -/
def hostReset (s : State) (statBit : Nat) : State :=
  let st := s.reg 0x8C1
  let s := s.setReg 0x8C1 ((st ||| 2 ^ statBit) % 256 + 256 * min 255 (st / 256 + 1))
  if bit (s.reg 0x8C0) 0 then { s with agenda := .fullReset :: s.agenda }
  else
    let s := (List.range 16).foldl (fun s n =>
      let r := 0x8D1 + 2 * n
      if bit (s.reg r) 0 then s.setReg r (s.reg r - 1) else s) s
    s.setReg 0x8C2 0

/-- A hot reset on the host link. -/
def execHostHotReset (s : State) : Host.Outcome State Fault Refusal := .next (hostReset s 2)

/-- The host link goes down. -/
def execHostLinkDown (s : State) : Host.Outcome State Fault Refusal :=
  .next (hostReset (s.setReg 0x8C1 (s.reg 0x8C1 / 2 * 2)) 3)

/-- The host link comes up; an endpoint that has a link is fitted. -/
def execHostLinkUp (s : State) : Host.Outcome State Fault Refusal := .next (s.setReg 0x8C1 (s.reg 0x8C1 ||| 3))

/-- A controller reports fatal status (R353). -/
def execNvmeFatal (port : Nat) (s : State) : Host.Outcome State Fault Refusal :=
  .next { (s.setReg 0x8AD (s.reg 0x8AD ||| 2 ^ (port % 4))) with nvmeFatal := s.nvmeFatal ||| BitVec.twoPow 4 (port % 4) }

end Sys2Proof.Machine
end

