-- ==== Sys2Proof/Machine/Attest.lean ====
section
/-! DEFINITION. Attestation by SPDM 1.3 (R344): the answers to its requests, the transcripts that they join, and the
signatures over them. The messages' fields are those of DSP0274 (PRESUMED, log 91). -/
namespace Sys2Proof.Machine

/-! ### Messages -/

/-- A request can arrive: over the data object exchange while the link is up, over UDP while port 0 is on and to the port that
ETH.UDP gives SPDM (R402). -/
def spdmOpen (s : State) : SpdmPath → Bool
  | .doe => bit (s.reg 0x8C1) 0
  | .udp dport => s.portOn 0 && dport == bits (s.reg 0x582) 31 16

/-- The header of an SPDM message: its code and two parameters. -/
def spdmHead (code p1 p2 : Nat) : List Byte := [0x13, BitVec.ofNat 8 code, BitVec.ofNat 8 p1, BitVec.ofNat 8 p2]

/-- An SPDM ERROR message: code and data. -/
def spdmError (code data : Nat) : List Byte := spdmHead 0x7F code data

/-- An answer on the path of its request. -/
def reply (s : State) (via : SpdmPath) (bytes : List Byte) : State :=
  if spdmOpen s via then { s with replies := s.replies ++ [bytes] } else s

/-- An answer that joins a transcript with its request. -/
def respond (s : State) (via : SpdmPath) (request bytes : List Byte) (join : Transcript → List Byte → Transcript) : State :=
  if spdmOpen s via then { reply s via bytes with transcript := join s.transcript (request ++ bytes) } else s

/-- The version, capability and algorithm messages: part A of a CHALLENGE's transcript. A request other than GET_MEASUREMENTS
ends the measurements that await a signature. -/
def joinFirst (t : Transcript) (bs : List Byte) : Transcript := { t with vca := t.vca ++ bs, meas := [] }

/-- The certificate messages: part B. -/
def joinCerts (t : Transcript) (bs : List Byte) : Transcript := { t with certs := t.certs ++ bs, meas := [] }

/-- Measurements that await a signature; the certificate messages before a CHALLENGE are forgotten. -/
def joinMeas (t : Transcript) (bs : List Byte) : Transcript := { t with certs := [], meas := t.meas ++ bs }

/-- After a signed answer only part A stays. -/
def joinSigned (t : Transcript) (_ : List Byte) : Transcript := { t with certs := [], meas := [] }

/-- A field of a request. -/
def requestField (request : List Byte) (o n : Nat) : Nat := ofLe ((List.range' o n).map (fun i => nth request 0 i))

/-- The eight bytes of a request from an offset. -/
def requestContext (request : List Byte) (o : Nat) : List Byte := (List.range' o 8).map (fun i => nth request 0 i)

/-! ### Measurements and signatures -/

/-- Measurement block n, 1 to 4: measurement n - 1 as a raw SHA-384 value (R344). -/
def measureBlock (s : State) (n : Nat) : List Byte :=
  [BitVec.ofNat 8 n, 1, 51, 0, Config.blockType n, 48, 0] ++ measurement s (n - 1)

/-- The certificate chain's hash. -/
def chainHash : List Byte := sha384 Config.certChain

/-- The bytes of a text. -/
def textBytes (t : List Char) : List Byte := t.map (fun c => BitVec.ofNat 8 c.toNat)

/-- What the RSA key signs for a transcript hash: four times the version's prefix, the context in 36 bytes, the hash. -/
def spdmSigned (context hash : List Byte) : List Byte :=
  (List.replicate 4 (textBytes "dmtf-spdm-v1.3.*".toList)).flatten ++ List.replicate (36 - context.length) 0 ++ context ++ hash

/-- The transcript hash that both signatures of an answer sign: the transcript, the request, and the answer without the two
signatures, of which one stands in its OpaqueData of 16,224 bytes. -/
def transcriptHash (transcript request front nonce part context : List Byte) : List Byte :=
  sha384 (transcript ++ request ++ front ++ nonce ++ part ++ leBytes 2 16224 ++ context)

/-- A signed answer: its front, a nonce, a part, the SLH-DSA signature as OpaqueData, the requester's context, and the RSA
signature (R344). -/
def signedAnswer (s : State) (purpose transcript request front part context : List Byte) : List Byte :=
  let nonce := (List.range 32).map (fun i => Config.nonceByte i s.tick)
  let hash := transcriptHash transcript request front nonce part context
  front ++ nonce ++ part ++ leBytes 2 16224 ++ (List.range 16224).map (Config.slhSign hash) ++ context ++
    (List.range 384).map (Config.rsaSign (spdmSigned purpose hash))

/-! ### The requests -/

/-- GET_VERSION starts a new transcript; the answer names version 1.3. -/
def execSpdmGetVersion (via : SpdmPath) (request : List Byte) (s : State) : Host.Outcome State Fault Refusal :=
  .next (respond s via request [0x10, 0x04, 0, 0, 0, 1, 0, 0x13] (fun _ bs => ⟨bs, [], []⟩))

/-- The capability flags: certificates, CHALLENGE and signed measurements; of the others, caching and fresh measurements are not
given, and none else is supported (R344). -/
def spdmFlags : Nat := 0x16 + b2n (bit Config.spdmFree 0) + 32 * b2n (bit Config.spdmFree 5)

/-- GET_CAPABILITIES. -/
def execSpdmGetCapabilities (via : SpdmPath) (request : List Byte) (s : State) : Host.Outcome State Fault Refusal :=
  .next (respond s via request (spdmHead 0x61 0 0 ++ [0, BitVec.ofNat 8 Config.spdmLimits.1, 0, 0] ++ leBytes 4 spdmFlags ++
    leBytes 4 Config.spdmLimits.2.1 ++ leBytes 4 Config.spdmLimits.2.2) joinFirst)

/-- NEGOTIATE_ALGORITHMS: of what the request offers, DMTF measurements with SHA-384 values, TPM_ALG_RSASSA_3072 and
TPM_ALG_SHA_384 (R344). -/
def execSpdmNegotiateAlgorithms (via : SpdmPath) (request : List Byte) (s : State) : Host.Outcome State Fault Refusal :=
  let dmtf := requestField request 6 1 % 2
  .next (respond s via request (spdmHead 0x63 0 0 ++ [36, 0, BitVec.ofNat 8 dmtf, Config.spdmOther] ++ leBytes 4 (4 * dmtf) ++
    leBytes 4 (requestField request 8 4 &&& 4) ++ leBytes 4 (requestField request 12 4 &&& 2) ++ List.replicate 16 0) joinFirst)

/-- GET_DIGESTS: the digest of the one chain, in slot 0. -/
def execSpdmGetDigests (via : SpdmPath) (request : List Byte) (s : State) : Host.Outcome State Fault Refusal :=
  .next (respond s via request (spdmHead 0x01 1 1 ++ chainHash) joinCerts)

/-- GET_CERTIFICATE: a part of the chain in slot 0, or its size; InvalidRequest for another slot or past its end. -/
def execSpdmGetCertificate (via : SpdmPath) (request : List Byte) (s : State) : Host.Outcome State Fault Refusal :=
  .next (
    let o := requestField request 4 2
    let n := min (requestField request 6 2) (Config.certChain.length - o)
    if requestField request 2 1 % 16 ≠ 0 then reply s via (spdmError 1 0)
    else if requestField request 3 1 % 2 = 1 then
      respond s via request (spdmHead 0x02 0 0 ++ leBytes 2 0 ++ leBytes 2 Config.certChain.length) joinCerts
    else if o ≥ Config.certChain.length then reply s via (spdmError 1 0)
    else
      respond s via request (spdmHead 0x02 0 0 ++ leBytes 2 n ++ leBytes 2 (Config.certChain.length - o - n) ++
        (Config.certChain.drop o).take n) joinCerts)

/-- The measurement summary that a CHALLENGE asks for: none, that of the trusted computing base, of every block. -/
def summaryOf (s : State) (what : Nat) : Option (List Byte) :=
  let blocks := List.range' 1 4
  if what = 0 then some []
  else if what = 1 then some (sha384 ((blocks.filter (fun n => Config.tcbBlock n)).flatMap (measureBlock s)))
  else if what = 0xFF then some (sha384 (blocks.flatMap (measureBlock s)))
  else none

/-- CHALLENGE: ERROR Unspecified without the identity keys, InvalidRequest for another slot or summary, else a signed
CHALLENGE_AUTH over parts A and B, the request and the answer. -/
def execSpdmChallenge (via : SpdmPath) (request : List Byte) (s : State) : Host.Outcome State Fault Refusal :=
  .next (
    if s.keys.getLsbD 0 = false then reply s via (spdmError 5 0)
    else if requestField request 2 1 ≠ 0 then reply s via (spdmError 1 0)
    else
      match summaryOf s (requestField request 3 1) with
      | none => reply s via (spdmError 1 0)
      | some summary =>
        { respond s via request (signedAnswer s (textBytes "responder-challenge_auth signing".toList)
            (s.transcript.vca ++ s.transcript.certs) request (spdmHead 0x03 0 1 ++ chainHash) summary (requestContext request 36))
            joinSigned with tick := s.tick + 1 })

/-- GET_MEASUREMENTS (R344): the fourth byte asks for the number of blocks (0), one block, or all (0xFF), and bit 0 of the
third for a signature over part A and the measurements since; ERROR Unspecified to a signed request without the identity keys,
InvalidRequest to another block or slot. -/
def execSpdmGetMeasurements (via : SpdmPath) (request : List Byte) (s : State) : Host.Outcome State Fault Refusal :=
  .next (
    let signed := (nth request 0 2).getLsbD 0
    let what := (nth request 0 3).toNat
    let blocks := if what = 0xFF then List.range' 1 4 else if 1 ≤ what ∧ what ≤ 4 then [what] else []
    let record := blocks.flatMap (measureBlock s)
    let front := spdmHead 0x60 (if what = 0 then 4 else 0) 0 ++ leBytes 1 blocks.length ++ leBytes 3 record.length ++ record
    if signed ∧ s.keys.getLsbD 0 = false then reply s via (spdmError 5 0)
    else if (what ≠ 0 ∧ blocks = []) ∨ (signed ∧ requestField request 36 1 % 16 ≠ 0) then reply s via (spdmError 1 0)
    else if signed then
      { respond s via request (signedAnswer s (textBytes "responder-measurements signing".toList)
          (s.transcript.vca ++ s.transcript.meas) request front [] (requestContext request 37)) joinSigned with
        tick := s.tick + 1 }
    else
      let nonce := (List.range 32).map (fun i => Config.nonceByte i s.tick)
      { respond s via request (front ++ nonce ++ [0, 0] ++ requestContext request 4) joinMeas with tick := s.tick + 1 })

/-- Key exchange, sessions and mutual authentication: ERROR UnsupportedRequest with the request's code. -/
def execSpdmUnsupportedRequest (via : SpdmPath) (request : List Byte) (s : State) : Host.Outcome State Fault Refusal :=
  .next (reply s via (spdmError 7 (nth request 0 1).toNat))

end Sys2Proof.Machine
end

