-- ==== Sys2Proof/Machine/Integer.lean ====
section
/-! DEFINITION. The integer, bit, move and address words of class 1 (R79–R91) and the lane functions they share with the
compact operations of PAIR (R28). -/
namespace Sys2Proof.Machine

/-! ### One lane -/

/-- An exact integer operation on each sub-element, wrapped or saturated to the type (R79). -/
def exactLane (t : Nat) (sat : Bool) (f : Int → Int → Int) (a b : Word) : Word :=
  let w := fmtBits t
  let sg := fmtSigned t
  map2 w (fun x y =>
    let r := f (elemInt sg w x) (elemInt sg w y)
    wrap (if sat then satBy sg r w else r) w) a b

def iaddLane (t : Nat) (sat : Bool) (a b : Word) : Word := exactLane t sat (fun x y => x + y) a b
def isubLane (t : Nat) (sat : Bool) (a b : Word) : Word := exactLane t sat (fun x y => x - y) a b
def imulLane (t : Nat) (sat : Bool) (a b : Word) : Word := exactLane t sat (fun x y => x * y) a b
def iminLane (t : Nat) (a b : Word) : Word := exactLane t false min a b
def imaxLane (t : Nat) (a b : Word) : Word := exactLane t false max a b
def iabsdLane (t : Nat) (a b : Word) : Word := exactLane t false (fun x y => ((x - y).natAbs : Int)) a b

/-- The high half of the exact product (R80). -/
def imulhLane (t : Nat) (su : Bool) (a b : Word) : Word :=
  let w := fmtBits t
  let sg := fmtSigned t
  map2 w (fun x y =>
    let y' : Int := if su then (y : Int) else elemInt sg w y
    wrap (elemInt sg w x * y' / 2 ^ w) w) a b

/-- a × b + c in one step (R79). -/
def imadLane (t : Nat) (sat : Bool) (a b c : Word) : Word :=
  let w := fmtBits t
  let sg := fmtSigned t
  map3 w (fun x y z =>
    let r := elemInt sg w x * elemInt sg w y + elemInt sg w z
    wrap (if sat then satBy sg r w else r) w) a b c

/-- min(a + b, c), the sum exact (R82). -/
def iaddminLane (t : Nat) (a b c : Word) : Word :=
  let w := fmtBits t
  let sg := fmtSigned t
  map3 w (fun x y z => wrap (satBy sg (min (elemInt sg w x + elemInt sg w y) (elemInt sg w z)) w) w) a b c

/-- SHL (R86). -/
def shlLane (t : Nat) (sat : Bool) (a b : Word) : Word :=
  let w := fmtBits t
  let sg := fmtSigned t
  map2 w (fun x c =>
    let c := min c 128
    if sat then wrap (satBy sg (elemInt sg w x * 2 ^ c) w) w else x * 2 ^ c) a b

/-- SHR (R86). -/
def shrLane (t : Nat) (a b : Word) : Word := map2 (fmtBits t) (fun x c => x / 2 ^ min c 128) a b

/-- SHRA (R86). -/
def shraLane (t : Nat) (rnd : Bool) (a b : Word) : Word :=
  let w := fmtBits t
  map2 w (fun x c =>
    let c := min c 128
    let v := sext x w
    wrap (if c = 0 then v else if rnd then (v + 2 ^ (c - 1)) / 2 ^ c else v / 2 ^ c) w) a b

/-- Position and length of a bit field in an element of width `w` (R87). -/
def fieldPos (w b : Nat) : Nat × Nat :=
  let pos := b % 256
  if pos ≥ w then (pos, 0) else (pos, min (b / 256 % 256) (w - pos))

/-- BFX (R87). -/
def bfxLane (t : Nat) (a b : Word) : Word :=
  let w := fmtBits t
  map2 w (fun x y =>
    let (pos, len) := fieldPos w y
    let fld := x / 2 ^ pos % 2 ^ len
    if fmtSigned t && len != 0 then wrap (sext fld len) w else fld) a b

/-- BFI (R87). -/
def bfiLane (t : Nat) (a b c : Word) : Word :=
  let w := fmtBits t
  map3 w (fun x y z =>
    let (pos, len) := fieldPos w y
    if len = 0 then x
    else x - (x / 2 ^ pos % 2 ^ len) * 2 ^ pos + (z % 2 ^ len) * 2 ^ pos) a b c

/-- POPC and CLZ (R88). -/
def popcLane (t : Nat) (a : Word) : Word := map1 (fmtBits t) (fun x => popcount x (fmtBits t)) a
def clzLane (t : Nat) (a : Word) : Word :=
  let w := fmtBits t
  map1 w (fun x => if x = 0 then w else w - 1 - ilog2 x) a

/-! ### Bodies -/

/-- The B operand of a lane: the register, or the immediate (R73). -/
def bLane (v : Team) (w : RW) (shift : Bool) (i : Nat) : Word :=
  if bitOf w.md 10 then
    (if shift then
       let b := fmtBits w.ty.toNat
       ofSubs b (List.replicate (64 / b) w.vb.toNat)
     else immLane w.ty.toNat w.vb.toNat)
  else (v.reg w.vb.toNat).lane i

/-- The register sources A and B. -/
def abRegs (w : RW) : List Nat := if bitOf w.md 10 then [w.va.toNat] else [w.va.toNat, w.vb.toNat]

/-- Source B as a line (R76); the immediate is uniform (R73). -/
def bLine (v : Team) (w : RW) (shift : Bool) : Option (Word × Word) :=
  if bitOf w.md 10 then some (bLane v w shift 0, 0) else lineOf (v.reg w.vb.toNat)

/-- The affine shape of a sum or difference (Table 03.2). -/
def addWant (v : Team) (w : RW) (sub sat : Bool) : Want :=
  if v.slane then .general
  else if allUniform v (abRegs w) then .uniform
  else if sat then .general
  else
    match lineOf (v.reg w.va.toNat), bLine v w false with
    | some (a, sa), some (b, sb) =>
      let f := w.ty.toNat
      .affine (lowElem f (if sub then a - b else a + b)) (lowElem f (if sub then sa - sb else sa + sb))
    | _, _ => .general

/-- The affine shape of a product or shift with uniform B (Table 03.2). -/
def mulWant (v : Team) (w : RW) (shift sat : Bool) : Want :=
  if v.slane then .general
  else if allUniform v (abRegs w) then .uniform
  else if sat || !(bitOf w.md 10 || (v.reg w.vb.toNat).isUniform) then .general
  else
    match lineOf (v.reg w.va.toNat), bLine v w shift with
    | some (a, sa), some (b, _) =>
      let f := w.ty.toNat
      let k : Word := if shift then BitVec.ofNat 64 (2 ^ min (sub b (fmtBits f) 0) 128) else lowElem f b
      .affine (lowElem f (a * k)) (lowElem f (sa * k))
    | _, _ => .general

/-- The body of a two-source element-wise word. AND, OR and XOR write the whole 64-bit pattern, bits [63:60] under TYPE 15 and
16 too (DEDUCED, log 81). -/
def binBody (w : RW) (free links shift : Bool) (rt : Nat → Nat) (want : Team → Want) (f : Word → Word → Word) :
    State → Iss → Team → Team → Res := fun s iss v t =>
  let ty := w.ty.toNat
  let rs := abRegs w
  if !typeOk v rs ty free || (links && !linksNone v rs) then formatTrap s iss t
  else
    writeVal s iss t w.vd.toNat (rt (resultFmt v rs ty)) 0 (want v)
      (fun i => f ((v.reg w.va.toNat).lane i) (bLane v w shift i))

/-- The body of a three-source element-wise word. -/
def terBody (w : RW) (free links : Bool) (f : Word → Word → Word → Word) : State → Iss → Team → Team → Res :=
  fun s iss v t =>
  let ty := w.ty.toNat
  let rs := abRegs w ++ [w.vc.toNat]
  if !typeOk v rs ty free || (links && !linksNone v rs) then formatTrap s iss t
  else
    writeVal s iss t w.vd.toNat ty 0 (uniWant v rs)
      (fun i => f ((v.reg w.va.toNat).lane i) (bLane v w false i) ((v.reg w.vc.toNat).lane i))

/-- The body of a one-source bit count (R88). -/
def countBody (w : RW) (f : Word → Word) : State → Iss → Team → Team → Res := fun s iss v t =>
  let rs := [w.va.toNat]
  writeVal s iss t w.vd.toNat (unsignedOf (fmtBits w.ty.toNat)) 0 (uniWant v rs) (fun i => f ((v.reg w.va.toNat).lane i))

/-- IADD (R79). -/
def execIadd (w : RW) (s : State) : Host.Outcome State Fault Refusal :=
  let sat := bitOf w.md 9
  runWord (.r 0x18 w) (binBody w false true false (fun f => f) (fun v => addWant v w false sat) (iaddLane w.ty.toNat sat)) s

/-- ISUB (R79). -/
def execIsub (w : RW) (s : State) : Host.Outcome State Fault Refusal :=
  let sat := bitOf w.md 9
  runWord (.r 0x19 w) (binBody w false true false (fun f => f) (fun v => addWant v w true sat) (isubLane w.ty.toNat sat)) s

/-- The body of IADDC in both directions (R81): the sum or difference, and the carry to PCO. -/
def carryBody (w : RW) (sub : Bool) : State → Iss → Team → Team → Res := fun s iss v t =>
  let rs := [w.va.toNat, w.vb.toNat]
  if !typeOk v rs w.ty.toNat false || !linksNone v rs then formatTrap s iss t
  else
    let out (i : Nat) : Word × Bool :=
      addCarry sub ((v.reg w.va.toNat).lane i).toNat ((v.reg w.vb.toNat).lane i).toNat
        (b2n (bitOf w.md 4 && v.pred i (fieldOf w.md 3 0)))
    let t := writeReg iss t w.vd.toNat w.ty.toNat 0 .general (fun i => (out i).1)
    { s := s, t := writePred t iss.act (fieldOf w.md 8 5) (fun i => (out i).2) }

/-- IADDC (R81). -/
def execIaddc (w : RW) (s : State) : Host.Outcome State Fault Refusal :=
  runWord (.r 0x1A w) (carryBody w false) s

/-- ISUBC: IADDC with SUB (R81). -/
def execIsubc (w : RW) (s : State) : Host.Outcome State Fault Refusal :=
  runWord (.r 0x1A w) (carryBody w true) s

/-- IMUL (R79). -/
def execImul (w : RW) (s : State) : Host.Outcome State Fault Refusal :=
  let sat := bitOf w.md 9
  runWord (.r 0x1B w) (binBody w false true false (fun f => f) (fun v => mulWant v w false sat) (imulLane w.ty.toNat sat)) s

/-- IMULH (R80). -/
def execImulh (w : RW) (s : State) : Host.Outcome State Fault Refusal :=
  runWord (.r 0x1C w) (binBody w false true false (fun f => f) (fun _ => .general)
    (imulhLane w.ty.toNat (bitOf w.md 0))) s

/-- IMAD (R79). -/
def execImad (w : RW) (s : State) : Host.Outcome State Fault Refusal :=
  runWord (.r 0x1D w) (terBody w false true (imadLane w.ty.toNat (bitOf w.md 9))) s

/-- IADDMIN (R82). -/
def execIaddmin (w : RW) (s : State) : Host.Outcome State Fault Refusal :=
  runWord (.r 0x1E w) (terBody w false true (iaddminLane w.ty.toNat)) s

/-- IMIN (R79). -/
def execImin (w : RW) (s : State) : Host.Outcome State Fault Refusal :=
  runWord (.r 0x1F w) (binBody w false true false (fun f => f) (fun v => uniWant v (abRegs w)) (iminLane w.ty.toNat)) s

/-- IMAX (R79). -/
def execImax (w : RW) (s : State) : Host.Outcome State Fault Refusal :=
  runWord (.r 0x20 w) (binBody w false true false (fun f => f) (fun v => uniWant v (abRegs w)) (imaxLane w.ty.toNat)) s

/-- IABSD (R79): the result has the unsigned format of the width. -/
def execIabsd (w : RW) (s : State) : Host.Outcome State Fault Refusal :=
  runWord (.r 0x21 w) (binBody w false true false (fun f => unsignedOf (fmtBits f)) (fun v => uniWant v (abRegs w))
    (iabsdLane w.ty.toNat)) s

/-- ICMP, predicate form (R83). -/
def execIcmp (w : RW) (s : State) : Host.Outcome State Fault Refusal :=
  runWord (.r 0x22 w) (fun s iss v t =>
    let ty := w.ty.toNat
    let b := fmtBits ty
    let j := fieldOf w.md 6 4
    let e (x : Word) : Int := elemInt (fmtSigned ty) b (sub x b j)
    if !typeOk v (abRegs w) ty false || !linksNone v (abRegs w) then formatTrap s iss t
    else
      { s := s, t := writePred t iss.act w.vd.toNat (fun i =>
          intTest (fieldOf w.md 2 0) (e ((v.reg w.va.toNat).lane i)) (e (bLane v w false i))) }) s

/-- ICMP, mask form (R83). -/
def execIcmpMask (w : RW) (s : State) : Host.Outcome State Fault Refusal :=
  let b := fmtBits w.ty.toNat
  let sg := fmtSigned w.ty.toNat
  runWord (.r 0x22 w) (binBody w false true false (fun f => unsignedOf (fmtBits f)) (fun v => uniWant v (abRegs w))
    (map2 b (fun x y => if intTest (fieldOf w.md 2 0) (elemInt sg b x) (elemInt sg b y) then 2 ^ b - 1 else 0))) s

/-- ISEL (R84): whole patterns; the link of the live sources where they agree (R75, R235). -/
def execIsel (w : RW) (s : State) : Host.Outcome State Fault Refusal :=
  runWord (.r 0x23 w) (fun s iss v t =>
    let ty := w.ty.toNat
    let rs := [w.va.toNat, w.vb.toNat]
    let links := (v.liveRegs rs).map (fun n => (v.reg n).link)
    let link := links.head?.getD 0
    if !typeOk v rs ty false || (!v.slane && links.any (fun l => l != link)) then formatTrap s iss t
    else
      writeVal s iss t w.vd.toNat (resultFmt v rs ty) (if v.slane then 0 else link) .general
        (fun i => if v.pred i w.vc.toNat then (v.reg w.va.toNat).lane i else (v.reg w.vb.toNat).lane i)) s

/-- The B operand of AND, OR and XOR, inverted under `.nb` (R85). -/
def nbLane (w : RW) (b : Word) : Word := if bitOf w.md 0 then ~~~b else b

/-- AND (R85). -/
def execAnd (w : RW) (s : State) : Host.Outcome State Fault Refusal :=
  runWord (.r 0x24 w) (binBody w true false false (fun f => f) (fun v => uniWant v (abRegs w)) (fun a b => a &&& nbLane w b)) s

/-- OR (R85). -/
def execOr (w : RW) (s : State) : Host.Outcome State Fault Refusal :=
  runWord (.r 0x25 w) (binBody w true false false (fun f => f) (fun v => uniWant v (abRegs w)) (fun a b => a ||| nbLane w b)) s

/-- XOR (R85). -/
def execXor (w : RW) (s : State) : Host.Outcome State Fault Refusal :=
  runWord (.r 0x26 w) (binBody w true false false (fun f => f) (fun v => uniWant v (abRegs w)) (fun a b => a ^^^ nbLane w b)) s

/-- SHL (R86). -/
def execShl (w : RW) (s : State) : Host.Outcome State Fault Refusal :=
  let sat := bitOf w.md 9
  runWord (.r 0x27 w) (binBody w true false true (fun f => f) (fun v => mulWant v w true sat) (shlLane w.ty.toNat sat)) s

/-- SHR (R86). -/
def execShr (w : RW) (s : State) : Host.Outcome State Fault Refusal :=
  runWord (.r 0x28 w) (binBody w true false true (fun f => f) (fun v => uniWant v (abRegs w)) (shrLane w.ty.toNat)) s

/-- SHRA (R86). -/
def execShra (w : RW) (s : State) : Host.Outcome State Fault Refusal :=
  runWord (.r 0x29 w) (binBody w true false true (fun f => f) (fun v => uniWant v (abRegs w))
    (shraLane w.ty.toNat (bitOf w.md 0))) s

/-- BFX (R87). -/
def execBfx (w : RW) (s : State) : Host.Outcome State Fault Refusal :=
  runWord (.r 0x2A w) (binBody w true false false (fun f => f) (fun v => uniWant v (abRegs w)) (bfxLane w.ty.toNat)) s

/-- BFI (R87). -/
def execBfi (w : RW) (s : State) : Host.Outcome State Fault Refusal :=
  runWord (.r 0x2B w) (terBody w true false (bfiLane w.ty.toNat)) s

/-- POPC (R88). -/
def execPopc (w : RW) (s : State) : Host.Outcome State Fault Refusal :=
  runWord (.r 0x2C w) (countBody w (popcLane w.ty.toNat)) s

/-- CLZ (R88). -/
def execClz (w : RW) (s : State) : Host.Outcome State Fault Refusal :=
  runWord (.r 0x2D w) (countBody w (clzLane w.ty.toNat)) s

/-- A copy of a register to VD for active(t), with the tag that MOV gives it (R76, R89). -/
def movInto (iss : Iss) (v t : Team) (vd va ty : Nat) : Team :=
  let r := v.reg va
  let fmt := if ty = 31 then (if r.isDead then 0 else r.fmt) else ty
  let link := if ty = 31 && !r.isDead && !v.slane then r.link else 0
  let keep := ty == 31 || (affineFmt ty && fmtBits ty == fmtBits r.fmt)
  let want : Want :=
    match r.pay with
    | .uniform _ => .uniform
    | .affine b st => if keep then .affine b st else .general
    | .dead => if ty = 31 then .uniform else .general
    | .general _ => .general
  writeReg iss t vd fmt link (fitWant fmt want r.lane) r.lane

/-- MOV (R89). -/
def execMov (w : RW) (s : State) : Host.Outcome State Fault Refusal :=
  runWord (.r 0x2E w) (fun s iss v t => { s := s, t := movInto iss v t w.vd.toNat w.va.toNat w.ty.toNat }) s

/-- f32 widened to f64; a NaN keeps sign and quiet bit (Table 03.4). -/
def widenF32 (x : Nat) : Nat :=
  if fIsNaN (ffmt 11) x then (x / 2 ^ 31) * 2 ^ 63 + 0x7FF * 2 ^ 52 + x % 2 ^ 23 * 2 ^ 29 else (fConv (ffmt 11) (ffmt 12) 0 false x).1

/-- The body of the whole-register kinds of MOVI (Table 03.4). -/
def moviBody (w : IW) : State → Iss → Team → Team → Res := fun s iss v t =>
  let x := w.imm.toNat
  let (fmt, val) : Nat × Word :=
    match w.md.toNat with
    | 0 => (7, BitVec.ofInt 64 (sext x 32))
    | 1 => (8, BitVec.ofNat 64 x)
    | 2 => (5, ofSubs 32 [x, x])
    | 3 => (6, ofSubs 32 [x, x])
    | 4 => (11, ofSubs 32 [x, x])
    | _ => (12, BitVec.ofNat 64 (widenF32 x))
  { s := s, t := writeReg iss t w.vd.toNat fmt 0 (if v.slane then .general else .uniform) (fun _ => val) }

/-- MOVI, kinds 0 to 5 (R90). -/
def execMovi (w : IW) (s : State) : Host.Outcome State Fault Refusal := runWord (.i 0x2F w) (moviBody w) s

/-- `movi.hi` (R90). VD's format is checked as R90 says, which R230's list of unchecked operands contradicts (log 81). -/
def execMoviHi (w : IW) (s : State) : Host.Outcome State Fault Refusal :=
  runWord (.i 0x2F w) (fun s iss v t =>
    let r := v.reg w.vd.toNat
    if !formatsOk v [w.vd.toNat] (fun f => [7, 8, 0, 21].contains f) then formatTrap s iss t
    else
      writeVal s iss t w.vd.toNat (if r.isDead then 0 else r.fmt) 0 (if r.isUniform && !v.slane then .uniform else .general)
        (fun i => BitVec.ofNat 64 (w.imm.toNat * 2 ^ 32 + (r.lane i).toNat % 2 ^ 32))) s

/-- `movi.lane` (R90). -/
def execMoviLane (w : IW) (s : State) : Host.Outcome State Fault Refusal :=
  runWord (.i 0x2F w) (fun s iss v t =>
    let b := BitVec.ofInt 64 (sext w.imm.toNat 32)
    writeVal s iss t w.vd.toNat 7 0 (if v.slane then .general else .affine b 1) (fun i => b + BitVec.ofNat 64 i)) s

/-- B of MKADDR as an exact integer, by its tag (R91); an untagged S-lane value is read as n64. -/
def addrIndex (v : Team) (n i : Nat) : Int :=
  let r := v.reg n
  let x := (r.lane i).toNat
  if v.slane || r.isDead then (x : Int)
  else if r.fmt = 5 then sext x 32
  else if r.fmt = 6 then ((x % 2 ^ 32 : Nat) : Int)
  else if r.fmt = 7 then sext x 64
  else (x : Int)

/-- An addr value; an offset outside [0, 2^48) becomes all ones (R91). -/
def mkaddrVal (h : Nat) (o : Int) : Word :=
  BitVec.ofNat 64 (h * 2 ^ 48 + (if 0 ≤ o ∧ o < 2 ^ 48 then o.toNat else 2 ^ 48 - 1))

/-- The body of both forms of MKADDR (R91). With affine B of i32 or n32 the stride is that of the values, twice Table 03.2's
(DEDUCED, log 81). -/
def mkaddrBody (w : RW) (aOk : List Nat) (f : Word → Int → Nat × Int) : State → Iss → Team → Team → Res := fun s iss v t =>
  let va := w.va.toNat
  let vb := w.vb.toNat
  if !formatsOk v [va] (fun x => aOk.contains x) || !formatsOk v [vb] (fun x => [5, 6, 7, 8, 0].contains x) then
    formatTrap s iss t
  else
    let sh := fieldOf w.md 3 1
    let parts (i : Nat) : Nat × Int := f ((v.reg va).lane i) (addrIndex v vb i * 2 ^ sh)
    let val (i : Nat) : Word := mkaddrVal (parts i).1 (parts i).2
    let inRange := (List.range 32).all (fun i => 0 ≤ (parts i).2 && (parts i).2 < 2 ^ 48)
    let want : Want :=
      if v.slane then .general
      else if (v.reg va).isUniform && (v.reg vb).isUniform then .uniform
      else if (v.reg va).isUniform && (v.reg vb).shape == 2 && inRange then .affine (val 0) (val 1 - val 0)
      else .general
    writeVal s iss t w.vd.toNat 21 0 want val

/-- MKADDR (R91). -/
def execMkaddr (w : RW) (s : State) : Host.Outcome State Fault Refusal :=
  runWord (.r 0x30 w) (mkaddrBody w [4, 6, 8, 7, 0] (fun a x => (a.toNat % 2 ^ 16, x))) s

/-- `mkaddr.off` (R91). -/
def execMkaddrOff (w : RW) (s : State) : Host.Outcome State Fault Refusal :=
  runWord (.r 0x30 w) (mkaddrBody w [21] (fun a x => (a.toNat / 2 ^ 48, ((a.toNat % 2 ^ 48 : Nat) : Int) + x))) s

end Sys2Proof.Machine
end

