-- ==== Sys2Proof/Machine/Lane.lean ====
section
/-! DEFINITION. The cross-lane words of class 1 (R92–R100). Each waits for the writes to its sources when it issues (R92), so
the view it is given shows every lane whole. -/
namespace Sys2Proof.Machine

/-- The 32 lanes of a register. -/
def allLanes (v : Team) (n : Nat) : List Word := (List.range 32).map (v.reg n).lane

/-- The team's elements of a register in ascending element index, as patterns (R32). -/
def elements (v : Team) (n w : Nat) : List Nat := (allLanes v n).flatMap (fun x => subs x w)

/-- LSHIFT in both directions (R94). With t = 31 the result takes VA's format, raw64 where VA is dead, whatever VB's is
(DEDUCED, log 81). -/
def lshiftBody (w : RW) (down : Bool) : State → Iss → Team → Team → Res := fun s iss v t =>
  let ty := w.ty.toNat
  let va := w.va.toNat
  let vb := w.vb.toNat
  let fill := bitOf w.md 6
  let n := fieldOf w.md 4 0
  let sameB := !fill || (v.reg va).isDead || (v.reg vb).isDead || (v.reg va).fmt == (v.reg vb).fmt
  if !sameB then formatTrap s iss t
  else
    let val (i : Nat) : Word :=
      let src : Int := if down then (i : Int) + n else (i : Int) - n
      if 0 ≤ src ∧ src ≤ 31 then (v.reg va).lane src.toNat
      else if fill then (v.reg vb).lane (src % 32).toNat else 0
    writeVal s iss t w.vd.toNat (resultFmt v [va] ty) 0 .general val

/-- `lshift.up` (R94). -/
def execLshiftUp (w : RW) (s : State) : Host.Outcome State Fault Refusal := runWord (.r 0x31 w) (lshiftBody w false) s

/-- `lshift.dn` (R94). -/
def execLshiftDn (w : RW) (s : State) : Host.Outcome State Fault Refusal := runWord (.r 0x31 w) (lshiftBody w true) s

/-- LPERM (R95). -/
def execLperm (w : RW) (s : State) : Host.Outcome State Fault Refusal :=
  runWord (.r 0x32 w) (fun s iss v t =>
    let ty := w.ty.toNat
    let va := w.va.toNat
    let vb := w.vb.toNat
    let fmt := resultFmt v [va] ty
    let b := fmtBits fmt
    let listed := [0, 1, 2, 3, 4, 5, 6, 7, 8, 9, 10, 11, 12, 13, 14, 18, 21].contains fmt
    if !listed || !formatsOk v [vb] (fun f => typesInt.contains f && fmtBits f == b) then
      formatTrap s iss t
    else
      let es := elements v va b
      writeVal s iss t w.vd.toNat fmt 0 .general
        (fun i => map1 b (fun e => nth es 0 e) ((v.reg vb).lane i))) s

/-- The body of both forms of LBCAST, given the element index (R96). -/
def lbcastInto (s : State) (iss : Iss) (v t : Team) (w : RW) (e : Nat) : Res :=
  let va := w.va.toNat
  let fmt := resultFmt v [va] w.ty.toNat
  let b := fmtBits fmt
  let x := nth (elements v va b) 0 e
  writeVal s iss t w.vd.toNat fmt 0 .uniform (fun _ => ofSubs b (List.replicate (64 / b) x))

/-- LBCAST with an element number (R96). With t = 31 the number of elements is that of VA's format; one beyond it is
ILLEGAL. -/
def execLbcast (w : RW) (s : State) : Host.Outcome State Fault Refusal :=
  runWord (.r 0x33 w) (fun s iss v t =>
    let va := w.va.toNat
    let e := fieldOf w.md 9 1
    if !typeOk v [va] w.ty.toNat false then formatTrap s iss t
    else if e ≥ 32 * fmtElems (resultFmt v [va] w.ty.toNat) then resTrap s t iss.act cILLEGAL
    else lbcastInto s iss v t w e) s

/-- `lbcast.r` (R96). -/
def execLbcastR (w : RW) (s : State) : Host.Outcome State Fault Refusal :=
  runWord (.r 0x33 w) (fun s iss v t =>
    let va := w.va.toNat
    let vb := w.vb.toNat
    let idx (i : Nat) : Word := BitVec.ofNat 64 (sub ((v.reg vb).lane i) (fmtBits (v.reg vb).fmt) 0)
    if !typeOk v [va] w.ty.toNat false || !formatsOk v [vb] (fun f => [5, 6, 7, 8].contains f) then formatTrap s iss t
    else if !equalOver iss.act idx then uniformTrap s iss t
    else lbcastInto s iss v t w (idx (lowest iss.act)).toNat) s

/-- The elements of VA as exact values, the identity in place of those of inactive lanes (R97, R98). -/
def activeElems (iss : Iss) (v : Team) (n w op : Nat) (signed : Bool) : List Int :=
  (List.range 32).flatMap (fun i =>
    (subs ((v.reg n).lane i) w).map (fun x => if iss.act.getLsbD i then elemInt signed w x else identity op w signed))

/-- LREDUCE (R97): the pairwise tree over all elements, saturated at every node under SAT. -/
def execLreduce (w : RW) (s : State) : Host.Outcome State Fault Refusal :=
  runWord (.r 0x34 w) (fun s iss v t =>
    let ty := w.ty.toNat
    let va := w.va.toNat
    let op := fieldOf w.md 2 0
    let sg := fmtSigned ty
    let b := fmtBits ty
    let wide := bitOf w.md 5
    let nb := if wide then 64 else b
    if !typeOk v [va] ty false || !linksNone v [va] then formatTrap s iss t
    else
      let node (x y : Int) : Int := intoType sg nb (bitOf w.md 9) (combine op nb x y)
      let r := (pairTree node 8 (activeElems iss v va b op sg)).head?.getD 0
      let x := wrap r nb
      let fmt := if wide then (if sg then 7 else 8) else ty
      writeVal s iss t w.vd.toNat fmt 0 .uniform
        (fun _ => if wide then BitVec.ofNat 64 x else ofSubs b (List.replicate (64 / b) x))) s

/-- Prefix combinations: each element paired with the accumulator before it and after it (R98). -/
def scanList (node : Int → Int → Int) (acc : Int) : List Int → List (Int × Int)
  | [] => []
  | x :: xs => (acc, node acc x) :: scanList node (node acc x) xs

/-- LSCAN (R98). -/
def execLscan (w : RW) (s : State) : Host.Outcome State Fault Refusal :=
  runWord (.r 0x35 w) (fun s iss v t =>
    let ty := w.ty.toNat
    let va := w.va.toNat
    let op := fieldOf w.md 2 0
    let sg := fmtSigned ty
    let b := fmtBits ty
    let k := 64 / b
    if !typeOk v [va] ty false || !linksNone v [va] then formatTrap s iss t
    else
      let node (x y : Int) : Int := intoType sg b false (combine op b x y)
      let out := (scanList node (identity op b sg) (activeElems iss v va b op sg)).map
        (fun p => wrap (if bitOf w.md 6 then p.1 else p.2) b)
      writeVal s iss t w.vd.toNat ty 0 .general (fun i => ofSubs b ((out.drop (i * k)).take k))) s

/-- The stable merge of two key lists by a comparison (R99): where each rank comes from, as (from A, lane). -/
def mergeRanks (le : Nat → Nat → Bool) : Nat → Nat → Nat → List (Bool × Nat)
  | 0, _, _ => []
  | n + 1, i, k =>
    if k = 32 ∨ (i < 32 ∧ le i k = true) then (true, i) :: mergeRanks le n (i + 1) k
    else (false, k) :: mergeRanks le n i (k + 1)

/-- The ranks of a merge of the keys of two registers (R99). -/
def mergeKeys (v : Team) (signed : Bool) (a b : Nat) : List (Bool × Nat) :=
  mergeRanks (fun i k => elemInt signed 64 ((v.reg a).lane i).toNat ≤ elemInt signed 64 ((v.reg b).lane k).toNat) 64 0 0

/-- The lanes of one half of a merged stream. -/
def mergeHalf (v : Team) (ranks : List (Bool × Nat)) (a b half : Nat) (i : Nat) : Word :=
  let r := nth ranks (true, 0) (32 * half + i)
  if r.1 then (v.reg a).lane r.2 else (v.reg b).lane r.2

/-- VMERGE (R99). -/
def execVmerge (w : RW) (s : State) : Host.Outcome State Fault Refusal :=
  runWord (.r 0x36 w) (fun s iss v t =>
    let ty := w.ty.toNat
    let a := w.va.toNat
    let b := w.vb.toNat
    let d := w.vd.toNat
    if !typeOk v [a, b] ty false || !linksNone v [a, b] then formatTrap s iss t
    else if !wholeTeam iss t then resTrap s t iss.lanes cUNIFORM
    else
      let rk := mergeKeys v (fmtSigned ty) a b
      { s := s, t := writeAll (writeAll t d ty 0 (mergeHalf v rk a b 0)) (d + 1) ty 0 (mergeHalf v rk a b 1) }) s

/-- VMERGEKV (R100). -/
def execVmergekv (w : RW) (s : State) : Host.Outcome State Fault Refusal :=
  runWord (.r 0x37 w) (fun s iss v t =>
    let ty := w.ty.toNat
    let a := w.va.toNat
    let b := w.vb.toNat
    let d := w.vd.toNat
    if !typeOk v [a, b] ty false || !linksNone v [a, b, a + 1, b + 1] ||
        !formatsOk v [a + 1, b + 1] (fun f => [7, 8, 12, 0, 21].contains f) then formatTrap s iss t
    else if !wholeTeam iss t then resTrap s t iss.lanes cUNIFORM
    else
      let rk := mergeKeys v (fmtSigned ty) a b
      let fmt := if sameFmt v [a + 1, b + 1] then commonFmt v [a + 1, b + 1] else 0
      let t := writeAll (writeAll t d ty 0 (mergeHalf v rk a b 0)) (d + 1) ty 0 (mergeHalf v rk a b 1)
      { s := s, t := writeAll (writeAll t (d + 2) fmt 0 (mergeHalf v rk (a + 1) (b + 1) 0)) (d + 3) fmt 0
          (mergeHalf v rk (a + 1) (b + 1) 1) }) s

end Sys2Proof.Machine
end

