-- ==== Sys2Proof/Machine/FloatWords.lean ====
section
/-! DEFINITION. The words of class 2 (R101–R127): IEEE arithmetic, conversions, and the narrow formats with their block
scales. -/
namespace Sys2Proof.Machine

/-! ### IEEE words -/

/-- The results of a lane's sub-elements as a word, with their flags. -/
def packFlags (b : Nat) (l : List (Nat × Nat)) : Word × Nat := (ofSubs b (l.map (·.1)), orFlags (l.map (·.2)))

/-- A float result with sticky flags from the lanes of active(t) (R103, R104, R107). -/
def writeFloat (s : State) (iss : Iss) (t : Team) (vd fmt : Nat) (want : Want) (val : Nat → Word × Nat) : Res :=
  let t' := writeReg iss t vd fmt 0 want (fun i => (val i).1)
  { s := s, t := t'.setFlags (orFlags ((lanesOf iss.act).map (fun i => (val i).2))) }

/-- Uniform where the sources are and the lanes agree: with a narrow TYPE equal patterns can have unequal scales (R103,
R232). -/
def narrowUni (v : Team) (rs : List Nat) (val : Nat → Word × Nat) : Want :=
  if (List.range 32).all (fun i => (val i).1 == (val 0).1) then uniWant v rs else .general

/-- IEEE sources: tag format TYPE and link 0 (R102). -/
def ieeeOk (v : Team) (rs : List Nat) (ty : Nat) : Bool := formatsOk v rs (fun f => f == ty) && linksNone v rs

/-- The body of an IEEE word over sub-elements of up to three sources (R107). -/
def ieeeBody (vd ty : Nat) (rs : List Nat) (fmt : Nat) (f : Nat → Nat → Nat → Nat × Nat) : State → Iss → Team → Team → Res :=
  fun s iss v t =>
  let b := fmtBits ty
  let x (k i j : Nat) : Nat := sub ((v.reg (nth rs 0 k)).lane i) b j
  if !ieeeOk v rs ty then formatTrap s iss t
  else
    writeFloat s iss t vd fmt (uniWant v rs)
      (fun i => packFlags b ((List.range (64 / b)).map (fun j => f (x 0 i j) (x 1 i j) (x 2 i j))))

def rmOf (w : RW) : Nat := fieldOf w.md 1 0
def ftzOf (w : RW) : Bool := bitOf w.md 2

/-! ### Narrow words -/

/-- The scale bytes of a narrow register, one per block; a dead register brings the smallest scale (R118, R235). -/
def scalesOf (v : Team) (n ty : Nat) : List Nat :=
  let r := v.reg n
  (List.range (fmtElems ty)).map (fun b =>
    if r.isDead then (if ty = 18 then 0x81 else 0)
    else if r.link = 0 then zeroScale ty
    else scaleByte (v.scaleReg (r.link - 1)) b)

/-- The codes of block `b` of a register (R118): 32 consecutive elements. -/
def blockCodes (v : Team) (n ty b : Nat) : List Nat := ((elements v n (fmtBits ty)).drop (32 * b)).take 32

/-- All elements of a narrow register written, with the scale register that its tag names (R121). -/
def writeBlocks (t : Team) (vd ty link : Nat) (codes : List Nat) : Team :=
  let k := fmtElems ty
  writeAll t vd ty link (fun i => ofSubs (fmtBits ty) ((codes.drop (i * k)).take k))

/-- The flags of a sequence of elements, `k` to a lane, that active fibres hold (R104). The lane is that of the narrow
register, QCVT's destination and DQCVT's source (DEDUCED, log 95). -/
def activeFlags (act : BitVec 32) (k : Nat) (l : List (Nat × Nat)) : Nat :=
  orFlags ((l.zipIdx.filter (fun p => act.getLsbD (p.2 / k))).map (fun p => p.1.2))

/-- Elements with their flags written to a narrow register, with the scale register that its tag names. -/
def writeElems (s : State) (iss : Iss) (t : Team) (vd ty x : Nat) (l : List (Nat × Nat)) : Res :=
  { s := s, t := (writeBlocks t vd ty (x + 1) (l.map (·.1))).setFlags (activeFlags iss.act (fmtElems ty) l) }

/-- A scale register whose first bytes are new; QCVT with FIX keeps the bytes past its blocks (R122). -/
def newScale (keep : Bool) (old : BitVec 128) (bs : List Nat) : BitVec 128 :=
  scaleOf (bs ++ (if keep then (List.range' bs.length (16 - bs.length)).map (scaleByte old) else []))

/-- A narrow result of whole blocks: codes with flags, and the new scale register (R125). -/
def writeQuant (s : State) (iss : Iss) (t : Team) (vd ty x : Nat) (keep : Bool) (blocks : List (Nat × List (Nat × Nat))) : Res :=
  let t := t.setScale x (newScale keep (t.scaleReg x) (blocks.map (fun b => b.1)))
  writeElems s iss t vd ty x (blocks.flatMap (fun b => b.2))

/-- The body of a block-scaled element-wise word (R125). -/
def narrowBody (w : RW) (rs : List Nat) (op : NOp) : State → Iss → Team → Team → Res := fun s iss v t =>
  let ty := w.ty.toNat
  if !formatsOk v rs (fun f => f == ty) then formatTrap s iss t
  else if !wholeTeam iss t then resTrap s t iss.lanes cUNIFORM
  else
    let blocks := (List.range (fmtElems ty)).map (fun b =>
      blockOp op ty (rs.map (fun n => (nth (scalesOf v n ty) 0 b, blockCodes v n ty b))))
    writeQuant s iss t w.vd.toNat ty (fieldOf w.md 10 7) false blocks

/-- An arithmetic word: IEEE or narrow by its TYPE (R101). -/
def arithBody (w : RW) (rs : List Nat) (op : NOp) (f : Nat → Nat → Nat → Nat × Nat) : State → Iss → Team → Team → Res :=
  if isNarrow w.ty.toNat then narrowBody w rs op else ieeeBody w.vd.toNat w.ty.toNat rs w.ty.toNat f

def vaR (w : RW) : List Nat := [w.va.toNat]
def vabR (w : RW) : List Nat := [w.va.toNat, w.vb.toNat]
def vabcR (w : RW) : List Nat := [w.va.toNat, w.vb.toNat, w.vc.toNat]

/-- FADD (R107, R125). -/
def execFadd (w : RW) (s : State) : Host.Outcome State Fault Refusal :=
  runWord (.r 0x38 w) (arithBody w (vabR w) .add (fun a b _ => fAdd (ffmt w.ty.toNat) (rmOf w) (ftzOf w) a b)) s

/-- FSUB (R107, R125). -/
def execFsub (w : RW) (s : State) : Host.Outcome State Fault Refusal :=
  runWord (.r 0x39 w) (arithBody w (vabR w) .sub (fun a b _ => fSub (ffmt w.ty.toNat) (rmOf w) (ftzOf w) a b)) s

/-- FMUL (R107, R125). -/
def execFmul (w : RW) (s : State) : Host.Outcome State Fault Refusal :=
  runWord (.r 0x3A w) (arithBody w (vabR w) .mul (fun a b _ => fMul (ffmt w.ty.toNat) (rmOf w) (ftzOf w) a b)) s

/-- FFMA (R107, R125). -/
def execFfma (w : RW) (s : State) : Host.Outcome State Fault Refusal :=
  runWord (.r 0x3B w) (arithBody w (vabcR w) .fma (fun a b c => fFma (ffmt w.ty.toNat) (rmOf w) (ftzOf w) a b c)) s

/-- FDIV (R107). -/
def execFdiv (w : RW) (s : State) : Host.Outcome State Fault Refusal :=
  runWord (.r 0x3C w) (ieeeBody w.vd.toNat w.ty.toNat (vabR w) w.ty.toNat
    (fun a b _ => fDiv (ffmt w.ty.toNat) (rmOf w) (ftzOf w) a b)) s

/-- FMIN (R108, R125). -/
def execFmin (w : RW) (s : State) : Host.Outcome State Fault Refusal :=
  runWord (.r 0x3D w) (arithBody w (vabR w) .min
    (fun a b _ => fMinMax (ffmt w.ty.toNat) false (bitOf w.md 3) (ftzOf w) a b)) s

/-- FMAX (R108, R125). -/
def execFmax (w : RW) (s : State) : Host.Outcome State Fault Refusal :=
  runWord (.r 0x3E w) (arithBody w (vabR w) .max
    (fun a b _ => fMinMax (ffmt w.ty.toNat) true (bitOf w.md 3) (ftzOf w) a b)) s

/-- A narrow element's code with a subnormal replaced by the zero of its sign (R40, Ftz). -/
def narrowFtz (ty : Nat) (on : Bool) (c : Nat) : Nat :=
  let (mant, top) : Nat × Nat :=
    if ty = 13 then (3, 0x80) else if ty = 14 then (2, 0x80) else if ty = 15 then (3, 0x20) else if ty = 16 then (2, 0x20)
    else if ty = 17 then (1, 8) else (0, 0x80)
  if on && ty != 1 && ty != 18 && c % top < 2 ^ mant then c / top * top else c

/-- One test of FCMP: sub-elements as values, and whether it sets F.NV (R109). A narrow NaN is never signalling (DEDUCED,
log 82). -/
def fcmpTest (v : Team) (w : RW) (i j : Nat) : Bool × Nat :=
  let ty := w.ty.toNat
  let b := fmtBits ty
  let a := sub ((v.reg w.va.toNat).lane i) b j
  let c := sub ((v.reg w.vb.toNat).lane i) b j
  let cond := fieldOf w.md 3 0
  let fz := bitOf w.md 5
  if isNarrow ty then
    let blk := (i * fmtElems ty + j) / 32
    let x (n e : Nat) : FVal := narrowValue ty (nth (scalesOf v n ty) 0 blk) (narrowFtz ty fz e)
    let p := x w.va.toNat a
    let q := x w.vb.toNat c
    (fTest cond p q, if bitOf w.md 4 && (p == .nan || q == .nan) then 1 else 0)
  else
    let f := ffmt ty
    let a := ftz f fz a
    let c := ftz f fz c
    let nv := fIsSNaN f a || fIsSNaN f c || (bitOf w.md 4 && (fIsNaN f a || fIsNaN f c))
    (fTest cond (fDecode f a) (fDecode f c), b2n nv)

/-- FCMP's source formats (R102). -/
def fcmpOk (v : Team) (w : RW) : Bool :=
  if isNarrow w.ty.toNat then formatsOk v (vabR w) (fun f => f == w.ty.toNat) else ieeeOk v (vabR w) w.ty.toNat

/-- FCMP, predicate form (R109). -/
def execFcmp (w : RW) (s : State) : Host.Outcome State Fault Refusal :=
  runWord (.r 0x3F w) (fun s iss v t =>
    let j := fieldOf w.md 10 7
    if !fcmpOk v w then formatTrap s iss t
    else
      let t' := writePred t iss.act w.vd.toNat (fun i => (fcmpTest v w i j).1)
      { s := s, t := t'.setFlags (orFlags ((lanesOf iss.act).map (fun i => (fcmpTest v w i j).2))) }) s

/-- FCMP, mask form (R109). -/
def execFcmpMask (w : RW) (s : State) : Host.Outcome State Fault Refusal :=
  runWord (.r 0x3F w) (fun s iss v t =>
    let b := fmtBits w.ty.toNat
    if !fcmpOk v w then formatTrap s iss t
    else
      let val (i : Nat) : Word × Nat := packFlags b ((List.range (64 / b)).map (fun j =>
        ((if (fcmpTest v w i j).1 then 2 ^ b - 1 else 0), (fcmpTest v w i j).2)))
      writeFloat s iss t w.vd.toNat (unsignedOf b) (narrowUni v (vabR w) val) val) s

/-- FRCP (R111–R113). -/
def execFrcp (w : RW) (s : State) : Host.Outcome State Fault Refusal :=
  runWord (.r 0x40 w) (ieeeBody w.vd.toNat w.ty.toNat (vaR w) w.ty.toNat (fun a _ _ => fRcp w.ty.toNat (ftzOf w) a)) s

/-- FRSQ (R111–R113). -/
def execFrsq (w : RW) (s : State) : Host.Outcome State Fault Refusal :=
  runWord (.r 0x41 w) (ieeeBody w.vd.toNat w.ty.toNat (vaR w) w.ty.toNat (fun a _ _ => fRsq w.ty.toNat (ftzOf w) a)) s

/-- FSQRT (R111). -/
def execFsqrt (w : RW) (s : State) : Host.Outcome State Fault Refusal :=
  runWord (.r 0x42 w) (ieeeBody w.vd.toNat w.ty.toNat (vaR w) w.ty.toNat
    (fun a _ _ => fSqrt (ffmt w.ty.toNat) (rmOf w) (ftzOf w) a)) s

/-- FEXP2 (R111–R113). -/
def execFexp2 (w : RW) (s : State) : Host.Outcome State Fault Refusal :=
  runWord (.r 0x43 w) (ieeeBody w.vd.toNat w.ty.toNat (vaR w) w.ty.toNat (fun a _ _ => fExp2 w.ty.toNat (ftzOf w) a)) s

/-- FLOG2 (R111–R113). -/
def execFlog2 (w : RW) (s : State) : Host.Outcome State Fault Refusal :=
  runWord (.r 0x44 w) (ieeeBody w.vd.toNat w.ty.toNat (vaR w) w.ty.toNat (fun a _ _ => fLog2 w.ty.toNat (ftzOf w) a)) s

/-- FSINCOS (R113): the sine to VD, the cosine to VD + 1. -/
def execFsincos (w : RW) (s : State) : Host.Outcome State Fault Refusal :=
  runWord (.r 0x45 w) (fun s iss v t =>
    let ty := w.ty.toNat
    let b := fmtBits ty
    if !ieeeOk v (vaR w) ty then formatTrap s iss t
    else
      let both (i : Nat) : List (Nat × Nat × Nat) :=
        (List.range (64 / b)).map (fun j => fSinCos ty (ftzOf w) (sub ((v.reg w.va.toNat).lane i) b j))
      let t1 := writeReg iss t w.vd.toNat ty 0 (uniWant v (vaR w)) (fun i => ofSubs b ((both i).map (fun x => x.1)))
      let t2 := writeReg iss t1 (w.vd.toNat + 1) ty 0 (uniWant v (vaR w)) (fun i => ofSubs b ((both i).map (fun x => x.2.1)))
      { s := s, t := t2.setFlags (orFlags ((lanesOf iss.act).flatMap (fun i => (both i).map (fun x => x.2.2)))) }) s

/-- FCLASS (R110). -/
def execFclass (w : RW) (s : State) : Host.Outcome State Fault Refusal :=
  runWord (.r 0x46 w) (ieeeBody w.vd.toNat w.ty.toNat (vaR w) (unsignedOf (fmtBits w.ty.toNat))
    (fun a _ _ => (fClass (ffmt w.ty.toNat) a, 0))) s

/-- FRND (R114). -/
def execFrnd (w : RW) (s : State) : Host.Outcome State Fault Refusal :=
  runWord (.r 0x47 w) (ieeeBody w.vd.toNat w.ty.toNat (vaR w) w.ty.toNat
    (fun a _ _ => fRnd (ffmt w.ty.toNat) (rmOf w) (bitOf w.md 3) (ftzOf w) a)) s

/-- FSCALE (R114): n from VB, in the signed integer format of TYPE's width or its unsigned twin, with link 0 (DEDUCED,
log 82). -/
def execFscale (w : RW) (s : State) : Host.Outcome State Fault Refusal :=
  runWord (.r 0x48 w) (fun s iss v t =>
    let ty := w.ty.toNat
    let b := fmtBits ty
    let nOk := formatsOk v [w.vb.toNat] (fun f => [3, 4, 5, 6, 7, 8].contains f && fmtBits f == b) && linksNone v [w.vb.toNat]
    if !ieeeOk v (vaR w) ty || !nOk then formatTrap s iss t
    else
      writeFloat s iss t w.vd.toNat ty (uniWant v (vabR w))
        (fun i => packFlags b ((List.range (64 / b)).map (fun j =>
          fScale (ffmt ty) (rmOf w) (ftzOf w) (sub ((v.reg w.va.toNat).lane i) b j)
            (sext (sub ((v.reg w.vb.toNat).lane i) b j) b))))) s

/-! ### FCVT and ICVT -/

/-- Source formats of FCVT and ICVT (R116, R117). -/
def cvtFormats : List Nat := [1, 2, 3, 4, 5, 6, 7, 8, 9, 10, 11, 12, 19, 20]

/-- Whether PART is legal between two formats (R115). -/
def partOk (src ty part : Nat) : Bool :=
  let ns := fmtElems src
  let nd := fmtElems ty
  if nd < ns then part < ns / nd else if nd > ns then part < nd / ns else part == 0

/-- A lane converted by R115: `conv` maps a source pattern to a result with flags. -/
def cvtLane (src ty part : Nat) (conv : Nat → Nat × Nat) (a old : Word) : Word × Nat :=
  let ns := fmtElems src
  let nd := fmtElems ty
  let bs := fmtBits src
  let bd := fmtBits ty
  if nd ≤ ns then packFlags bd ((List.range nd).map (fun j => conv (sub a bs (part * nd + j))))
  else
    packFlags bd ((List.range nd).map (fun j =>
      if part * ns ≤ j ∧ j < part * ns + ns then conv (sub a bs (j - part * ns)) else (sub old bd j, 0)))

/-- The body of FCVT and ICVT (R115): a narrowing conversion also reads VD. A float source has link 0 (R102), an integer
source any link (DEDUCED, log 82). -/
def cvtBody (w : RW) (conv : Nat → Nat → Nat × Nat) : State → Iss → Team → Team → Res := fun s iss v t =>
  let ty := w.ty.toNat
  let va := w.va.toNat
  let vd := w.vd.toNat
  let part := fieldOf w.md 6 3
  let src := cvtSrc v va ty
  let narrowing := fmtElems ty > fmtElems src
  match (if narrowing then deadOf iss v [vd] else none) with
  | some n => { s := s, t := t, traps := trapAll iss.act { cause := cDEADREAD, reg := n } }
  | none =>
    let linked := typesFloat.contains src && !linksNone v [va]
    if !formatsOk v [va] (fun f => cvtFormats.contains f) || linked || !partOk src ty part then formatTrap s iss t
    else
      let rs := if narrowing then [va, vd] else [va]
      writeFloat s iss t vd ty (uniWant v rs)
        (fun i => cvtLane src ty part (conv src) ((v.reg va).lane i) ((v.reg vd).lane i))

/-- FCVT (R116). -/
def execFcvt (w : RW) (s : State) : Host.Outcome State Fault Refusal :=
  let g := ffmt w.ty.toNat
  runWord (.r 0x49 w) (cvtBody w (fun src x =>
    if typesFloat.contains src then fConv (ffmt src) g (rmOf w) (ftzOf w) x
    else fOfInt g (rmOf w) (ftzOf w) (elemInt (fmtSigned src) (fmtBits src) x))) s

/-- ICVT (R117). -/
def execIcvt (w : RW) (s : State) : Host.Outcome State Fault Refusal :=
  let ty := w.ty.toNat
  runWord (.r 0x4A w) (cvtBody w (fun src x =>
    let b := fmtBits ty
    if typesFloat.contains src then iOfFloat (ffmt src) (rmOf w) (fmtSigned ty) b x
    else
      let n := elemInt (fmtSigned src) (fmtBits src) x
      let sat := bitOf w.md 9 && fmtBits ty ≤ fmtBits src
      (wrap (if sat then satBy (fmtSigned ty) n b else n) b, 0))) s

/-! ### Block conversions -/

/-- A sequence of values cut into blocks of 32. -/
def cutBlocks {α : Type} (n : Nat) (l : List α) : List (List α) := (List.range n).map (fun b => (l.drop (32 * b)).take 32)

/-- The body of both forms of QCVT (R122). -/
def qcvtBody (w : RW) (fix : Bool) : State → Iss → Team → Team → Res := fun s iss v t =>
  let ty := w.ty.toNat
  let src := 9 + fieldOf w.md 2 1
  let x := fieldOf w.md 10 7
  let rs := List.range' w.va.toNat (qcvtRegs (fieldOf w.md 2 1) ty)
  if !ieeeOk v rs src then formatTrap s iss t
  else if !wholeTeam iss t then resTrap s t iss.lanes cUNIFORM
  else
    let vals := (rs.flatMap (fun n => elements v n (fmtBits src))).map (fDecode (ffmt src))
    let old := v.scaleReg x
    let blocks := (cutBlocks (fmtElems ty) vals).zipIdx.map (fun p => blockQcvt ty fix (scaleByte old p.2) p.1)
    writeQuant s iss t w.vd.toNat ty x fix blocks

/-- QCVT (R122). -/
def execQcvt (w : RW) (s : State) : Host.Outcome State Fault Refusal := runWord (.r 0x4B w) (qcvtBody w false) s

/-- `qcvt.fix` (R122). -/
def execQcvtFix (w : RW) (s : State) : Host.Outcome State Fault Refusal := runWord (.r 0x4B w) (qcvtBody w true) s

/-- An exact narrow value written in an IEEE format (R123). Under FTZ a value that is subnormal in TYPE is an input replaced by
the zero of its sign, which sets no flag (R104, R105). -/
def narrowToFloat (ty rm : Nat) (fz : Bool) (x : FVal) : Nat × Nat :=
  let f := ffmt ty
  match x with
  | .nan => (f.canon, 0)
  | .inf neg => (f.inf neg, 0)
  | .fin neg q => if fz && isTiny f q then (f.signBit neg, 0) else fRound f rm fz neg q

/-- DQCVT (R123). A destination is uniform where VA is, R77 holds and its lanes agree (R103, R232). -/
def execDqcvt (w : RW) (s : State) : Host.Outcome State Fault Refusal :=
  runWord (.r 0x4C w) (fun s iss v t =>
    let ty := w.ty.toNat
    let src := dqcvtFmt (fieldOf w.md 5 3)
    let va := w.va.toNat
    if !formatsOk v [va] (fun f => f == src) then formatTrap s iss t
    else if !wholeTeam iss t then resTrap s t iss.lanes cUNIFORM
    else
      let scales := scalesOf v va src
      let vals := (elements v va (fmtBits src)).zipIdx.map (fun p =>
        narrowToFloat ty (rmOf w) (ftzOf w) (narrowValue src (nth scales 0 (p.2 / 32)) p.1))
      let k := fmtElems ty
      let t := (List.range (dqcvtRegs (fieldOf w.md 5 3) ty)).foldl (fun (t : Team) r =>
        let val (i : Nat) : Word :=
          ofSubs (fmtBits ty) ((List.range k).map (fun j => (nth vals (0, 0) ((32 * r + i) * k + j)).1))
        if compactOk iss t && iss.act != 0 && uniWant v [va] == .uniform && equalOver (BitVec.allOnes 32) val then
          t.setReg (w.vd.toNat + r) ⟨ty, 0, .uniform (val 0)⟩
        else writeAll t (w.vd.toNat + r) ty 0 val) t
      { s := s, t := t.setFlags (activeFlags iss.act (fmtElems src) vals) }) s

/-- The values of a narrow register by block (R118). -/
def narrowBlocks (v : Team) (n ty : Nat) : List (List FVal) :=
  (List.range (fmtElems ty)).map (fun b => (blockCodes v n ty b).map (narrowValue ty (nth (scalesOf v n ty) 0 b)))

/-- SCADJ (R124): each block re-expressed at the scales of x[XS]. -/
def execScadj (w : RW) (s : State) : Host.Outcome State Fault Refusal :=
  runWord (.r 0x4D w) (fun s iss v t =>
    let ty := w.ty.toNat
    let x := fieldOf w.md 10 7
    if !formatsOk v (vaR w) (fun f => f == ty) then formatTrap s iss t
    else if !wholeTeam iss t then resTrap s t iss.lanes cUNIFORM
    else
      let sc := v.scaleReg x
      writeElems s iss t w.vd.toNat ty x
        ((narrowBlocks v w.va.toNat ty).zipIdx.flatMap (fun p => blockReexpress ty (scaleByte sc p.2) p.1))) s

/-- `scadj.norm` (R124): each block quantised afresh. -/
def execScadjNorm (w : RW) (s : State) : Host.Outcome State Fault Refusal :=
  runWord (.r 0x4D w) (fun s iss v t =>
    let ty := w.ty.toNat
    if !formatsOk v (vaR w) (fun f => f == ty) then formatTrap s iss t
    else if !wholeTeam iss t then resTrap s t iss.lanes cUNIFORM
    else writeQuant s iss t w.vd.toNat ty (fieldOf w.md 10 7) false ((narrowBlocks v w.va.toNat ty).map (blockQuant ty))) s

/-! ### Dot products and sums -/

/-- The exact sum of a list of values with a zero's sign by R105; .nan for ∞ − ∞ and 0 × ∞. -/
def dotSum (l : List FVal) : FVal := l.foldl exactAdd (.fin true Q.zero)

/-- The rounding of an exact sum to f32, the sign of a zero by the signs of its terms (R105, R126). -/
def dotRound (rm : Nat) (fz : Bool) (terms : List FVal) : Nat × Nat :=
  let f := ffmt 11
  match dotSum terms with
  | .nan => (f.canon, 1)
  | .inf neg => (f.inf neg, 0)
  | .fin neg q =>
    let allZero := terms.all (fun x => match x with
      | .fin _ p => p.isZero
      | _ => false)
    let allPos := terms.all (fun x => match x with
      | .fin s _ => !s
      | _ => false)
    fRound f rm fz (if allZero && (neg || allPos) then neg else rm == 2) q

/-- One group of FDOT's elements (R126): patterns of A and B with their narrow scale, and c. -/
def dotGroup (ty rm : Nat) (fz : Bool) (sa sb : Nat) (xs ys : List Nat) (c : Nat) : Nat × Nat :=
  let f := ffmt ty
  let g := ffmt 11
  if isNarrow ty then
    let a := xs.map (narrowValue ty sa)
    let b := ys.map (narrowValue ty sb)
    if a.contains .nan || b.contains .nan then (g.canon, if fIsSNaN g c then 1 else 0)
    else if fIsNaN g c then (fQuiet g c, b2n (fIsSNaN g c))
    else dotRound rm fz (fDecode g c :: (a.zip b).map (fun p => (fMulVal p.1 p.2).getD .nan))
  else
    let xs := xs.map (ftz f fz)
    let ys := ys.map (ftz f fz)
    let nv := b2n (xs.any (fIsSNaN f) || ys.any (fIsSNaN f) || fIsSNaN g c)
    match (xs ++ ys).find? (fIsNaN f) with
    | some x => (fNaNConv f g x, nv)
    | none =>
      if fIsNaN g c then (fQuiet g c, nv)
      else dotRound rm fz (fDecode g c :: (xs.zip ys).map (fun p => (fMulVal (fDecode f p.1) (fDecode f p.2)).getD .nan))

/-- FDOT (R126). -/
def execFdot (w : RW) (s : State) : Host.Outcome State Fault Refusal :=
  runWord (.r 0x4E w) (fun s iss v t =>
    let ty := w.ty.toNat
    let b := fmtBits ty
    let h := 64 / b / 2
    let abOk := if isNarrow ty then formatsOk v (vabR w) (fun f => f == ty) else ieeeOk v (vabR w) ty
    if !abOk || !ieeeOk v [w.vc.toNat] 11 then formatTrap s iss t
    else
      let one (i g : Nat) : Nat × Nat :=
        let part (n : Nat) : List Nat := ((subs ((v.reg n).lane i) b).drop (g * h)).take h
        let sc (n : Nat) : Nat := nth (scalesOf v n ty) 0 (i * fmtElems ty / 32)
        dotGroup ty (rmOf w) (ftzOf w) (sc w.va.toNat) (sc w.vb.toNat) (part w.va.toNat) (part w.vb.toNat)
          (sub ((v.reg w.vc.toNat).lane i) 32 g)
      let val (i : Nat) : Word × Nat := packFlags 32 [one i 0, one i 1]
      writeFloat s iss t w.vd.toNat 11 (narrowUni v (vabcR w) val) val) s

/-- One node of FSUM's tree (R127). -/
def sumNode (acc rm : Nat) (a b : Option (Nat × Nat)) : Option (Nat × Nat) :=
  match a, b with
  | some x, some y =>
    let r := fAdd (ffmt acc) rm false x.1 y.1
    some (r.1, x.2 ||| y.2 ||| r.2)
  | some x, none => some x
  | none, y => y

/-- FSUM (R127). Under WIDE a signalling NaN is quietened, and sets F.NV, at its conversion (DEDUCED, log 82). -/
def execFsum (w : RW) (s : State) : Host.Outcome State Fault Refusal :=
  runWord (.r 0x4F w) (fun s iss v t =>
    let ty := w.ty.toNat
    let b := fmtBits ty
    let acc := if bitOf w.md 5 then (if ty = 11 then 12 else 11) else ty
    if !ieeeOk v (vaR w) ty then formatTrap s iss t
    else
      let leaf (i x : Nat) : Option (Nat × Nat) :=
        if iss.act.getLsbD i then some (if acc = ty then (x, 0) else fConv (ffmt ty) (ffmt acc) 0 false x) else none
      let leaves := (List.range 32).flatMap (fun i => (subs ((v.reg w.va.toNat).lane i) b).map (leaf i))
      let r := ((pairTree (sumNode acc (rmOf w)) 8 leaves).head?.getD none).getD (0, 0)
      let ab := fmtBits acc
      let t' := writeReg iss t w.vd.toNat acc 0 (uniWant v (vaR w)) (fun _ => ofSubs ab (List.replicate (64 / ab) r.1))
      { s := s, t := if iss.act = 0 then t else t'.setFlags r.2 }) s

end Sys2Proof.Machine
end

