-- ==== Sys2Proof/Machine/Pair.lean ====
section
/-! DEFINITION. The PAIR word: two compact operations, both of which read their sources before either writes (R28–R30). -/
namespace Sys2Proof.Machine

/-- The tag check of a compact operation's sources (R74, R102), as the full instruction it stands for makes it. -/
def copOk (v : Team) (c : Compact) : Bool :=
  let op := copOpcode c.cop.toNat
  let ty := copType c
  let rs := copSrcs c
  if c.cop = 0 ∨ c.cop = 1 then true
  else if c.cop.toNat ≥ 19 then ieeeOk v rs ty
  else
    let free := [0x24, 0x25, 0x26, 0x27, 0x28, 0x29, 0x2C, 0x2D].contains op
    typeOk v rs ty free && (free || linksNone v rs)

/-- The result of a lane of a compact operation, with its flags: the full instruction with default modifiers. -/
def copLane (c : Compact) (a b : Word) : Word × Nat :=
  let ty := copType c
  let f := ffmt ty
  let w := fmtBits ty
  let fl (g : Nat → Nat → Nat × Nat) : Word × Nat :=
    packFlags w ((List.range (64 / w)).map (fun j => g (sub a w j) (sub b w j)))
  match c.cop.toNat with
  | 2 => (iaddLane ty false a b, 0)
  | 3 => (isubLane ty false a b, 0)
  | 4 => (iaddLane ty true a b, 0)
  | 5 => (isubLane ty true a b, 0)
  | 6 => (imulLane ty false a b, 0)
  | 7 => (imulhLane ty false a b, 0)
  | 8 => (iminLane ty a b, 0)
  | 9 => (imaxLane ty a b, 0)
  | 10 => (iabsdLane ty a b, 0)
  | 11 => (a &&& b, 0)
  | 12 => (a ||| b, 0)
  | 13 => (a ^^^ b, 0)
  | 14 => (shlLane ty false a b, 0)
  | 15 => (shrLane ty a b, 0)
  | 16 => (shraLane ty false a b, 0)
  | 17 => (popcLane ty a, 0)
  | 18 => (clzLane ty a, 0)
  | 19 => fl (fAdd f 0 false)
  | 20 => fl (fSub f 0 false)
  | 21 => fl (fMul f 0 false)
  | 22 => fl (fMinMax f false false false)
  | 23 => fl (fMinMax f true false false)
  | 24 => fl (fun x _ => fRcp ty false x)
  | 25 => fl (fun x _ => fRsq ty false x)
  | 26 => fl (fun x _ => fSqrt f 0 false x)
  | 27 => fl (fun x _ => fExp2 ty false x)
  | 28 => fl (fun x _ => fLog2 ty false x)
  | 29 => fl (fAdd f 0 true)
  | 30 => fl (fMul f 0 true)
  | 31 => fl (fSub f 0 true)
  | _ => (a, 0)

/-- The result format of a compact operation. -/
def copFmt (c : Compact) : Nat :=
  let ty := copType c
  if c.cop = 10 ∨ c.cop = 17 ∨ c.cop = 18 then unsignedOf (fmtBits ty) else ty

/-- The word of format R whose shape rule a compact operation shares (R76). -/
def copRW (c : Compact) : RW :=
  ⟨0, 0, BitVec.ofNat 5 (copType c), 0, 0, 0, c.vb.zeroExtend 8, c.va.zeroExtend 8, c.vd.zeroExtend 8⟩

/-- The shape of a compact operation's result (Table 03.2, R103). -/
def copWant (v : Team) (c : Compact) : Want :=
  let w := copRW c
  match c.cop.toNat with
  | 2 => addWant v w false false
  | 3 => addWant v w true false
  | 6 => mulWant v w false false
  | 7 => .general
  | 14 => mulWant v w true false
  | _ => uniWant v (copSrcs c)

/-- One compact operation's write, its sources read from `v`. -/
def copInto (iss : Iss) (v t : Team) (c : Compact) : Team :=
  if c.cop = 0 then t
  else if c.cop = 1 then movInto iss v t c.vd.toNat c.va.toNat 31
  else
    let val (i : Nat) : Word × Nat := copLane c ((v.reg c.va.toNat).lane i) ((v.reg c.vb.toNat).lane i)
    let fmt := copFmt c
    let t' := writeReg iss t c.vd.toNat fmt 0 (fitWant fmt (copWant v c) (fun i => (val i).1)) (fun i => (val i).1)
    t'.setFlags (orFlags ((lanesOf iss.act).map (fun i => (val i).2)))

/-- PAIR (R28). -/
def execPair (w : PW) (s : State) : Host.Outcome State Fault Refusal :=
  runWord (.p w) (fun s iss v t =>
    if !copOk v w.op0 || !copOk v w.op1 then formatTrap s iss t
    else { s := s, t := copInto iss v (copInto iss v t w.op0) w.op1 }) s

end Sys2Proof.Machine
end

