-- ==== Sys2Proof/Machine/Mesh.lean ====
section
/-! DEFINITION. The mesh routers: the classes of traffic, the order in which an output link serves them (R396, R397), credits
(R399), and multicast packets with the holding buffer (R400). -/
namespace Sys2Proof.Machine

/-! ### Output links (R397) -/

/-- A link at which nothing has waited. -/
def idleLink : MeshLink := ⟨[], [], 1, 7⟩

def Core.link (c : Core) (branch : Nat) : MeshLink := mget c.links idleLink branch

/-- Weight of a class at a core's router (Table 24.2). -/
def Core.weight (c : Core) (cls : Nat) : Nat := mget c.meshW 1 cls

/-- The control group's classes and the bulk group's. -/
def groupClasses (control : Bool) : List Nat := if control then [0, 1] else [2, 3, 4, 5, 6, 7]

/-- The first packet of a class that waits. -/
def MeshLink.head (l : MeshLink) (cls : Nat) : Option LinkPacket := l.queue.find? (fun k => k.cls == cls)

def MeshLink.waits (l : MeshLink) (control : Bool) : Bool := (groupClasses control).any (fun c => (l.head c).isSome)

/-- The class that a group serves. -/
def MeshLink.at_ (l : MeshLink) (control : Bool) : Nat := if control then l.ctl else l.bulk

def MeshLink.moveTo (l : MeshLink) (control : Bool) (cls : Nat) : MeshLink :=
  if control then { l with ctl := cls } else { l with bulk := cls }

/-- The class after one in the rounds of its group. -/
def nextClass (control : Bool) (cls : Nat) : Nat :=
  if control then 1 - cls else if cls = 7 then 2 else cls + 1

/-- The next turn of a group's rounds: the following class gets its weight, or a deficit of 0 where none of it waits. -/
def nextTurn (w : Nat → Nat) (control : Bool) (l : MeshLink) : MeshLink :=
  let c := nextClass control (l.at_ control)
  { l.moveTo control c with deficit := mset l.deficit c (if (l.head c).isSome then mget l.deficit 0 c + w c else 0) }

/-- A group of which nothing waits: its deficits are 0, and its next round begins with its first class. -/
def idleGroup (control : Bool) (l : MeshLink) : MeshLink :=
  { l.moveTo control (if control then 1 else 7) with deficit := l.deficit.filter (fun p => !(groupClasses control).contains p.1) }

/-- One packet of a group is sent: turns pass until the head of the class they have come to fits its deficit. `n` bounds the
turns. -/
def sendOf (w : Nat → Nat) (control : Bool) : Nat → MeshLink → MeshLink × Option LinkPacket
  | 0, l => (l, none)
  | n + 1, l =>
    let c := l.at_ control
    match l.head c with
    | some k =>
      if k.flits ≤ mget l.deficit 0 c then
        let l : MeshLink := { l with queue := l.queue.erase k, deficit := mset l.deficit c (mget l.deficit 0 c - k.flits) }
        ((if (l.head c).isSome then l else if l.waits control then nextTurn w control l else idleGroup control l), some k)
      else sendOf w control n (nextTurn w control l)
    | none => sendOf w control n (nextTurn w control l)

/-- The link sends its next packet: one of the bulk group only where no packet of the control group waits. A class comes
round at least every six turns and its deficit reaches five flits within five rounds. -/
def MeshLink.send (w : Nat → Nat) (l : MeshLink) : MeshLink × Option LinkPacket :=
  if l.waits true then sendOf w true 36 l else if l.waits false then sendOf w false 36 l else (l, none)

/-- A link of a router sends up to `n` packets. -/
def serve (branch : Nat) : Nat → Core → Core
  | 0, c => c
  | n + 1, c =>
    match (c.link branch).send c.weight with
    | (l, some k) => serve branch n { c with links := mset c.links branch l, mcSent := c.mcSent ++ [(branch, k.id)] }
    | (_, none) => c

/-! ### Credits (R399) -/

/-- The packets of a class that a branch has taken and whose credits have not come back. -/
def Core.used (c : Core) (branch cls : Nat) : Nat := mget c.credit 0 (8 * branch + cls)

def Core.setUsed (c : Core) (branch cls n : Nat) : Core := { c with credit := mset c.credit (8 * branch + cls) n }

/-- A branch has a credit for a class: it has at least one at first, and how many more the spec does not give. -/
def Core.hasCredit (c : Core) (branch cls : Nat) : Bool := c.used branch cls < Config.meshCredits branch cls + 1

/-- A packet takes a credit and joins those that wait at a link. -/
def joinLink (c : Core) (branch : Nat) (k : LinkPacket) : Core :=
  { c.setUsed branch k.cls (c.used branch k.cls + 1) with
    links := mset c.links branch { c.link branch with queue := (c.link branch).queue ++ [k] } }

/-- A credit comes back for a packet of a class that a link has sent. -/
def creditBack (c : Core) (branch cls : Nat) : Core :=
  if (((c.link branch).queue.filter (fun k => k.cls == cls)).length < c.used branch cls) then
    c.setUsed branch cls (c.used branch cls - 1) else c

/-- Packets that waited at links of a router leave before the next packet comes: as many as each link sends (log 92). -/
def serveAll (tick : Nat) (bs : List Nat) (c : Core) : Core := bs.foldl (fun c b => serve b (Config.meshSends b tick) c) c

/-! ### Classes (R396) -/

/-- The class of a kind of traffic (Table 24.1). -/
def Traffic.cls : Traffic → Nat
  | .counter => 0
  | .remitControl => 0
  | .tlbinv => 0
  | .queueEvent => 0
  | .invalidation => 1
  | .coherence => 1
  | .signal => 1
  | .tokenGrant => 1
  | .access => 2
  | .l2Line => 2
  | .walk => 2
  | .putData => 3
  | .copy => 4
  | .collData => 5
  | .storage => 6
  | .gemv => 6
  | .transit => 7

/-- TLBINV and the invalidations of R293 and R299 travel as multicast packets (R400). -/
def Traffic.multicast (k : Traffic) : Bool := k == .tlbinv || k == .invalidation

/-- The class of a packet. -/
def classOf (k : MeshPacket) : Nat := Traffic.cls k.kind

/-! ### Multicast packets (R400) -/

/-- Whether a branch takes a copy at once: it has a credit and no copy is held for it. -/
def branchFree (c : Core) (k : MeshPacket) (b : Nat) : Bool :=
  c.hasCredit b (classOf k) && !c.mcHeld.any (fun h => h.branch == b)

/-- The branches for which a packet's copies are held. -/
def heldBranches (c : Core) (k : MeshPacket) : List Nat := k.branches.filter (fun b => !branchFree c k b)

/-- Whether a router forwards a packet before which others wait: none of those goes to a branch of its own, and its branch is
free if it is a unicast packet, or the holding buffer takes the copies that are not. -/
def forwards (c : Core) (waiting : List MeshPacket) (k : MeshPacket) : Bool :=
  !waiting.any (fun j => j.branches.any (fun b => k.branches.contains b)) &&
    (if Traffic.multicast k.kind then c.mcHeld.length + (heldBranches c k).length ≤ 32 else (heldBranches c k).isEmpty)

/-- A packet's copies go to their links or are held. -/
def forward (c : Core) (k : MeshPacket) : Core :=
  let held := c.mcHeld ++ (heldBranches c k).map (fun b => (⟨b, k.id, classOf k, k.flits⟩ : HeldCopy))
  (k.branches.filter (branchFree c k)).foldl (fun c b => joinLink c b ⟨k.id, classOf k, k.flits⟩)
    { c with mcHeld := held, mcPeak := max c.mcPeak held.length }

/-- The packets at a router's inputs, in the order in which they reached it, are forwarded or wait whole. -/
def drain : List MeshPacket → List MeshPacket → Core → Core
  | [], waiting, c => { c with mcWait := waiting }
  | k :: ks, waiting, c =>
    if forwards c waiting k then drain ks waiting (forward c k) else drain ks (waiting ++ [k]) c

/-- A packet reaches a router: its copies go to their links or are held, or it waits whole (R400). -/
def execMulticastForward (router : Nat) (k : MeshPacket) (s : State) : Host.Outcome State Fault Refusal :=
  let c := s.core router
  .next { s.setCore router (serveAll s.tick k.branches (drain (c.mcWait ++ [k]) [] c)) with tick := s.tick + 1 }

/-- The oldest copy held for a branch takes the branch's credit, where it has one. -/
def releaseHeld (c : Core) (branch : Nat) : Core :=
  match c.mcHeld.find? (fun h => h.branch == branch) with
  | none => c
  | some h => if c.hasCredit branch h.cls then joinLink { c with mcHeld := c.mcHeld.erase h } branch ⟨h.id, h.cls, h.flits⟩ else c

/-- A branch's credit for a class comes back: its oldest held copy goes to its link, then what waits whole is forwarded where
it can be (R400), and the link sends its next packet (R397). -/
def execHoldingBufferRelease (router : Nat) (k : BranchCredit) (s : State) : Host.Outcome State Fault Refusal :=
  let c := releaseHeld (creditBack (s.core router) k.branch k.cls) k.branch
  .next (s.setCore router (serve k.branch 1 (drain c.mcWait [] c)))

/-- The branches of a router at which packets wait to be sent, held copies wait, or packets wait whole, with their class. -/
def waitingLinks (c : Core) : List (Nat × Nat) :=
  c.links.flatMap (fun p => (p.2.queue.take 1).map (fun k => (p.1, k.cls))) ++ c.mcHeld.map (fun h => (h.branch, h.cls)) ++
    c.mcWait.flatMap (fun k => k.branches.map (fun b => (b, classOf k)))

end Sys2Proof.Machine
end

