-- ==== Sys2Proof/Machine/Control.lean ====
section
/-! DEFINITION. The meanings of the control words of class 0: transfers (R43–R48), fibres and teams (R49–R51), arrival
(R52, R59, R61), regions (R53–R56), predicates (R57, R58), waits (R62, R63), guard slots (R64, R65), issue, system calls
and breakpoints (R66–R69), and tags (R70, R71). -/
namespace Sys2Proof.Machine

/-- NOP (R66). -/
def execNop (w : RW) (s : State) : Host.Outcome State Fault Refusal :=
  runWord (.r 0x00 w) (fun s _ _ t => { s := s, t := t }) s

/-! ### Transfers -/

/-- The immediate target of a transfer word (R43). -/
def immTarget (iss : Iss) (imm : BitVec 32) : Int := (iss.pc : Int) + sext imm.toNat 32 * 8

/-- Every fibre of a mask transfers to one target. -/
def allTo (m : BitVec 32) (tgt : Int) : List (Nat × Int) := (lanesOf m).map (fun i => (i, tgt))

/-- BRA (R45). -/
def execBra (w : IW) (s : State) : Host.Outcome State Fault Refusal :=
  runWord (.i 0x01 w) (fun s iss _ t => transfer s iss t (allTo iss.act (immTarget iss w.imm))) s

/-- Whether the guard is equal across the candidates of BRU. -/
def guardUniform (iss : Iss) : Bool := iss.act == 0 || iss.act == iss.lanes

/-- BRU with an immediate target (R46). -/
def execBru (w : IW) (s : State) : Host.Outcome State Fault Refusal :=
  runWord (.i 0x02 w) (fun s iss _ t =>
    if guardUniform iss then transfer s iss t (allTo iss.act (immTarget iss w.imm))
    else resTrap s t iss.lanes cUNIFORM) s

/-- BRU with a register target (R43, R46). -/
def execBruR (w : IW) (s : State) : Host.Outcome State Fault Refusal :=
  runWord (.i 0x02 w) (fun s iss v t =>
    let va := w.va.toNat
    if !formatsOk v [va] numFmts.contains then
      { s := s, t := t, traps := trapAll iss.act { cause := cFORMAT } ++ strays iss (.i 0x02 w) }
    else if !guardUniform iss || !equalOver iss.act (v.reg va).lane then resTrap s t iss.lanes cUNIFORM
    else transfer s iss t (allTo iss.act ((v.reg va).lane (lowest iss.act)).toNat)) s

/-- An indirect transfer of the active fibres through VA (R43). -/
def indirect (w : RW) (s : State) (iss : Iss) (v t : Team) : Res :=
  let va := w.va.toNat
  if !formatsOk v [va] numFmts.contains then formatTrap s iss t
  else transfer s iss t ((lanesOf iss.act).map (fun i => (i, (((v.reg va).lane i).toNat : Int))))

/-- JMPI (R43). -/
def execJmpi (w : RW) (s : State) : Host.Outcome State Fault Refusal := runWord (.r 0x03 w) (indirect w) s

/-- RET (R47). -/
def execRet (w : RW) (s : State) : Host.Outcome State Fault Refusal := runWord (.r 0x05 w) (indirect w) s

/-- The fibres of a result that do not trap. -/
def passing (iss : Iss) (r : Res) : Iss :=
  { iss with act := maskOf (fun i => iss.act.getLsbD i && !r.traps.any (fun x => x.1 == i)) }

/-- CALL (R47). VD is written for the fibres that pass R14 only (DEDUCED, log 80). -/
def execCall (w : IW) (s : State) : Host.Outcome State Fault Refusal :=
  runWord (.i 0x04 w) (fun s iss _ t =>
    let r := transfer s iss t (allTo iss.act (immTarget iss w.imm))
    { r with t := writeReg (passing iss r) t w.vd.toNat 8 0 .general (fun _ => BitVec.ofNat 64 (iss.pc + 8)) }) s

/-- LOOP (R48). The counter of a fibre whose target fails R14 keeps its value, so that its replay counts once (DEDUCED, log
80). -/
def execLoop (w : IW) (s : State) : Host.Outcome State Fault Refusal :=
  runWord (.i 0x06 w) (fun s iss v t =>
    let va := w.va.toNat
    let c (i : Nat) : Word := (v.reg va).lane i
    if !formatsOk v [va] [8, 7].contains then formatTrap s iss t
    else
      let go := (lanesOf iss.act).filter (fun i => (c i).toNat > 1)
      let r := transfer s iss t (go.map (fun i => (i, immTarget iss w.imm)))
      if (lanesOf iss.act).all (fun i => c i == 0) then r
      else
        let fmt := if (v.reg va).isDead then 8 else (v.reg va).fmt
        let want : Want := if (v.reg va).isUniform then .uniform else .general
        let count (i : Nat) : Word := if c i = 0 then 0 else c i - 1
        { r with t := writeReg (passing iss r) t va fmt 0 want count }) s

/-! ### Fibres and teams -/

/-- FORK's fibres started (R49): after the writes in flight to their slots have been delivered. The new fibres are ready in
the clk after VD is written. -/
def forkTo (w : IW) (s : State) (iss : Iss) (t : Team) (tgt : Nat) (m : BitVec 32) : Res :=
  let clk := (inFlight iss.clk t.pend).foldl (fun a p => if p.wrote &&& m != 0 && p.ready < never then max a p.ready else a) iss.clk
  let t := t.modLanes m (fun _ _ => { freeLane with live := true, pc := tgt, hpc := tgt, earliest := clk + 1 })
  { s := { s with now := max s.now clk },
    t := writeReg iss t w.vd.toNat 8 0 .general (fun _ => BitVec.ofNat 64 m.toNat) }

/-- FORK (R49). A target that fails R14 is recorded as a transfer word's is: lane codes, merged by slot and PC (DEDUCED, log
80). -/
def execFork (w : IW) (s : State) : Host.Outcome State Fault Refusal :=
  runWord (.i 0x07 w) (fun s iss v t =>
    let va := w.va.toNat
    let x (i : Nat) : Word := (v.reg va).lane i
    if iss.act = 0 then { s := s, t := t }
    else if !formatsOk v [va] numFmts.contains then formatTrap s iss t
    else if !equalOver iss.act x then uniformTrap s iss t
    else
      let tgt : Int := (x (lowest iss.act)).toNat
      let code := targetCode s iss.core t.asid t.code tgt
      if code ≠ 0 then { s := s, t := t, traps := trapAll iss.act (transferTrap t.asid t.code code tgt) }
      else
        let m := forkLanes t w.imm
        forkTo w s iss t tgt.toNat m) s

/-- The team after its last fibre has ended, or unchanged (R50). -/
def endIfEmpty (iss : Iss) (r : Res) : Res :=
  match iss.agent with
  | .team core slot =>
    if r.t.liveMask = 0 then { r with s := endEffects r.s core slot r.t.uid, t := r.t.finish r.s.now } else r
  | .ctx _ _ => r

/-- FEND (R50). -/
def execFend (w : RW) (s : State) : Host.Outcome State Fault Refusal :=
  andArrive s (runWord (.r 0x08 w) (fun s iss _ t =>
    endIfEmpty iss { s := s, t := t.modLanes iss.act (fun _ _ => freeLane) }) s)

/-- EXIT (R51). -/
def execExit (w : RW) (s : State) : Host.Outcome State Fault Refusal :=
  andArrive s (runWord (.r 0x09 w) (fun s iss _ t =>
    if iss.act = 0 then { s := s, t := t }
    else endIfEmpty iss { s := s, t := t.modLanes t.liveMask (fun _ _ => freeLane) }) s)

/-! ### Regions -/

/-- The launch of a team has the graft flag (R56, Table 21.1). -/
def graftFlagged (s : State) (lseq : Nat) : Bool :=
  bits (recGet s lseq 144 8) 47 0 == lseq && bit (recGet s lseq 4 1) 0

/-- A region opens, closing the one before it (R53, R54, R56). -/
def execRegionOpen (w : IW) (s : State) (iss : Iss) (v t : Team) : Res :=
  let va := w.va.toNat
  if !holdsRunning iss t || !equalOver iss.lanes (v.reg va).lane then resTrap s t iss.lanes cUNIFORM
  else
    let role := if graftFlagged s t.lseq then fieldOf w.md 1 0 else 0
    let (id, s) := s.fresh
    let reg : Region :=
      { id := id, at_ := iss.pc, entered := iss.final, role := role, pc := nextHeader s iss, livein := (v.reg va).lane (lowest iss.lanes), ctr := w.vd.toNat,
        slot := fieldOf w.imm 7 0 }
    { s := s, t := { t with region := some reg } }

/-- REGION with role 0 (R53). -/
def execRegion (w : IW) (s : State) : Host.Outcome State Fault Refusal := runWord (.i 0x0A w) (execRegionOpen w) s
/-- REGION with role 1 (R56). -/
def execRegionProd (w : IW) (s : State) : Host.Outcome State Fault Refusal := runWord (.i 0x0A w) (execRegionOpen w) s
/-- REGION with role 2 (R56). -/
def execRegionCons (w : IW) (s : State) : Host.Outcome State Fault Refusal := runWord (.i 0x0A w) (execRegionOpen w) s
/-- `region.end` (R54). -/
def execRegionEnd (w : IW) (s : State) : Host.Outcome State Fault Refusal :=
  runWord (.i 0x0A w) (fun s _ _ t => { s := s, t := { t with region := none } }) s

/-! ### Predicates -/

/-- A predicate field of format R. -/
def predField (x : BitVec 8) : Nat := fieldOf x 3 0

/-- `vote.any` (R57). -/
def execVoteAny (w : RW) (s : State) : Host.Outcome State Fault Refusal :=
  runWord (.r 0x0B w) (fun s iss v t =>
    let any := (lanesOf iss.act).any (fun i => v.pred i (predField w.va))
    { s := s, t := writePred t iss.act (predField w.vd) (fun _ => any) }) s

/-- `vote.all` (R57). -/
def execVoteAll (w : RW) (s : State) : Host.Outcome State Fault Refusal :=
  runWord (.r 0x0B w) (fun s iss v t =>
    let all := (lanesOf iss.act).all (fun i => v.pred i (predField w.va))
    { s := s, t := writePred t iss.act (predField w.vd) (fun _ => all) }) s

/-- `vote.uni` (R57). -/
def execVoteUni (w : RW) (s : State) : Host.Outcome State Fault Refusal :=
  runWord (.r 0x0B w) (fun s iss v t =>
    let uni := equalOver iss.act (v.reg w.va.toNat).lane
    { s := s, t := writePred t iss.act (predField w.vd) (fun _ => uni) }) s

/-- `vote.ballot` (R57). -/
def execVoteBallot (w : RW) (s : State) : Host.Outcome State Fault Refusal :=
  runWord (.r 0x0B w) (fun s iss v t =>
    let m := maskOf (fun i => iss.act.getLsbD i && v.pred i (predField w.va))
    { s := s, t := writeReg iss t w.vd.toNat 8 0 .general (fun _ => BitVec.ofNat 64 m.toNat) }) s

/-- PLOP (R58). -/
def execPlop (w : RW) (s : State) : Host.Outcome State Fault Refusal :=
  runWord (.r 0x0C w) (fun s iss v t =>
    { s := s, t := writePred t iss.act (predField w.vd) (fun i =>
        plopBit (fieldOf w.md 3 0) (v.pred i (predField w.va)) (v.pred i (predField w.vb))) }) s

/-! ### Arrival -/

/-- SIGN (R52, R59). -/
def execSign (w : EW) (s : State) : Host.Outcome State Fault Refusal :=
  andArrive s (runWord (.e 0x0D w) (fun s iss _ t => { s := s, t := t, wait := some (.arrive iss.bits []) }) s)

/-- A path issues BAR: with an active fibre every fibre of the path waits for the team's arrival (R52, R61). -/
def barBody (s : State) (iss : Iss) (t : Team) : Res :=
  if iss.act = 0 then { s := s, t := t } else { s := s, t := t, wait := some (.arrive iss.bits []) }

/-- `bar.sync` (R61). -/
def execBarSync (w : IW) (s : State) : Host.Outcome State Fault Refusal :=
  andArrive s (runWord (.i 0x0E w) (fun s iss _ t => barBody s iss t) s)

/-- `bar.arrive` (R61). -/
def execBarArrive (w : IW) (s : State) : Host.Outcome State Fault Refusal :=
  andArrive s (runWord (.i 0x0E w) (fun s iss _ t => barBody s iss t) s)

/-! ### Waits -/

/-- WAITC (R62). -/
def execWaitc (w : IW) (s : State) : Host.Outcome State Fault Refusal :=
  runWord (.i 0x0F w) (fun s iss _ t =>
    let c := fieldOf w.imm 2 0
    let n := fieldOf w.imm 8 3
    if iss.act = 0 ∨ ecOf (s.core iss.core) (issuerOf iss.agent) t.uid c ≤ n then { s := s, t := t }
    else { s := s, t := t, wait := some (.waitc c n) }) s

/-- One read of CTRWAIT for one fibre (R63): the state, and whether the condition holds or why the fibre traps. -/
def ctrRead (s : State) (iss : Iss) (v : Team) (w : MW) (i : Nat) : State × Except Trap Bool :=
  let n := if w.width = 2 then 4 else 8
  let r := v.reg w.va.toNat
  let (q, chk) := mCheck s iss v w (r.lane i) r.fmt n n (mDisp w) 1 [0] 0
  match chk with
  | .error (c, a) => (s, .error { cause := c, addr := some a })
  | .ok (tgt, e) =>
    let s := noteAccess s q e
    let scope := w.scope.toNat
    let m : Mode := { core := iss.core, agent := iss.agent, strong := true, order := w.order.toNat, scope := scope,
                      cls := evClass 0 e, nt := false }
    match readTgt s { m with order := 0 } tgt n with
    | (s, none) => (s, .error (memErr q e))
    | (s, some bs) =>
      let hit := ctrTest w.evp.toNat (8 * n) (ofLe bs) (((v.reg w.vd.toNat).lane i).toNat % 2 ^ (8 * n))
      (if hit then afterAccess s m else s, .ok hit)

/-- CTRWAIT's reads for a list of fibres: those whose condition holds and those that trap. -/
def ctrReads (iss : Iss) (v : Team) (w : MW) : List Nat → State → State × List Nat × List (Nat × Trap)
  | [], s => (s, [], [])
  | i :: is, s =>
    let (s, r) := ctrRead s iss v w i
    let (s, hits, traps) := ctrReads iss v w is s
    match r with
    | .ok true => (s, i :: hits, traps)
    | .ok false => (s, hits, traps)
    | .error x => (s, hits, (i, x) :: traps)

/-- CTRWAIT (R63). -/
def execCtrwait (w : MW) (s : State) : Host.Outcome State Fault Refusal :=
  runWord (.m 0x10 w) (fun s iss v t =>
    if !formatsOk v [w.va.toNat] (addrFormats w.space).contains then formatTrap s iss t
    else
      let (s, hits, traps) := ctrReads iss v w (lanesOf iss.act) s
      let pending := (lanesOf iss.act).filter (fun i => !hits.contains i && !traps.any (fun x => x.1 == i))
      if pending.isEmpty then { s := s, t := t, traps := traps }
      else
        { s := s, t := t.modLanes iss.lanes (fun i l => { l with wait := some (.ctr iss.bits (!pending.contains i)) }),
          traps := traps, wait := some (.ctr iss.bits true) }) s

/-! ### Guard slots -/

/-- GSET (R64). -/
def execGset (w : EW) (s : State) : Host.Outcome State Fault Refusal :=
  runWord (.e 0x11 w) (fun s _ _ t => { s := s, t := { t with guards := mset t.guards (fieldOf w.vd 2 0) 2 } }) s

/-- A guard slot resolved: its held commands run or are discarded in their place (R64, R65). -/
def resolveGuard (w : EW) (val : Bool) (s : State) (t : Team) : Res :=
  { s := s, t := { t with guards := mset t.guards (fieldOf w.vd 2 0) (if val then 0 else 1) } }

/-- Held commands judged once a slot's result has been delivered, and the completions that follow. -/
def andJudge (s0 : State) (o : Host.Outcome State Fault Refusal) : Host.Outcome State Fault Refusal :=
  thenDo o (fun s =>
    let core := cursorCore s0
    let s := s.modCore core (judgeHeld s.now)
    completeAll (s.core core).cmds.length s core)

/-- `gres.any` (R64). -/
def execGresAny (w : EW) (s : State) : Host.Outcome State Fault Refusal :=
  andJudge s (runWord (.e 0x12 w) (fun s iss v t =>
    resolveGuard w ((lanesOf iss.act).any (fun i => v.pred i (predField w.va))) s t) s)

/-- `gres.all` (R64). -/
def execGresAll (w : EW) (s : State) : Host.Outcome State Fault Refusal :=
  andJudge s (runWord (.e 0x12 w) (fun s iss v t =>
    resolveGuard w ((lanesOf iss.act).all (fun i => v.pred i (predField w.va))) s t) s)

/-- `gres.t` (R64). -/
def execGresT (w : EW) (s : State) : Host.Outcome State Fault Refusal :=
  andJudge s (runWord (.e 0x12 w) (fun s _ _ t => resolveGuard w true s t) s)

/-- `gres.f` (R64). -/
def execGresF (w : EW) (s : State) : Host.Outcome State Fault Refusal :=
  andJudge s (runWord (.e 0x12 w) (fun s _ _ t => resolveGuard w false s t) s)

/-! ### Issue, system calls, breakpoints -/

/-- YIELD (R67): the team is not chosen until each other ready team of its quadrant has issued, or for 64 clk. -/
def execYield (w : RW) (s : State) : Host.Outcome State Fault Refusal :=
  runWord (.r 0x13 w) (fun s iss _ t =>
    match iss.agent with
    | .team core slot =>
      let others := (List.range' (slot / 4 * 4) 4).filter (fun x => x != slot && teamReady s core x)
      { s := s, t := { t with hold := some (iss.clk + 64, others) } }
    | .ctx _ _ => { s := s, t := t }) s

/-- The trap-queue entry of one fibre of a SYSCALL (R68, Table 18.4). -/
def syscallEntry (s : State) (iss : Iss) (v t : Team) (w : IW) (slot i : Nat) : TqEntry :=
  let (lseq, opc) := provenance s t iss.pc
  let args := (List.range w.md.toNat).flatMap (fun j => le 8 ((v.reg (w.va.toNat + j)).lane i).toNat)
  { freeEntry with cause := cSYSCALL, slot := slot, uid := t.uid, toM := t.priv == 2, fmask := BitVec.twoPow 32 i,
                   info := w.imm, pc := iss.pc, lseq := lseq, opc := opc, operands := padTo args 32 0 }

/-- Every fibre of a team that a SYSCALL parks: the path at the word after, others at their next clause header. -/
def syscallPark (s : State) (iss : Iss) (t : Team) (slot : Nat) : Team :=
  let c := s.core iss.core
  let t := t.modLanes iss.lanes (fun _ l => { l with parked := true, parkDue := false })
  let rest := parkAtHeaders c slot { t with lanes := t.lanes }
  rest

/-- SYSCALL (R68). A second path that was inside its clause can post before it parks: each SYSCALL keeps its own results. -/
def execSyscall (w : IW) (s : State) : Host.Outcome State Fault Refusal :=
  runWord (.i 0x14 w) (fun s iss v t =>
    match iss.agent with
    | .ctx _ _ => { s := s, t := t }
    | .team core slot =>
      let fs := lanesOf iss.act
      if fs.isEmpty then { s := s, t := t }
      else if (s.core core).tqFree.length < fs.length then { s := s, t := t, wait := some .sysq }
      else
        let s := fs.foldl (fun s i => postEntry s core (syscallEntry s iss v t w slot i)) s
        let resume := t.freeRunMask
        let t := syscallPark s iss t slot
        { s := s, t := { t with sys := t.sys ++ [⟨w.vd.toNat, fs.map (fun i => (i, none)), resume⟩] } }) s

/-- BRK (R69). -/
def execBrk (w : IW) (s : State) : Host.Outcome State Fault Refusal :=
  runWord (.i 0x15 w) (fun s iss _ t =>
    { s := s, t := t, traps := trapAll iss.act { cause := cBRK, code := w.imm.toNat } }) s

/-! ### Tags -/

/-- TAGQ (R70). -/
def execTagq (w : RW) (s : State) : Host.Outcome State Fault Refusal :=
  runWord (.r 0x16 w) (fun s iss v t =>
    { s := s, t := writeReg iss t w.vd.toNat 8 0 .general (fun _ => BitVec.ofNat 64 (v.reg w.va.toNat).tag) }) s

/-- DEAD (R71). -/
def execDead (w : RW) (s : State) : Host.Outcome State Fault Refusal :=
  runWord (.r 0x17 w) (fun s _ _ t =>
    { s := s, t := (List.range' w.va.toNat (w.vb.toNat + 1 - w.va.toNat)).foldl (fun (t : Team) n => t.kill n) t }) s

end Sys2Proof.Machine
end

