-- ==== Sys2Proof/Machine/Save.lean ====
section
/-! DEFINITION. Halting teams (R202, R214), and the save areas of teams and copses: their bytes, and reading them back
(R55, R240–R243, R330, R336, Tables 10.6–10.9, 18.5). -/
namespace Sys2Proof.Machine

/-! ### Memory accesses of class 5 words (R188) -/

/-- The address request of a class 5 word for a memory range. -/
def sysReq (asid core : Nat) (v : Word) (o n align rights : Nat) (kinds : List Nat) : Req :=
  { asid := asid, core := core, handle := v.toNat / 2 ^ 48, off := (v.toNat % 2 ^ 48 + o : Nat), n := n, align := align,
    rights := rights, kinds := kinds, emask := none, acc := if rights = 1 then 0 else if rights = 2 then 1 else 2 }

/-- The trap of a failed check, or of an all-ones offset (R130). -/
def sysCheck (s : State) (q : Req) (v : Word) : Except Trap (Tgt × Option Bte) :=
  if allOnes v then
    .error { cause := cBOUNDS, addr := some (addrOf q.asid v q.acc) }
  else
    match check0 s q true with
    | .error (c, a) => .error { cause := c, addr := some a }
    | .ok r => .ok r

/-- Bytes read from a range piece by piece in a mode. -/
def sysRead (m : Mode) (asid : Nat) (v : Word) : List (Nat × Nat) → State → State × Except Trap (List Byte)
  | [], s => (s, .ok [])
  | (o, n) :: ps, s =>
    let q := sysReq asid m.core v o n 1 1 [0, 3]
    match sysCheck s q v with
    | .error x => (s, .error x)
    | .ok (tgt, e) =>
      match readTgt (noteAccess s q e) m tgt n with
      | (s, none) => (s, .error (memErr q e))
      | (s, some bs) =>
        match sysRead m asid v ps s with
        | (s, .ok cs) => (s, .ok (bs ++ cs))
        | (s, .error x) => (s, .error x)

/-- Bytes written at home, piece by piece, after a check of the whole range; a failed check writes nothing. -/
def sysWriteHome (m : Mode) (asid : Nat) (v : Word) (align : Nat) (bs : List Byte) (s : State) : State × Option Trap :=
  match sysCheck s (sysReq asid m.core v 0 bs.length align 2 [0, 3]) v with
  | .error x => (s, some x)
  | .ok _ =>
    ((stretchesAt v.toNat bs.length).foldl (fun s (p : Nat × Nat) =>
      let q := sysReq asid m.core v p.1 p.2 1 2 [0, 3]
      let part := (bs.drop p.1).take p.2
      match check0 s q true with
      | .ok (.dram first ls, e) => homeBytes (noteAccess s q e) first (evClass 0 e) ls part
      | .ok (tgt, e) => writeTgt (noteAccess s q e) m tgt (part.map some)
      | .error _ => s) s, none)

/-! ### Halting -/

/-- The waits of R213, which a halt keeps and at which a path stops (R202, R214); a path that waits at an engine word or a
class 5 word completes its clause. -/
def haltStops : Wait → Bool
  | .accept _ => false
  | .proc _ _ => false
  | _ => true

/-- A halted team holds no fetch port but one whose path is inside a clause that it goes on with (R202). -/
def Core.settleHalt (c : Core) (slot : Nat) : Core :=
  match c.team? slot with
  | some t =>
    if t.st = .halted then
      { c with ports := c.ports.filter (fun p => p.2.slot != slot || readyOf t p.2.lanes != 0 ||
          (lanesOf p.2.lanes).any (fun i => (t.lane i).live && !(t.lane i).parked && ((t.lane i).wait.any (fun w => !haltStops w)))) }
    else c
  | none => c

/-- A running team is halted (R202, R214). -/
def parkTeam (s : State) (core slot : Nat) : State :=
  match (s.core core).team? slot with
  | some t =>
    if t.st = .running then
      let s := s.modCore core (fun c => (c.setTeam slot { t with st := .halted }).settleHalt slot)
      { s with tokens := s.tokens.filter (fun r => r.agent != some (.team core slot)) }
    else s
  | none => s

/-- A command set aside for a save is held again. -/
def Cmd.heldAgain (k : Cmd) : Cmd := if k.st = .aside then { k with st := .held } else k

/-- The fibres of one team whose wait satisfies a test go on, with the result that their wait gives them. -/
def releaseTeam (s : State) (core slot : Nat) (sel : Wait → Bool) (res : Wait → Option (Nat × Word)) : State :=
  s.modCore core (fun c => match c.team? slot with
    | some t => c.setTeam slot (t.releaseWith core s.now sel res)
    | none => c)

/-- A halted team issues again (R202); a path that waited for a power token tests its wait again: it goes on where its core
holds a token now, and asks again where it does not (R205). -/
def unparkTeam (s : State) (core slot : Nat) : State :=
  match (s.core core).team? slot with
  | some t =>
    if t.st = .halted then
      let s := s.modCore core (fun c =>
        { c.setTeam slot { t with st := .running, saved := false } with
          cmds := c.cmds.map (fun k => if k.counts (.team slot) t.uid then k.heldAgain else k), residency := s.now, residencyPosted := false })
      if !(lanesOf t.freeRunMask).any (fun i => (t.lane i).wait.any isTokenWait) then s
      else if (s.core core).holdsToken then
        releaseTeam (s.modCore core (fun c => c.hold (.copse t.copse))) core slot isTokenWait tokenResult
      else { s with tokens := s.tokens ++ [⟨core, .copse t.copse, some (.team core slot), s.now, false⟩] }
    else s
  | none => s

/-- Every path of a team has stopped. -/
def stoppedPaths (c : Core) (slot : Nat) : Bool := c.ports.all (fun p => p.2.slot != slot)

/-- The slots of the copse of a team. -/
def copseSlots (c : Core) (slot : Nat) : List Nat :=
  match c.team? slot with
  | some t =>
    match c.copse? t.copse with
    | some cp => cp.slots.filter (fun x => (c.team? x).isSome)
    | none => [slot]
  | none => [slot]

/-! ### A team's save area (Table 10.6) -/

def padLen (n k : Nat) : Nat := ceilDiv n k * k

/-- The stored payload of a register (Table 10.3). -/
def payBytes (r : VReg) : List Byte :=
  match r.pay with
  | .dead => []
  | .uniform p => le 8 p.toNat
  | .affine b st => le 8 b.toNat ++ le 8 st.toNat
  | .general l => (padTo l 32 0).flatMap (fun x => le 8 x.toNat)

/-- A register as it is saved: inside an open region the live-ins only (R55, R241). -/
def savedReg (t : Team) (n : Nat) : VReg :=
  match t.openRegion with
  | some r => if n < 64 ∧ r.livein.getLsbD n then t.reg n else ⟨0, 0, .dead⟩
  | none => t.reg n

/-- The PC at which a fibre is saved (R241). -/
def savedPc (t : Team) (i : Nat) : Nat :=
  match t.openRegion with
  | some r => r.pc
  | none =>
    if (t.lane i).parked && t.sys.any (fun x => x.results.any (fun r => r.1 == i)) then (t.lane i).pc - 8 else (t.lane i).pc

/-- A fibre record (Table 10.7); `headers` are the fibres that wait at a clause header (R213). -/
def fibreBytes (headers : BitVec 32) (t : Team) (i : Nat) : List Byte :=
  let l := t.lane i
  let issued := (l.wait.any haltStops || headers.getLsbD i) && !l.parked && t.openRegion.isNone
  le 8 (if l.live then savedPc t i % 2 ^ 48 + 2 ^ 48 + (if issued then 2 ^ 49 else 0) else 0) ++
    le 2 (if l.live then (l.pred ||| 1).toNat else 1) ++ le 6 0

/-- The operand values of what is left of a suspended copy (Table 18.5): VD, VA, VB, VC. -/
def remainderOps (k : Cmd) : List Word :=
  let n := k.progress
  let add (i m : Nat) : Word := nth k.ops 0 i + BitVec.ofNat 64 m
  if k.op = 0x69 then
    if k.md 5 5 = 1 then
      [nth k.ops 0 0 - BitVec.ofNat 64 (n * 2 ^ 32), add 1 (n * (opn k.ops 3 % 2 ^ 32)), add 2 (n * (opn k.ops 3 / 2 ^ 32)),
        nth k.ops 0 3]
    else [nth k.ops 0 0 - BitVec.ofNat 64 n, add 1 n, add 2 n, nth k.ops 0 3]
  else
    let near := n * 2 ^ k.md 3 0
    [nth k.ops 0 0 - BitVec.ofNat 64 n, add 1 (if k.op = 0x6B then near else 0), add 2 (if k.op = 0x6A then near else 0),
      add 3 (n * (if k.md 4 4 = 1 then 8 else 4))]

/-- A held command record (Table 10.8); a suspended command's guard is cleared and its operands are those of what is left
of it (Table 18.5). -/
def heldBytes (k : Cmd) : List Byte :=
  let stopped := k.st = .suspended
  let w := if stopped then k.bits.toNat - bits k.bits.toNat 43 40 * 2 ^ 40 else k.bits.toNat
  le 8 w ++ (List.range 4).flatMap (fun i => le 8 (nth (if stopped then remainderOps k else k.ops) 0 i).toNat) ++ le 1 k.cls ++ le 23 0

/-- The commands of a team that a save records: held, and suspended (R330). -/
def recordedCmds (c : Core) (slot uid : Nat) : List Cmd :=
  c.cmds.filter (fun k => k.counts (.team slot) uid && (k.st == .held || k.st == .aside || k.st == .suspended))

/-- A team's save area (R240, R241). -/
def teamArea (s : State) (core slot : Nat) (t : Team) : List Byte :=
  let c := s.core core
  let held := recordedCmds c slot t.uid
  let tags := (List.range t.wsize).flatMap (fun n => le 2 (savedReg t n).tag)
  let pay := (List.range t.wsize).flatMap (fun n => payBytes (savedReg t n))
  let hoff := padLen (832 + padLen tags.length 64 + pay.length) 64
  let total := hoff + 64 * held.length
  let ec := (List.range 8).foldl (fun acc n => acc + (held.filter (fun k => k.cls == n)).length % 64 * 64 ^ n) 0
  let guards := (List.range 8).foldl (fun acc n => acc + t.guardSlot n * 4 ^ n) 0
  let (open_, role, rctr, rslot, rpc, live) := match t.region with
    | some r => (1, r.role, r.ctr, r.slot, r.pc, r.livein.toNat)
    | none => (0, 0, 0, 0, 0, 0)
  let head := le 4 0xCA5D0001 ++ le 4 total ++ le 1 (t.wsize / 8) ++ le 1 t.stage ++ le 1 t.tno ++ le 1 t.priv ++
    le 1 (open_ + 2 * role) ++ le 1 rctr ++ le 1 rslot ++ le 1 t.flags.toNat ++ le 8 rpc ++ le 8 live ++ le 2 guards ++
    le 6 ec ++ le 4 held.length ++ le 4 hoff ++ le 16 0
  head ++ (List.range 32).flatMap (fibreBytes (headerWaiting s core slot t) t) ++ (List.range 16).flatMap (fun n => le 16 (t.scaleReg n).toNat) ++
    padTo tags (padLen tags.length 64) 0 ++ padTo pay (hoff - 832 - padLen tags.length 64) 0 ++ held.flatMap heldBytes

/-- What a team's save area holds, once it is read back and found well formed (R242). -/
structure Area where
  wsize : Nat
  stage : Nat
  tno : Nat
  priv : Nat
  region : Option Region
  flags : Nat
  guards : Nat
  fibres : List (Bool × Bool × Nat × BitVec 16)
  scale : List Nat
  regs : List (Nat × VReg)
  held : List (Word × List Word × Nat)
  deriving DecidableEq, Repr

/-- `n` bytes at an offset, little-endian. -/
def fieldAt (b : List Byte) (o n : Nat) : Nat := ofLe ((b.drop o).take n)

/-- A tag that CTXLD accepts: no field has a value that Table 10.1 lists as never written (R242). -/
def tagOk (tag : Nat) : Bool :=
  let link := bits tag 11 7
  let shape := bits tag 6 5
  let fmt := bits tag 4 0
  tag < 4096 && link ≤ 16 && fmt < 22 && (shape != 2 || affineFmt fmt)

/-- The bytes of the payload of a shape. -/
def paySize (shape : Nat) : Nat := nth [0, 8, 16, 256] 0 shape

/-- The registers of a tag list with their payloads from an offset. -/
def readRegs (b : List Byte) : List Nat → Nat → Nat → List (Nat × VReg)
  | [], _, _ => []
  | tag :: tags, n, o =>
    let shape := bits tag 6 5
    let w (i : Nat) : Word := BitVec.ofNat 64 (fieldAt b (o + 8 * i) 8)
    let rest := readRegs b tags (n + 1) (o + paySize shape)
    if shape = 0 then rest
    else
      let pay : Pay := if shape = 1 then .uniform (w 0) else if shape = 2 then .affine (w 0) (w 1)
        else .general ((List.range 32).map w)
      (n, ⟨bits tag 4 0, bits tag 11 7, pay⟩) :: rest

/-- A team area, or nothing where it is malformed (R242). -/
def parseArea (b : List Byte) : Option Area :=
  let ws8 := fieldAt b 8 1
  let tags := (List.range (8 * ws8)).map (fun n => fieldAt b (832 + 2 * n) 2)
  let pay := (tags.map (fun g => paySize (bits g 6 5))).foldl (· + ·) 0
  let tagEnd := 832 + padLen (16 * ws8) 64
  let nheld := fieldAt b 40 4
  let hoff := fieldAt b 44 4
  let total := fieldAt b 4 4
  let rgn := fieldAt b 12 1
  let fib (i : Nat) : Nat := fieldAt b (64 + 16 * i) 8
  let ok := fieldAt b 0 4 == 0xCA5D0001 && 2 ≤ ws8 && ws8 ≤ 32 && fieldAt b 9 1 < 4 && fieldAt b 10 1 < 16 &&
    fieldAt b 11 1 < 3 && rgn < 8 && fieldAt b 15 1 < 128 && fieldAt b 48 16 == 0 && tags.all tagOk &&
    padLen (tagEnd + pay) 64 + 64 * nheld ≤ total && hoff + 64 * nheld ≤ total && total ≤ b.length &&
    (List.range 32).all (fun i => fib i < 2 ^ 50 && fieldAt b (74 + 16 * i) 6 == 0) &&
    (List.range nheld).all (fun i => fieldAt b (hoff + 64 * i + 41) 23 == 0 && fieldAt b (hoff + 64 * i + 40) 1 < 7)
  if !ok then none
  else
    some {
      wsize := 8 * ws8, stage := fieldAt b 9 1, tno := fieldAt b 10 1, priv := fieldAt b 11 1,
      region := if rgn % 2 = 1 then
          some ⟨0, fieldAt b 16 8 % 2 ^ 48, true, rgn / 2, fieldAt b 16 8 % 2 ^ 48, BitVec.ofNat 64 (fieldAt b 24 8), fieldAt b 13 1, fieldAt b 14 1⟩
        else none,
      flags := fieldAt b 15 1, guards := fieldAt b 32 2,
      fibres := (List.range 32).map (fun i =>
        (bit (fib i) 48, bit (fib i) 49, fib i % 2 ^ 48, BitVec.ofNat 16 (fieldAt b (72 + 16 * i) 2) ||| 1)),
      scale := (List.range 16).map (fun n => fieldAt b (576 + 16 * n) 16),
      regs := readRegs b tags 0 tagEnd,
      held := (List.range nheld).map (fun i =>
        let o := hoff + 64 * i
        (BitVec.ofNat 64 (fieldAt b o 8), (List.range 4).map (fun j => BitVec.ofNat 64 (fieldAt b (o + 8 + 8 * j) 8)),
          fieldAt b (o + 40) 1)) }

/-! ### A copse's save area (Table 10.9) -/

/-- Team areas one after another, each from a 256-byte boundary, from an offset: the offsets, 0 where a team has none, and
the bytes. -/
def layAreas : List (List Byte) → Nat → List Nat × List Byte
  | [], _ => ([], [])
  | a :: as, o =>
    let n := padLen a.length 256
    let (os, bs) := layAreas as (o + n)
    ((if a.isEmpty then 0 else o) :: os, padTo a n 0 ++ bs)

/-- The images of a copse's typed-buffer allotments (R243). -/
def imageBytes (s : State) (core : Nat) (cp : Copse) : List Byte :=
  let w := cread s.wbuf (core * 2 ^ 20 + cp.wallot.1) cp.wallot.2
  let a := cread s.abuf (core * 2 ^ 19 + cp.aallot.1) cp.aallot.2
  let c := cread s.cbuf (core * 2 ^ 18 + cp.callot.1 * 1024) (cp.callot.2 * 1024)
  let pad (x : List Byte) : List Byte := padTo x (padLen x.length 256) 0
  pad w ++ pad a ++ pad c

/-- The save area of a copse (R243). -/
def copseArea (s : State) (core : Nat) (cp : Copse) : List Byte :=
  let c := s.core core
  let areas := cp.slots.map (fun slot => match c.team? slot with
    | some t => if t.copse = cp.id then teamArea s core slot t else []
    | none => [])
  let (offs, body) := layAreas areas 1536
  let images := imageBytes s core cp
  let cvBytes (n : Nat) : List Byte :=
    let v := mget cp.cv ⟨false, 0, [], 0, 0⟩ n
    if v.collecting then le 8 v.word.toNat ++ le 2 v.mask.toNat ++ le 2 v.arrived.toNat ++ le 4 1 else le 16 0
  let barBytes (n : Nat) : List Byte :=
    let b := mget cp.bar ⟨0, 0, false⟩ n
    le 4 (b.expected + 32 * b.arrived + 1024 * b2n b.phase)
  let valid := (List.range 4).foldl (fun acc n => acc + b2n (mget? c.eprog n).isSome * 2 ^ n) 0
  let prog (n : Nat) : List Byte := padTo ((mget c.eprog [] n).flatMap (fun x => le 4 x.toNat)) 256 0
  let total := padLen (1536 + body.length + images.length) 256
  le 4 0xCA5D0002 ++ le 4 total ++ le 1 (areas.filter (fun a => !a.isEmpty)).length ++ le 1 valid ++ le 54 0 ++
    (padTo offs 16 0).flatMap (le 4) ++ (List.range 16).flatMap cvBytes ++ (List.range 16).flatMap barBytes ++
    le 8 cp.wallot.1 ++ le 8 cp.wallot.2 ++ le 8 cp.aallot.1 ++ le 8 cp.aallot.2 ++ le 8 cp.callot.1 ++ le 8 cp.callot.2 ++
    le 8 (1536 + body.length) ++ le 8 0 ++ (List.range 4).flatMap prog ++ body ++ images

/-- What a copse's save area holds (R243). -/
structure CopseArea where
  teams : List (Nat × Area)
  cv : List (Nat × Cv)
  bar : List (Nat × Bar)
  wallot : Nat × Nat
  aallot : Nat × Nat
  callot : Nat × Nat
  eprog : List (Nat × List (BitVec 32))
  images : List Byte
  deriving DecidableEq, Repr

/-- A copse area, or nothing where it is malformed. -/
def parseCopse (b : List Byte) : Option CopseArea :=
  let n := fieldAt b 8 1
  let total := fieldAt b 4 4
  let off (i : Nat) : Nat := fieldAt b (64 + 4 * i) 4
  let places := (List.range 16).filter (fun i => off i != 0)
  let teams := places.map (fun i => (parseArea (b.drop (off i))).map (fun a => (i, a)))
  let img := fieldAt b 496 8
  let pair (o : Nat) : Nat × Nat := (fieldAt b o 8, fieldAt b (o + 8) 8)
  let need := img + padLen (pair 448).2 256 + padLen (pair 464).2 256 + (pair 480).2 * 1024
  let ok := fieldAt b 0 4 == 0xCA5D0002 && 1 ≤ n && n ≤ 16 && fieldAt b 9 1 < 16 && fieldAt b 10 54 == 0 &&
    places.length == n && places.all (fun i => off i % 256 == 0 && 1536 ≤ off i) &&
    (List.range 16).all (fun i => fieldAt b (128 + 16 * i + 12) 4 < 2 && fieldAt b (384 + 4 * i) 4 < 2048) &&
    fieldAt b 504 8 == 0 && need ≤ total && total ≤ b.length && teams.all Option.isSome &&
    (pair 448).1 + (pair 448).2 ≤ 2 ^ 20 && (pair 464).1 + (pair 464).2 ≤ 0x7FC00 && (pair 480).1 + (pair 480).2 ≤ 256
  if !ok then none
  else
    some {
      teams := teams.filterMap id,
      cv := (List.range 16).filterMap (fun i =>
        let o := 128 + 16 * i
        if fieldAt b (o + 12) 1 = 1 then
          some (i, (⟨true, BitVec.ofNat 64 (fieldAt b o 8), [], BitVec.ofNat 16 (fieldAt b (o + 8) 2),
            BitVec.ofNat 16 (fieldAt b (o + 10) 2)⟩ : Cv))
        else none),
      bar := (List.range 16).map (fun i =>
        let x := fieldAt b (384 + 4 * i) 4
        (i, (⟨x % 32, x / 32 % 32, bit x 10⟩ : Bar))),
      wallot := pair 448, aallot := pair 464, callot := pair 480,
      eprog := (List.range 4).filterMap (fun i =>
        if bit (fieldAt b 9 1) i then
          some (i, (List.range 64).map (fun j => BitVec.ofNat 32 (fieldAt b (512 + 256 * i + 4 * j) 4)))
        else none),
      images := b.drop img }

/-! ### Saving (R203, R241, R330) -/

/-- A command is in a region: its team issued it inside a region that is still open (R330). -/
def Cmd.inRegion (c : Core) (k : Cmd) : Bool :=
  k.issuers.any (fun i => match i with
    | .team slot => ((c.team? slot).bind (fun t => t.openRegion)).any (fun r => k.regions.contains r.id)
    | .ctx _ => false)

/-- A command that a save suspends: a copy, queued or started, that is not in a region (Table 18.5). It stops where it
stands, at the end of a part. -/
def suspends (c : Core) (k : Cmd) : Bool :=
  (k.st == .queued || k.st == .started) && [0x69, 0x6A, 0x6B].contains k.op && !k.inRegion c

/-- A held command of an open region (Table 18.5). -/
def dropsHeld (c : Core) (k : Cmd) : Bool := k.st == .held && k.inRegion c

/-- A command counts for one of some slots. -/
def countsFor (c : Core) (slots : List Nat) (k : Cmd) : Bool :=
  slots.any (fun slot => match c.team? slot with
    | some t => k.counts (.team slot) t.uid
    | none => false)

/-- The commands of the targets are stopped as Table 18.5 gives. -/
def stopCmds (c : Core) (slots : List Nat) : Core :=
  { c with cmds := c.cmds.map (fun k =>
      if countsFor c slots k then
        if suspends c k then { k with st := .suspended } else if dropsHeld c k then { k with st := .discarded }
        else if k.st = .held then { k with st := .aside } else k
      else k) }

/-- A deferred result that nothing keeps but commands set aside: it is no command, and the save does not wait for it. -/
def stuckResult (c : Core) (k : Cmd) : Bool :=
  k.cls ≥ 8 && !resultReady c k && ((earlier c k).filter k.awaits).all (fun j => j.st == .aside || behindHeld c.cmds j)

/-- Every accepted command of the targets has completed, its place in the order apart, is held, or is suspended. -/
def saveReady (c : Core) (slots : List Nat) : Bool :=
  c.cmds.all (fun k => !countsFor c slots k || k.st == .aside || k.st == .held || k.st == .suspended || behindHeld c.cmds k || stuckResult c k)

/-- What a save leaves: the teams' entries marked ended, posted results discarded, suspended commands gone, those set aside
held again. -/
def afterSave (c : Core) (until_ : Nat) (slots : List Nat) : Core :=
  let c := { c with cmds := (c.cmds.filter (fun k => !(countsFor c slots k && k.st == .suspended))).map (fun k =>
    if countsFor c slots k then k.heldAgain else k) }
  slots.foldl (fun c slot =>
    match c.team? slot with
    | some t => (markEnded c t.uid).setTeam slot { t with sys := [], saved := true, endAt := until_ }
    | none => c) c

/-- A state in which the deferred results that only commands set aside keep have been read: what an area saves of them, since
none of them comes later to a team restored from it (DEDUCED, log 61). -/
def resultsRead (s : State) (core : Nat) (slots : List Nat) : State :=
  ((s.core core).cmds.filter (fun k => countsFor (s.core core) slots k && stuckResult (s.core core) k)).foldl (fun s k => deliverOne s core k) s

/-- The bytes of a save of a slot, or of its whole copse. -/
def saveBytes (s : State) (core slot : Nat) (whole : Bool) : List Byte :=
  let s := resultsRead s core (if whole then copseSlots (s.core core) slot else [slot])
  let c := s.core core
  match c.team? slot with
  | none => []
  | some t =>
    if whole then
      match c.copse? t.copse with
      | some cp => copseArea s core cp
      | none => []
    else teamArea s core slot t

/-- A save of a copse would copy a bad unit of its typed-buffer allotments, which nothing passes on (R301). -/
def imageBad (s : State) (core slot : Nat) (whole : Bool) : Bool :=
  whole && (match ((s.core core).team? slot).bind (fun t => (s.core core).copse? t.copse) with
    | some cp =>
      localBad s wbufUnit 8 (core * 2 ^ 20 + cp.wallot.1) cp.wallot.2 || localBad s abufUnit 8 (core * 2 ^ 19 + cp.aallot.1) cp.aallot.2 ||
        localBad s cbufUnit 4 (core * 2 ^ 18 + cp.callot.1 * 1024) (cp.callot.2 * 1024)
    | none => false)

/-- The save is written (R203, R241): the state and its result, or the trap of its write, or MEMERR where it would read a bad
unit (R301; the cause and its address are DEDUCED, log 61). -/
def saveNow (s : State) (m : Mode) (asid core slot : Nat) (whole : Bool) (v : Word) : State × Except Trap Nat :=
  let bytes := saveBytes s core slot whole
  let slots := if whole then copseSlots (s.core core) slot else [slot]
  if imageBad s core slot whole then (s, .error { cause := cMEMERR, addr := some (addrOf asid v 0) })
  else
  match sysWriteHome m asid v 256 bytes (releaseDie s (dieOf core)) with
  | (s, some x) => (s, .error x)
  | (s, none) =>
    let saved := match (s.core core).team? slot with
      | some t =>
        match (s.core core).copse? t.copse with
        | some cp => [(⟨asid, v, core, cp, t.code, slots.filterMap (fun k => ((s.core core).team? k).map (fun u => (u.tno, u.lanes.map (fun l => l.wait))))⟩ : Saved)]
        | none => []
      | none => []
    let s := { s with saves := saved ++ s.saves.filter (fun (x : Saved) => !(x.asid == asid && x.addr == v)) }
    (s.modCore core (fun c => afterSave c (s.now + 1 + Config.latency s.tick) slots), .ok bytes.length)

end Sys2Proof.Machine
end

