-- ==== Sys2Proof/Machine/Records.lean ====
section
/-! DEFINITION. Launch descriptors and records, queue words, the head launch and the ends of launches (R329, R361, R364–
R368, R373, R381, R382, Tables 21.1, 21.3–21.5). -/
namespace Sys2Proof.Machine

/-! ### Descriptors (Table 21.1) -/

/-- One stage: WS8, NTEAM, ENTRY. -/
structure Stage where
  ws8 : Nat
  nteam : Nat
  entry : Nat
  deriving DecidableEq, Repr

/-- A launch descriptor; `clean` says that MAGIC and every reserved field hold their values. -/
structure Desc where
  clean : Bool
  mx : Bool
  seam : Bool
  g : Bool
  priv : Nat
  nstage : Nat
  gsize : Nat
  tag : Nat
  asid : Nat
  x : Nat
  y : Nat
  z : Nat
  code : Word
  param : Word
  pmap : Word
  stages : List Stage
  walloc : Nat × Nat
  aalloc : Nat × Nat
  calloc : Nat × Nat
  klen : Nat
  dhandle : Nat
  donec : Word
  ptag : Nat
  shandle : Nat
  stag : Nat
  sfmt : Nat
  tbytes : Nat
  transient : Nat
  deriving DecidableEq, Repr

/-- The descriptor that 128 bytes make. The W and A allotments are (offset, length) in bytes, C's in tiles. -/
def descOf (b : List Byte) : Desc :=
  let f (o n : Nat) : Nat := fieldAt b o n
  let st (i : Nat) : Nat := f (48 + 8 * i) 8
  let n := f 6 1
  { clean := f 0 4 == 0xCA5D0010 && f 4 1 < 8 && f 5 1 < 4 && f 112 16 == 0 && bits (f 88 4) 31 17 == 0 && f 111 1 < 2 &&
      (List.range 4).all (fun i => bits (st i) 63 61 == 0 && bits (st i) 55 53 == 0 && (i < n || n == 0 || n > 4 || st i == 0)),
    mx := bit (f 4 1) 2, seam := bit (f 4 1) 1, g := bit (f 4 1) 0, priv := f 5 1, nstage := n, gsize := f 7 1,
    tag := f 8 2, asid := f 10 2, x := f 12 4, y := f 16 4, z := f 20 4, code := BitVec.ofNat 64 (f 24 8),
    param := BitVec.ofNat 64 (f 32 8), pmap := BitVec.ofNat 64 (f 40 8),
    stages := (List.range (min n 4)).map (fun i => (⟨bits (st i) 60 56, bits (st i) 52 48, bits (st i) 47 0⟩ : Stage)),
    walloc := (f 80 2 * 256, f 82 2 * 256), aalloc := (f 84 2 * 256, f 86 2 * 256),
    calloc := (bits (f 88 4) 7 0, bits (f 88 4) 16 8), klen := f 92 2, dhandle := f 94 2, donec := BitVec.ofNat 64 (f 96 8),
    ptag := f 104 2, shandle := f 106 2, stag := f 108 1, sfmt := f 109 1, tbytes := f 110 1, transient := f 111 1 }

/-- The window sizes of a copse's teams, in team order (R209). -/
def Desc.windows (d : Desc) : List Nat := d.stages.flatMap (fun st => List.replicate st.nteam (8 * st.ws8))

/-- Copses and units of a launch (R361). -/
def Desc.copses (d : Desc) : Nat := d.x * d.y * d.z
def Desc.units (d : Desc) : Nat := d.copses / max 1 d.gsize

/-! ### Records (Table 21.3) -/

def recState (s : State) (l : Nat) : Nat := recGet s l 152 1
def recPrio (s : State) (l : Nat) : Nat := recGet s l 150 1 % 8
def recAsid (s : State) (l : Nat) : Nat := recGet s l 10 2
def recNext (s : State) (l : Nat) : Nat := recGet s l 128 8
def recLimit (s : State) (l : Nat) : Nat := recGet s l 136 8
def setRecState (s : State) (l st : Nat) : State := recSet s l 152 1 st

/-- The record slot of a sequence number holds its launch. -/
def recHolds (s : State) (l : Nat) : Bool := recGet s l 144 6 == l

/-- A launch in a final state (Table 21.4). -/
def recFinal (s : State) (l : Nat) : Bool := recState s l ≥ 6

/-- The sequence numbers whose records the record area can still hold, lowest first. -/
def launchList (s : State) : List Nat :=
  let seq := s.reg 0x703
  let n := min (seq - 0x100) (s.reg 0x701)
  (List.range' (seq - n) n).filter (recHolds s)

/-- The descriptor of a launch as its record holds it. -/
def recDesc (s : State) (l : Nat) : Desc := descOf (physBytes s (recAddr s l) 128)

/-- The graft image of a producer's launch, with its slot's number. -/
def imageFor (s : State) (l : Nat) : Option (Nat × Image) := s.images.find? (fun p => p.2.prod == l)

/-- A range that covers two allotments, or the non-empty one (Table 22.4). -/
def coverRange (a b : Nat × Nat) : Nat × Nat :=
  if a.2 = 0 then b else if b.2 = 0 then a
  else (min a.1 b.1, max (a.1 + a.2) (b.1 + b.2) - min a.1 b.1)

/-- The fields of a grafted launch (Table 22.4). -/
def graftedDesc (p c : Desc) : Desc :=
  let ws (d : Desc) : Nat := ((d.stages.head?).map (fun st => st.ws8)).getD 0
  let nt : Nat := ((p.stages.head?).map (fun st => st.nteam)).getD 0
  { p with
    stages := [⟨ws p + ws c, nt, 0⟩], mx := p.mx || c.mx, walloc := coverRange p.walloc c.walloc,
    aalloc := coverRange p.aalloc c.aalloc, calloc := coverRange p.calloc c.calloc, klen := max p.klen c.klen }

/-- The descriptor by which a launch runs (R381). -/
def runDesc (s : State) (l : Nat) : Desc :=
  match imageFor s l with
  | some (_, im) => graftedDesc (recDesc s l) (recDesc s im.cons)
  | none => recDesc s l

/-! ### Queue words (Table 21.5) -/

def queueAddr (s : State) (asid p : Nat) : Nat := s.reg 0x702 + 128 * asid + 16 * p
def queueGet (s : State) (asid p : Nat) : Nat := physRead s (queueAddr s asid p) 8
def queueSet (s : State) (asid p v : Nat) : State := physWrite s (queueAddr s asid p) 8 v

/-- PENDING changed by one (R366). -/
def raisePending (s : State) (asid p : Nat) : State := queueSet s asid p (queueGet s asid p + 2 ^ 32)
def lowerPending (s : State) (asid p : Nat) : State :=
  let q := queueGet s asid p
  if bits q 47 32 = 0 then s else queueSet s asid p (q - 2 ^ 32)

/-- A launch enters a state; PENDING falls when it leaves states 1 and 2 (R366). -/
def enterState (s : State) (l st : Nat) : State :=
  let old := recState s l
  let s := setRecState s l st
  if (old = 1 ∨ old = 2) ∧ st ≠ 1 ∧ st ≠ 2 then lowerPending s (recAsid s l) (recPrio s l) else s

/-! ### Order and head (R368, R370) -/

/-- Launches of state 2 or 3 by priority 7..0, lowest LSEQ first. -/
def launchOrder (s : State) : List Nat :=
  let ls := (launchList s).filter (fun l => recState s l == 2 || recState s l == 3)
  (List.range 8).reverse.flatMap (fun p => ls.filter (fun l => recPrio s l == p))

/-- The head launch (R368). -/
def headLaunch (s : State) : Option Nat := (launchOrder s).head?

/-- HEADT is written when a launch first becomes head (R368). -/
def noteHead (s : State) : State :=
  match headLaunch s with
  | some l => if recGet s l 184 8 = 0 then recSet s l 184 8 s.timer else s
  | none => s

/-- A launch becomes queued: its next unit begins to wait (R369). -/
def enterQueued (s : State) (l : Nat) : State :=
  { (noteHead (enterState s l 2)) with unitSince := mset s.unitSince l s.now }

/-- clk as µs (R4). -/
def clkUs (clk : Nat) : Nat := clk / 2250

/-- The head launch has reached its age limit (R368). -/
def headAges (s : State) : Bool :=
  match headLaunch s with
  | some l =>
    let limit := s.reg (0x708 + recPrio s l)
    limit != 0 && clkUs (s.timer - recGet s l 184 8) ≥ limit
  | none => false

/-- The head launch becomes aged (R368). -/
def execHeadAgeExpiry (s : State) : Host.Outcome State Fault Refusal :=
  .next (if headAges s then { s with aged := headLaunch s } else s)

/-- A launch whose NEXT has just risen (Table 21.4): claiming, or placed once no ticket is left; its next unit begins to wait
(R369). A launch in another state stays in it. -/
def afterClaim (s : State) (l : Nat) : State :=
  let st := recState s l
  let s := if st ≠ 2 ∧ st ≠ 3 then s
    else if recNext s l = recLimit s l then enterState s l 4 else if st = 2 then enterState s l 3 else s
  { s with unitSince := mset s.unitSince l s.now }

/-- The unit of a launch that has waited LQ.PSLACK µs (R369). -/
def slackPassed (s : State) (l : Nat) : Bool := clkUs (s.now - mget s.unitSince 0 l) ≥ s.reg 0x705

/-- Units that have waited LQ.PSLACK µs fit any die from now on (R369). -/
def execPreferredDieSlackExpiry (s : State) : Host.Outcome State Fault Refusal :=
  .next { s with slackDone :=
    ((launchOrder s).filter (slackPassed s)).map (fun l => (l, recNext s l)) ++
      s.slackDone.filter (fun x => !((launchOrder s).contains x.1)) }

/-! ### The ends of launches -/

/-- Every team of a launch ends on every core (R329, R373). -/
def endLaunchTeams (s : State) (l : Nat) : State :=
  s.cores.foldl (fun s p =>
    (p.2.teams.filter (fun t => t.2.lseq == l)).foldl (fun s t => endTeam s p.1 t.1) s) s

/-- The other record of a grafted pair (R382). -/
def partnerOf (s : State) (l : Nat) : Option Nat :=
  let p := recGet s l 160 6
  if p = 0 ∨ !recHolds s p then none else some p

/-- A launch ends in a final state other than complete, with its partner (R329, R373, R382). -/
def finishLaunch (s : State) (l st : Nat) : State :=
  if recFinal s l then s
  else
    let s := endLaunchTeams (enterState s l st) l
    { s with grafts := s.grafts.filter (fun g => g.lseq != l && g.partner != some l) }

def finishPair (s : State) (l st : Nat) : State :=
  match partnerOf s l with
  | some p => finishLaunch (finishLaunch s l st) p st
  | none => finishLaunch s l st

/-- The add to DONEC of a launch (R365): the state with DCAUSE. -/
def addDone (s : State) (l : Nat) : State :=
  let d := recDesc s l
  let world := mget s.lworld false l
  if d.donec = 0 then s
  else
    let (s, f) := increase s 0 d.asid world d.donec false none
    match f with
    | some c => recSet s l 155 1 c
    | none => s

/-- A launch, and its grafted partner with it, becomes complete (R365). -/
def completeLaunch (s : State) (l : Nat) : State :=
  let s := releaseEverywhere s
  match partnerOf s l with
  | some p => addDone (addDone (enterState (enterState s l 6) p 6) l) p
  | none => addDone (enterState s l 6) l

/-- Image slots whose pairs are final and whose copses have all retired are freed (R388). -/
def freeImages (s : State) : State :=
  { s with images := s.images.filter (fun p =>
      !((recFinal s p.2.prod || !recHolds s p.2.prod) && s.cores.all (fun c => c.2.copses.all (fun k => k.lseq != p.2.prod)))) }

end Sys2Proof.Machine
end

