-- ==== Sys2Proof/Machine/Copses.lean ====
section
/-! DEFINITION. Copses on cores: carving, allotments, clearing, frames, release, retirement, the slot-reuse fence, and
placement (R206–R212, R219–R222, R262, R263, R295, R363, R365, R369–R372, R381, R382). -/
namespace Sys2Proof.Machine

/-! ### Carving (R363) -/

/-- Windows in use on a core: slot, base, size. -/
def Core.windows (c : Core) : List (Nat × Nat × Nat) := c.teams.map (fun p => (p.1, p.2.wbase, p.2.wsize))

/-- The lowest free base of a window of `w` registers in quadrant q (R363). -/
def freeBase (taken : List (Nat × Nat × Nat)) (q w : Nat) : Option Nat :=
  let here := taken.filter (fun t => t.1 / 4 == q)
  ((List.range 32).map (fun k => 8 * k)).find? (fun b =>
    b + w ≤ 256 && here.all (fun t => b + w ≤ t.2.1 || t.2.1 + t.2.2 ≤ b))

/-- The place of one team: slot and base. -/
def carveOne (taken : List (Nat × Nat × Nat)) (w : Nat) : Option (Nat × Nat) :=
  (List.range 4).findSome? (fun q =>
    match freeBase taken q w, (List.range' (4 * q) 4).find? (fun slot => !taken.any (fun t => t.1 == slot)) with
    | some b, some slot => some (slot, b)
    | _, _ => none)

/-- The places of a copse's teams in team order (R363). -/
def carve (taken : List (Nat × Nat × Nat)) : List Nat → Option (List (Nat × Nat))
  | [] => some []
  | w :: ws =>
    match carveOne taken w with
    | none => none
    | some (slot, b) => (carve ((slot, b, w) :: taken) ws).map (fun rest => (slot, b) :: rest)

/-- Two ranges overlap; an empty range overlaps nothing. -/
def overlaps (a b : Nat × Nat) : Bool := a.2 != 0 && b.2 != 0 && a.1 < b.1 + b.2 && b.1 < a.1 + a.2

/-- The three allotment ranges are free on a core (R262). -/
def allotsFree (c : Core) (w a t : Nat × Nat) : Bool :=
  c.copses.all (fun cp => !overlaps cp.wallot w && !overlaps cp.aallot a && !overlaps cp.callot t)

/-- The lowest free run of cluster SRAM of a length in bytes (R371). -/
def sramRun (s : State) (cluster len : Nat) : Option (Nat × Nat) :=
  let used := (List.range' (8 * cluster) 8).flatMap (fun n => (s.core n).copses.map (fun cp => cp.sram))
  if len = 0 then some (0, 0)
  else (((List.range 256).map (fun k => 65536 * k)).find? (fun o =>
    o + len ≤ 2 ^ 24 && used.all (fun u => !overlaps u (o, len)))).map (fun o => (o, len))

/-- No copse of another U-privilege address space is on the core (R263). -/
def sameSpace (c : Core) (asid priv : Nat) : Bool := priv != 0 || c.copses.all (fun cp => cp.priv != 0 || cp.asid == asid)

/-- The clear that precedes a copse of another U-privilege address space (R263). -/
def clearFor (s : State) (core asid priv : Nat) : State :=
  let c := s.core core
  if priv ≠ 0 then s
  else if c.lastU = none ∨ c.lastU = some asid then s.setCore core { c with lastU := some asid }
  else
    let unit (u : CheckUnit) : Bool := match u with
      | .wbuf n _ => n == core
      | .abuf n _ => n == core
      | .cbuf n _ => n == core
      | _ => false
    { (s.setCore core { c with lastU := some asid, eprog := [], ereg := [] }) with
      wbuf := cclear s.wbuf (core * 2 ^ 20) (2 ^ 20), abuf := cclear s.abuf (core * 2 ^ 19) (2 ^ 19),
      cbuf := cclear s.cbuf (core * 2 ^ 18) (2 ^ 18), bad := s.bad.filter (fun u => !unit u) }

/-! ### Frames and teams -/

/-- The linear index of a copse (R208). -/
def Copse.linear (cp : Copse) : Nat := cp.x + cp.gx * (cp.y + cp.gy * cp.z)

/-- The frame of a team (R210, Table 09.2): teams in the copse, teams in its stage, index within its stage. -/
def frameBytes (cp : Copse) (tno stage nteams nstage sindex : Nat) : List Byte :=
  let (gsize, gpos) := match cp.gang with
    | some (_, n, p) => (n, p)
    | none => (0, 0)
  le 4 cp.x ++ le 4 cp.y ++ le 4 cp.z ++ le 4 cp.gx ++ le 4 cp.gy ++ le 4 cp.gz ++ le 8 cp.linear ++ le 8 cp.lseq ++
    le 1 tno ++ le 1 stage ++ le 1 nteams ++ le 1 nstage ++ le 1 sindex ++ le 1 gsize ++ le 1 gpos ++ le 17 0

def writeFrame (s : State) (core slot : Nat) (frame : List Byte) : State :=
  writeAbuf s (core * 2 ^ 19 + 0x7FC00 + 64 * slot) (frame.map some)

/-- A team as its launch starts it at clk `born`, from which its age counts and after which it can issue (R206, R215, R382;
log 28): `params` gives the registers that hold a parameter block's address. -/
def newTeam (born uid copse lseq asid priv tno stage : Nat) (code : CodeSrc) (wbase wsize entry : Nat)
    (params : List (Nat × Word)) : Team :=
  { slane := false, uid := uid, copse := copse, lseq := lseq, asid := asid, priv := priv, tno := tno, stage := stage,
    code := code, wbase := wbase, wsize := wsize, st := .running,
    lanes := List.replicate 32 { freeLane with live := true, pc := entry, hpc := entry, earliest := born + 1 },
    regs := params.foldl (fun m p => mset m p.1 ⟨21, 0, .uniform p.2⟩) [], guards := [], scale := [], flags := 0, estat := [],
    region := none, age := born, hold := none, pend := [], sys := [], endAt := 0, saved := false }

/-! ### Placement (R369–R372) -/

/-- The preferred die of unit u of a launch (R369). -/
def preferredDie (s : State) (d : Desc) (world : Bool) (u : Nat) : Option Nat :=
  let die (x : Nat) : Option Nat := if x < 4 then some x else none
  if d.pmap ≠ 0 then
    let q : Req := { sysReq d.asid 0 d.pmap u 1 1 1 [0, 3] with acc := 0 }
    match checkIn s world q true with
    | .ok (.dram first (l :: _), _) =>
      match readChunk s (homeOf l) false (l, first, 1) with
      | some [b] => die b.toNat
      | _ => none
    | .ok (.host a, _) => die (Config.hostByte a s.tick).toNat
    | _ => none
  else if d.dhandle = 0 then none
  else
    match s.bte d.asid d.dhandle with
    | some e => if e.pdv then some e.pdie else none
    | none => none

/-- What a core offers a copse of a launch: the places of its teams, where it fits (R363, R371). -/
def coreFits (s : State) (core : Nat) (d : Desc) (world : Bool) : Option (List (Nat × Nat)) :=
  let c := s.core core
  if s.withdrawn core || s.world core != world || !sameSpace c d.asid d.priv || !allotsFree c d.walloc d.aalloc d.calloc then none
  else carve c.windows d.windows

/-- The cores of a cluster that take one unit of a launch, with the places of the teams, and the SRAM run (R371). -/
def unitFits (s : State) (cluster l u : Nat) : Option (List (Nat × List (Nat × Nat)) × (Nat × Nat)) :=
  let d := runDesc s l
  let world := mget s.lworld false l
  let n := max 1 d.gsize
  let dieOk := match preferredDie s d world u with
    | some x => x == cluster / 8 || slackPassed s l
    | none => true
  let fits := ((List.range' (8 * cluster) 8).filterMap (fun c => (coreFits s c d world).map (fun p => (c, p)))).take n
  if !dieOk || fits.length < n then none
  else (sramRun s cluster (d.klen * n * 65536)).map (fun r => (fits, r))

/-- The next unit of the head launch has been head for LQ.PSLACK µs: counted from when the launch first became head or its
ticket before was claimed, whichever is later (R368; DESIGN CHOICE, log 87). -/
def headSlack (s : State) (l : Nat) : Bool :=
  slackPassed s l && clkUs (s.timer - recGet s l 184 8) ≥ s.reg 0x705

/-- A cluster is a candidate for the head (R368): its next unit fits once every copse of the cluster has retired, and its
preferred die is the cluster's or it has been head for the slack. -/
def isCandidate (s : State) (cluster l : Nat) : Bool :=
  let empty := (List.range' (8 * cluster) 8).foldl (fun s n =>
    s.modCore n (fun c => { c with teams := [], copses := [] })) s
  (unitFits empty cluster l (recNext s l)).isSome &&
    (headSlack s l || (match preferredDie s (runDesc s l) (mget s.lworld false l) (recNext s l) with
      | some x => x == cluster / 8
      | none => true))

/-- The dispatch agent's core of a cluster: its lowest core in service. -/
def agentCoreOf (s : State) (cluster : Nat) : Option Nat := (List.range' (8 * cluster) 8).find? (fun n => !s.withdrawn n)

/-- The step claim of one ticket by an agent (R201, R370): NEXT, with the launch's state, as an acq_rel access at device
scope, so that what the launch's LAUNCH released is seen on the agent's die (Table 16.3). -/
def claimTicket (s : State) (agent l : Nat) : State :=
  let s := recSet (releaseDie s (dieOf agent)) l 128 8 (recNext s l + 1)
  acquireDie (afterClaim s l) agent (dieOf agent)

/-- The code and the parameter registers of a launch's teams (R206, R382). -/
def startOf (s : State) (l : Nat) : CodeSrc × List (Nat × Word) :=
  match imageFor s l with
  | some (k, im) =>
    let ws : Nat := (((recDesc s l).windows).head?).getD 0
    (.image (k / 8) (k % 8) im.prod, [(0, (recDesc s l).param), (ws, (recDesc s im.cons).param)])
  | none =>
    let d := recDesc s l
    (.buffer (d.code.toNat / 2 ^ 48), [(0, d.param)])

/-- The stage of a team number: stage, teams in the stage, index within it (R209). -/
def stageOf (stages : List Stage) (tno : Nat) : Nat × Nat × Nat :=
  match stages with
  | [] => (0, 0, 0)
  | st :: rest =>
    if tno < st.nteam then (0, st.nteam, tno)
    else
      let (a, b, c) := stageOf rest (tno - st.nteam)
      (a + 1, b, c)

/-- A copse set up on its core and released (R206, R210, R219): while it is being carved its frames are written, then it is
resident and its teams run. -/
def releaseCopse (s : State) (core l u g : Nat) (d : Desc) (places : List (Nat × Nat)) (sram : Nat × Nat) : State :=
  let n := max 1 d.gsize
  let lin := u * n + g
  let (id, s) := s.fresh
  let (code, params) := startOf s l
  let cp : Copse :=
    { id := id, lseq := l, asid := d.asid, priv := d.priv, x := lin % d.x, y := lin / d.x % d.y, z := lin / (d.x * d.y),
      gx := d.x, gy := d.y, gz := d.z, st := .carving, slots := places.map (fun p => p.1), wallot := d.walloc,
      aallot := d.aalloc, callot := d.calloc, sram := sram,
      gang := if d.gsize = 0 then none else some (u * n, n, g), cv := [], bar := [] }
  let s := clearFor s core d.asid d.priv
  let s := s.modCore core (fun c => { c with copses := c.copses ++ [cp], icache := [], residency := s.now, residencyPosted := false })
  let wins := d.windows
  let s := ((List.range places.length).foldl (fun s tno =>
    let (slot, base) := nth places (0, 0) tno
    let (stage, nst, si) := stageOf d.stages tno
    let (uid, s) := s.fresh
    let entry := ((d.stages[stage]?).map (fun st => st.entry)).getD 0
    let t := newTeam s.now uid id l d.asid d.priv tno stage code base (nth wins 0 tno) entry params
    writeFrame (s.modCore core (fun c => c.setTeam slot t)) core slot (frameBytes cp tno stage places.length nst si)) s)
  s.modCore core (fun c => c.setCopse { cp with st := .resident })

/-- Cluster SRAM of an allotment reads zero at release (R295). -/
def clearSram (s : State) (cluster : Nat) (r : Nat × Nat) : State :=
  let a := cluster * 2 ^ 24 + r.1
  if r.2 = 0 then s
  else { s with
    sram := cclear s.sram a r.2
    bad := s.bad.filter (fun u => match u with
      | .sram c k => !(c == cluster && r.1 ≤ 8 * k && 8 * k < r.1 + r.2)
      | _ => true) }

/-- Admission of a unit's cores by the agent (R370, R372): the state, and whether it succeeded. -/
def admits (s : State) (agent cluster : Nat) (cores : List Nat) : State × Bool :=
  let mask := cores.foldl (fun acc n => acc + 2 ^ (n % 8)) 0
  match execPowerAdmitWrite agent .m (BitVec.ofNat 64 (mask * 256 + cluster)) s with
  | .next s' => (s', (s'.core agent).mctx.admits)
  | _ => (s, false)

/-- A unit of a launch is claimed and released on a cluster, if it can be (R370). -/
def tryUnit (s : State) (agent cluster l : Nat) : State × Bool :=
  let d := runDesc s l
  let u := recNext s l
  if u ≥ recLimit s l then (s, false)
  else
    match unitFits s cluster l u with
    | none => (s, false)
    | some (cores, sram) =>
      let (s, ok) := if d.mx then admits s agent cluster (cores.map (fun c => c.1)) else (s, true)
      if !ok then (s, false)
      else
        let s := clearSram (claimTicket s agent l) cluster sram
        let s := (List.range cores.length).foldl (fun s g =>
          let (core, places) := nth cores (0, []) g
          let s := releaseCopse s core l u g d places sram
          if d.mx then
            s.modCore core (fun c => match c.copses.getLast? with
              | some cp => (c.unhold (.ctx agent .m)).hold (.copse cp.id)
              | none => c)
          else s) s
        (noteHead s, true)

/-- The loop of R370 over the launches. -/
def passOver (agent cluster : Nat) (head : Option Nat) : List Nat → State → State
  | [], s => s
  | l :: ls, s =>
    let blocked := match head with
      | some h => l != h && headAges s && isCandidate s cluster h
      | none => false
    if blocked then s
    else
      match tryUnit s agent cluster l with
      | (s, true) => s
      | (s, false) => passOver agent cluster head ls s

/-- A placement pass of a cluster's dispatch agent (R370). -/
def execPlacementPass (cluster : Nat) (s : State) : Host.Outcome State Fault Refusal :=
  match agentCoreOf s cluster with
  | none => .next s
  | some agent =>
    let s := noteHead s
    .next (passOver agent cluster (headLaunch s) (launchOrder s) s)

/-! ### The end of a team and of a copse -/

/-- A copse whose teams have all ended is retiring (R219). -/
def noteRetiring (c : Core) (id : Nat) : Core :=
  match c.copse? id with
  | some cp =>
    if cp.slots.all (fun slot => match c.team? slot with
        | some t => t.copse != id || t.st == .ended
        | none => true) then c.setCopse { cp with st := .retiring }
    else c
  | none => c

/-- The slot-reuse fence of an ending team closes (R221, R214): scoreboarded results that had not been
delivered when the team ended are discarded, so the window keeps what it held before them; other writes are delivered. -/
def execSlotReuseFenceClose (core slot : Nat) (s : State) : Host.Outcome State Fault Refusal :=
  match (s.core core).team? slot with
  | none => .next s
  | some t =>
    if t.st = .ending ∧ ecAll (s.core core) slot t.uid = 0 then
      .next (s.modCore core (fun c =>
        let ps := t.pend.map (fun p => if p.scoreboarded then p else { p with ready := 0 })
        noteRetiring (c.setTeam slot { (inFlight t.endAt ps).foldr (fun p (t : Team) => p.undo t) t with
          st := .ended, pend := [], hold := none }) t.copse))
    else .next s
where
  ecAll (c : Core) (slot uid : Nat) : Nat := (c.cmds.filter (fun k => k.cls < 8 && k.st != .suspended && k.counts (.team slot) uid)).length

/-- Every team of a copse has ended, or is halted and saved. -/
def copseOver (c : Core) (cp : Copse) : Bool :=
  cp.slots.all (fun slot => match c.team? slot with
    | some t => t.copse != cp.id || t.st == .ended || (t.st == .halted && t.saved)
    | none => true)

/-- The clk from which a copse can retire: at once where its teams have ended. One that was saved stays for a time that the
spec leaves open, in which UNPARK can continue it (R214, R336; log 84). -/
def retireClk (c : Core) (cp : Copse) (now : Nat) : Nat :=
  cp.slots.foldl (fun a slot => match c.team? slot with
    | some t => if t.copse == cp.id && t.st == .halted then max a t.endAt else a
    | none => a) now

/-- A copse that goes because it was saved, not because its teams ended (R214). -/
def copseSaved (c : Core) (cp : Copse) : Bool :=
  cp.slots.any (fun slot => match c.team? slot with
    | some t => t.copse == cp.id && t.st == .halted
    | none => false)

/-- No accepted command of a copse's teams is left. -/
def copseDrained (c : Core) (cp : Copse) : Bool :=
  c.cmds.all (fun k => k.cls ≥ 8 || !(countsFor c cp.slots k) || k.st == .held || k.st == .aside)

/-- A copse's unit is counted as retired once all copses of the unit have gone (Table 21.3). -/
def countRetired (s : State) (cp : Copse) : State :=
  let (first, n) := match cp.gang with
    | some (f, n, _) => (f, n)
    | none => (cp.linear, 1)
  let gone := (cp.lseq, cp.linear) :: s.gone
  let unit := (List.range' first n).map (fun x => (cp.lseq, x))
  if unit.all gone.contains then
    let s := { s with gone := gone.filter (fun x => !unit.contains x) }
    let retired := recGet s cp.lseq 192 8 + 1
    let s := recSet s cp.lseq 192 8 retired
    if retired = recLimit s cp.lseq ∧ recState s cp.lseq = 4 then noteHead (completeLaunch s cp.lseq) else s
  else { s with gone := gone }

/-- A copse retires (R220): its token holding ends, its slots, windows and allotments are free. Its teams' non-temporal stores
are performed, so that they reach memory before its launch completes (R312, R365). -/
def execCopseRetirement (core copse : Nat) (s : State) : Host.Outcome State Fault Refusal :=
  let c := s.core core
  match c.copse? copse with
  | none => .next s
  | some cp =>
    if !copseOver c cp || !copseDrained c cp || retireClk c cp s.now > s.now then .next s
    else
      let saved := copseSaved c cp
      let mine (slot : Nat) : Bool := cp.slots.contains slot && (match c.team? slot with
        | some t => t.copse == cp.id
        | none => false)
      let others := c.copses.filter (fun x => x.id != copse)
      let s := (cp.slots.filter mine).foldl (fun s slot => ntPerformAll s (.team core slot)) s
      let s := s.setCore core { (s.core core) with
        copses := others
        cmds := c.cmds.filter (fun k => !(countsFor c cp.slots k))
        toAccept := c.toAccept.filter (fun k => !(countsFor c cp.slots k))
        teams := c.teams.filter (fun p => !mine p.1)
        ports := c.ports.filter (fun p => !mine p.2.slot)
        holders := c.holders.filter (fun h => h != .copse copse)
        eprog := if others.isEmpty then [] else c.eprog }
      let s := { s with tokens := s.tokens.filter (fun r => !(r.core == core && r.holder == .copse copse)) }
      .next (freeImages (if saved ∨ !recHolds s cp.lseq then s else countRetired s cp))

end Sys2Proof.Machine
end

