-- ==== Sys2Proof/Machine/Restore.lean ====
section
/-! DEFINITION. PARK, UNPARK, CTXSV and CTXLD (R202, R203, R240–R243, R330, R331). -/
namespace Sys2Proof.Machine

/-! ### Targets (R202) -/

/-- The core and slot that a selector names. -/
def targetOf (x : Word) : Nat × Nat := (x.toNat % 256, bits x.toNat 11 8)

/-- BOUNDS of a slot that holds no team, WORLD of a target of the other world (R202). -/
def targetCheck (s : State) (iss : Iss) (x : Word) : Option Nat :=
  let (core, slot) := targetOf x
  if ((s.core core).team? slot).isNone then some cBOUNDS
  else if s.world core ≠ s.world iss.core then some cWORLD else none

/-- The slots that a word acts on: one, or its copse's. -/
def targetSlots (s : State) (x : Word) (whole : Bool) : List Nat :=
  let (core, slot) := targetOf x
  if whole then copseSlots (s.core core) slot else [slot]

/-- The word's state and its own team in it, after a change that may touch its own team. -/
def ownRes (s : State) (iss : Iss) (t : Team) (f : State → State) : State × Team :=
  let s := f (s.putTeam iss.agent t)
  (s, (s.teamOf iss.agent).getD t)

/-- PARK of a slot or a copse (R202): complete at once where every path has stopped, else once it has. -/
def parkBody (w : SW) (whole : Bool) (s : State) (iss : Iss) (v t : Team) : Res :=
  if iss.act = 0 then { s := s, t := t }
  else
    match scalarOperands v iss.act [(w.va.toNat, numFmts)] with
    | .error c => resTrap s t iss.act c
    | .ok vals =>
      let x := nth vals 0 0
      match targetCheck s iss x with
      | some c => resTrap s t iss.act c
      | none =>
        let core := (targetOf x).1
        let slots := targetSlots s x whole
        let (s, t) := ownRes s iss t (fun s => slots.foldl (fun s slot => parkTeam s core slot) s)
        if slots.all (stoppedPaths (s.core core)) then { s := s, t := t }
        else
          let (id, s) := s.fresh
          waitEach { s with procs := s.procs ++ [⟨id, iss.agent, .park core slots⟩] } iss t (fun a => .proc id a)

/-- PARK (R202). -/
def execPark (w : SW) (s : State) : Host.Outcome State Fault Refusal := runWord (.s 0x79 w) (parkBody w false) s
/-- `park.copse` (R202). -/
def execParkCopse (w : SW) (s : State) : Host.Outcome State Fault Refusal := runWord (.s 0x79 w) (parkBody w true) s

/-- UNPARK of a slot or a copse (R202). -/
def unparkBody (w : SW) (whole : Bool) (s : State) (iss : Iss) (v t : Team) : Res :=
  if iss.act = 0 then { s := s, t := t }
  else
    match scalarOperands v iss.act [(w.va.toNat, numFmts)] with
    | .error c => resTrap s t iss.act c
    | .ok vals =>
      let x := nth vals 0 0
      match targetCheck s iss x with
      | some c => resTrap s t iss.act c
      | none =>
        let core := (targetOf x).1
        let slots := targetSlots s x whole
        let (s, t) := ownRes s iss t (fun s => slots.foldl (fun s slot => unparkTeam s core slot) s)
        { s := s, t := t }

/-- UNPARK (R202). -/
def execUnpark (w : SW) (s : State) : Host.Outcome State Fault Refusal := runWord (.s 0x7A w) (unparkBody w false) s
/-- `unpark.copse` (R202). -/
def execUnparkCopse (w : SW) (s : State) : Host.Outcome State Fault Refusal := runWord (.s 0x7A w) (unparkBody w true) s

/-! ### CTXSV -/

/-- The results of R203: bytes, or a code. -/
def saveCode (code : Nat) : Word := BitVec.ofNat 64 (2 ^ 63 + code)

/-- CTXSV after its operands (R203). -/
def saveBody (w : SW) (whole : Bool) (s : State) (iss : Iss) (v t : Team) : Res :=
  if iss.act = 0 then { s := s, t := t }
  else
    match scalarOperands v iss.act [(w.vd.toNat, numFmts), (w.va.toNat, addrFmts)] with
    | .error c => resTrap s t iss.act c
    | .ok vals =>
      let x := nth vals 0 0
      let a := nth vals 0 1
      let (core, slot) := targetOf x
      match targetCheck s iss x with
      | some c => resTrap s t iss.act c
      | none =>
        let slots := targetSlots s x whole
        let n := (saveBytes s core slot whole).length
        match sysCheck s (sysReq t.asid iss.core a 0 n 256 2 [0, 3]) a with
        | .error x => { s := s, t := t, traps := trapAll iss.act x }
        | .ok _ =>
          let halted := slots.all (fun k => match (s.core core).team? k with
            | some t => t.st == .halted || (whole && t.st == .ended)
            | none => true)
          if !halted then { s := s, t := writeScalar iss t w.vd.toNat (saveCode 1) }
          else
            let (s, t) := ownRes s iss t (fun s => s.modCore core (fun c => stopCmds c slots))
            if saveReady (s.core core) slots then
              match saveNow s (devMode iss.core iss.agent 2) t.asid core slot whole a with
              | (s, .error x) => { s := s, t := t, traps := trapAll iss.act x }
              | (s, .ok n) =>
                let t := (s.teamOf iss.agent).getD t
                { s := s, t := writeScalar iss t w.vd.toNat (BitVec.ofNat 64 (n % 2 ^ 32)) }
            else
              let (id, s) := s.fresh
              waitEach { s with procs := s.procs ++ [⟨id, iss.agent, .ctxsv core slot whole a w.vd.toNat⟩] } iss t
                (fun a => .proc id a)

/-- CTXSV (R203). -/
def execCtxsv (w : SW) (s : State) : Host.Outcome State Fault Refusal := runWord (.s 0x7B w) (saveBody w false) s
/-- `ctxsv.copse` (R203, R243). -/
def execCtxsvCopse (w : SW) (s : State) : Host.Outcome State Fault Refusal := runWord (.s 0x7B w) (saveBody w true) s

/-- Paths that wait for an operation go on. -/
def endProc (s : State) (p : Proc) (res : Option (Nat × Word)) : State :=
  let sel (w : Wait) : Bool := match w with
    | .proc id _ => id == p.id
    | _ => false
  releaseCore { s with procs := s.procs.filter (fun q => q.id != p.id) } (agentCore p.agent) sel (fun w =>
    match w with
    | .proc _ true => res
    | _ => none)

/-- The active fibres that wait for an operation trap at their word instead, and the inactive ones go on. -/
def failProc (s : State) (p : Proc) (x : Trap) : State :=
  let s := { s with procs := s.procs.filter (fun q => q.id != p.id) }
  match p.agent with
  | .team core slot =>
    match (s.core core).team? slot with
    | some t =>
      let s := trapLanes s core slot (maskOf (fun i => (t.lane i).wait == some (.proc p.id true))) 0 x
      s.modCore core (fun c => resumeSlots c s.now [slot] (fun w => w == .proc p.id false))
    | none => s
  | .ctx core k => ctxTrap (countWorld s (b2n (x.cause == cWORLD))) core k ((s.core core).ctx k).lane.pc x.cause

/-- The commands of a save target have completed or been suspended: the save is written (R332). -/
def execCtxsvComplete (id : Nat) (s : State) : Host.Outcome State Fault Refusal :=
  match s.procs.find? (fun (p : Proc) => p.id == id) with
  | none => .next s
  | some p =>
    match p.kind with
    | .ctxsv core slot whole a vd =>
      let c := s.core core
      let slots := if whole then copseSlots c slot else [slot]
      if !saveReady c slots then .next s
      else
        match s.teamOf p.agent with
        | none => .next { s with procs := s.procs.filter (fun q => q.id != p.id) }
        | some t =>
          match saveNow s (devMode (agentCore p.agent) p.agent 2) t.asid core slot whole a with
          | (s, .error x) => .next (failProc s p x)
          | (s, .ok n) => .next (endProc s p (some (vd, BitVec.ofNat 64 (n % 2 ^ 32))))
    | _ => .next s

/-! ### CTXLD -/

/-- The header of the clause in which a PC stands, walking clauses from an offset. -/
def headerFor (s : State) (core asid : Nat) (src : CodeSrc) (pc : Nat) : Nat → Nat → Nat
  | 0, _ => pc
  | n + 1, o =>
    match codeAt s core asid src o with
    | .error _ => pc
    | .ok h =>
      let next := o + 8 * (headerLen h + 1)
      if o = pc ∨ next ≤ pc then (if o = pc then pc else headerFor s core asid src pc n next) else o

/-- The wait with which a fibre comes back at a word that it had issued: the arrival that the copse has counted. It is read
from the word and the copse where the device keeps no record of the save. -/
def arrivalWait (cp : Copse) (tno : Nat) (b : Word) : Option Wait :=
  let signed (n : Nat) : Option Wait :=
    let cv := mget cp.cv ⟨false, 0, [], 0, 0⟩ n
    if cv.collecting && cv.word == b && cv.arrived.getLsbD tno then some (.signed n) else none
  match rawOfWord b with
  | some (.e 0x0D w) => signed (fieldOf w.vd 3 0)
  | some (.e op w) => if op = 0x60 ∨ op = 0x61 ∨ op = 0x62 then signed w.cv.toNat else none
  | some (.i 0x0E w) =>
    let n := fieldOf w.imm 3 0
    let bar := mget cp.bar ⟨0, 0, false⟩ n
    if bar.arrived > 0 then some (.barPhase n bar.phase) else none
  | _ => none

/-- A recorded wait that goes on after a restore. The numbers of the commands that a DRAIN waited for do not outlive the
save: its fibres issue it again, for the commands presented again with them. Neither does an arrival that the copse does
not hold. -/
def waitKept (cp : Copse) (tno : Nat) : Wait → Bool
  | .drain _ => false
  | .accept _ => false
  | .proc _ _ => false
  | .barPhase n ph =>
    let bar := mget cp.bar ⟨0, 0, false⟩ n
    bar.arrived != 0 && bar.phase == ph
  | .signed n => (mget cp.cv ⟨false, 0, [], 0, 0⟩ n).arrived.getLsbD tno
  | _ => true

/-- The lanes of a restored team, each with its own wait where it had issued its word (R241, R242). -/
def restoreLanes (s : State) (core asid : Nat) (src : CodeSrc) (cp : Copse) (waits : Option (List (Option Wait))) (a : Area) :
    List Lane :=
  (List.range 32).map (fun i =>
    let (live, issued, pc, pred) := nth a.fibres (false, false, 0, 1) i
    if !live then freeLane
    else
      let h := headerFor s core asid src pc (pc / 16 + 1) 0
      let wait := if !issued || pc == h then none
        else
          match waits with
          | some ws => (nth ws none i).filter (waitKept cp a.tno)
          | none =>
            match codeAt s core asid src pc with
            | .ok b => arrivalWait cp a.tno b
            | .error _ => none
      let last := match codeAt s core asid src h with
        | .ok x => pc == h + 8 * headerLen x
        | .error _ => false
      { freeLane with live := true, pc := pc, hpc := h, pred := pred, wait := wait, earliest := s.now + 1, last := last })

/-- The open region of a restored team, under a number of its own. Where it had been entered every fibre stands at its entry
PC (R55, R241); a team that was saved in REGION's own clause has words before its region to issue yet. -/
def restoreRegion (id : Nat) (a : Area) : Option Region :=
  let pcs := (a.fibres.filter (fun x => x.1)).map (fun x => x.2.2.1)
  a.region.map (fun r =>
    { r with id := id, entered := pcs.all (fun x => x == r.pc), at_ := (pcs.filter (fun x => x < r.pc)).foldl min r.pc - 1 })

/-- A team as its save area gives it, halted (R242). -/
def restoreTeam (s : State) (core base uid : Nat) (sv : Saved) (cp : Copse) (a : Area) : Team :=
  let waits := (sv.waits.find? (fun x => x.1 == a.tno)).map (fun x => x.2)
  { newTeam s.now uid cp.id cp.lseq cp.asid a.priv a.tno a.stage sv.code base a.wsize 0 [] with
    st := .halted, lanes := restoreLanes s core cp.asid sv.code cp waits a, regs := a.regs, flags := BitVec.ofNat 7 a.flags,
    guards := ((List.range 8).map (fun n => (n, bits a.guards (2 * n + 1) (2 * n)))).filter (fun g => g.2 == 1 || g.2 == 2),
    scale := (List.range 16).map (fun n => (n, BitVec.ofNat 128 (nth a.scale 0 n))),
    region := restoreRegion uid a }

/-- The operand values of a matrix word at a team's registers. -/
def wordOps (t : Team) (op : Nat) (w : EW) : List Word :=
  let r := eRow op w
  let val (u : Use) (n : Nat) : Word := if u = .reg then (t.reg n).lane (lowest t.liveMask) else 0
  [val r.vd w.vd.toNat, val r.va w.va.toNat, val r.vb w.vb.toNat, val r.vc w.vc.toNat]

/-- What a held command captured from its team, taken from the restored registers (R149, R170, R172). -/
def wordCapt (s : State) (t : Team) (op : Nat) (w : EW) (ops : List Word) : List Word :=
  if op = 0x5B then (List.range (fieldOf w.md 12 8 + 1)).map (t.reg w.va.toNat).lane
  else if op = 0x65 then (List.range 32).map (t.reg w.va.toNat).lane
  else if op = 0x63 then [BitVec.ofNat 64 (bits (profileOf s t.asid (nth ops 0 2)) 5 3)]
  else []

/-- A held record is presented again (R242, R331); records of one signed command become one command of its signers. -/
def presentHeld (s : State) (core slot : Nat) (t : Team) (known : List Nat) (r : Word × List Word × Nat) : State :=
  let (b, ops, cls) := r
  match rawOfWord b with
  | some (.e op w) =>
    let signed := op == 0x60 || op == 0x61 || op == 0x62
    match (if signed then (s.core core).cmds.find? (fun k =>
        known.contains k.id && k.bits == b && k.ops == ops && !k.counts (.team slot) t.uid) else none) with
    | some k =>
      s.modCore core (fun c => { c with cmds := c.cmds.map (fun j =>
        if j.id = k.id then
          let k' : Cmd := { k with issuers := k.issuers ++ [.team slot], uids := k.uids ++ [t.uid] }
          if k'.st = .held ∨ k'.st = .queued then { k' with st := guardState c s.now k' } else k'
        else j) })
    | none =>
      let (id, s) := s.fresh
      acceptCmd s core s.now
        { id := id, cls := cls, issuers := [.team slot], uids := [t.uid], bits := b, ops := ops, capt := wordCapt s t op w ops,
          guard := if w.ge = 1 then some w.gslot.toNat else none, regions := [], st := .queued, asid := t.asid,
          world := s.world core, pc := 0, aux := none, fallback := false, progress := 0, failed := none, accepted := 0 }
  | _ => s

/-- What the device knows of the copse of a save area; with no record of the save, a launch that the spec leaves open. -/
def savedFor (s : State) (asid : Nat) (v : Word) : Saved :=
  match s.saves.find? (fun (x : Saved) => x.asid == asid && x.addr == v) with
  | some x => x
  | none =>
    let l := Config.restoredLaunch s.tick
    let d := recDesc s l
    { asid := asid, addr := v, core := 256, code := (startOf s l).1, waits := [],
      copse := { id := s.nextId, lseq := l, asid := d.asid, priv := d.priv, x := 0, y := 0, z := 0, gx := d.x, gy := d.y,
                 gz := d.z, st := .resident, slots := [], wallot := d.walloc, aallot := d.aalloc, callot := d.calloc,
                 sram := (0, 0), gang := none, cv := [], bar := [] } }

/-- A restored team is placed in its slot: its team record, its frame where it is written again (R210, R243), and its held
commands. -/
def placeTeam (s : State) (core slot base : Nat) (sv : Saved) (cp : Copse) (nteams : Nat) (frame : Bool) (known : List Nat)
    (a : Area) : State :=
  let (uid, s) := s.fresh
  let t := restoreTeam s core base uid sv cp a
  let s := s.modCore core (fun c => c.setTeam slot t)
  let (_, nst, si) := stageOf (runDesc s cp.lseq).stages a.tno
  let s := if frame then writeFrame s core slot (frameBytes cp a.tno a.stage nteams nst si) else s
  a.held.foldl (fun s r => presentHeld s core slot t known r) s

/-- CTXLD of one team into a slot (R242): the state, and the word's result. -/
def loadTeam (s : State) (core slot : Nat) (sv : Saved) (b : List Byte) : State × Word :=
  match parseArea b with
  | none => (s, saveCode 4)
  | some a =>
    let c := s.core core
    let joined := c.copses.find? (fun x => x.id == sv.copse.id &&
      (match x.slots[a.tno]? with
        | some k => (c.team? k).isNone
        | none => true))
    let free := joined.isSome || (sameSpace c sv.copse.asid a.priv && allotsFree c sv.copse.wallot sv.copse.aallot sv.copse.callot)
    match freeBase c.windows (slot / 4) a.wsize with
    | none => (s, saveCode 3)
    | some base =>
      if !free || s.withdrawn core then (s, saveCode 3)
      else
        let (id, s) := s.fresh
        let cp : Copse := match joined with
          | some x => { x with slots := (padTo x.slots (a.tno + 1) 99).set a.tno slot }
          | none =>
            { sv.copse with
              id := if c.copses.any (fun x => x.id == sv.copse.id) then id else sv.copse.id, priv := a.priv, st := .resident,
              slots := List.replicate a.tno 99 ++ [slot], sram := (0, 0), cv := [], bar := [] }
        let moved := !(sv.core == core && sv.copse.slots[a.tno]? == some slot)
        let s := clearFor s core cp.asid cp.priv
        let s := s.modCore core (fun c =>
          if joined.isSome then c.setCopse cp else { c with copses := c.copses ++ [cp] })
        (placeTeam s core slot base sv cp (max sv.copse.slots.length 1) moved [] a, BitVec.ofNat 64 (fieldAt b 4 4))

/-- The typed-buffer images written back (R243). -/
def putImages (s : State) (core : Nat) (cp : Copse) (b : List Byte) : State :=
  let w := cp.wallot.2
  let a := cp.aallot.2
  let t := cp.callot.2 * 1024
  let s := writeWbuf s (core * 2 ^ 20 + cp.wallot.1) ((b.take w).map some)
  let b := b.drop (padLen w 256)
  let s := writeAbuf s (core * 2 ^ 19 + cp.aallot.1) ((b.take a).map some)
  let b := b.drop (padLen a 256)
  writeCbuf s (core * 2 ^ 18 + cp.callot.1 * 1024) ((b.take t).map some)

/-- The convergence registers of a restored copse, with the operand values that their signers present. -/
def fillCv (c : Core) (cp : Copse) : Copse :=
  { cp with cv := cp.cv.map (fun p =>
      match rawOfWord p.2.word with
      | some (.e op w) =>
        match c.teams.find? (fun t => t.2.copse == cp.id && t.2.lanes.any (fun l => l.wait == some (.signed p.1))) with
        | some t => if op = 0x0D then p else (p.1, { p.2 with ops := wordOps t.2 op w })
        | none => p
      | _ => p) }

/-- CTXLD of a whole copse (R243): everything or nothing. -/
def loadCopse (s : State) (core : Nat) (sv : Saved) (b : List Byte) : State × Word :=
  match parseCopse b with
  | none => (s, saveCode 4)
  | some k =>
    let c := s.core core
    let priv := ((k.teams.head?).map (fun a => a.2.priv)).getD 0
    if s.withdrawn core || !sameSpace c sv.copse.asid priv || !allotsFree c k.wallot k.aallot k.callot then (s, saveCode 3)
    else
      match carve c.windows (k.teams.map (fun a => a.2.wsize)) with
      | none => (s, saveCode 3)
      | some places =>
        let (id, s) := s.fresh
        let placed := k.teams.zip places
        let last := k.teams.foldl (fun n a => max n a.1) 0
        let cp : Copse :=
          { sv.copse with
            id := if c.copses.any (fun x => x.id == sv.copse.id) then id else sv.copse.id, priv := priv, st := .carving,
            slots := (List.range (last + 1)).map (fun i =>
              ((placed.find? (fun x => x.1.1 == i)).map (fun x => x.2.1)).getD 99),
            wallot := k.wallot, aallot := k.aallot, callot := k.callot, sram := (0, 0), cv := k.cv, bar := k.bar }
        let s := clearFor s core cp.asid cp.priv
        let s := s.modCore core (fun c => { c with
          copses := c.copses ++ [cp], eprog := k.eprog })
        let s := putImages s core cp k.images
        let first := s.nextId
        let s := placed.foldl (fun s x =>
          placeTeam s core x.2.1 x.2.2 sv cp (last + 1) true (List.range' first (s.nextId - first)) x.1.2) s
        (s.modCore core (fun c => c.setCopse { fillCv c cp with st := .resident }), BitVec.ofNat 64 (fieldAt b 4 4))

/-- CTXLD after its operands (R203, R242). -/
def ctxLoadBody (w : SW) (whole : Bool) (s : State) (iss : Iss) (v t : Team) : Res :=
  if iss.act = 0 then { s := s, t := t }
  else
    match scalarOperands v iss.act [(w.vd.toNat, numFmts), (w.va.toNat, addrFmts)] with
    | .error c => resTrap s t iss.act c
    | .ok vals =>
      let x := nth vals 0 0
      let a := nth vals 0 1
      let (core, slot) := targetOf x
      if s.world core ≠ s.world iss.core then resTrap s t iss.act cWORLD
      else
        let m := devMode iss.core iss.agent 1
        match sysCheck s (sysReq t.asid iss.core a 0 64 256 1 [0, 3]) a with
        | .error x => { s := s, t := t, traps := trapAll iss.act x }
        | .ok _ =>
          match sysRead m t.asid a [(0, 64)] s with
          | (s, .error x) => { s := s, t := t, traps := trapAll iss.act x }
          | (s, .ok head) =>
            let magic := if whole then 0xCA5D0002 else 0xCA5D0001
            if ((s.core core).team? slot).isSome then { s := s, t := writeScalar iss t w.vd.toNat (saveCode 2) }
            else if fieldAt head 0 4 ≠ magic then { s := s, t := writeScalar iss t w.vd.toNat (saveCode 4) }
            else
              match sysRead m t.asid a (stretchesAt a.toNat (fieldAt head 4 4)) s with
              | (s, .error x) => { s := s, t := t, traps := trapAll iss.act x }
              | (s, .ok b) =>
                let sv := savedFor s t.asid a
                let (s, r) := if whole then loadCopse s core sv b else loadTeam s core slot sv b
                { s := s, t := writeScalar iss t w.vd.toNat r }

/-- CTXLD (R203, R242). -/
def execCtxld (w : SW) (s : State) : Host.Outcome State Fault Refusal := runWord (.s 0x7C w) (ctxLoadBody w false) s
/-- `ctxld.copse` (R203, R243). -/
def execCtxldCopse (w : SW) (s : State) : Host.Outcome State Fault Refusal := runWord (.s 0x7C w) (ctxLoadBody w true) s

end Sys2Proof.Machine
end

