-- ==== Sys2Proof/Machine/Swap.lean ====
section
/-! DEFINITION. Partition swap between clusters and shadow slots (R333–R335, R349, Tables 18.6, 18.7). -/
namespace Sys2Proof.Machine

/-! ### The value of SEC.SWAP (Table 19.2) -/

def swapCluster (v : Word) : Nat := bits v.toNat 4 0
def swapSlot (v : Word) : Nat := bits v.toNat 10 8
def swapDirIn (v : Word) : Bool := bit v.toNat 11

/-- The cores of a cluster. -/
def clusterCores (cl : Nat) : List Nat := List.range' (8 * cl) 8

/-- A swap of the die of a slot is under way (R349). -/
def dieBusy (s : State) (slot : Nat) : Bool := s.swaps.any (fun w => w.slot / 2 == slot / 2)

/-- The outcome of a slot's latest swap, as SEC.SWSTAT keeps it. -/
def setOutcome (s : State) (slot code : Nat) : State :=
  let x := s.reg 0x80B
  s.setReg 0x80B (x - bits x (4 * slot + 3) (4 * slot) * 16 ^ slot + code * 16 ^ slot)

/-- SEC.SWSTAT as it reads: outcomes and BUSY bits. -/
def swapStatus (s : State) : Nat :=
  s.swaps.foldl (fun acc w => acc ||| 2 ^ (4 * w.slot + 3)) (s.reg 0x80B)

/-! ### Outcomes (Table 18.7, R349) -/

/-- A team of a core is neither halted nor ended. -/
def unhalted (c : Core) : Bool := c.teams.any (fun t => !(t.2.st == .halted || t.2.st == .ended))

/-- An entry that belongs to a team of the core, not to the core itself or to a context of its S-lane. -/
def ofTeams (e : TqEntry) : Bool := e.uid != 0 && e.cause != cQUEUE && e.cause != cRESIDENCY

/-- Why a swap is refused; 0 where it is not. -/
def swapRefusal (s : State) (v : Word) : Nat :=
  let cl := swapCluster v
  let cores := (clusterCores cl).map s.core
  let full := (mget? s.shadows (swapSlot v)).isSome
  if swapSlot v / 2 ≠ cl / 8 then 5
  else if swapDirIn v then
    if (clusterCores cl).any s.withdrawn then 4
    else if !full then 3
    else if cores.any (fun c => !c.copses.isEmpty || c.tq.any (fun e => e.2.st != .free) || !c.tqWait.isEmpty) then 4 else 0
  else if cores.any unhalted then 1
  else if cores.any (fun c => c.tq.any (fun e => e.2.st == .taken && ofTeams e.2)) then 2
  else if full then 3 else 0

/-! ### Entries in posting order -/

def insertSeq (e : Nat × TqEntry) : List (Nat × TqEntry) → List (Nat × TqEntry)
  | [] => [e]
  | x :: xs => if e.2.seq < x.2.seq then e :: x :: xs else x :: insertSeq e xs

/-- The entries of a queue that a test holds for, with their indices, oldest first (R196). -/
def Core.tqWhere (c : Core) (f : TqEntry → Bool) : List (Nat × TqEntry) :=
  (c.tq.filter (fun e => f e.2)).foldl (fun acc e => insertSeq e acc) []

/-! ### Out -/

/-- A fibre that waits at a class 5 word issues it again when its team resumes. -/
def reissueLane (l : Lane) : Lane :=
  match l.wait with
  | some (.proc _ _) => { l with wait := none }
  | _ => l

/-- A team as a swap saves it (R55): inside an open region every fibre stands at its entry PC, and the live-ins alone keep
their values; a fibre that awaits the service of its trap or system call stays parked. -/
def swapTeam (t : Team) : Team :=
  match t.openRegion with
  | some r =>
    { t with
      lanes := t.lanes.map (fun l => if l.live then { l with pc := r.pc, hpc := r.pc, wait := none, parkDue := false, last := false } else l),
      regs := t.regs.filter (fun p => p.1 < 64 && r.livein.getLsbD p.1), pend := [], region := some { r with at_ := r.pc } }
  | none => { t with lanes := t.lanes.map reissueLane }

/-- A holding of a copse, not of an S-lane context. -/
def ofCopse : Holder → Bool
  | .copse _ => true
  | .ctx _ _ => false

/-- What a core gives to the shadow slot, and what it keeps. -/
def coreOut (c : Core) : Core × Core :=
  let waits := (c.tqWhere (fun e => e.st == .pending && ofTeams e)).map (fun e => e.2)
  let mine := c.cmds.filter Cmd.ofTeam
  let out : Core :=
    { Core.reset with
      teams := c.teams.map (fun t => (t.1, swapTeam t.2)), copses := c.copses, cmds := mine,
      toAccept := c.toAccept.filter Cmd.ofTeam, eprog := c.eprog, ereg := c.ereg, faults := c.faults, waiting := c.waiting,
      tqWait := waits ++ c.tqWait.filter ofTeams, holders := c.holders.filter ofCopse, lastU := c.lastU }
  let left : Core :=
    { c with
      teams := [], copses := [], ports := [], cmds := c.cmds.filter (fun k => !k.ofTeam),
      toAccept := c.toAccept.filter (fun k => !k.ofTeam), eprog := [],
      ereg := [], faults := [], waiting := [],
      tq := c.tq.map (fun e => if e.2.st == .pending && ofTeams e.2 then (e.1, { e.2 with st := .free }) else e),
      tqWait := c.tqWait.filter (fun e => !ofTeams e), holders := c.holders.filter (fun h => !ofCopse h),
      residency := 0, residencyPosted := false, lastU := none, l1 := [], icache := [] }
  (out, left)

/-- The holdings that the copses of a core have asked for again and not yet been given, in order (R334). -/
def asked (s : State) (core : Nat) : List Holder :=
  (s.tokens.filter (fun r => r.core == core && ofCopse r.holder && r.agent.isNone)).map (fun r => r.holder)

/-- A check unit of a cluster, by position. -/
def unitAt (cl : Nat) (f : Nat → Nat) : CheckUnit → Option CheckUnit
  | .wbuf c u => if c / 8 = cl then some (.wbuf (f c) u) else none
  | .abuf c u => if c / 8 = cl then some (.abuf (f c) u) else none
  | .cbuf c u => if c / 8 = cl then some (.cbuf (f c) u) else none
  | .sram c u => if c = cl then some (.sram 0 u) else none
  | _ => none

/-- The cluster's state moves to the slot (R333). -/
def swapOutNow (s : State) (slot cl : Nat) : State :=
  let cores := clusterCores cl
  let agents := cores.flatMap (fun n => (s.core n).teams.map (fun t => Agent.team n t.1))
  let s := agents.foldl propagateAll s
  let s := agents.foldl ntPerformAll s
  let s := releaseDie s (cl / 8)
  let c0 := 8 * cl
  let sh : Shadow :=
    { cores := cores.map (fun n =>
        let x := (coreOut (s.core n)).1
        (n % 8, { x with holders := x.holders ++ asked s n })),
      wbuf := ccut s.wbuf (c0 * 2 ^ 20) (2 ^ 23), abuf := ccut s.abuf (c0 * 2 ^ 19) (2 ^ 22),
      cbuf := ccut s.cbuf (c0 * 2 ^ 18) (2 ^ 21), sram := ccut s.sram (cl * 2 ^ 24) (2 ^ 24),
      bad := s.bad.filterMap (unitAt cl (fun n => n % 8)) }
  let s := cores.foldl (fun s n => s.modCore n (fun c => (coreOut c).2)) s
  { s with
    shadows := mset s.shadows slot sh, wbuf := cclear s.wbuf (c0 * 2 ^ 20) (2 ^ 23), abuf := cclear s.abuf (c0 * 2 ^ 19) (2 ^ 22),
    cbuf := cclear s.cbuf (c0 * 2 ^ 18) (2 ^ 21), sram := cclear s.sram (cl * 2 ^ 24) (2 ^ 24),
    bad := s.bad.filter (fun u => (unitAt cl id u).isNone),
    procs := s.procs.filter (fun (p : Proc) => !agents.contains p.agent),
    tokens := s.tokens.filter (fun r => !(cores.contains r.core && ofCopse r.holder)) }

/-! ### In -/

/-- A suspended command runs again; a held one is held (R331, R334). -/
def cmdBack (k : Cmd) : Cmd :=
  if k.st = .suspended then { k with st := .queued, guard := none } else k.heldAgain

/-- A core takes up what the slot holds for its position (R334): its teams are halted, its entries pending. -/
def coreIn (s : State) (n : Nat) (x : Core) : State :=
  let s := s.modCore n (fun c => { c with
    teams := x.teams.map (fun t => (t.1, if t.2.st = .running then { t.2 with st := .halted } else t.2)),
    copses := x.copses, cmds := c.cmds ++ x.cmds.map cmdBack, toAccept := c.toAccept ++ x.toAccept, eprog := x.eprog, ereg := x.ereg,
    faults := x.faults, waiting := x.waiting, residency := s.now, residencyPosted := false, icache := [],
    lastU := x.lastU })
  let s := x.tqWait.foldl (fun s e => postEntry s n e) s
  { s with tokens := s.tokens ++ x.holders.map (fun h => (⟨n, h, none, s.now, false⟩ : TokenReq)) }

/-- A unit of a slot, back on a cluster. -/
def unitBack (cl : Nat) : CheckUnit → CheckUnit
  | .wbuf c u => .wbuf (8 * cl + c) u
  | .abuf c u => .abuf (8 * cl + c) u
  | .cbuf c u => .cbuf (8 * cl + c) u
  | .sram _ u => .sram cl u
  | u => u

/-- Teams whose launch has failed or been discarded meanwhile end (R329, R373). -/
def endFinished (s : State) (n : Nat) : State :=
  (s.core n).teams.foldl (fun s t => if recHolds s t.2.lseq && recState s t.2.lseq ≥ 7 then endTeam s n t.1 else s) s

/-- The slot's contents move to a cluster (R334). -/
def swapInNow (s : State) (slot cl : Nat) : State :=
  match mget? s.shadows slot with
  | none => s
  | some sh =>
    let c0 := 8 * cl
    let s := { s with
      shadows := mdel s.shadows slot, wbuf := cpaste s.wbuf (c0 * 2 ^ 20) (2 ^ 23) sh.wbuf,
      abuf := cpaste s.abuf (c0 * 2 ^ 19) (2 ^ 22) sh.abuf, cbuf := cpaste s.cbuf (c0 * 2 ^ 18) (2 ^ 21) sh.cbuf,
      sram := cpaste s.sram (cl * 2 ^ 24) (2 ^ 24) sh.sram, bad := s.bad ++ sh.bad.map (unitBack cl) }
    let s := sh.cores.foldl (fun s p => coreIn s (c0 + p.1) p.2) s
    let s := (clusterCores cl).foldl endFinished s
    acquireDie s c0 (cl / 8)

/-! ### Starting and finishing -/

/-- A swap starts, or reports why it is refused (R334, R349). A swap-in moves the state as it starts. -/
def startSwap (s : State) (v : Word) : State :=
  let slot := swapSlot v
  let cl := swapCluster v
  let s := s.setReg 0x80A (v.toNat % 32 + 256 * slot + 2048 * b2n (swapDirIn v))
  match swapRefusal s v with
  | 0 =>
    let s := { s with swaps := s.swaps ++ [⟨slot, cl, swapDirIn v⟩] }
    if swapDirIn v then swapInNow s slot cl
    else (clusterCores cl).foldl (fun s n => s.modCore n (fun c => stopCmds c (c.teams.map (fun t => t.1)))) s
  | code => setOutcome s slot code

/-- A write to SEC.SWAP with DIR 0, once its die is free. -/
def execSwapOut (value : Word) (s : State) : Host.Outcome State Fault Refusal :=
  .next (if swapDirIn value || dieBusy s (swapSlot value) then s else startSwap s value)

/-- A write to SEC.SWAP with DIR 1, once its die is free. -/
def execSwapIn (value : Word) (s : State) : Host.Outcome State Fault Refusal :=
  .next (if !swapDirIn value || dieBusy s (swapSlot value) then s else startSwap s value)

/-- A swap finishes (R335): the state of a swap-out moves once its commands are done. -/
def execSwapDone (slot : Nat) (s : State) : Host.Outcome State Fault Refusal :=
  match s.swaps.find? (fun (w : Swap) => w.slot == slot) with
  | none => .next s
  | some w =>
    let ready := w.dirIn || (clusterCores w.cluster).all (fun n => saveReady (s.core n) ((s.core n).teams.map (fun t => t.1)))
    if !ready then .next s
    else
      let s := { s with swaps := s.swaps.filter (fun x => x != w) }
      .next (setOutcome (if w.dirIn then s else swapOutNow s slot w.cluster) slot 0)

end Sys2Proof.Machine
end

