-- ==== Sys2Proof/Machine/Registers.lean ====
section
/-! DEFINITION. The system registers: what SYSR reads and what a write does, for every register the spec gives (R189–R192,
R195, R239, R290, R291, R338, R346, R347, R355, R367, R372, R398, R415, R416, R419). -/
namespace Sys2Proof.Machine

/-! ### Events of a context (Table 07.3, R193, R348) -/

/-- The external lines whose sources stand (Table 19.4). -/
def linesNow (s : State) : BitVec 8 :=
  BitVec.ofNat 8 (b2n (s.reg 0x8C2 != 0) + 2 * b2n (bits (s.reg 0x8C1) 3 2 != 0) +
    4 * b2n ((List.range 12).any (fun p => s.eth p 2 != 0)) + 8 * b2n (s.reg 0x8AD != 0) + 16 * b2n (s.reg 0x724 != 0))

/-- S.IPEND of a context. -/
def ipend (s : State) (core : Nat) (k : Ctx) : Nat :=
  let c := s.core core
  let m := k == .m
  b2n (c.tq.any (fun e => e.2.st == .pending && e.2.toM == m)) + 2 * b2n (decide (s.timer ≥ (c.ctx k).timercmp.toNat)) +
    (if m then 0 else 4 * (s.lines &&& linesNow s).toNat) + 1024 * b2n (m && bits (s.reg 0x806) 4 0 != 0) +
    2048 * b2n (m && (c.ctx .m).pend11)

/-- S.IPEND AND S.IMASK; bit 11 is always enabled. -/
def enabled (s : State) (core : Nat) (k : Ctx) : Nat := ipend s core k &&& ((s.core core).ctx k).imask.toNat ||| (ipend s core k &&& 0x800)

/-- The lowest pending enabled source. -/
def source (s : State) (core : Nat) (k : Ctx) : Option Nat := (List.range 12).find? (fun i => bit (enabled s core k) i)

/-- The cause code of a source (R193, R195). -/
def sourceCause (c : Core) (src : Nat) : Nat :=
  if src = 0 then cQUEUE else if src = 1 then cTIMER else if src < 10 then cINTERRUPT else if src = 10 then cALARM
  else c.sctx.stopCause

/-! ### Which copy -/

/-- The context whose per-context registers an agent reaches (R190). -/
def ctxOf (s : State) (a : Agent) (sb : Bool) : Ctx :=
  match a with
  | .ctx _ k => if sb then .s else k
  | .team c slot =>
    match (s.core c).team? slot with
    | some t => if t.priv = 2 then .m else .s
    | none => .s

/-- The team of an agent, or of a context its view. -/
def agentTeam (s : State) (a : Agent) : Team := (s.teamOf a).getD (asTeam (s.core (agentCore a)) .s)

/-! ### Reading -/

/-- ec of each class in its 6-bit field (TEAM.EC). -/
def ecFields (s : State) (a : Agent) (t : Team) : Nat :=
  (List.range 8).foldl (fun acc n => acc + ecOf (s.core (agentCore a)) (issuerOf a) t.uid n % 64 * 64 ^ n) 0

/-- A register of the CORE and TEAM blocks. -/
def readCoreTeam (s : State) (a : Agent) (n : Nat) : Nat :=
  let core := agentCore a
  let c := s.core core
  let t := agentTeam s a
  if n = 0x000 then core % 256 + 768
  else if n = 0x001 then b2n c.stallchk
  else if n = 0x002 then b2n c.deadmode
  else if n = 0x100 then t.flags.toNat
  else if n = 0x101 then
    t.tno % 16 + 16 * (t.stage % 4) + 64 * (t.priv % 4) + 256 * (match a with
      | .team _ slot => slot % 16
      | .ctx _ _ => 0) + 4096 * (core % 256)
  else if n = 0x102 then (List.range 8).foldl (fun acc g => acc + t.guardSlot g % 4 * 4 ^ g) 0
  else if n = 0x103 then ecFields s a t
  else (t.scaleReg ((n - 0x110) / 2)).toNat / 2 ^ (64 * (n % 2)) % 2 ^ 64

/-- A register of the S, TQ and TIMER blocks. -/
def readCtx (s : State) (core : Nat) (k : Ctx) (n : Nat) : Nat :=
  let c := s.core core
  let x := c.ctx k
  if n = 0x180 then b2n x.trap + 2 * b2n (k == .m) + 4 * b2n (s.world core)
  else if n = 0x181 then x.epc.toNat
  else if n = 0x182 then x.tvec.toNat
  else if n = 0x183 then x.cause.toNat
  else if n = 0x184 then ipend s core k
  else if n = 0x185 then x.imask.toNat ||| 0x800
  else if n = 0x186 then x.flags.toNat
  else if n = 0x187 then x.code
  else if n = 0x188 then c.sctx.spc + 2 ^ 63 * b2n c.sctx.stopped
  else if n = 0x200 then
    let mine (st : TqSt) (e : TqEntry) : Bool := e.st == st && e.toM == (k == .m)
    let ps := c.tqWhere (mine .pending)
    ((ps.head?).map (fun e => e.1)).getD 0 + 256 * ps.length + 65536 * (c.tqWhere (mine .taken)).length
  else if n = 0x201 then x.tqstat
  else if n = 0x210 then s.timer
  else x.timercmp.toNat

/-- The value that a read of a register gives to an agent. -/
def regRead (s : State) (a : Agent) (sb : Bool) (n : Nat) : Word :=
  let core := agentCore a
  BitVec.ofNat 64 (
    if n < 0x180 then readCoreTeam s a n
    else if n < 0x280 then readCtx s core (ctxOf s a sb) n
    else if n < 0x288 then mget (s.core core).meshW 1 (n - 0x280)
    else if n = 0x288 then (s.core core).mcHeld.length % 64 + 256 * ((s.core core).mcPeak % 64)
    else if 0x400 ≤ n ∧ n < 0x580 then
      let p := (n - 0x400) / 32
      let k := n % 32
      if k = 5 ∨ k = 6 ∨ k = 8 ∨ k = 9 then s.ethPos p k
      else if k = 15 then min 2047 (holeOpen s p)
      else if k = 16 then min 2047 (max (s.eth p 16) (holeOpen s p))
      else s.eth p k
    else if n = 0x704 then (match headLaunch s with
      | some l => l + 2 ^ 63
      | none => 0)
    else if n = 0x721 then poolSize s
    else if n = 0x722 then tokensFree s
    else if n = 0x723 then b2n ((s.core core).ctx (ctxOf s a false)).admits
    else if n = 0x808 then s.keys.toNat
    else if n = 0x809 then s.fuseSvn
    else if n = 0x80B then swapStatus s
    else if n = 0x8AB then s.reg 0x8AB / 2 * 2 + b2n s.flashOp.isSome
    else s.reg n)

/-! ### Writes with a behaviour of their own -/

/-- The S context of a core resumes at a PC, or stops there where R14 fails (R195, R419). -/
def resumeS (s : State) (core pc : Nat) : State :=
  let c := s.core core
  let x := c.sctx
  let src : CodeSrc := if x.code = 0 then .phys else .buffer x.code
  match targetCode s core 1 src pc with
  | 0 =>
    s.modCore core (fun c => { c with sctx := { c.sctx with
      spc := pc, stopped := false, fetch := src, clause := none,
      lane := { c.sctx.lane with live := true, pc := pc, hpc := pc, wait := none, earliest := s.now + 1 } } })
  | code =>
    s.modCore core (fun c => { c with
      sctx := { c.sctx with spc := pc, stopped := true, stopCause := codeCause code, clause := none,
                            lane := { c.sctx.lane with live := true, pc := pc, hpc := pc, wait := none } }
      mctx := { c.mctx with pend11 := true } })

/-- A write to S.SPC (R195). -/
def writeSpc (s : State) (core : Nat) (v : Word) : State :=
  let pc := v.toNat % 2 ^ 48
  let x := (s.core core).sctx
  if x.stopped then resumeS s core pc
  else s.modCore core (fun c => { c with sctx := { c.sctx with spc := pc } })

/-- The monitor starts an S context (R342): it begins at S.SPC, and BOOT.STAT goes to stage 3. -/
def beginS (s : State) (core : Nat) : State :=
  resumeS (s.setReg 0x880 (s.reg 0x880 - s.reg 0x880 % 16 + 3)) core (s.core core).sctx.spc

/-- The start of an S context, where one falls due. By what means the monitor starts one the spec does not say: one that has
never run and whose S.SPC is no longer 0 starts at a time that is free (DEDUCED, log 77); BOOT.STAT shows it (log 13). -/
def startS (s : State) (core : Nat) : State :=
  let x := (s.core core).sctx
  if x.spc != 0 && !x.lane.live && !x.stopped && Config.contextStarts core s.now then beginS s core else s

/-- The M context writes S.SPC (R195). -/
def execSSpcWrite (core : Nat) (value : Word) (s : State) : Host.Outcome State Fault Refusal := .next (writeSpc s core value)

/-- A write to S.CODE (R419). -/
def writeCode (s : State) (core : Nat) (k : Ctx) (v : Word) : State :=
  s.modCore core (fun c => { (c.setCtx k { c.ctx k with code := v.toNat % 2 ^ 16 }) with icache := [] })

/-- S.CODE is written (R419). -/
def execSCodeWrite (core : Nat) (ctx : Ctx) (value : Word) (s : State) : Host.Outcome State Fault Refusal :=
  .next (writeCode s core ctx value)

/-- A core that keeps its world: it holds a copse, a trap-queue entry or a token holding (R346). -/
def worldFixed (c : Core) : Bool :=
  !c.copses.isEmpty || c.tq.any (fun e => e.2.st != .free) || !c.tqWait.isEmpty || !c.holders.isEmpty

/-- World bits that may be 1: with the world keys any, else those that already are (R346). -/
def gateWorld (s : State) (old v : Nat) : Nat := if s.keys.getLsbD 1 then v else v &&& old

/-- A write to SEC.CWORLDn (R346). -/
def writeCworld (s : State) (n : Nat) (v : Word) : State :=
  let old := s.reg (0x800 + n)
  let gated := gateWorld s old v.toNat
  let new := (List.range 64).foldl (fun acc i =>
    let keep := worldFixed (s.core (64 * n + i))
    if (if keep then bit old i else bit gated i) then acc + 2 ^ i else acc) 0
  s.setReg (0x800 + n) new

/-- SEC.CWORLDn is written (R346). -/
def execSecCworldWrite (n : Nat) (value : Word) (s : State) : Host.Outcome State Fault Refusal :=
  .next (if n < 4 then writeCworld s n value else s)

/-- A write to SEC.RGNn (R346, Table 19.3). -/
def writeRgn (s : State) (n : Nat) (v : Word) : State :=
  let x := v.toNat
  let old := s.reg (0x840 + n)
  let world := bit x 62 && (s.keys.getLsbD 1 || bit old 62)
  s.setReg (0x840 + n) (x % 2 ^ 38 + 2 ^ 62 * b2n world + 2 ^ 63 * b2n (bit x 63))

/-- SEC.RGNn is written (R346). -/
def execSecRgnWrite (n : Nat) (value : Word) (s : State) : Host.Outcome State Fault Refusal :=
  .next (if n < 64 then writeRgn s n value else s)

/-- A write to SEC.APOL: one that contains the policy value 3 changes nothing (R347). -/
def writeApol (s : State) (v : Word) : State :=
  if (List.range 5).any (fun c => bits v.toNat (2 * c + 1) (2 * c) == 3) then s else s.setReg 0x805 (v.toNat % 2 ^ 10)

/-- SEC.APOL is written (R347). -/
def execSecApolWrite (value : Word) (s : State) : Host.Outcome State Fault Refusal := .next (writeApol s value)

/-- Any write clears SEC.ALOG (R338, Table 19.2). -/
def execSecAlogWrite (_value : Word) (s : State) : Host.Outcome State Fault Refusal := .next (s.setReg 0x806 0)

/-- A higher value blows the security-version fuses (R338). -/
def writeSvn (s : State) (v : Word) : State :=
  if v.toNat % 256 > s.fuseSvn then { s with fuseSvn := v.toNat % 256 } else s

/-- SEC.SVN is written (R338). -/
def execSecSvnWrite (value : Word) (s : State) : Host.Outcome State Fault Refusal := .next (writeSvn s value)

/-- A write to MEM.PROFn (R290). -/
def writeProf (s : State) (n : Nat) (v : Word) : State :=
  let x := v.toNat % 64
  if (n = 0 ∧ bit x 0 = true) ∨ (bit x 0 = true ∧ bit x 1 = true) then s else s.setReg (0x610 + n) x

/-- MEM.PROFn is written (R290). -/
def execMemProfWrite (n : Nat) (value : Word) (s : State) : Host.Outcome State Fault Refusal :=
  .next (if n < 8 then writeProf s n value else s)

/-- Any write clears MEM.UELOG (R291). -/
def execMemUelogWrite (_value : Word) (s : State) : Host.Outcome State Fault Refusal := .next (s.setReg 0x621 0)

/-! ### Every write -/

/-- The state of an outcome that is a next state. -/
def stateOf (s : State) (o : Host.Outcome State Fault Refusal) : State :=
  match o with
  | .next t => t
  | _ => s

/-- A write to the CORE and TEAM blocks. -/
def writeCoreTeam (s : State) (a : Agent) (n v : Nat) : State :=
  let core := agentCore a
  let t := agentTeam s a
  if n = 0x001 then s.modCore core (fun c => { c with stallchk := bit v 0 })
  else if n = 0x002 then s.modCore core (fun c => { c with deadmode := bit v 0 })
  else if n = 0x100 then s.putTeam a { t with flags := BitVec.ofNat 7 v }
  else
    let i := (n - 0x110) / 2
    let x := (t.scaleReg i).toNat
    let new := if n % 2 = 0 then x / 2 ^ 64 * 2 ^ 64 + v % 2 ^ 64 else v % 2 ^ 64 * 2 ^ 64 + x % 2 ^ 64
    s.putTeam a (t.setScale i (BitVec.ofNat 128 new))

/-- A write to the S, TQ and TIMER blocks; the PCs that these registers hold are 8-byte aligned. -/
def writeCtx (s : State) (core : Nat) (k : Ctx) (n v : Nat) : State :=
  let put (f : SCtx → SCtx) : State := s.modCore core (fun c => c.setCtx k (f (c.ctx k)))
  if n = 0x181 then put (fun x => { x with epc := BitVec.ofNat 64 (v % 2 ^ 48) })
  else if n = 0x182 then put (fun x => { x with tvec := BitVec.ofNat 64 (v % 2 ^ 48) })
  else if n = 0x183 then put (fun x => { x with cause := BitVec.ofNat 64 (v &&& 0xFF3F) })
  else if n = 0x185 then put (fun x => { x with imask := BitVec.ofNat 64 (v % 2 ^ 12 ||| 0x800) })
  else if n = 0x186 then put (fun x => { x with flags := BitVec.ofNat 7 v })
  else if n = 0x187 then writeCode s core k (BitVec.ofNat 64 v)
  else if n = 0x188 then writeSpc s core (BitVec.ofNat 64 v)
  else if n = 0x201 then put (fun x => { x with tqstat := v % 8 })
  else if n = 0x210 then s.setReg 0x210 ((v + 2 ^ 64 - s.now % 2 ^ 64) % 2 ^ 64)
  else if n = 0x211 then put (fun x => { x with timercmp := BitVec.ofNat 64 v })
  else s

/-- A write to a port's registers (Table 24.7). -/
def writeEth (s : State) (p k v : Nat) : State :=
  if k = 0 then s.setEth p 0 (v % 16)
  else if k = 2 then s.setEth p 2 (s.eth p 2 &&& (7 - v % 8))
  else if k = 4 then s.setEth p 4 (v % 2 ^ 24)
  else if k = 5 then s.setEth p 5 (max 1 (v % 2 ^ 16))
  else if k = 6 then s.setEth p 6 (max 1 (v % 2 ^ 8))
  else if k = 7 then s.setEth p 7 (v % 2 ^ 8)
  else if k = 8 ∨ k = 9 then s.setEth p k (max 1 (v % 2 ^ 24))
  else if k = 16 then s.setEth p 16 (v % 2 ^ 11)
  else if k = 18 then s.setEth p 18 (v % 2 ^ 48)
  else s.setEth p k (v % 2 ^ 32)

/-- A write to a device-wide register below 0x800. -/
def writeDevice (s : State) (a : Agent) (n v : Nat) : State :=
  let core := agentCore a
  if n = 0x580 then s.setReg n (v % 2 ^ 16)
  else if n = 0x581 then s.setReg n (v % 2 ^ 64)
  else if n = 0x582 then s.setReg n (v % 2 ^ 32)
  else if n = 0x583 then s.setReg n (v % 2 ^ 39 / 2 * 2)
  else if n = 0x584 then s.setReg n (v % 2 ^ 48)
  else if n = 0x600 then s.setReg n (v % 2 ^ 40 / 16 * 16)
  else if n = 0x601 then s.setReg n (v % 2 ^ 17)
  else if n < 0x618 then writeProf s (n - 0x610) (BitVec.ofNat 64 v)
  else if n = 0x620 then s.setReg n (v % 2 ^ 32)
  else if n = 0x621 then s.setReg n 0
  else if n = 0x700 then s.setReg n (v % 2 ^ 39 / 4096 * 4096)
  else if n = 0x701 then s.setReg n (v % 2 ^ 17)
  else if n = 0x702 then s.setReg n (v % 2 ^ 39 / 16 * 16)
  else if n = 0x705 ∨ (0x708 ≤ n ∧ n < 0x710) then s.setReg n (v % 2 ^ 32)
  else if n = 0x720 then stateOf s (execPowerCapWrite (BitVec.ofNat 64 v) s)
  else if n = 0x723 then stateOf s (execPowerAdmitWrite core (ctxOf s a false) (BitVec.ofNat 64 v) s)
  else if n = 0x724 then s.setReg n (s.reg n &&& (3 - v % 4))
  else s

/-- A write to the SEC, BOOT and HOST blocks; only BOOT.EXTEND can trap. -/
def writeSec (s : State) (a : Agent) (n : Nat) (w : Word) : State × Option Trap :=
  let v := w.toNat
  let core := agentCore a
  if n < 0x804 then (writeCworld s (n - 0x800) w, none)
  else if n = 0x804 then
    let gated := gateWorld s (s.reg 0x804) (v % 2 ^ 17)
    (s.setReg n gated, none)
  else if n = 0x805 then (writeApol s w, none)
  else if n = 0x806 then (s.setReg n 0, none)
  else if n = 0x807 then (s.setReg n (v % 2 ^ 16), none)
  else if n = 0x809 then (writeSvn s w, none)
  else if n = 0x80A then (startSwap s w, none)
  else if 0x810 ≤ n ∧ n < 0x814 then (s.setReg n v, none)
  else if 0x840 ≤ n ∧ n < 0x880 then (writeRgn s (n - 0x840) w, none)
  else if n = 0x882 then bootExtend core w s
  else if n = 0x8A9 then (s.setReg n (v % 2 ^ 29 / 4096 * 4096), none)
  else if n = 0x8AA then (if v % 4 = 3 then s else flashStart core w s, none)
  else if n = 0x8AD then (s.setReg n (s.reg n &&& (15 - v % 16)), none)
  else if n = 0x8C0 then (s.setReg n (v % 2), none)
  else if n = 0x8C1 then (s.setReg n (s.reg n &&& (0xFFFF - (v &&& 0xC))), none)
  else if 0x8D0 ≤ n ∧ n < 0x8F0 then
    (s.setReg n (if n % 2 = 0 then v / 4096 * 4096 else v % 4 + v % 2 ^ 48 / 4096 * 4096), none)
  else (s.setReg n v, none)

/-- A write of a value to a register by an agent (R190, R192); the trap that it raises, if any. -/
def regWrite (s : State) (a : Agent) (sb : Bool) (n : Nat) (w : Word) : State × Option Trap :=
  let core := agentCore a
  let v := w.toNat
  if n < 0x180 then (writeCoreTeam s a n v, none)
  else if n < 0x280 then (writeCtx s core (ctxOf s a sb) n v, none)
  else if n < 0x288 then
    (s.modCore core (fun c => { c with meshW := mset c.meshW (n - 0x280) (max 1 (v % 256)) }), none)
  else if n = 0x288 then (s.modCore core (fun c => { c with mcPeak := c.mcHeld.length }), none)
  else if 0x400 ≤ n ∧ n < 0x580 then (writeEth s ((n - 0x400) / 32) (n % 32) v, none)
  else if n < 0x800 then (writeDevice s a n v, none)
  else writeSec s a n w

/-- The registers that have an event of their own. -/
def ownEvent (n : Nat) : Bool :=
  n == 0x187 || n == 0x188 || (0x800 ≤ n && n < 0x804) || n == 0x805 || n == 0x806 || n == 0x809 || n == 0x80A ||
    (0x840 ≤ n && n < 0x880) || n == 0x882 || n == 0x8AA || n == 0x723 || n == 0x720 || (0x610 ≤ n && n < 0x618) || n == 0x621

/-- The agent exists: a context, or a slot that holds a team; TEAM registers are a team's. -/
def agentHas (s : State) (a : Agent) (n : Nat) : Bool :=
  match a with
  | .team c slot => ((s.core c).team? slot).isSome
  | .ctx _ _ => !(0x100 ≤ n && n < 0x180)

/-- A write to a system register that has no behaviour of its own (R192). -/
def execSystemRegisterWrite (agent : Agent) (number : Nat) (value : Word) (s : State) : Host.Outcome State Fault Refusal :=
  .next (match sysReg number with
    | some (_, some _) =>
      if ownEvent number || !agentHas s agent number then s else (regWrite s agent false number value).1
    | _ => s)

end Sys2Proof.Machine
end

