-- ==== Sys2Proof/Machine/Traps.lean ====
section
/-! DEFINITION. The S-lane's words and events: SYSR and SYSW, events and SRET, WFI, trap-queue service, and TLBINV
(R188, R192–R199, R204, R326–R329, R420). -/
namespace Sys2Proof.Machine

/-! ### SYSR and SYSW -/

/-- SYSR (R192). -/
def execSysr (w : SW) (s : State) : Host.Outcome State Fault Refusal :=
  runWord (.s 0x70 w) (fun s iss _ t =>
    if iss.act = 0 then { s := s, t := t }
    else { s := s, t := writeScalar iss t w.vd.toNat (regRead s iss.agent (bitOf w.md 2) w.sreg.toNat) }) s

/-- A register write by a word (R192): SEC.SWAP waits while its die is busy (R349). -/
def sysWrite (w : SW) (s : State) (iss : Iss) (t : Team) (new : Word → Word) : Res :=
  let n := w.sreg.toNat
  let sb := bitOf w.md 2
  let x := new (regRead s iss.agent sb n)
  if n = 0x80A ∧ dieBusy s (swapSlot x) = true then
    let (id, s) := s.fresh
    waitEach { s with procs := s.procs ++ [⟨id, iss.agent, .swap x⟩] } iss t (fun a => .proc id a)
  else
    let (s', trap) := regWrite (s.putTeam iss.agent t) iss.agent sb n x
    match trap with
    | some y => { s := s, t := t, traps := trapAll iss.act y }
    | none => { s := s', t := (s'.teamOf iss.agent).getD t }

/-- A SYSW form: its operand, and the new value from the old. -/
def sysWriteBody (w : SW) (f : Word → Word → Word) (s : State) (iss : Iss) (v t : Team) : Res :=
  if iss.act = 0 then { s := s, t := t }
  else if bitOf w.md 0 then sysWrite w s iss t (fun old => f old (BitVec.ofNat 64 w.imm.toNat))
  else
    match scalarOperands v iss.act [(w.va.toNat, numFmts)] with
    | .error c => resTrap s t iss.act c
    | .ok vals => sysWrite w s iss t (fun old => f old (nth vals 0 0))

/-- SYSW from a register (R192). -/
def execSysw (w : SW) (s : State) : Host.Outcome State Fault Refusal :=
  runWord (.s 0x71 w) (sysWriteBody w (fun _ x => x)) s
/-- SYSW from an immediate (R192). -/
def execSyswImm (w : SW) (s : State) : Host.Outcome State Fault Refusal :=
  runWord (.s 0x71 w) (sysWriteBody w (fun _ x => x)) s
/-- `sysw.set` (R192). -/
def execSyswSet (w : SW) (s : State) : Host.Outcome State Fault Refusal :=
  runWord (.s 0x71 w) (sysWriteBody w (fun old x => old ||| x)) s
/-- `sysw.clr` (R192). -/
def execSyswClr (w : SW) (s : State) : Host.Outcome State Fault Refusal :=
  runWord (.s 0x71 w) (sysWriteBody w (fun old x => old &&& ~~~x)) s

/-! ### Events (R193, R194) -/

/-- S.CAUSE of an event. -/
def causeOf (c : Core) (src : Nat) : Word := BitVec.ofNat 64 (sourceCause c src + 256 * src)

/-- S.CAUSE is set for an event, and the M context's bit 11 clears when that event is taken (R195). -/
def noteEvent (s : State) (core : Nat) (k : Ctx) (src : Nat) : State :=
  s.modCore core (fun c => c.setCtx k { c.ctx k with
    cause := causeOf c src, trap := true, pend11 := if src = 11 then false else (c.ctx k).pend11 })

/-- A PC register of a context. -/
def pcOf (x : Word) : Nat := x.toNat % 2 ^ 48

/-- SRET (R194). -/
def execSret (w : SW) (s : State) : Host.Outcome State Fault Refusal :=
  runWord (.s 0x72 w) (fun s iss _ t =>
    match iss.agent with
    | .team _ _ => { s := s, t := t }
    | .ctx core k =>
      let x := (s.core core).ctx k
      if !x.trap then resTrap s t iss.act cILLEGAL
      else
        match source s core k with
        | some src =>
          let r := enterHandler s iss t (pcOf x.tvec)
          if r.traps.isEmpty then { r with s := noteEvent r.s core k src } else r
        | none =>
          let r := transfer s iss t [(0, (pcOf x.epc : Int))]
          if r.traps.isEmpty then { r with s := r.s.modCore core (fun c => c.setCtx k { c.ctx k with trap := false }) }
          else r) s

/-- A context stands between clauses: live, not parked, not waiting. -/
def atBoundary (c : Core) (k : Ctx) : Bool :=
  let x := c.ctx k
  x.lane.live && x.clause.isNone && x.lane.wait.isNone && !suspended c k

/-- A context is inside a clause that it can go on with. -/
def ctxInside (c : Core) (k : Ctx) : Bool := (c.ctx k).clause.isSome && !suspended c k && (c.ctx k).lane.wait.isNone

/-- A context can take an event now (R193). The M context takes none while the S context is inside a clause: a clause, once
begun, issues to its end before the other context begins one (R420). -/
def eventDue (s : State) (core : Nat) (k : Ctx) : Bool :=
  atBoundary (s.core core) k && !((s.core core).ctx k).trap && (source s core k).isSome &&
    !(k == .m && ctxInside (s.core core) .s)

/-- WFI's wait ends (R204). -/
def wakeCtx (s : State) (core : Nat) (k : Ctx) : State :=
  let x := (s.core core).ctx k
  if x.lane.wait = some .wfi ∧ (source s core k).isSome = true then
    s.modCore core (fun c => c.setCtx k { c.ctx k with lane := resumeLane s.now x.lane })
  else s

/-- A context takes an event (R193): a handler address that fails R14 traps the context there (R195). -/
def takeEvent (s : State) (core : Nat) (k : Ctx) (src : Nat) : State :=
  let x := (s.core core).ctx k
  let s := noteEvent s core k src
  let tgt := pcOf x.tvec
  let new : CodeSrc := if x.code = 0 then .phys else .buffer x.code
  let asid := if k = .m then 0 else 1
  let s := s.modCore core (fun c => c.setCtx k { c.ctx k with
    epc := BitVec.ofNat 64 (x.lane.pc % 2 ^ 48), fetch := new, lane := { x.lane with pc := tgt, hpc := tgt } })
  match entryCode s core asid new tgt with
  | 0 => s
  | code => ctxTrap s core k tgt (codeCause code)

/-- An event is taken at a clause boundary (R193). -/
def execEventTake (core : Nat) (ctx : Ctx) (s : State) : Host.Outcome State Fault Refusal :=
  let s' := wakeCtx s core ctx
  match source s' core ctx with
  | some src => .next (if eventDue s' core ctx then takeEvent s' core ctx src else s')
  | none => .next s'

/-- TIMER.NOW reaches a context's TIMER.CMP (R193). -/
def execTimerCompare (core : Nat) (ctx : Ctx) (s : State) : Host.Outcome State Fault Refusal :=
  let cmp := ((s.core core).ctx ctx).timercmp.toNat
  .next (if s.timer < cmp then { s with now := s.now + (cmp - s.timer) } else s)

/-- An external line rises where its source stands (R348, Table 19.4). -/
def execExternalLineRaise (line : Nat) (s : State) : Host.Outcome State Fault Refusal :=
  .next (if line < 8 ∧ (linesNow s).getLsbD line = true then { s with lines := s.lines ||| BitVec.twoPow 8 line } else s)

/-- WFI (R204). -/
def execWfi (w : SW) (s : State) : Host.Outcome State Fault Refusal :=
  runWord (.s 0x7D w) (fun s iss _ t =>
    match iss.agent with
    | .team _ _ => { s := s, t := t }
    | .ctx core k =>
      if (source s core k).isSome then { s := s, t := t } else { s := s, t := t, wait := some .wfi }) s

/-! ### TQTAKE (R196) -/

/-- The record of an entry (Table 18.3). -/
def recordBytes (idx : Nat) (e : TqEntry) : List Byte :=
  le 2 (idx % 64 + 64 * e.gen) ++ le 1 e.cause ++ le 1 (e.slot % 16 + 16 * b2n e.ended) ++ le 4 e.fmask.toNat ++
    le 8 (e.pc % 2 ^ 48 + bits e.info.toNat 15 0 * 2 ^ 48) ++ le 8 (e.lseq % 2 ^ 48) ++
    le 8 (e.opc % 2 ^ 48 + bits e.info.toNat 31 16 * 2 ^ 48) ++ (padTo e.operands 32 0).take 32

/-- Bytes written as weak writes, piece by piece, after a check of the whole range. -/
def sysWriteWeak (core : Nat) (a : Agent) (asid : Nat) (v : Word) (align : Nat) (bs : List Byte) (s : State) :
    State × Option Trap :=
  match sysCheck s (sysReq asid core v 0 bs.length align 2 [0, 3]) v with
  | .error x => (s, some x)
  | .ok _ =>
    ((stretchesAt v.toNat bs.length).foldl (fun s (p : Nat × Nat) =>
      let q := sysReq asid core v p.1 p.2 1 2 [0, 3]
      match check0 s q true with
      | .ok (tgt, e) => writeTgt (noteAccess s q e) (weakMode core a) tgt (((bs.drop p.1).take p.2).map some)
      | .error _ => s) s, none)

/-- The pending entries of a context, oldest first. -/
def pendingOf (c : Core) (k : Ctx) : List (Nat × TqEntry) := c.tqWhere (fun e => e.st == .pending && e.toM == (k == .m))

/-- TQTAKE (R196). -/
def execTqtake (w : SW) (s : State) : Host.Outcome State Fault Refusal :=
  runWord (.s 0x73 w) (fun s iss v t =>
    match iss.agent with
    | .team _ _ => { s := s, t := t }
    | .ctx core k =>
      if iss.act = 0 then { s := s, t := t }
      else
        let a := (v.reg w.va.toNat).lane 0
        let es := (pendingOf (s.core core) k).take w.imm.toNat
        if allOnes a then
          { s := s, t := t, traps := trapAll iss.act { cause := cBOUNDS, addr := some (addrOf t.asid a 1) } }
        else if a.toNat % 2 ^ 48 % 64 ≠ 0 then
          { s := s, t := t, traps := trapAll iss.act
              { cause := cALIGN, addr := some (addrOf t.asid a 1) } }
        else if es.isEmpty then { s := s, t := writeScalar iss t w.vd.toNat 0 }
        else
          match sysWriteWeak core iss.agent t.asid a 64 (es.flatMap (fun e => recordBytes e.1 e.2)) s with
          | (s, some x) => { s := s, t := t, traps := trapAll iss.act x }
          | (s, none) =>
            let s := s.modCore core (fun c => es.foldl (fun (c : Core) e =>
              { c with tq := mset c.tq e.1 { e.2 with st := .taken } }) c)
            { s := s, t := writeScalar iss t w.vd.toNat (BitVec.ofNat 64 es.length) }) s

/-! ### Answers to entries (R196–R198, R328, R329) -/

def Core.setEntry (c : Core) (i : Nat) (e : TqEntry) : Core := { c with tq := mset c.tq i e }
def Core.freeTq (c : Core) (i : Nat) : Core := c.setEntry i { c.tqAt i with st := .free }

/-- TQ.STAT of a context. -/
def setStat (s : State) (core : Nat) (k : Ctx) (code : Nat) : State :=
  s.modCore core (fun c => c.setCtx k { c.ctx k with tqstat := code })

/-- A word that names an entry: its code of Table R196 in the order 1, 3, 2, 4, and its effect where the code is 0. -/
def answer0 (s : State) (core : Nat) (k : Ctx) (x : Word) (allowed : TqEntry → Bool) (some4 : TqEntry → Bool)
    (go : State → Nat → TqEntry → State) : State :=
  let i := x.toNat % 64
  let e := (s.core core).tqAt i
  if e.st ≠ .taken ∨ e.gen ≠ bits x.toNat 13 6 then setStat s core k 1
  else if e.ended then (setStat s core k 3).modCore core (fun c => c.freeTq i)
  else if !allowed e then setStat s core k 2
  else if !some4 e then setStat s core k 4
  else go (setStat s core k 0) i e

/-- The team that an entry names, if it is still in its slot. -/
def entryTeam (s : State) (core : Nat) (e : TqEntry) : Option Team :=
  match (s.core core).team? e.slot with
  | some t => if t.uid = e.uid then some t else none
  | none => none

/-- A fibre that a SYSCALL or an engine failure parked goes on; one that has yet to park does not park. One that both parked
goes on with whichever is answered first: the spec leaves that open (DEDUCED, log 94). -/
def letGo (now : Nat) (l : Lane) : Lane :=
  if l.parkDue then { l with parkDue := false }
  else if l.live && l.parked then { l with parked := false, wait := none, earliest := max l.earliest (now + 1) } else l

/-- A register written late in the lanes of a mask by a word younger than the writes in flight to it: they are discarded
there, and what the others hide takes the register's tag (R19). -/
def lateWrite (t : Team) (n : Nat) (m : BitVec 32) : Team :=
  let under (p : Pend) : Pend :=
    if p.dst = .vreg n then
      { p with wrote := p.wrote &&& ~~~m, old := if p.lanes &&& m = 0 then retag (t.reg n) p.old else p.old }
    else p
  { t with pend := (t.pend.map under).filter (fun p => p.wrote != 0) }

/-- A result for the fibre of a SYSCALL entry; with the last one of that SYSCALL the fibres resume that it parked and that
no other SYSCALL of the team keeps parked (R68, R328). -/
def postResult (s : State) (core : Nat) (e : TqEntry) (x : Word) : State :=
  match entryTeam s core e with
  | none => s
  | some t =>
    let lane := lowest e.fmask
    match t.sys.find? (fun y => y.results.any (fun r => r.1 == lane && r.2.isNone)) with
    | none => s
    | some y =>
      let others := t.sys.filter (fun x => x != y)
      let rs := y.results.map (fun r => if r.1 = lane then (r.1, some x) else r)
      if rs.all (fun r => r.2.isSome) then
        let m := maskOf (fun i => rs.any (fun r => r.1 == i))
        let val (i : Nat) : Word := match rs.find? (fun r => r.1 == i) with
          | some r => r.2.getD 0
          | none => 0
        let t := lateWrite (writeReg (lateIss core m) t y.vd 7 0 .general val) y.vd m
        let go := others.foldl (fun m x => m &&& ~~~x.resume) y.resume
        let t := { t with lanes := (t.modLanes go (fun _ l => letGo s.now l)).lanes, sys := others }
        s.modCore core (fun c => c.setTeam e.slot t)
      else s.modCore core (fun c => c.setTeam e.slot { t with sys := t.sys.map (fun x => if x = y then { y with results := rs } else x) })

/-- The operand values of a word of the S-lane that names an entry. -/
def slaneWord (s : State) (iss : Iss) (t : Team) (f : Nat → Ctx → State → State) : Res :=
  match iss.agent with
  | .team _ _ => { s := s, t := t }
  | .ctx core k => if iss.act = 0 then { s := s, t := t } else { s := f core k s, t := t }

/-- TQPOST (R197). -/
def execTqpost (w : SW) (s : State) : Host.Outcome State Fault Refusal :=
  runWord (.s 0x74 w) (fun s iss v t => slaneWord s iss t (fun core k s =>
    answer0 s core k ((v.reg w.va.toNat).lane 0) (fun e => e.cause == cSYSCALL) (fun _ => true) (fun s i e =>
      postResult (s.modCore core (fun c => c.freeTq i)) core e ((v.reg w.vd.toNat).lane 0)))) s

/-- The launch of an entry fails with a result (R329): the first result stands. -/
def exhaust (s : State) (l : Nat) (x : Word) : State :=
  if !recHolds s l ∨ recFinal s l = true then s
  else freeImages (noteHead (finishPair (recSet s l 168 8 x.toNat) l 7))

/-- `tqpost.oom` (R197, R329). -/
def execTqpostOom (w : SW) (s : State) : Host.Outcome State Fault Refusal :=
  runWord (.s 0x74 w) (fun s iss v t => slaneWord s iss t (fun core k s =>
    answer0 s core k ((v.reg w.va.toNat).lane 0) (fun e => e.cause == cSYSCALL || e.cause == cPAGE) (fun _ => true)
      (fun s i e => exhaust (s.modCore core (fun c => c.freeTq i)) e.lseq ((v.reg w.vd.toNat).lane 0)))) s

/-- Causes whose entries have fibres to restart (R198). -/
def replayable (e : TqEntry) : Bool := e.cause != cSYSCALL && e.cause != cRESIDENCY && e.cause != cQUEUE

/-- A fibre restarts where its entry's cause lets it (R69, R161, R198). -/
def restartLane (now : Nat) (engine : Bool) (l : Lane) : Lane :=
  if engine then letGo now l
  else if l.live && l.parked then { l with parked := false, wait := none, earliest := max l.earliest (now + 1) } else l

/-- The fibres of an entry within a mask restart (R198). -/
def restart (s : State) (core : Nat) (e : TqEntry) (m : BitVec 32) : State :=
  match entryTeam s core e with
  | none => s
  | some t =>
    s.modCore core (fun c => c.setTeam e.slot (t.modLanes (e.fmask &&& m) (fun _ l => restartLane s.now (e.cause == cENGINE) l)))

/-- REPLAY (R198). -/
def execReplay (w : SW) (s : State) : Host.Outcome State Fault Refusal :=
  runWord (.s 0x75 w) (fun s iss v t => slaneWord s iss t (fun core k s =>
    answer0 s core k ((v.reg w.va.toNat).lane 0) replayable (fun _ => true) (fun s i e =>
      (restart s core e (BitVec.allOnes 32)).modCore core (fun c => c.freeTq i)))) s

/-- `replay.m` (R198). -/
def execReplayM (w : SW) (s : State) : Host.Outcome State Fault Refusal :=
  runWord (.s 0x75 w) (fun s iss v t => slaneWord s iss t (fun core k s =>
    let m : BitVec 32 := BitVec.ofNat 32 ((v.reg w.vd.toNat).lane 0).toNat
    answer0 s core k ((v.reg w.va.toNat).lane 0) replayable (fun e => e.fmask &&& m != 0) (fun s i e =>
      let s := restart s core e m
      let left := e.fmask &&& ~~~m
      if left = 0 then s.modCore core (fun c => c.freeTq i)
      else s.modCore core (fun c => c.setEntry i { e with fmask := left })))) s

/-- `replay.drop` (R198): for a SYSCALL entry it is a result of −1 (R328). -/
def execReplayDrop (w : SW) (s : State) : Host.Outcome State Fault Refusal :=
  runWord (.s 0x75 w) (fun s iss v t => slaneWord s iss t (fun core k s =>
    answer0 s core k ((v.reg w.va.toNat).lane 0) (fun _ => true) (fun _ => true) (fun s i e =>
      let s := s.modCore core (fun c => c.freeTq i)
      if e.cause = cSYSCALL then postResult s core e (BitVec.allOnes 64) else s))) s

/-! ### TLBINV (R199) -/

/-- The removal that a TLBINV makes: `imm` is IMM20. -/
def invalidate (s : State) (imm : Nat) (va vl : Word) : State :=
  let asid := imm % 2 ^ 16
  let all := bit imm 16
  let h := va.toNat / 2 ^ 48
  let o := va.toNat % 2 ^ 48
  let inRange (x : PageCache) : Bool := x.page * 2 ^ x.shift < o + vl.toNat && o < (x.page + 1) * 2 ^ x.shift
  let pages := s.ptc.filter (fun x => !(x.asid == asid && (all || (x.handle == h && inRange x))))
  let entries := if bit imm 17 then
      s.btc.filter (fun x => !(x.asid == asid && (all || x.handle == h)))
    else s.btc
  let code (key : Nat) : Bool :=
    key / 2 ^ 64 == asid && key < 2 ^ 80 &&
      (all || (key / 2 ^ 48 % 2 ^ 16 == h && key % 2 ^ 48 < o + vl.toNat && o < key % 2 ^ 48 + 8))
  { s with
    ptc := pages, btc := entries,
    cores := s.cores.map (fun c => (c.1, { c.2 with icache := c.2.icache.filter (fun x => !code x.1) })) }

/-- TLBINVs that have started and not completed. -/
def tlbRunning (s : State) : Nat :=
  (s.procs.filter (fun (p : Proc) => match p.kind with
    | .tlbinv b _ _ _ => b
    | _ => false)).length

/-- TLBINVs that wait start in order while fewer than 16 are outstanding. -/
def startTlb (s : State) : State :=
  s.procs.foldl (fun s (p : Proc) => match p.kind with
    | .tlbinv false imm va vl =>
      if tlbRunning s < 16 then
        let s := invalidate s imm va vl
        { s with procs := s.procs.map (fun (q : Proc) => if q.id = p.id then { q with kind := .tlbinv true imm va vl } else q) }
      else s
    | _ => s) s

/-- TLBINV (R199). -/
def execTlbinv (w : SW) (s : State) : Host.Outcome State Fault Refusal :=
  runWord (.s 0x76 w) (fun s iss v t =>
    if iss.act = 0 then { s := s, t := t }
    else
      let imm := w.imm.toNat
      let used := if bit imm 16 then [] else [(w.va.toNat, addrFmts), (w.vd.toNat, numFmts)]
      match scalarOperands v iss.act used with
      | .error c => resTrap s t iss.act c
      | .ok vals =>
        if nth vals 0 1 = 0 ∧ bit imm 16 = false then { s := s, t := t }
        else if bit imm 16 = false ∧ allOnes (nth vals 0 0) = true then
          { s := s, t := t, traps := trapAll iss.act { cause := cBOUNDS, addr := some (addrOf t.asid (nth vals 0 0) 0) } }
        else
          let (id, s) := s.fresh
          waitEach (startTlb { s with procs := s.procs ++ [⟨id, iss.agent, .tlbinv false imm (nth vals 0 0) (nth vals 0 1)⟩] })
            iss t (fun a => .proc id a)) s

/-- A TLBINV's drain ends (R199): non-temporal stores still under way are performed, and the path continues. -/
def execTlbinvComplete (id : Nat) (s : State) : Host.Outcome State Fault Refusal :=
  match s.procs.find? (fun (p : Proc) => p.id == id) with
  | some p =>
    match p.kind with
    | .tlbinv true _ _ _ => .next (startTlb (endProc (s.nt.foldl ntPerform s) p none))
    | _ => .next s
  | none => .next s

end Sys2Proof.Machine
end

