-- ==== Sys2Proof/Machine/Launch.lean ====
section
/-! DEFINITION. LAUNCH with its validation, records, queues and containment, and TKCLAIM (R200, R201, R361–R366, R373,
R376, Tables 21.2–21.5, 22.1). -/
namespace Sys2Proof.Machine

/-! ### Validation (R362, Table 21.2) -/

/-- The entry that an address of a descriptor names, in the descriptor's ASID: BOUNDS (the all-ones offset of R130), NULLH,
OWNER, WORLD and MEMERR are traps. -/
def lookupEntry (s : State) (core asid : Nat) (v : Word) : Except Trap Bte :=
  let h := v.toNat / 2 ^ 48
  let o := v.toNat % 2 ^ 48
  let fault (cause : Nat) : Except Trap Bte :=
    .error { cause := cause, addr := some ⟨asid, h, o, 0, o / 4096⟩ }
  let bad := match recordOf (useRecord s asid) with
    | some (base, n) => h < n && (List.range 2).any (fun k => physBad s (base + 64 * h + 32 * k))
    | none => false
  if allOnes v then fault cBOUNDS
  else if bad then fault cMEMERR
  else
    match s.bte asid h with
    | none => fault cNULLH
    | some e =>
      if e.owner ≠ asid ∧ e.owner ≠ 0xFFFF then fault cOWNER
      else if e.world ≠ s.world core then fault cWORLD else .ok e

/-- Row 2: the issuer's privilege and ASID. -/
def rowPriv (d : Desc) (priv asid : Nat) : Bool := d.priv ≤ priv && d.priv < 3 && (priv != 0 || d.asid == asid) && d.asid ≥ 2

/-- Row 3: the grid and the gang size. -/
def rowGrid (d : Desc) : Bool :=
  d.x ≥ 1 && d.y ≥ 1 && d.z ≥ 1 && d.copses ≤ 2 ^ 32 && (d.gsize == 0 || (2 ≤ d.gsize && d.gsize ≤ 8 && d.copses % d.gsize == 0))

/-- Row 4: the stages. -/
def rowStages (d : Desc) : Bool :=
  1 ≤ d.nstage && d.nstage ≤ 4 && d.stages.all (fun st => 1 ≤ st.nteam && st.nteam ≤ 16 && 2 ≤ st.ws8 && st.ws8 ≤ 32) &&
    (d.stages.map (fun st => st.nteam)).foldl (· + ·) 0 ≤ 16

/-- Row 6: the code buffer. -/
def rowCode (d : Desc) (e : Bte) : Bool :=
  e.kind == 0 && bit e.rights 0 && bit e.rights 2 && d.code.toNat % 2 ^ 48 == 0 &&
    d.stages.all (fun st => st.entry + 8 ≤ e.length && st.entry % 8 == 0)

/-- Row 8: the allotments. -/
def rowAllot (d : Desc) : Bool :=
  d.walloc.1 + d.walloc.2 ≤ 4096 * 256 && d.aalloc.1 + d.aalloc.2 ≤ 2044 * 256 && d.calloc.1 % 2 == 0 && d.calloc.2 % 2 == 0 &&
    d.calloc.1 + d.calloc.2 ≤ 256 && d.klen ≤ 256 && d.klen * max 1 d.gsize ≤ 256

/-- Row 11: the seam fields. -/
def rowSeam (d : Desc) : Bool :=
  if d.seam then d.g && 1 ≤ d.stag && d.stag ≤ 7 && 1 ≤ d.sfmt && d.sfmt ≤ 21 && [1, 2, 4, 8, 16].contains d.tbytes
  else d.ptag == 0 && d.shandle == 0 && d.stag == 0 && d.sfmt == 0 && d.tbytes == 0 && d.transient == 0

/-- A row of Table 21.2 that reads an entry: its trap, its reason, or the rows after it. -/
def entryRow (s : State) (core asid : Nat) (v : Word) (reason : Nat) (ok : Bte → Bool) (next : Except Trap Nat) :
    Except Trap Nat :=
  match lookupEntry s core asid v with
  | .error x => .error x
  | .ok e => if ok e then next else .ok reason

/-- The reason of a malformed descriptor, 0 for a sound one; or the trap that its reading raises (R362). -/
def validate (s : State) (core priv asid : Nat) (d : Desc) : Except Trap Nat :=
  if !d.clean then .ok 1
  else if !rowPriv d priv asid then .ok 2
  else if !rowGrid d then .ok 3
  else if !rowStages d then .ok 4
  else if (carve [] d.windows).isNone then .ok 5
  else
    entryRow s core d.asid d.code 6 (rowCode d)
      (entryRow s core d.asid d.param 7 (fun e => e.kind == 0 && bit e.rights 0)
        (if !rowAllot d then .ok 8
        else
          let tail : Except Trap Nat :=
            let seam : Except Trap Nat := .ok (if rowSeam d then 0 else 11)
            if d.donec = 0 then seam
            else
              entryRow s core d.asid d.donec 10
                (fun e => e.kind == 0 && bit e.rights 1 && bit e.rights 3 && d.donec.toNat % 8 == 0) seam
          if d.pmap = 0 then tail else entryRow s core d.asid d.pmap 9 (fun e => bit e.rights 0 && e.length ≥ d.units) tail))

/-! ### Containment (R373) -/

/-- Containment of an ASID: its queues halt, its launches are discarded, its teams end, one QUEUE entry is posted. -/
def contain (s : State) (core slot asid lseq reason : Nat) (addr : Word) : State :=
  let s := if asid < 2 then s
    else
      let s := (List.range 8).foldl (fun s p =>
        let q := queueGet s asid p
        queueSet s asid p (q - q % 4 + 2)) s
      let mine := (launchList s).filter (fun l => recAsid s l == asid && 1 ≤ recState s l && recState s l ≤ 5)
      mine.foldl (fun s l => finishPair s l 8) s
  let e : TqEntry :=
    { freeEntry with
      cause := cQUEUE, slot := slot, info := 1, lseq := lseq,
      operands := le 2 asid ++ le 1 reason ++ le 5 0 ++ le 8 addr.toNat ++ le 16 0 }
  freeImages (noteHead (postEntry s core e))

/-! ### Enqueuing (R364, R366, R376) -/

/-- A launch that waits for the graft unit becomes queued with a reason (Table 22.1). -/
def ungraft (s : State) (l reason : Nat) : State :=
  enterQueued (recSet { s with grafts := s.grafts.filter (fun g => g.lseq != l) } l 153 1 reason) l

/-- The predecessor of a launch: the highest LSEQ below it of its ASID and priority (R376). -/
def predecessor (s : State) (l asid prio : Nat) : Option Nat :=
  ((launchList s).filter (fun p => p < l && recAsid s p == asid && recPrio s p == prio)).getLast?

/-- Producer candidates whose 20 µs are over become queued; where that falls in one clk with a LAUNCH, it comes first
(R376). -/
def lateGrafts (s : State) : State :=
  (s.grafts.filter (fun g => g.partner.isNone && s.now ≥ g.at_ + usClk 20)).foldl (fun s g => ungraft s g.lseq 0) s

/-- What a new launch does to the graft unit's queue (Table 22.1). -/
def meetGraft (s : State) (core l asid prio : Nat) (g seam : Bool) : State :=
  let s := lateGrafts s
  let pred := predecessor s l asid prio
  let open_ := match pred with
    | some p => s.grafts.find? (fun (x : GraftPending) => x.lseq == p && x.partner.isNone && !(recDesc s p).seam)
    | none => none
  let me : GraftPending := { lseq := l, asid := asid, prio := prio, core := core, at_ := s.now, partner := none }
  if g && seam then
    match open_ with
    | some x =>
      { s with grafts := s.grafts.map (fun (y : GraftPending) => if y.lseq = x.lseq then { y with partner := some l } else y) ++
          [{ me with partner := some x.lseq }] }
    | none => ungraft s l 1
  else
    let s := match open_ with
      | some x => ungraft s x.lseq 0
      | none => s
    if g then { s with grafts := s.grafts ++ [me] } else enterQueued s l

/-- The record slot that the next launch takes still holds a launch that is not final (R364). -/
def slotBusy (s : State) (l : Nat) : Bool :=
  let x := recGet s l 144 6
  0x100 ≤ x && x < l && 1 ≤ recState s l && recState s l ≤ 5

/-- A sound descriptor is enqueued (R200, R364, R366): the state and LAUNCH's result. -/
def enqueue1 (s : State) (core prio : Nat) (d : Desc) (b : List Byte) : State × Word :=
  let q := queueGet s d.asid prio
  let l := s.reg 0x703
  if !bit q 0 || bit q 1 then (s, saveCode 2)
  else if bits q 47 32 ≥ bits q 31 16 || slotBusy s l then (s, saveCode 1)
  else
    let rest := le 8 0 ++ le 8 d.units ++ le 8 (l + prio * 2 ^ 48) ++ le 1 (if d.g then 1 else 0) ++ le 23 0 ++ le 8 s.timer ++
      le 72 0
    let s := physPut s (recAddr s l) (b ++ rest)
    let s := s.setReg 0x703 ((l + 1) % 2 ^ 48)
    let s := raisePending s d.asid prio
    let s := { s with lworld := (l, s.world core) :: s.lworld.filter (fun x => recHolds s x.1) }
    (meetGraft s core l d.asid prio d.g d.seam, BitVec.ofNat 64 l)

/-- LAUNCH (R200). -/
def execLaunch (w : SW) (s : State) : Host.Outcome State Fault Refusal :=
  runWord (.s 0x77 w) (fun s iss v t =>
    if iss.act = 0 then { s := s, t := t }
    else
      match scalarOperands v iss.act [(w.va.toNat, addrFmts)] with
      | .error c => resTrap s t iss.act c
      | .ok vals =>
        let a := nth vals 0 0
        match sysCheck s (sysReq t.asid iss.core a 0 128 64 1 [0, 3]) a with
        | .error x => { s := s, t := t, traps := trapAll iss.act x }
        | .ok _ =>
          match sysRead (weakMode iss.core iss.agent) t.asid a [(0, 128)] s with
          | (s, .error x) => { s := s, t := t, traps := trapAll iss.act x }
          | (s, .ok b) =>
            let d := descOf b
            match validate s iss.core t.priv t.asid d with
            | .error x => { s := s, t := t, traps := trapAll iss.act x }
            | .ok 0 =>
              let (s, r) := enqueue1 (releaseDie (propagateAll s iss.agent) (dieOf iss.core)) iss.core (w.imm.toNat % 8) d b
              { s := s, t := writeScalar iss t w.vd.toNat r }
            | .ok reason =>
              let slot := match iss.agent with
                | .team _ k => k
                | .ctx _ _ => 0
              let (s, t) := ownRes (releaseDie (propagateAll s iss.agent) (dieOf iss.core)) iss t (fun s =>
                contain s iss.core slot t.asid t.lseq reason a)
              { s := s, t := t }) s

/-! ### TKCLAIM (R201) -/

/-- The launch whose ticket record stands at a DRAM location. -/
def launchAt (s : State) (loc : Nat) : Option Nat :=
  (launchList s).find? (fun l => locOf (s.profile 0) (recAddr s l + 128) == loc)

/-- A claim on a launch's own ticket record moves the launch on (Table 21.4). -/
def noteClaim (s : State) (tgt : Tgt) (k : Nat) : State :=
  match tgt with
  | .dram first (line :: _) =>
    match launchAt s (line * 128 + first) with
    | some l => if k = 0 then s else noteHead (afterClaim s l)
    | none => s
  | _ => s

/-- The tickets that a claim of `n` takes from a record. -/
def claimCount (record n : Nat) : Nat := min n (record / 2 ^ 64 - record % 2 ^ 64)

/-- TKCLAIM (R201). -/
def execTkclaim (w : SW) (s : State) : Host.Outcome State Fault Refusal :=
  runWord (.s 0x78 w) (fun s iss v t =>
    if iss.act = 0 then { s := s, t := t }
    else
      match scalarOperands v iss.act [(w.va.toNat, addrFmts)] with
      | .error c => resTrap s t iss.act c
      | .ok vals =>
        let a := nth vals 0 0
        let q := sysReq t.asid iss.core a 0 16 16 11 [0]
        match sysCheck s q a with
        | .error x => { s := s, t := t, traps := trapAll iss.act x }
        | .ok (tgt, e) =>
          let n := w.imm.toNat
          match atomTgt (noteAccess s q e) (devMode iss.core iss.agent 3) tgt 16 (fun r =>
              some ((r % 2 ^ 64 + claimCount r n) % 2 ^ 64 + r / 2 ^ 64 * 2 ^ 64)) with
          | (_, none) => { s := s, t := t, traps := trapAll iss.act (memErr q e) }
          | (s, some r) =>
            let k := claimCount r n
            { s := noteClaim s tgt k
              t := writeScalar iss t w.vd.toNat (BitVec.ofNat 64 (k * 2 ^ 48 + r % 2 ^ 64 % 2 ^ 48)) }) s

end Sys2Proof.Machine
end

