-- ==== Sys2Proof/Machine/Graft.lean ====
section
/-! DEFINITION. The graft unit: reading kernels, refusals, renumbering, seams, the image with its provenance, and the
decision on an examined pair (R375–R391, Tables 22.1–22.5). -/
namespace Sys2Proof.Machine

/-! ### The fields of a word that name a resource (Table 22.5) -/

/-- Kinds of numbered resource: vector register, predicate, guard slot, convergence register, scale register, barrier. -/
inductive Fld where
  | v
  | p
  | g
  | c
  | x
  | b
  deriving DecidableEq, Repr

/-- A field of `n` bits with bits `hi` to `lo` replaced. -/
def putField {n : Nat} (x : BitVec n) (hi lo v : Nat) : BitVec n :=
  BitVec.ofNat n (x.toNat - fieldOf x hi lo * 2 ^ lo + v % 2 ^ (hi + 1 - lo) * 2 ^ lo)

/-- What a use names. -/
def useFld (vd : Fld) : Use → Option Fld
  | .none => none
  | .reg => some .v
  | .pred => some vd
  | .slot => some .g

/-- A register field mapped by its use. -/
def mapUse (f : Fld → Nat → Nat) (k : Fld) (u : Use) (x : BitVec 8) : BitVec 8 :=
  match useFld k u with
  | some y => BitVec.ofNat 8 (f y x.toNat)
  | none => x

/-- A format R word whose MOD holds a scale register in [10:7]. -/
def hasXd (op ty : Nat) : Bool :=
  op == 0x4B || op == 0x4D || (isNarrow ty && [0x38, 0x39, 0x3A, 0x3B, 0x3D, 0x3E].contains op)

/-- A format R word whose VB is an immediate. -/
def immB (op : Nat) (w : RW) : Bool :=
  bitOf w.md 10 && [0x18, 0x19, 0x1B, 0x1E, 0x1F, 0x20, 0x22, 0x24, 0x25, 0x26, 0x27, 0x28, 0x29].contains op

/-- Which of VD and VA a format I word uses as registers. -/
def iUses (op : Nat) (w : IW) : Bool × Bool :=
  if op = 0x04 ∨ op = 0x2F then (true, false)
  else if op = 0x06 ∨ op = 0x07 ∨ op = 0x0A then (!(op == 0x0A && bitOf w.md 2), !(op == 0x0A && bitOf w.md 2))
  else if op = 0x14 then (true, w.md != 0)
  else if op = 0x02 then (false, w.md != 0) else (false, false)

/-- Which of VD and VA a format S word uses as registers. -/
def sUses (op : Nat) (w : SW) : Bool × Bool :=
  if op = 0x70 then (true, false)
  else if op = 0x71 then (false, !bitOf w.md 0)
  else if op = 0x79 ∨ op = 0x7A then (false, true)
  else if op = 0x7E then (w.md != 2, false)
  else (true, true)

/-- The scale register that a format S word's SREG names. -/
def sregX (w : SW) : Option Nat :=
  if 0x110 ≤ w.sreg.toNat ∧ w.sreg.toNat < 0x130 then some ((w.sreg.toNat - 0x110) / 2) else none

/-- A word with every resource field mapped (Table 22.5). -/
def mapFields (f : Fld → Nat → Nat) : Raw → Raw
  | .r op w =>
    let r := rRow op w
    let md := if op = 0x1A then putField (putField w.md 3 0 (f .p (fieldOf w.md 3 0))) 8 5 (f .p (fieldOf w.md 8 5)) else w.md
    let md := if hasXd op w.ty.toNat then putField md 10 7 (f .x (fieldOf md 10 7)) else md
    .r op { w with
      md := md, pg := if w.pg = 0 then 0 else BitVec.ofNat 4 (f .p w.pg.toNat), vd := mapUse f .p r.vd w.vd,
      va := mapUse f .p r.va w.va, vb := if immB op w then w.vb else mapUse f .p r.vb w.vb, vc := mapUse f .p r.vc w.vc }
  | .i op w =>
    let (d, a) := iUses op w
    .i op { w with
      imm := if op = 0x0E then putField w.imm 3 0 (f .b (fieldOf w.imm 3 0)) else w.imm,
      pg := if w.pg = 0 then 0 else BitVec.ofNat 4 (f .p w.pg.toNat),
      vd := if d then BitVec.ofNat 8 (f .v w.vd.toNat) else w.vd, va := if a then BitVec.ofNat 8 (f .v w.va.toNat) else w.va }
  | .m op w =>
    .m op { w with
      off := if op = 0x55 then putField w.off 10 7 (f .x (fieldOf w.off 10 7)) else w.off,
      pg := if w.pg = 0 then 0 else BitVec.ofNat 4 (f .p w.pg.toNat),
      vd := if op = 0x59 ∨ op = 0x5D ∨ op = 0x5E then w.vd else BitVec.ofNat 8 (f .v w.vd.toNat),
      va := if op = 0x59 then w.va else BitVec.ofNat 8 (f .v w.va.toNat) }
  | .e op w =>
    let r := eRow op w
    .e op { w with
      cv := if r.cv then BitVec.ofNat 4 (f .c w.cv.toNat) else w.cv,
      gslot := if w.ge = 1 then BitVec.ofNat 3 (f .g w.gslot.toNat) else w.gslot,
      vd := mapUse f .c r.vd w.vd, va := mapUse f .p r.va w.va, vb := mapUse f .p r.vb w.vb, vc := mapUse f .p r.vc w.vc }
  | .s op w =>
    let (d, a) := sUses op w
    .s op { w with
      sreg := match sregX w with
        | some x => BitVec.ofNat 12 (0x110 + 2 * f .x x + w.sreg.toNat % 2)
        | none => w.sreg,
      pg := if w.pg = 0 then 0 else BitVec.ofNat 4 (f .p w.pg.toNat),
      vd := if d then BitVec.ofNat 8 (f .v w.vd.toNat) else w.vd, va := if a then BitVec.ofNat 8 (f .v w.va.toNat) else w.va }
  | .p w =>
    let one (c : Compact) : Compact :=
      let m (x : BitVec 6) : BitVec 6 := BitVec.ofNat 6 (f .v x.toNat)
      if c.cop = 0 then c else { c with vd := m c.vd, va := m c.va, vb := if copUnary c.cop.toNat then c.vb else m c.vb }
    .p { w with op0 := one w.op0, op1 := one w.op1 }

/-- The resources other than vector registers that a word names (R379). -/
def named : Raw → List (Fld × Nat)
  | .r op w =>
    let r := rRow op w
    let one (u : Use) (x : BitVec 8) : List (Fld × Nat) := if u = .pred then [(.p, x.toNat)] else []
    [(.p, w.pg.toNat)] ++ one r.vd w.vd ++ one r.va w.va ++ one r.vb w.vb ++ one r.vc w.vc ++
      (if op = 0x1A then [(.p, fieldOf w.md 3 0), (.p, fieldOf w.md 8 5)] else []) ++
      (if hasXd op w.ty.toNat then [(.x, fieldOf w.md 10 7)] else [])
  | .i op w => (.p, w.pg.toNat) :: (if op = 0x0E then [(.b, fieldOf w.imm 3 0)] else [])
  | .m op w => (.p, w.pg.toNat) :: (if op = 0x55 then [(.x, fieldOf w.off 10 7)] else [])
  | .e op w =>
    let r := eRow op w
    (if r.cv then [(.c, w.cv.toNat)] else []) ++ (if w.ge = 1 then [(.g, w.gslot.toNat)] else []) ++
      (if r.vd = .slot then [(.g, w.vd.toNat)] else if r.vd = .pred then [(.c, w.vd.toNat)] else []) ++
      (if r.va = .pred then [(.p, w.va.toNat)] else [])
  | .s _ w =>
    (.p, w.pg.toNat) :: (match sregX w with
      | some x => [(.x, x)]
      | none => [])
  | .p _ => []

/-! ### Reading a kernel (R377, R378) -/

/-- A clause as read: its offset, its header and its words. -/
structure Clz where
  off : Nat
  header : Word
  words : List Raw
  deriving DecidableEq, Repr

/-- Words of a buffer of an address space, read at home in the world of a core (R377). -/
def graftWords (s : State) (core asid : Nat) (v : Word) (o n : Nat) : Option (List Word) :=
  match (sysRead { devMode core (.ctx core .m) 1 with cls := 3 } asid (v + BitVec.ofNat 64 o)
      ((List.range n).map (fun i => (8 * i, 8))) s).2 with
  | .ok bs => some ((List.range n).map (fun i => BitVec.ofNat 64 (fieldAt bs (8 * i) 8)))
  | .error _ => none

/-- An unguarded FEND or EXIT. -/
def endsKernel : Raw → Bool
  | .r op w => (op == 0x08 || op == 0x09) && w.pg == 0 && w.pn == 0
  | _ => false

/-- A clause decodes for a launch's privilege and window (R378, item 10). -/
def clauseDecodes (priv window : Nat) (h : Word) (ws : List Word) : Option (List Raw) :=
  let rs := ws.map rawOfWord
  if headerOk h && rs.all Option.isSome &&
      (List.range rs.length).all (fun i => match nth rs none i with
        | some r => (issueReject false priv window (h.toNat % 8) (i + 1 == rs.length) r).isNone
        | none => false) then some (rs.filterMap id) else none

/-- The clauses from an entry PC to the first that ends in an unguarded FEND or EXIT, within 32 KiB. -/
def readClauses (s : State) (core asid : Nat) (v : Word) (priv window start : Nat) : Nat → Nat → Option (List Clz)
  | 0, _ => none
  | n + 1, o =>
    match graftWords s core asid v o 1 with
    | some [h] =>
      let len := headerLen h
      if o + 8 * (len + 1) - start > 32768 then none
      else
        match graftWords s core asid v (o + 8) len with
        | none => none
        | some ws =>
          match clauseDecodes priv window h ws with
          | none => none
          | some rs =>
            let c : Clz := ⟨o, h, rs⟩
            if (match rs.getLast? with
              | some r => endsKernel r
              | none => false) then some [c]
            else (readClauses s core asid v priv window start n (o + 8 * (len + 1))).map (fun cs => c :: cs)
    | _ => none

/-- A kernel with its parts (Table 22.2): the indices of the region clause, of T, and of the loop clause, with the
REGION word, and the live-in mask. -/
structure Kernel where
  cs : List Clz
  ri : Nat
  ti : Nat
  li : Nat
  rw : IW
  mask : Word
  deriving DecidableEq, Repr

def Kernel.clause (k : Kernel) (i : Nat) : Clz := nth k.cs ⟨0, 0, []⟩ i
/-- Every word of a clause with its PC. -/
def Clz.pcs (c : Clz) : List (Nat × Raw) := (List.range c.words.length).filterMap (fun i =>
  (c.words[i]?).map (fun r => (c.off + 8 * (i + 1), r)))

/-- The target of an immediate transfer at a PC. -/
def targetAt (pc : Nat) (w : IW) : Int := (pc : Int) + sext w.imm.toNat 32 * 8

/-- The index of the clause whose header stands at an offset. -/
def clauseIndex (cs : List Clz) (t : Int) : Option Nat := (List.range cs.length).find? (fun i => ((nth cs ⟨0, 0, []⟩ i).off : Int) == t)

/-- The live-in mask that the prologue forms in a register (R378, item 9). -/
def liveIn (words : List Raw) (reg : Nat) : Option Word :=
  (words.foldl (fun (acc : Option (Word × Bool)) r =>
    if !(dstsOf r).contains (.vreg reg) then acc
    else
      match r, acc with
      | .i 0x2F w, a =>
        if w.md = 0 then some (BitVec.ofInt 64 (sext w.imm.toNat 32), false)
        else if w.md = 1 then some (BitVec.ofNat 64 w.imm.toNat, false)
        else if w.md = 6 then
          match a with
          | some (x, false) => some (BitVec.ofNat 64 (w.imm.toNat * 2 ^ 32 + x.toNat % 2 ^ 32), true)
          | _ => none
        else none
      | _, _ => none) none).map (fun p => p.1)

/-- Items 5 and 6 of R378 for one word of clause `i`. -/
def wordAllowed (cs : List Clz) (ti li i : Nat) (final : Bool) (pc : Nat) (r : Raw) : Bool :=
  let inner (w : IW) : Bool :=
    ti ≤ i && i < li && (match clauseIndex cs (targetAt pc w) with
      | some t => ti < t && t < li && headerLand (nth cs ⟨0, 0, []⟩ t).header
      | none => false)
  match r with
  | .i 0x04 _ => false
  | .r 0x03 _ => false
  | .r 0x05 _ => false
  | .r 0x08 _ => final
  | .r 0x09 _ => final
  | .i 0x01 w => inner w
  | .i 0x02 w => w.md == 0 && inner w
  | _ => true

/-- The parts of a read kernel, where it meets items 1 to 7 and 9 of R378. -/
def kernelOf (cs : List Clz) (role : Nat) : Option Kernel :=
  let regions : List (Nat × IW) := (List.range cs.length).flatMap (fun i =>
    (nth cs ⟨0, 0, []⟩ i).words.filterMap (fun r => match r with
      | .i 0x0A w => some (i, w)
      | _ => none))
  match regions.filter (fun x => !bitOf x.2.md 2), regions.filter (fun x => bitOf x.2.md 2) with
  | [(ri, rw)], [(ci, _)] =>
    let at_ (i : Nat) : Clz := nth cs ⟨0, 0, []⟩ i
    let li := ci - 1
    match (at_ li).words with
    | [.i 0x06 lw] =>
      match clauseIndex cs (targetAt ((at_ li).off + 8) lw), liveIn ((cs.take ri).flatMap (fun c => c.words)) rw.va.toNat with
      | some ti, some mask =>
        let n := cs.length
        let words := (List.range n).all (fun i => (at_ i).pcs.all (fun x =>
          wordAllowed cs ti li i (i + 1 == n && x.1 == (at_ i).off + 8 * (at_ i).words.length) x.1 x.2))
        if (at_ ri).words.length = 1 ∧ fieldOf rw.md 1 0 = role ∧ lw.va = rw.vd ∧ ri < ti ∧ ti ≤ li ∧
            headerLand (at_ ti).header = true ∧ (at_ ci).words.length = 1 ∧ ci + 1 < n ∧ words = true then
          some ⟨cs, ri, ti, li, rw, mask⟩
        else none
      | _, _ => none
    | _ => none
  | _, _ => none

/-- A launch's kernel (R378, items 1 to 7, 9, 10). -/
def kernelFor (s : State) (core : Nat) (d : Desc) (role : Nat) : Option Kernel :=
  match d.stages.head? with
  | none => none
  | some st =>
    match readClauses s core d.asid d.code d.priv (8 * st.ws8) st.entry 2049 st.entry with
    | none => none
    | some cs => kernelOf cs role

/-- The trip-count slot of a parameter block (R378, item 8), an aligned access of 8 bytes (R377). -/
def tripSlot (s : State) (core : Nat) (d : Desc) (slot : Nat) : Option Word :=
  if d.param.toNat % 8 ≠ 0 then none
  else match graftWords s core d.asid d.param (8 * slot) 1 with
  | some [x] => some x
  | _ => none

/-! ### Counts (R379) -/

def Kernel.words (k : Kernel) : List Raw := k.cs.flatMap (fun c => c.words)

/-- The highest number of a kind; for all but predicates one more, 0 where none is named. -/
def Kernel.count (k : Kernel) (f : Fld) : Nat :=
  ((k.words.flatMap named).filter (fun x => x.1 == f)).foldl (fun a x => max a (if f = .p then x.2 else x.2 + 1)) 0

/-- The renumbering of the consumer's fields (R383, Table 22.5). -/
def renumber (p : Kernel) (wsp : Nat) (f : Fld) (n : Nat) : Nat :=
  match f with
  | .v => n + wsp
  | .p => if n = 0 then 0 else n + p.count .p
  | .g => n + p.count .g
  | .c => n + p.count .c
  | .x => n + p.count .x
  | .b => n + p.count .b

/-- A consumer PAIR word has an operand above v63 after renumbering (reason 4). -/
def pairTooHigh (wsp : Nat) : Raw → Bool
  | .p w =>
    let one (c : Compact) : Bool :=
      c.cop != 0 && (c.vd.toNat + wsp > 63 || c.va.toNat + wsp > 63 || (!copUnary c.cop.toNat && c.vb.toNat + wsp > 63))
    one w.op0 || one w.op1
  | _ => false

/-! ### Seams (R384) -/

/-- A word that carries SEAM (R139). -/
def seamOf : Raw → Nat
  | .m op w => if op = 0x50 ∨ op = 0x52 then w.seam.toNat else 0
  | _ => 0

/-- The words of a kernel that carry SEAM: clause, index in it, word. -/
def Kernel.seams (k : Kernel) : List (Nat × Nat × Raw) :=
  (List.range k.cs.length).flatMap (fun i =>
    let c := k.clause i
    ((List.range c.words.length).filterMap (fun j => (c.words[j]?).map (fun r => (i, j, r)))).filter (fun x => seamOf x.2.2 != 0))

/-- The WIDTH that TBYTES gives. -/
def tbytesWidth (n : Nat) : Nat := ilog2 n

/-- The seam store and the seam load, where they match (R384). -/
def seamMatch (p c : Kernel) (d : Desc) : Option ((Nat × Nat × MW) × (Nat × Nat × MW)) :=
  match p.seams, c.seams with
  | [(pi, pj, .m 0x52 st)], [(ci, cj, .m 0x50 ld)] =>
    let body (k : Kernel) (i : Nat) : Bool := k.ti ≤ i && i < k.li
    let okWord (w : MW) : Bool := w.seam.toNat == d.stag && w.width.toNat == tbytesWidth d.tbytes
    let vs := if st.width = 4 then [st.vd.toNat, st.vd.toNat + 1] else [st.vd.toNat]
    let after := (p.clause pi).words.drop (pj + 1) ++
      ((List.range' (pi + 1) (p.li - (pi + 1))).flatMap (fun i => (p.clause i).words))
    if body p pi && body c ci && okWord st && okWord ld && after.all (fun r => vs.all (fun n => !(dstsOf r).contains (.vreg n))) then
      some ((pi, pj, st), (ci, cj, ld))
    else none
  | _, _ => none

/-! ### Stall counts (R21, R388) -/

/-- A word of a laid-out code: its PC and whether it is the last of its clause. -/
structure Laid where
  pc : Nat
  last : Bool
  next : Nat
  word : Raw
  deriving DecidableEq, Repr

/-- What a word reads whose readiness stall counts must see to (R18, R92), links apart. -/
def stallSrcs (r : Raw) : List Dst :=
  if waitsSources (rawOp r) then []
  else (valueSrcs r).map .vreg ++ (predSrcs r).map .pred ++ (match r with
    | .r 0x4B w => if bitOf w.md 0 then [.scale (fieldOf w.md 10 7)] else []
    | .r 0x4D w => if bitOf w.md 0 then [] else [.scale (fieldOf w.md 10 7)]
    | .r 0x16 w => [.vreg w.va.toNat]
    | .e _ w => if w.ge = 1 then [.guard w.gslot.toNat] else []
    | _ => [])

/-- The PCs of the words that can follow a word on its path. -/
def followers (x : Laid) : List Nat :=
  let jump (w : IW) (uncond : Bool) : List Nat :=
    ((targetAt x.pc w).toNat + 8) :: (if uncond then [] else [x.next])
  match x.word with
  | .i 0x01 w => jump w (w.pg == 0 && w.pn == 0)
  | .i 0x02 w => jump w (w.pg == 0 && w.pn == 0)
  | .i 0x06 w => jump w false
  | r => if endsKernel r then [] else [x.next]

/-- Results in flight: remaining clk, 100 for a scoreboarded one. -/
abbrev Flight := List (Dst × Nat)

/-- The results in flight as a word issues and after it. -/
def issueFlight (inn : Flight) (r : Raw) : Flight :=
  let ls := latencies r
  inn.filter (fun p => !ls.any (fun l => l.1 == p.1)) ++ ls.map (fun l => (l.1, if l.2 = 0 then 100 else l.2))

/-- The results still in flight when the next word issues after a stall count. -/
def elapse (out : Flight) (stall : Nat) (next : Raw) : Flight :=
  let dt := if stall = 3 then 3 else 1 + stall
  let touch := stallSrcs next ++ dstsOf next
  (out.filterMap (fun p =>
    if p.2 = 100 then (if stall = 3 && touch.contains p.1 then none else some p)
    else if p.2 ≤ dt then none else some (p.1, p.2 - dt)))

/-- The least stall count after which a word may read. -/
def needStall (out : Flight) (next : Raw) : Nat :=
  let srcs := stallSrcs next
  (out.filter (fun p => srcs.contains p.1)).foldl (fun a p => max a (if p.2 = 100 then 3 else p.2 - 1)) 0

/-- Two sets of results in flight joined. -/
def joinFlight (a b : Flight) : Flight :=
  b.foldl (fun acc p =>
    if acc.any (fun q => q.1 == p.1) then acc.map (fun q => if q.1 = p.1 then (q.1, max q.2 p.2) else q) else acc ++ [p]) a

/-- One round over the words: the results in flight before each, and its stall count. -/
def stallRound (ws : List Laid) (sin : List Flight) (floor : Bool) (stalls : List Nat) : List Flight × List Nat :=
  let at_ (pc : Nat) : List Raw := (ws.filter (fun y => y.pc == pc)).map (fun y => y.word)
  let outs := (ws.zip sin).map (fun x => issueFlight x.2 x.1.word)
  let new := (ws.zip (outs.zip stalls)).map (fun x =>
    let n := ((followers x.1).flatMap at_).foldl (fun a r => max a (needStall x.2.1 r)) 0
    if floor then max n x.2.2 else n)
  let flow := (ws.zip (outs.zip new)).flatMap (fun x => (followers x.1).map (fun pc => (pc, x.2.1, x.2.2)))
  (ws.map (fun y => (flow.filter (fun e => e.1 == y.pc)).foldl (fun a e => joinFlight a (elapse e.2.1 e.2.2 y.word)) []), new)

/-- Stall counts by rounds; after the first rounds counts only rise, so that the rounds settle. -/
def stallRounds (ws : List Laid) : Nat → List Flight → List Nat → List Nat
  | 0, _, stalls => stalls
  | n + 1, sin, stalls =>
    let (sin', new) := stallRound ws sin (decide (n < ws.length + 32)) stalls
    if sin' = sin ∧ new = stalls then new else stallRounds ws n sin' new

/-- The stall counts of laid-out code: as many rounds as a result can take to reach its reader along the words. -/
def stallsOf (ws : List Laid) : List Nat := stallRounds ws (2 * ws.length + 64) (ws.map (fun _ => [])) (ws.map (fun _ => 0))

/-! ### The image (R385–R389) -/

/-- A clause of the image before layout: its header's template and class, the header's origin, its words with their
origins, and the original headers that transfers to it name. -/
structure Piece where
  header : Word
  cls : Nat
  origin : Bool × Nat
  words : List (Raw × (Bool × Nat))
  keys : List (Bool × Nat)
  deriving DecidableEq, Repr

/-- A clause copied, its words mapped. -/
def pieceOf (cons : Bool) (f : Raw → Raw) (c : Clz) : Piece :=
  { header := c.header, cls := c.header.toNat % 8, origin := (cons, c.off), words := c.pcs.map (fun x => (f x.2, (cons, x.1))),
    keys := [(cons, c.off)] }

/-- A piece without one of its words. -/
def Piece.drop (p : Piece) (j : Nat) : Piece := { p with words := p.words.take j ++ p.words.drop (j + 1) }

/-- A MOV of a whole register under a guard (R385). -/
def movWord (ty vd vs : Nat) (pg : BitVec 4) (pn : BitVec 1) : Raw :=
  .r 0x2E { md := 0, dead := 0, ty := BitVec.ofNat 5 ty, pn := pn, pg := pg, vc := 0, vb := 0, va := BitVec.ofNat 8 vs,
            vd := BitVec.ofNat 8 vd }

/-- The joining words (R387). -/
def joinWords (vc vp wsp : Nat) : List Raw :=
  [.r 0x27 { md := 0x400, dead := 0, ty := 8, pn := 0, pg := 0, vc := 0, vb := BitVec.ofNat 8 wsp, va := BitVec.ofNat 8 vc,
             vd := BitVec.ofNat 8 vc },
   .r 0x25 { md := 0, dead := 0, ty := 8, pn := 0, pg := 0, vc := 0, vb := BitVec.ofNat 8 vp, va := BitVec.ofNat 8 vc,
             vd := BitVec.ofNat 8 vc }]

/-- The consumer's prologue with the joining words (R387, item 2). -/
def withJoin (pro : List Piece) (join : List (Raw × (Bool × Nat))) (origin : Bool × Nat) : List Piece :=
  match pro.reverse with
  | last :: rest =>
    if last.cls = 1 ∧ last.words.length ≤ 14 then (({ last with words := last.words ++ join } : Piece) :: rest).reverse
    else pro ++ [⟨1, 1, origin, join, []⟩]
  | [] => [⟨1, 1, origin, join, []⟩]

/-- The clause of the seam load, split around the MOV words that replace it (R385, R387). -/
def splitLoad (p : Piece) (j : Nat) (movs : List Raw) : List Piece :=
  match p.words[j]? with
  | some (_, o) =>
    [{ p with words := p.words.take j },
     { p with cls := 1, words := movs.map (fun r => (r, o)), keys := [] },
     { p with words := p.words.drop (j + 1), keys := [] }]
  | none => [p]

/-- The pieces of the image in order (R387). -/
def piecesFor (p c : Kernel) (wsp : Nat) (transient : Bool) (st : Nat × Nat × MW) (ld : Nat × Nat × MW) : List Piece :=
  let ren : Raw → Raw := mapFields (renumber p wsp)
  let part (k : Kernel) (cons : Bool) (lo hi : Nat) : List Piece :=
    (List.range' lo (hi - lo)).map (fun i => pieceOf cons (if cons then ren else id) (k.clause i))
  let vc := c.rw.va.toNat + wsp
  let creg := c.clause c.ri
  let join := (joinWords vc p.rw.va.toNat wsp).map (fun r => (r, (true, creg.off + 8)))
  let region : Piece :=
    ⟨creg.header, 0, (true, creg.off), [(.i 0x0A { imm := 0, md := 0, pn := 0, pg := 0, va := BitVec.ofNat 8 vc, vd := 0 },
      (true, creg.off + 8))], [(false, (p.clause p.ri).off), (true, creg.off)]⟩
  let bodyP := (List.range' p.ti (p.li - p.ti)).map (fun i =>
    let x := pieceOf false id (p.clause i)
    if transient ∧ i = st.1 then x.drop st.2.1 else x)
  let vd := ld.2.2.vd.toNat + wsp
  let vs := st.2.2.vd.toNat
  let pg : BitVec 4 := if ld.2.2.pg = 0 then 0 else BitVec.ofNat 4 (renumber p wsp .p ld.2.2.pg.toNat)
  let movs :=
    if ld.2.2.width = 4 then [movWord 8 vd vs pg ld.2.2.pn, movWord 8 (vd + 1) (vs + 1) pg ld.2.2.pn]
    else [movWord (nth [2, 4, 6, 8] 8 ld.2.2.width.toNat) vd vs pg ld.2.2.pn]
  let bodyC := (List.range' c.ti (c.li - c.ti)).flatMap (fun i =>
    let x := pieceOf true ren (c.clause i)
    if i = ld.1 then splitLoad x ld.2.1 movs else [x])
  let epiP := (part p false (p.li + 2) p.cs.length)
  let epiP := match epiP.reverse with
    | last :: rest => (last.drop (last.words.length - 1) :: rest).reverse
    | [] => []
  part p false 0 p.ri ++ withJoin (part c true 0 c.ri) join (true, creg.off) ++ [region] ++ part p false (p.ri + 1) p.ti ++
    part c true (c.ri + 1) c.ti ++ bodyP ++ bodyC ++ part p false p.li (p.li + 2) ++ epiP ++ part c true (c.li + 2) c.cs.length

/-- Pieces left empty are removed; transfers to them reach what follows. -/
def prune : List Piece → List (Bool × Nat) → List Piece
  | [], _ => []
  | p :: ps, carry =>
    if p.words.isEmpty then prune ps (carry ++ p.keys) else { p with keys := carry ++ p.keys } :: prune ps []

/-- The offsets of pieces laid one after another. -/
def layOut : List Piece → Nat → List (Nat × Piece)
  | [], _ => []
  | p :: ps, o => (o, p) :: layOut ps (o + 8 * (p.words.length + 1))

/-- A transfer word's displacement in the image (R388). -/
def relink (whereIs : Bool × Nat → Option Nat) (pc : Nat) (r : Raw) (o : Bool × Nat) : Raw :=
  match r with
  | .i op w =>
    if op = 0x01 ∨ (op = 0x02 ∧ w.md = 0) ∨ op = 0x06 then
      match whereIs (o.1, (targetAt o.2 w).toNat) with
      | some t => .i op { w with imm := BitVec.ofInt 32 (((t : Int) - pc) / 8) }
      | none => r
    else r
  | _ => r

/-- A header with its class, length and stall counts; the rest of its template stays (R388). -/
def newHeader (h : Word) (cls : Nat) (stalls : List Nat) : Word :=
  let keep := h.toNat - bits h.toNat 6 0 - bits h.toNat 40 9 * 2 ^ 9
  BitVec.ofNat 64 (keep + cls + 8 * (stalls.length - 1) + stalls.reverse.foldl (fun a x => 4 * a + x) 0 * 2 ^ 9)

/-- Stall counts dealt out to the pieces. -/
def dealStalls : List (Nat × Piece) → List Nat → List (Piece × List Nat)
  | [], _ => []
  | (_, p) :: ps, l => (p, l.take p.words.length) :: dealStalls ps (l.drop p.words.length)

/-- The image of a pair and its provenance (R387–R389). -/
def buildImage (prod cons : Nat) (ps : List Piece) : Image :=
  let laid := layOut (prune ps []) 0
  let whereIs (k : Bool × Nat) : Option Nat := (laid.find? (fun x => x.2.keys.contains k)).map (fun x => x.1)
  let linked : List (Nat × Piece) := laid.map (fun x => (x.1, { x.2 with
    words := (List.range x.2.words.length).filterMap (fun i =>
      (x.2.words[i]?).map (fun w => (relink whereIs (x.1 + 8 * (i + 1)) w.1 w.2, w.2))) }))
  let flat : List Laid := linked.flatMap (fun x =>
    let n := x.2.words.length
    (List.range n).filterMap (fun i => (x.2.words[i]?).map (fun w =>
      ⟨x.1 + 8 * (i + 1), i + 1 == n, if i + 1 = n then x.1 + 8 * (n + 2) else x.1 + 8 * (i + 2), w.1⟩)))
  let dealt := dealStalls linked (stallsOf flat)
  { prod := prod, cons := cons,
    words := dealt.flatMap (fun x => newHeader x.1.header x.1.cls x.2 :: x.1.words.map (fun w => wordOfRaw w.1)),
    origin := dealt.flatMap (fun x => x.1.origin :: x.1.words.map (fun w => w.2)) }

/-! ### The decision (R380, Table 22.3) -/

/-- A free image slot of the unit that serves an ASID (R375, R388). -/
def freeSlot (s : State) (asid : Nat) : Option Nat :=
  ((List.range 8).map (fun k => 8 * (asid % 2) + k)).find? (fun k => (mget? s.images k).isNone)

/-- Reason 3: the shapes differ. -/
def shapesDiffer (p c : Desc) : Bool :=
  p.x != c.x || p.y != c.y || p.z != c.z || p.gsize != c.gsize || p.nstage != 1 || c.nstage != 1 ||
    (p.stages.map (fun st => st.nteam)) != (c.stages.map (fun st => st.nteam))

/-- An examined pair refused with its reason, or accepted with its image. -/
def examine (s : State) (core pl cl : Nat) : Nat ⊕ Image :=
  let p := recDesc s pl
  let c := recDesc s cl
  if c.ptag ≠ p.tag ∨ p.priv ≠ c.priv ∨ p.g = false ∨ p.seam = true ∨ recState s pl ≠ 1 then .inl 1
  else
    match kernelFor s core p 1, kernelFor s core c 2 with
    | some kp, some kc =>
      let slot := fieldOf kp.rw.imm 7 0
      let trips := match tripSlot s core p slot, tripSlot s core c slot with
        | some a, some b => a == b
        | _, _ => false
      let wsp := ((p.windows.head?).getD 0)
      let wsc := ((c.windows.head?).getD 0)
      if slot ≠ fieldOf kc.rw.imm 7 0 ∨ trips = false then .inl 2
      else if shapesDiffer p c then .inl 3
      else if wsp + wsc > 256 ∨ kc.mask.toNat / 2 ^ (64 - min 64 wsp) ≠ 0 ∨ kc.words.any (pairTooHigh wsp) = true then .inl 4
      else if kp.count .p + kc.count .p > 15 then .inl 5
      else if kp.count .g + kc.count .g > 8 ∨ kp.count .c + kc.count .c > 16 ∨ kp.count .x + kc.count .x > 16 ∨
          kp.count .b + kc.count .b > 16 then .inl 6
      else
        let seam := seamMatch kp kc c
        let image := match seam with
          | some (st, ld) => some (buildImage pl cl (piecesFor kp kc wsp (c.transient == 1) st ld))
          | none => none
        let tooLong := match image with
          | some im => 8 * im.words.length > 32768
          | none => false
        if (carve [] (List.replicate p.windows.length (wsp + wsc))).isNone ∨ overlaps p.walloc c.walloc = true ∨
            overlaps p.aalloc c.aalloc = true ∨ overlaps p.calloc c.calloc = true ∨ (p.klen ≠ 0 ∧ c.klen ≠ 0) ∨
            tooLong = true ∨ (freeSlot s p.asid).isNone then .inl 7
        else
          match image with
          | some im => .inr im
          | none => .inl 8
    | _, _ => .inl 2

/-- The pair that a launch belongs to: producer and consumer, with the core of the consumer's LAUNCH. -/
def pairFor (s : State) (l : Nat) : Option (Nat × Nat × Nat) :=
  match s.grafts.find? (fun (g : GraftPending) => g.lseq == l) with
  | some g =>
    match g.partner with
    | some o =>
      let (p, c) := if g.lseq < o then (g.lseq, o) else (o, g.lseq)
      (s.grafts.find? (fun (x : GraftPending) => x.lseq == c)).map (fun x => (p, c, x.core))
    | none => none
  | none => none

/-- The graft unit decides on the examined pair of a launch (R376, R380, Table 22.1); its reads are acquires at device scope
(R377). -/
def execGraftDecision (lseq : Nat) (s : State) : Host.Outcome State Fault Refusal :=
  match pairFor s lseq with
  | none => .next s
  | some (p, c, core) =>
    let s := acquireDie s core (dieOf core)
    match examine s core p c with
    | .inl reason => .next (ungraft (ungraft s p reason) c 0)
    | .inr im =>
      let slot := (freeSlot s (recAsid s p)).getD 0
      let s := { s with images := mset s.images slot im, grafts := s.grafts.filter (fun g => g.lseq != c) }
      let s := recSet (recSet s p 160 8 c) c 160 8 p
      .next (ungraft (recSet (enterState s c 5) c 153 1 0) p 0)

/-- A producer candidate has waited 20 µs with no later launch in its queue (R376). -/
def execGraftTimeout (lseq : Nat) (s : State) : Host.Outcome State Fault Refusal :=
  match s.grafts.find? (fun (g : GraftPending) => g.lseq == lseq) with
  | some g => .next (if g.partner.isNone ∧ s.now ≥ g.at_ + usClk 20 then ungraft s lseq 0 else s)
  | none => .next s

end Sys2Proof.Machine
end

