-- ==== Sys2Proof/Machine/Turns.lean ====
section
/-! DEFINITION. Who issues next, and the events of a core and of memory that no word names: the quadrant's choice and the
S-lane's turn (R216–R218, R420), CTRWAIT's reads (R63), the fault buffer (R324, R325), residency (R224), and the memory
system's own steps (R296, R300, R301, R308, R312). -/
namespace Sys2Proof.Machine

/-! ### Beginning a clause (R9, R11, R36) -/

/-- What a standing path would begin: its clause, or the word that keeps it from beginning. -/
abbrev Opening := Except (Nat × Nat × Word × Option FaultAddr) Clause

/-- The clause of a path, with the clk at which its first word can issue. -/
def opening (s : State) (core slot : Nat) (t : Team) (p : Standing) : Opening × Nat :=
  let base := (lanesOf p.lanes).foldl (fun a i => max a (t.lane i).earliest) s.now
  match clauseAt s core t p.pc p.hpc with
  | .error e => (.error e, base)
  | .ok (o, h, ws, first) =>
    let cl : Clause := { slot := slot, lanes := p.lanes, hpc := o, header := h, idx := first, words := ws }
    (.ok cl, match (ws.head?).bind rawOfWord with
      | some r => issueClk s ⟨.team core slot, 0, cl, p.lanes, t⟩ r
      | none => base)

/-- The words of a clause enter the instruction cache (R317). -/
def noteClause (s : State) (core asid : Nat) (src : CodeSrc) (cl : Clause) : State :=
  (List.range (cl.idx + cl.words.length + 1)).foldl (fun s i => noteCode s core asid src (cl.hpc + 8 * i)) s

/-- A path begins its clause on a fetch port; a clause that does not decode parks the path at the word (R36). -/
def beginPath (s : State) (core slot port : Nat) (p : Standing) : State :=
  match (s.core core).team? slot with
  | none => s
  | some t =>
    match (opening s core slot t p).1 with
    | .ok cl =>
      let s := noteClause s core t.asid t.code cl
      s.modCore core (fun c =>
        { c.setTeam slot (t.modLanes p.lanes (fun _ l => { l with hpc := cl.hpc })) with ports := mset c.ports port cl })
    | .error (pc, cause, w, addr) =>
      let iss : Iss := { core := core, agent := .team core slot, lanes := p.lanes, act := p.lanes, pc := pc, hpc := p.hpc,
                         clk := s.now, deadmode := false, final := false, bits := w }
      let (s, t) := takeTraps s iss t (trapAll p.lanes { cause := cause, addr := addr })
      s.modCore core (fun c => c.setTeam slot t)

/-! ### The quadrant's choice (R215–R218, R67) -/

/-- The clk before which YIELD keeps a team from being chosen. -/
def holdUntil (t : Team) : Nat :=
  match t.hold with
  | some (until_, _ :: _) => until_
  | _ => 0

/-- The clk at which a team is issuable: that of its first unheld path that can issue. -/
def teamClk (s : State) (core slot : Nat) : Option Nat :=
  match (s.core core).team? slot with
  | none => none
  | some t =>
    ((freePaths s core slot t).map (fun p => (opening s core slot t p).2)).foldl (fun (a : Option Nat) c =>
      if c ≥ never then a
      else
        match a with
        | none => some (max c (holdUntil t))
        | some b => some (min b (max c (holdUntil t)))) none

/-- A choice: its clk, the slot, the ports to fill, whether it is a choice of R216 and not the second port's, and whether the
second port is to stay idle until the other port's clause ends. -/
structure Choice where
  clk : Nat
  slot : Nat
  ports : List Nat
  fresh : Bool
  idle : Bool
  deriving DecidableEq, Repr

/-- The team with the highest age, and on equal ages the lower slot. -/
def oldest (s : State) (core clk : Nat) (slots : List Nat) : Option Nat :=
  let age (slot : Nat) : Nat := match (s.core core).team? slot with
    | some t => min 65535 (clk - t.age)
    | none => 0
  slots.foldl (fun (a : Option Nat) x => match a with
    | none => some x
    | some y => if age x > age y then some x else a) none

/-- What a quadrant does next (R216). A port that frees beside an open clause starts the lowest unheld path of the chosen team
unless another team is issuable by then, in which case it stays idle. -/
def choice (s : State) (core quad : Nat) : Option Choice :=
  let c := s.core core
  let slots := (List.range' (4 * quad) 4).filter (fun x => (c.team? x).isSome)
  let both := [2 * quad, 2 * quad + 1]
  let free := both.filter (fun p => (mget? c.ports p).isNone)
  let freed := free.foldl (fun a p => max a (mget c.portAt 0 p)) s.now
  let clks (slots : List Nat) : List (Nat × Nat) := slots.filterMap (fun x => (teamClk s core x).map (fun k => (x, max k freed)))
  match both.filterMap (fun p => (mget? c.ports p).map (fun x => x.slot)) with
  | [] =>
    match clks slots with
    | [] => none
    | k0 :: ks =>
      let clk := ks.foldl (fun a k => min a k.2) k0.2
      (oldest s core clk (((k0 :: ks).filter (fun k => k.2 ≤ clk)).map (fun k => k.1))).map (fun x => ⟨clk, x, free, true, false⟩)
  | [x] =>
    if free.any c.idlePorts.contains then none
    else
      let starts := (c.team? x).any (fun t => !(freePaths s core x t).isEmpty)
      match clks (slots.filter (fun y => y != x)) with
      | [] => if starts then some ⟨freed, x, free, false, false⟩ else none
      | k0 :: ks =>
        let clk := ks.foldl (fun a k => min a k.2) k0.2
        if starts && clk > freed then some ⟨freed, x, free, false, false⟩ else some ⟨clk, x, free, false, true⟩
  | _ => none

/-- A chosen team's age starts again, and the teams that yielded to it wait for it no more. -/
def noteChoice (s : State) (core quad : Nat) (x : Choice) : State :=
  s.modCore core (fun c => { c with teams := c.teams.map (fun p =>
    if p.1 = x.slot then (p.1, { p.2 with age := x.clk, hold := none })
    else if p.1 / 4 = quad then (p.1, { p.2 with hold := p.2.hold.map (fun h => (h.1, h.2.filter (fun y => y != x.slot))) })
    else p) })

/-- A quadrant chooses, and the lowest unheld paths begin on its free ports (R216, R218). -/
def execTeamChoice (core quad : Nat) (s : State) : Host.Outcome State Fault Refusal :=
  match choice s core quad with
  | none => .next s
  | some x =>
    let s := { s with now := max s.now x.clk }
    let s := if x.fresh then noteChoice s core quad x else s
    let s := s.modCore core (fun c =>
      { c with idlePorts := c.idlePorts.filter (fun p => p / 2 != quad) ++ (if x.idle then x.ports else []) })
    if x.idle then .next s else
    match (s.core core).team? x.slot with
    | none => .next s
    | some t =>
      .next (((freePaths s core x.slot t).zip x.ports).foldl (fun s p => beginPath s core x.slot p.2 p.1) s)

/-! ### The S-lane's turn (R420) -/

/-- A context can begin a clause: between clauses, with no event to take and no wait at its header. -/
def ctxReady (s : State) (core : Nat) (k : Ctx) : Bool :=
  let c := s.core core
  let t := asTeam c k
  let l := t.lane 0
  atBoundary c k && !l.parked && !eventDue s core k &&
    (l.pc != l.hpc || (match fetchAt s core t.asid t.code l.hpc with
      | .ok h => !headerOk h || headerReady c (.ctx k) t h
      | .error _ => true))

/-- The context that begins the next clause, the M context first and then in turn. -/
def ctxTurn (s : State) (core : Nat) : Option Ctx :=
  let c := s.core core
  if ctxInside c .m || ctxInside c .s then none
  else
    match ctxReady s core .m, ctxReady s core .s with
    | true, true => some (if c.lastTurn = .m then .s else .m)
    | true, false => some .m
    | false, true => some .s
    | false, false => none

/-- The S-lane begins the next clause of one of its contexts. -/
def execSLaneClauseTurn (core : Nat) (s : State) : Host.Outcome State Fault Refusal :=
  match ctxTurn s core with
  | none => .next s
  | some k =>
    let t := asTeam (s.core core) k
    match (opening s core 0 t ⟨(t.lane 0).pc, (t.lane 0).hpc, 1⟩).1 with
    | .ok cl =>
      let s := noteClause s core t.asid t.code cl
      .next (s.modCore core (fun c =>
        { c.setCtx k { c.ctx k with clause := some cl, lane := { (c.ctx k).lane with hpc := cl.hpc } } with lastTurn := k }))
    | .error (pc, cause, _, _) => .next (ctxTrap s core k pc cause)

/-! ### CTRWAIT (R63) -/

/-- The fibres of a team that wait at a CTRWAIT word, by word, PC and the clk of its issue. -/
def ctrGroups (t : Team) : List (Word × Nat × Nat) :=
  ((lanesOf t.freeRunMask).filterMap (fun i => match (t.lane i).wait with
    | some (.ctr b _) => some (b, (t.lane i).pc, (t.lane i).earliest)
    | _ => none)).eraseDups

/-- The reads of one waiting path: fibres whose condition now holds are noted, and with the last the path goes on. Each
read takes VS and VA as they stand then (DEDUCED, log 80). -/
def ctrPoll (a : Agent) (g : Word × Nat × Nat) (s : State) : State :=
  match s.teamOf a, rawOfWord g.1 with
  | some t, some (.m _ w) =>
    let inGroup (i : Nat) (met : Bool) : Bool :=
      (t.lane i).live && !(t.lane i).parked && (t.lane i).pc == g.2.1 && (t.lane i).earliest == g.2.2 &&
        (t.lane i).wait == some (.ctr g.1 met)
    let open_ := maskOf (fun i => inGroup i false)
    let all := open_ ||| maskOf (fun i => inGroup i true)
    let first := t.lane (lowest all)
    let iss : Iss := { core := agentCore a, agent := a, lanes := all, act := open_, pc := g.2.1, hpc := first.hpc,
                       clk := s.now, deadmode := false, final := first.last, bits := g.1 }
    let (s', hits, traps) := ctrReads iss t w (lanesOf open_) s
    if hits.isEmpty && traps.isEmpty then s
    else
      let t := t.modLanes (maskOf (fun i => hits.contains i)) (fun _ l => { l with wait := some (.ctr g.1 true) })
      let (s', t) := takeTraps s' iss t traps
      let left := maskOf (fun i => all.getLsbD i && !(t.lane i).parked)
      let done := (lanesOf left).all (fun i => (t.lane i).wait == some (.ctr g.1 true))
      let t := if done then t.modLanes left (fun _ l => resumeLane s'.now l) else t
      { (match a with
         | .team _ _ => s'.putTeam a t
         | .ctx _ _ => if traps.isEmpty then s'.putTeam a t else s') with tick := s'.tick + 1 }
  | _, _ => s

/-- The reads of every path of a team or context that waits at CTRWAIT. -/
def ctrPolls (a : Agent) (s : State) : State :=
  match s.teamOf a with
  | some t => (ctrGroups t).foldl (fun s g => ctrPoll a g s) s
  | none => s

/-- Whether a waiting path's reads would change anything. -/
def ctrReady (s : State) (a : Agent) : Bool :=
  match s.teamOf a with
  | some t => (ctrGroups t).any (fun g =>
      match rawOfWord g.1 with
      | some (.m _ w) =>
        let open_ := maskOf (fun i => (t.lane i).pc == g.2.1 && (t.lane i).earliest == g.2.2 && (t.lane i).wait == some (.ctr g.1 false))
        let iss : Iss := { core := agentCore a, agent := a, lanes := open_, act := open_, pc := g.2.1, hpc := g.2.1,
                           clk := s.now, deadmode := false, final := false, bits := g.1 }
        let r := ctrReads iss t w (lanesOf open_) s
        !r.2.1.isEmpty || !r.2.2.isEmpty
      | _ => false)
  | none => false

/-- The values of a team's waiting CTRWAITs are read (R63). -/
def execCtrwaitSatisfied (core slot : Nat) (s : State) : Host.Outcome State Fault Refusal :=
  match (s.core core).team? slot with
  | none => .next s
  | some t => .next (if t.st = .running then (ctrGroups t).foldl (fun s g => ctrPoll (.team core slot) g s) s else s)

/-! ### The fault buffer (R324, R325) -/

/-- Waiting records enter the buffer in order, as far as it has room. -/
def refill (c : Core) (now : Nat) : Core := c.waiting.foldl (fun c r => c.addFault now r) { c with waiting := [] }

/-- The clk at which the oldest entry of a core is due. -/
def faultDue (s : State) (core : Nat) : Option Nat :=
  let c := s.core core
  match c.faults with
  | e :: _ => if c.tqFree.isEmpty then none else some (if c.waiting.isEmpty then e.created + 256 else s.now)
  | [] => none

/-- The oldest entry of the fault buffer is posted (R325). -/
def execFaultEntryPost (core : Nat) (s : State) : Host.Outcome State Fault Refusal :=
  let c := s.core core
  match faultDue s core, c.faults with
  | some k, e :: es =>
    if k > s.now then .next s
    else
      let gone := match e.recs with
        | r :: _ => (match c.team? r.slot with
          | some t => r.ended || t.uid != r.uid || t.saved || t.st == .ending || t.st == .ended
          | none => true)
        | [] => true
      let entry := { entryOf e with ended := gone }
      .next ((postEntry (s.setCore core { c with faults := es }) core entry).modCore core (fun c => refill c s.now))
  | _, _ => .next s

/-! ### Residency (R224) -/

/-- The counted teams of a core: running, with a live fibre that is not parked. -/
def counted (c : Core) : List (Nat × Team) := c.teams.filter (fun p => p.2.st == .running && p.2.freeRunMask != 0)

/-- The fibres of a team that stand at a FORK which waits for a slot's writes (R49). -/
def forkWaiting (s : State) (core slot : Nat) (t : Team) : BitVec 32 :=
  (s.core core).ports.foldl (fun m p =>
    if p.2.slot = slot ∧ (((p.2.words.head?).bind rawOfWord).any
        (forkWaits s ⟨.team core slot, p.1, p.2, readyOf t p.2.lanes, t⟩ s.now)) = true then m ||| p.2.lanes else m) 0

/-- Every live, unparked fibre of a team waits, or stands at a word that holds its path without issuing. -/
def allWait (s : State) (core : Nat) (p : Nat × Team) : Bool :=
  let h := headerWaiting s core p.1 p.2 ||| forkWaiting s core p.1 p.2
  (lanesOf p.2.freeRunMask).all (fun i => (p.2.lane i).wait.isSome || h.getLsbD i)

/-- The residency counter of a core rises. -/
def idling (s : State) (core : Nat) : Bool :=
  let ps := counted (s.core core)
  !ps.isEmpty && ps.all (allWait s core)

/-- The code of what a team waits for. -/
def waitCode : Option Wait → Nat
  | none => 3
  | some (.arrive b _) => if b.toNat % 128 = 0x0E then 1 else 2
  | some (.barPhase _ _) => 1
  | some (.signed _) => 2
  | some (.waitc _ _) => 3
  | some (.ctr _ _) => 4
  | some (.drain _) => 5
  | some (.token _ _) => 6
  | some .sysq => 7
  | some _ => 8

/-- The slot codes of R224. -/
def slotCodes (s : State) (core : Nat) : Nat :=
  (counted (s.core core)).foldl (fun acc p =>
    let i := lowest p.2.freeRunMask
    acc + (if (forkWaiting s core p.1 p.2).getLsbD i then 8 else waitCode (p.2.lane i).wait) * 16 ^ p.1) 0

/-- The clk after the issue of the word at which a fibre waits: its stall count put off its next word, not its wait. -/
def laneBegan (s : State) (core : Nat) (t : Team) (l : Lane) : Nat :=
  match l.wait, fetchAt s core t.asid t.code l.hpc with
  | some _, .ok h =>
    let stall := stallOf h ((l.pc - l.hpc) / 8 - 1)
    if l.pc = l.hpc then l.earliest else l.earliest - (if stall = 3 then 2 else stall)
  | _, _ => l.earliest

/-- The clk at which the current wait of a team began: that of its earliest fibre (log 29). -/
def waitBegan (s : State) (core : Nat) (t : Team) : Nat :=
  ((lanesOf t.freeRunMask).map (fun i => laneBegan s core t (t.lane i))).foldl min never

/-- The residency counter reaches 2^20 (R224). -/
def execResidencyExpiry (core : Nat) (s : State) : Host.Outcome State Fault Refusal :=
  let c := s.core core
  match counted c with
  | [] => .next s
  | p :: ps =>
    if !idling s core || c.residencyPosted || c.tqFree.isEmpty then .next s
    else
      let (slot, t) := ps.foldl (fun (a : Nat × Team) x => if waitBegan s core x.2 < waitBegan s core a.2 then x else a) p
      let e : TqEntry := { freeEntry with
        cause := cRESIDENCY, slot := slot, uid := t.uid, toM := t.priv == 2, lseq := t.lseq, operands := le 8 (slotCodes s core) ++ le 24 0 }
      let s := { s with now := max s.now (c.residency + 2 ^ 20) }
      .next ((postEntry s core e).modCore core (fun c => { c with residencyPosted := true }))

/-! ### The memory system's own steps -/

/-- A strong write of a die propagates to its home (R308). -/
def execWritePropagation (die : Nat) (s : State) : Host.Outcome State Fault Refusal :=
  let ps := propReady s die
  match ps[Config.freeIndex s.tick % ps.length]? with
  | some p => .next { (propagate s p) with tick := s.tick + 1 }
  | none => .next s

/-- A line that is its set's victim leaves an L2, its dirty bytes written back (R293, R296). -/
def execLineEviction (die line : Nat) (s : State) : Host.Outcome State Fault Refusal :=
  match victim (setOf s die line) with
  | some (k, _) => .next (if k = lineKey die line then flushLine s die line else s)
  | none => .next s

/-- A byte of the pending non-temporal stores becomes performed, whichever comes next (R312). -/
def execNtStoreComplete (s : State) : Host.Outcome State Fault Refusal :=
  let ps := ntReady s
  match ps[Config.freeIndex s.tick % ps.length]? with
  | some (n, c) => .next { (ntByte s n c) with tick := s.tick + 1 }
  | none => .next s

/-- The unit is there to be struck. -/
def unitPresent (s : State) : CheckUnit → Bool
  | .l1 c x => c < 256 && (mget? (s.core c).l1 (x / 4)).isSome
  | .dram x => x < 2 ^ 34
  | .l2 d x => d < 4 && (s.l2Line d (x / 4)).isSome
  | .sram c u => c < 32 && u < 2 ^ 21
  | .wbuf c u => c < 256 && u < 2 ^ 17
  | .abuf c u => c < 256 && u < 2 ^ 16
  | .cbuf c u => c < 256 && u < 2 ^ 16

/-- The SOURCE, core and place fields of MEM.UELOG for a unit (R291). -/
def unitLog : CheckUnit → Nat
  | .l1 _ _ => 0
  | .dram x => 32 * x
  | .l2 _ x => 2 ^ 59 + 32 * x
  | .sram c u => 2 * 2 ^ 59 + 8 * c * 2 ^ 48 + 8 * u / 32 * 32
  | .wbuf c u => 3 * 2 ^ 59 + c * 2 ^ 48 + 8 * u / 32 * 32
  | .abuf c u => 3 * 2 ^ 59 + c * 2 ^ 48 + 8 * u / 32 * 32
  | .cbuf c u => 3 * 2 ^ 59 + c * 2 ^ 48 + 4 * u / 32 * 32

/-- A soft error (R265, R300, R301): any in an L1 is corrected by dropping the line, and read again from L2; a corrected one
raises MEM.CECNT; an uncorrectable one makes its unit bad and is
logged where it is newly detected. -/
def execSoftError (unit : CheckUnit) (uncorrectable : Bool) (s : State) : Host.Outcome State Fault Refusal :=
  let counted (s : State) : State := s.setReg 0x620 (min (2 ^ 32 - 1) (s.reg 0x620 + 1))
  if !unitPresent s unit then .next s
  else match unit with
  | .l1 core x => .next (counted (s.modCore core (fun c => { c with l1 := mdel c.l1 (x / 4) })))
  | _ =>
  if !uncorrectable then .next (counted s)
  else if s.bad.contains unit then .next s
  else
    let s := markBad s unit
    let log := s.reg 0x621
    .next (s.setReg 0x621 (if bit log 63 then log ||| 2 ^ 62 else 2 ^ 63 + unitLog unit))

end Sys2Proof.Machine
end

