-- ==== Sys2Proof/Machine/Schedule.lean ====
section
/-! DEFINITION. Which step comes next. Every event of the device can come at any point where its condition holds; this
file names one order: events in the order of their clk, each as soon as it is due, words first in a clk. It also holds
what follows from every step without an event of its own: waits that end (R52, R61, R62, R68, R146, R204), parking at
clause headers (R68, R161), and halts (R202). -/
namespace Sys2Proof.Machine

/-! ### What follows a step -/

/-- Entries that waited for room are posted, in order (R326). -/
def postWaiting : Nat → State → Nat → State
  | 0, s, _ => s
  | n + 1, s, core =>
    let c := s.core core
    match c.tqWait, c.tqFree with
    | e :: es, _ :: _ => postWaiting n (postEntry (s.setCore core { c with tqWait := es }) core e) core
    | _, _ => s

/-- A WAITC or a DRAIN whose condition holds (R62, R146): a command whose writes are done ends a DRAIN's wait for it, its
place in its class's order apart. -/
def countWaitOver (c : Core) (i : Issuer) (uid : Nat) : Wait → Bool
  | .waitc cls n => ecOf c i uid cls ≤ n
  | .drain ids => ids.all (fun id => !c.cmds.any (fun k => k.id == id && k.writing))
  | _ => false

/-- The fibres of a team that wait at a SYSCALL word for room that is now there issue the word again (R68). -/
def sysqAgain (s : State) (core : Nat) (t : Team) : Team :=
  let room := (s.core core).tqFree.length
  let here (l : Lane) : BitVec 32 :=
    maskOf (fun i => (t.lane i).wait == some .sysq && (t.lane i).pc == l.pc && (t.lane i).earliest == l.earliest)
  let need (l : Lane) : Nat := match (fetchAt s core t.asid t.code l.pc).toOption.bind rawOfWord with
    | some r => (lanesOf (activeOf t (here l) r)).length
    | none => 0
  { t with lanes := t.lanes.map (fun l => if l.live && !l.parked && l.wait == some .sysq && need l ≤ room then { l with wait := none } else l) }

/-- Fibres that are to park at their next clause header park there. -/
def parkDueNow (c : Core) (slot : Nat) (t : Team) : Team :=
  let inClause := carried c slot
  { t with lanes := (List.range 32).map (fun i =>
      let l := t.lane i
      if l.live && !l.parked && l.parkDue && l.wait.isNone && l.pc == l.hpc && !inClause.getLsbD i then
        { l with parked := true, parkDue := false }
      else l) }

/-- A team after a step: waits that are over end, writes in flight that are due are done. -/
def settleTeam (s : State) (core slot : Nat) (t : Team) : Team :=
  let c := s.core core
  if t.st ≠ .running then t
  else
    let t := { t with pend := inFlight s.now t.pend }
    let t := if t.lanes.any (fun l => l.wait.isSome) then sysqAgain s core (t.resume s.now (countWaitOver c (.team slot) t.uid)) else t
    if t.lanes.any (fun l => l.parkDue) then parkDueNow c slot t else t

/-- A context after a step; its CTRWAIT reads as often as it can (R63). -/
def settleCtx (s : State) (core : Nat) (k : Ctx) : State :=
  let x := (s.core core).ctx k
  let x := { x with pend := inFlight s.now x.pend }
  let lane := match x.lane.wait with
    | some w => if countWaitOver (s.core core) (.ctx k) 0 w then resumeLane s.now x.lane else x.lane
    | none => x.lane
  let s := wakeCtx (s.modCore core (fun c => c.setCtx k { x with lane := lane })) core k
  if suspended (s.core core) k then s else ctrPolls (.ctx core k) s

/-- Fibres that parked while they waited leave the clause of their path, and a clause without fibres its port (R12). -/
def leaveClauses (c : Core) : Core :=
  { c with ports := c.ports.filterMap (fun p =>
      let left := match c.team? p.2.slot with
        | some t => maskOf (fun i => p.2.lanes.getLsbD i && (t.lane i).live && !(t.lane i).parked)
        | none => 0
      if left = 0 then none else some (p.1, { p.2 with lanes := left })) }

/-- A core after a step. -/
def settleCore (s : State) (core : Nat) : State :=
  let s := postWaiting (s.core core).tqWait.length s core
  let s := s.modCore core (judgeHeld s.now)
  let s := s.modCore core (fun c => { c with teams := c.teams.map (fun p => (p.1, settleTeam s core p.1 p.2)) })
  let s := s.modCore core (fun c => (c.teams.filter (fun p => p.2.st == .halted)).foldl (fun c p => c.settleHalt p.1) c)
  let s := arriveCore s core
  let s := startS s core
  let s := settleCtx (settleCtx s core .m) core .s
  let s := s.modCore core leaveClauses
  if idling s core then s else s.modCore core (fun c => { c with residency := s.now, residencyPosted := false })

/-- Operations that end of themselves: a PARK whose paths have stopped, a swap whose die is free (R202, R349). -/
def settleProc (s : State) (p : Proc) : State :=
  match p.kind with
  | .park core slots => if slots.all (stoppedPaths (s.core core)) then endProc s p none else s
  | .swap v => if dieBusy s (swapSlot v) then s else endProc (startSwap s v) p none
  | _ => s

/-! ### The cursor -/

/-- Every place that has a clause open. -/
def openPlaces (s : State) : List Cursor :=
  s.cores.flatMap (fun p =>
    p.2.ports.map (fun x => .port p.1 x.1) ++
      (if p.2.mctx.clause.isSome then [.lane p.1 .m] else []) ++ (if p.2.sctx.clause.isSome then [.lane p.1 .s] else []))

/-- The word that would issue at the cursor, with its clk. -/
def wordAt (s : State) : Option (Nat × Raw) :=
  match openPath s with
  | some p => ((p.clause.words.head?).bind rawOfWord).map (fun r => (issueClk s p r, r))
  | none => none

/-- What orders the words of two places that issue in one clk: their team and PC; none where no path can issue. -/
def standsAt (s : State) : Option (Agent × Nat) :=
  (openPath s).map (fun p => (p.agent, p.clause.hpc + 8 * (p.clause.idx + 1)))

/-- In one clk the lower path of a team issues first (R92, R218). -/
def goesBefore (s : State) (x y : Cursor) : Bool :=
  match standsAt { s with cursor := x }, standsAt { s with cursor := y } with
  | some (a, i), some (b, j) => a == b && i < j
  | _, _ => false

/-- The cursor at the open clause whose next word issues first. -/
def aimCursor (s : State) : State :=
  match (openPlaces s).foldl (fun (a : Option (Nat × Cursor)) x =>
      match wordAt { s with cursor := x }, a with
      | some (k, _), some (j, y) => if k < j || (k == j && goesBefore s x y) then some (k, x) else a
      | some (k, _), none => some (k, x)
      | none, _ => a) none with
  | some (_, x) => { s with cursor := x }
  | none => s

/-- External lines fall with their sources (R348). -/
def fallLines (s : State) : State := { s with lines := s.lines &&& linesNow s }

/-- What follows every step. -/
def settle (s : State) : State :=
  let s := if s.worldFaults = 0 ∧ s.worldRaised = false then
      { s with worldStart := s.now - (s.now - s.worldStart) % 2 ^ 24 } else s
  let s := (s.cores.map (fun p => p.1)).foldl settleCore s
  let s := s.procs.foldl settleProc s
  fallLines (aimCursor s)

/-! ### Events that are due -/

/-- An event with the clk at which it is due. -/
abbrev Due := Nat × Instr

/-- A collective's next phase can begin (R417). -/
def collReady (s : State) (core : Nat) : Bool :=
  match collHead (s.core core) with
  | none => false
  | some k =>
    match k.st, readGroup s core k with
    | .coll phase base, (_, .ok g) =>
      match readCounter s core k g with
      | (_, .ok c) =>
        if (c + 2 ^ 64 - base) % 2 ^ 64 ≥ phase * (g.n - 1) then phase ≥ 3 || !putsWait s core k g
        else (lostPeer s core k g base).isSome
      | _ => true
    | _, (_, .ok g) => !putsWait s core k g
    | _, _ => true

/-- The deliveries of a team's guard slots, at which held commands are judged (R17, R65). -/
def guardDue (s : State) (core : Nat) (p : Nat × Team) : List Due :=
  p.2.pend.filterMap (fun x => match x.dst with
    | .guard _ => if s.now < x.ready ∧ x.ready < never then some (x.ready, .resultDelivery core p.1) else none
    | _ => none)

/-- The events of the engines of a core. -/
def engineDue (s : State) (core : Nat) : List Due :=
  let c := s.core core
  let now (b : Bool) (e : Instr) : List Due := if b then [(s.now, e)] else []
  if c.cmds.isEmpty && c.toAccept.isEmpty then []
  else
    now (c.toAccept.any (canAccept s core)) (.engineAccept core) ++
    (List.range 7).flatMap (fun cls =>
      match nextDone c (fun k => k.cls == cls && !failedCmd k), nextDone c (fun k => k.cls == cls && failedCmd k) with
      | some _, _ => [(s.now, .engineCommandComplete core cls)]
      | none, some _ => [(s.now, .engineCommandFail core cls)]
      | none, none =>
        now (! [2, 3, 4].contains cls && (nextRun s c cls).isSome) (.engineCommandComplete core cls)) ++
    now ((matrixNext c).any (fun k => k.st == .queued)) (.matrixCommandStart core) ++
    now (collReady s core) (.collPhaseAdvance core) ++
    now (c.cmds.any (fun k => k.cls == 5 && k.st == .landed && ordReady s c k)) (.meshPutCounterIncrease core) ++
    (if c.cmds.any (fun k => k.st == .held) then c.teams.flatMap (guardDue s core) else []) ++
    (c.cmds.filter (fun k => k.cls ≥ 8 && resultReady c k)).flatMap (fun k => match k.issuers with
      | [.team slot] => [(s.now, .resultDelivery core slot)]
      | _ => [])

/-- The events of a core's S-lane. -/
def laneDue (s : State) (core : Nat) : List Due :=
  let c := s.core core
  let ev (k : Ctx) : List Due :=
    let x := c.ctx k
    (if eventDue s core k then [(s.now, .eventTake core k)] else []) ++
      (if x.lane.live && bit x.imask.toNat 1 && x.timercmp.toNat > s.timer then
         [(s.now + (x.timercmp.toNat - s.timer), .timerCompare core k)] else [])
  if !c.mctx.lane.live && !c.sctx.lane.live then []
  else
    ev .m ++ ev .s ++
    (match ctxTurn s core with
     | some k =>
       let t := asTeam c k
       let clk := max (mget c.portAt 0 8) (opening s core 0 t ⟨(t.lane 0).pc, (t.lane 0).hpc, 1⟩).2
       if clk ≥ never then [] else [(clk, .sLaneClauseTurn core)]
     | none => [])

/-- The events of a core's teams and copses. -/
def teamDue (s : State) (core : Nat) : List Due :=
  let c := s.core core
  if c.teams.isEmpty && c.copses.isEmpty && c.faults.isEmpty then []
  else
    (List.range 4).filterMap (fun q => (choice s core q).map (fun x => (x.clk, .teamChoice core q))) ++
    c.teams.filterMap (fun p => if p.2.st = .running ∧ ctrReady s (.team core p.1) = true then some (s.now, .ctrwaitSatisfied core p.1) else none) ++
    c.teams.filterMap (fun p =>
      if p.2.st = .ending ∧ execSlotReuseFenceClose.ecAll c p.1 p.2.uid = 0 then some (s.now, .slotReuseFenceClose core p.1) else none) ++
    c.copses.filterMap (fun cp => if copseOver c cp && copseDrained c cp then some (retireClk c cp s.now, .copseRetirement core cp.id) else none) ++
    (match faultDue s core with
     | some k => [(k, .faultEntryPost core)]
     | none => []) ++
    (if idling s core && !c.residencyPosted && !c.tqFree.isEmpty then [(c.residency + 2 ^ 20, .residencyExpiry core)] else [])

/-- The links of a core's router at which packets wait send them (R397). -/
def meshDue (s : State) (core : Nat) : List Due :=
  (waitingLinks (s.core core)).map (fun b => (s.now, .holdingBufferRelease core ⟨b.1, b.2⟩))

/-- A placement pass of a cluster would place a unit (R370). -/
def passPlaces (s : State) (agent cluster : Nat) : List Nat → Bool
  | [] => false
  | l :: ls =>
    let blocked := match headLaunch s with
      | some h => l != h && headAges s && isCandidate s cluster h
      | none => false
    !blocked && ((tryUnit s agent cluster l).2 || passPlaces s agent cluster ls)

/-- The events of launches, grafts and the token pool. -/
def launchDue (s : State) : List Due :=
  let order := launchOrder s
  (if order.isEmpty then []
   else
     (List.range 32).filterMap (fun cl => match agentCoreOf s cl with
       | some agent => if passPlaces s agent cl order then some (s.now, .placementPass cl) else none
       | none => none) ++
     (match headLaunch s with
      | some l =>
        let limit := s.reg (0x708 + recPrio s l)
        if limit = 0 ∨ s.aged = some l then []
        else [(max s.now (s.now + (2250 * limit - (s.timer - recGet s l 184 8))), .headAgeExpiry)]
      | none => []) ++
     (order.filter (fun l => !s.slackDone.contains (l, recNext s l))).map (fun l =>
       (max s.now (mget s.unitSince 0 l + 2250 * s.reg 0x705), .preferredDieSlackExpiry))) ++
  s.grafts.map (fun g => if g.partner.isSome then (s.now, .graftDecision g.lseq)
    else (max s.now (g.at_ + usClk 20), .graftTimeout g.lseq)) ++
  (if tokenReady s then [(s.now, .tokenGrant)] else []) ++
  (s.tokens.filter (fun r => !r.flagged)).map (fun r => (max s.now (r.since + usClk 100), .tokenWaitExpiry))

/-- A landed message whose PREV message is over (R409). -/
def messageReady (s : State) (m : RxMsg) : Bool :=
  let pkey : MsgKey := { m.key with msg := m.head.pmsg }
  m.st == .landed && (!m.head.prev || belowLow s pkey || (match s.rxOf pkey with
    | some p => p.settled
    | none => false))

/-- The events of the Ethernet ports. -/
def fabricDue (s : State) : List Due :=
  (s.rx.filter (messageReady s)).map (fun m => (s.now, .messageComplete m.key)) ++
  s.holes.map (fun h => match h.requested with
    | some r => (max s.now (r + usClk (s.ethPos h.port 9)), .holeRetryExpiry h.port h.key h.psn)
    | none =>
      let b := bucketOf s h.port h.key.src
      (if b.tokens > 0 then s.now else max s.now ((b.at_ + 9 * s.ethPos h.port 5 + 3) / 4), .rreqSend h.port h.key.src)) ++
  s.tx.map (fun m => (max s.now (m.sentAt + usClk (s.ethPos m.port 8)), .retxTimeout m.key)) ++
  (s.rx.filter (fun m => s.rx.all (fun x => !(x.key.src == m.key.src && x.key.flow == m.key.flow) || (x.settled && x.doneAt ≤ m.doneAt)))).map
    (fun m => (max s.now (m.doneAt + 36000000), .flowRecordExpiry m.key.src m.key.flow)) ++
  (s.egress.filter (fun e => s.portOn e.port)).map (fun e => (s.now, .egressLastByteLeft e.port))

/-- The events of memory, of the system unit and of class 5 operations. -/
def systemDue (s : State) : List Due :=
  (List.range 8).filterMap (fun i =>
    if (linesNow s).getLsbD i && !s.lines.getLsbD i then some (s.now, .externalLineRaise i) else none) ++
  (List.range 8).filterMap (fun st => if (stackQueue s st).isEmpty then none else some (s.now, .sgemvStart st)) ++
  (if s.worldFaults ≠ 0 ∨ s.worldRaised = true then [(max s.now (s.worldStart + 2 ^ 24), .worldPeriodEnd)] else []) ++
  s.procs.filterMap (fun p => match p.kind with
    | .tlbinv true _ _ _ => some (s.now, .tlbinvComplete p.id)
    | .ctxsv core slot whole _ _ =>
      if saveReady (s.core core) (if whole then copseSlots (s.core core) slot else [slot]) then some (s.now, .ctxsvComplete p.id)
      else none
    | _ => none) ++
  s.swaps.filterMap (fun w =>
    if w.dirIn || (clusterCores w.cluster).all (fun n => saveReady (s.core n) ((s.core n).teams.map (fun t => t.1))) then
      some (s.now, .swapDone w.slot)
    else none) ++
  (if s.flashOp.isSome then [(s.now, .flashTransferDone)] else []) ++
  s.props.map (fun p => (s.now, .writePropagation p.die)) ++
  (if s.nt.isEmpty then [] else [(s.now + 1, .ntStoreComplete)])

/-- The event that is due first; the boot chain before all others (R339). -/
def due (s : State) : Option Due :=
  if !s.booted then some (s.now, .powerOnReset)
  else
    (s.cores.flatMap (fun p => engineDue s p.1 ++ laneDue s p.1 ++ teamDue s p.1 ++ meshDue s p.1) ++ launchDue s ++ fabricDue s ++ systemDue s).foldl
      (fun (a : Option Due) e => match a with
        | none => some e
        | some b => if e.1 < b.1 then some e else a) none

/-! ### The turn -/

/-- What a step does: run a word or an event, let the clock pass to a clk, or nothing, where nothing is due. -/
inductive Turn where
  | run (i : Instr)
  | pass (clk : Nat)
  | rest
  deriving DecidableEq, Repr

/-- The event that is due before a clk, or the passing of the clock to it. -/
def eventBefore (s : State) (clk : Nat) (other : Turn) : Turn :=
  match due s with
  | some (k, e) => if k < clk then (if k ≤ s.now then .run e else .pass k) else other
  | none => other

/-- The freed port of the cursor's quadrant whose turn comes no later than a clk: in one clk the path that it takes up may be
the lower one, and then issues first (R216, R218). -/
def refillBefore (s : State) (clk : Nat) : Option Turn :=
  match s.cursor with
  | .port core p => ((choice s core (p / 2)).filter (fun x => x.clk ≤ clk)).map (fun x =>
      if x.clk ≤ s.now then .run (.teamChoice core (p / 2)) else .pass x.clk)
  | .lane _ _ => none

/-- What comes next: an event put on the agenda, else the word at the cursor unless an event is due before it, or a port of
its quadrant is to be filled no later. -/
def turn (s : State) : Turn :=
  match s.agenda with
  | i :: _ => .run i
  | [] =>
    match wordAt s with
    | some (k, r) =>
      match instrOf r with
      | some i =>
        if k ≤ s.now then (refillBefore s k).getD (.run i)
        else eventBefore s k ((refillBefore s k).getD (if k < never then .run i else .rest))
      | none => .rest
    | none => eventBefore s (2 ^ 70) .rest

end Sys2Proof.Machine
end

