-- ==== Sys2Proof/Machine/Dispatch.lean ====
section
/-! DEFINITION. One arm for every row of the opcode table: a direct call of its meaning. -/
namespace Sys2Proof.Machine

def exec (i : Instr) (s : State) : Host.Outcome State Fault Refusal :=
  match i with
  | .nop w => Sys2Proof.Machine.execNop w s
  | .bra w => Sys2Proof.Machine.execBra w s
  | .bru w => Sys2Proof.Machine.execBru w s
  | .bruR w => Sys2Proof.Machine.execBruR w s
  | .jmpi w => Sys2Proof.Machine.execJmpi w s
  | .callW w => Sys2Proof.Machine.execCall w s
  | .ret w => Sys2Proof.Machine.execRet w s
  | .loopW w => Sys2Proof.Machine.execLoop w s
  | .fork w => Sys2Proof.Machine.execFork w s
  | .fend w => Sys2Proof.Machine.execFend w s
  | .exitW w => Sys2Proof.Machine.execExit w s
  | .regionW w => Sys2Proof.Machine.execRegion w s
  | .regionProd w => Sys2Proof.Machine.execRegionProd w s
  | .regionCons w => Sys2Proof.Machine.execRegionCons w s
  | .regionEnd w => Sys2Proof.Machine.execRegionEnd w s
  | .voteAny w => Sys2Proof.Machine.execVoteAny w s
  | .voteAll w => Sys2Proof.Machine.execVoteAll w s
  | .voteUni w => Sys2Proof.Machine.execVoteUni w s
  | .voteBallot w => Sys2Proof.Machine.execVoteBallot w s
  | .plop w => Sys2Proof.Machine.execPlop w s
  | .signW w => Sys2Proof.Machine.execSign w s
  | .barSync w => Sys2Proof.Machine.execBarSync w s
  | .barArrive w => Sys2Proof.Machine.execBarArrive w s
  | .waitc w => Sys2Proof.Machine.execWaitc w s
  | .ctrwait w => Sys2Proof.Machine.execCtrwait w s
  | .gset w => Sys2Proof.Machine.execGset w s
  | .gresAny w => Sys2Proof.Machine.execGresAny w s
  | .gresAll w => Sys2Proof.Machine.execGresAll w s
  | .gresT w => Sys2Proof.Machine.execGresT w s
  | .gresF w => Sys2Proof.Machine.execGresF w s
  | .yield w => Sys2Proof.Machine.execYield w s
  | .syscall w => Sys2Proof.Machine.execSyscall w s
  | .brk w => Sys2Proof.Machine.execBrk w s
  | .tagq w => Sys2Proof.Machine.execTagq w s
  | .deadW w => Sys2Proof.Machine.execDead w s
  | .iadd w => Sys2Proof.Machine.execIadd w s
  | .isub w => Sys2Proof.Machine.execIsub w s
  | .iaddc w => Sys2Proof.Machine.execIaddc w s
  | .isubc w => Sys2Proof.Machine.execIsubc w s
  | .imul w => Sys2Proof.Machine.execImul w s
  | .imulh w => Sys2Proof.Machine.execImulh w s
  | .imad w => Sys2Proof.Machine.execImad w s
  | .iaddmin w => Sys2Proof.Machine.execIaddmin w s
  | .imin w => Sys2Proof.Machine.execImin w s
  | .imax w => Sys2Proof.Machine.execImax w s
  | .iabsd w => Sys2Proof.Machine.execIabsd w s
  | .icmp w => Sys2Proof.Machine.execIcmp w s
  | .icmpMask w => Sys2Proof.Machine.execIcmpMask w s
  | .isel w => Sys2Proof.Machine.execIsel w s
  | .andW w => Sys2Proof.Machine.execAnd w s
  | .orW w => Sys2Proof.Machine.execOr w s
  | .xorW w => Sys2Proof.Machine.execXor w s
  | .shl w => Sys2Proof.Machine.execShl w s
  | .shr w => Sys2Proof.Machine.execShr w s
  | .shra w => Sys2Proof.Machine.execShra w s
  | .bfx w => Sys2Proof.Machine.execBfx w s
  | .bfi w => Sys2Proof.Machine.execBfi w s
  | .popc w => Sys2Proof.Machine.execPopc w s
  | .clz w => Sys2Proof.Machine.execClz w s
  | .movW w => Sys2Proof.Machine.execMov w s
  | .movi w => Sys2Proof.Machine.execMovi w s
  | .moviHi w => Sys2Proof.Machine.execMoviHi w s
  | .moviLane w => Sys2Proof.Machine.execMoviLane w s
  | .mkaddr w => Sys2Proof.Machine.execMkaddr w s
  | .mkaddrOff w => Sys2Proof.Machine.execMkaddrOff w s
  | .lshiftUp w => Sys2Proof.Machine.execLshiftUp w s
  | .lshiftDn w => Sys2Proof.Machine.execLshiftDn w s
  | .lperm w => Sys2Proof.Machine.execLperm w s
  | .lbcast w => Sys2Proof.Machine.execLbcast w s
  | .lbcastR w => Sys2Proof.Machine.execLbcastR w s
  | .lreduce w => Sys2Proof.Machine.execLreduce w s
  | .lscan w => Sys2Proof.Machine.execLscan w s
  | .vmerge w => Sys2Proof.Machine.execVmerge w s
  | .vmergekv w => Sys2Proof.Machine.execVmergekv w s
  | .fadd w => Sys2Proof.Machine.execFadd w s
  | .fsub w => Sys2Proof.Machine.execFsub w s
  | .fmul w => Sys2Proof.Machine.execFmul w s
  | .ffma w => Sys2Proof.Machine.execFfma w s
  | .fdiv w => Sys2Proof.Machine.execFdiv w s
  | .fmin w => Sys2Proof.Machine.execFmin w s
  | .fmax w => Sys2Proof.Machine.execFmax w s
  | .fcmp w => Sys2Proof.Machine.execFcmp w s
  | .fcmpMask w => Sys2Proof.Machine.execFcmpMask w s
  | .frcp w => Sys2Proof.Machine.execFrcp w s
  | .frsq w => Sys2Proof.Machine.execFrsq w s
  | .fsqrt w => Sys2Proof.Machine.execFsqrt w s
  | .fexp2 w => Sys2Proof.Machine.execFexp2 w s
  | .flog2 w => Sys2Proof.Machine.execFlog2 w s
  | .fsincos w => Sys2Proof.Machine.execFsincos w s
  | .fclass w => Sys2Proof.Machine.execFclass w s
  | .frnd w => Sys2Proof.Machine.execFrnd w s
  | .fscale w => Sys2Proof.Machine.execFscale w s
  | .fcvt w => Sys2Proof.Machine.execFcvt w s
  | .icvt w => Sys2Proof.Machine.execIcvt w s
  | .qcvt w => Sys2Proof.Machine.execQcvt w s
  | .qcvtFix w => Sys2Proof.Machine.execQcvtFix w s
  | .dqcvt w => Sys2Proof.Machine.execDqcvt w s
  | .scadj w => Sys2Proof.Machine.execScadj w s
  | .scadjNorm w => Sys2Proof.Machine.execScadjNorm w s
  | .fdot w => Sys2Proof.Machine.execFdot w s
  | .fsum w => Sys2Proof.Machine.execFsum w s
  | .ld w => Sys2Proof.Machine.execLd w s
  | .ldu w => Sys2Proof.Machine.execLdu w s
  | .st w => Sys2Proof.Machine.execSt w s
  | .stu w => Sys2Proof.Machine.execStu w s
  | .stm w => Sys2Proof.Machine.execStm w s
  | .lds w => Sys2Proof.Machine.execLds w s
  | .sts w => Sys2Proof.Machine.execSts w s
  | .atomAdd w => Sys2Proof.Machine.execAtomAdd w s
  | .atomMin w => Sys2Proof.Machine.execAtomMin w s
  | .atomMax w => Sys2Proof.Machine.execAtomMax w s
  | .atomAnd w => Sys2Proof.Machine.execAtomAnd w s
  | .atomOr w => Sys2Proof.Machine.execAtomOr w s
  | .atomXor w => Sys2Proof.Machine.execAtomXor w s
  | .atomExch w => Sys2Proof.Machine.execAtomExch w s
  | .atomIncw w => Sys2Proof.Machine.execAtomIncw w s
  | .atomFadd w => Sys2Proof.Machine.execAtomFadd w s
  | .atomFmin w => Sys2Proof.Machine.execAtomFmin w s
  | .atomFmax w => Sys2Proof.Machine.execAtomFmax w s
  | .cas w => Sys2Proof.Machine.execCas w s
  | .fenceAcq w => Sys2Proof.Machine.execFenceAcq w s
  | .fenceRel w => Sys2Proof.Machine.execFenceRel w s
  | .fenceAr w => Sys2Proof.Machine.execFenceAr w s
  | .put w => Sys2Proof.Machine.execPut w s
  | .putr w => Sys2Proof.Machine.execPutr w s
  | .drainW w => Sys2Proof.Machine.execDrainW w s
  | .drainA w => Sys2Proof.Machine.execDrainA w s
  | .drainC w => Sys2Proof.Machine.execDrainC w s
  | .drainK w => Sys2Proof.Machine.execDrainK w s
  | .drainNt w => Sys2Proof.Machine.execDrainNt w s
  | .prefL1 w => Sys2Proof.Machine.execPrefL1 w s
  | .prefL2 w => Sys2Proof.Machine.execPrefL2 w s
  | .cmaintClean w => Sys2Proof.Machine.execCmaintClean w s
  | .cmaintInv w => Sys2Proof.Machine.execCmaintInv w s
  | .cmaintCinv w => Sys2Proof.Machine.execCmaintCinv w s
  | .cmaintZero w => Sys2Proof.Machine.execCmaintZero w s
  | .probe w => Sys2Proof.Machine.execProbe w s
  | .mma w => Sys2Proof.Machine.execMma w s
  | .mjob w => Sys2Proof.Machine.execMjob w s
  | .mperm w => Sys2Proof.Machine.execMperm w s
  | .sgemv w => Sys2Proof.Machine.execSgemv w s
  | .accrd w => Sys2Proof.Machine.execAccrd w s
  | .accwr w => Sys2Proof.Machine.execAccwr w s
  | .accz w => Sys2Proof.Machine.execAccz w s
  | .epld w => Sys2Proof.Machine.execEpld w s
  | .mdrain w => Sys2Proof.Machine.execMdrain w s
  | .dcopy w => Sys2Proof.Machine.execDcopy w s
  | .gather w => Sys2Proof.Machine.execGather w s
  | .scatter w => Sys2Proof.Machine.execScatter w s
  | .rowcopy w => Sys2Proof.Machine.execRowcopy w s
  | .rowcopyInit w => Sys2Proof.Machine.execRowcopyInit w s
  | .collSum w => Sys2Proof.Machine.execCollSum w s
  | .collMin w => Sys2Proof.Machine.execCollMin w s
  | .collMax w => Sys2Proof.Machine.execCollMax w s
  | .collNsum w => Sys2Proof.Machine.execCollNsum w s
  | .collGath w => Sys2Proof.Machine.execCollGath w s
  | .collBcast w => Sys2Proof.Machine.execCollBcast w s
  | .collRsum w => Sys2Proof.Machine.execCollRsum w s
  | .sread w => Sys2Proof.Machine.execSread w s
  | .estat w => Sys2Proof.Machine.execEstat w s
  | .sysr w => Sys2Proof.Machine.execSysr w s
  | .sysw w => Sys2Proof.Machine.execSysw w s
  | .syswImm w => Sys2Proof.Machine.execSyswImm w s
  | .syswSet w => Sys2Proof.Machine.execSyswSet w s
  | .syswClr w => Sys2Proof.Machine.execSyswClr w s
  | .sret w => Sys2Proof.Machine.execSret w s
  | .tqtake w => Sys2Proof.Machine.execTqtake w s
  | .tqpost w => Sys2Proof.Machine.execTqpost w s
  | .tqpostOom w => Sys2Proof.Machine.execTqpostOom w s
  | .replay w => Sys2Proof.Machine.execReplay w s
  | .replayM w => Sys2Proof.Machine.execReplayM w s
  | .replayDrop w => Sys2Proof.Machine.execReplayDrop w s
  | .tlbinv w => Sys2Proof.Machine.execTlbinv w s
  | .launch w => Sys2Proof.Machine.execLaunch w s
  | .tkclaim w => Sys2Proof.Machine.execTkclaim w s
  | .park w => Sys2Proof.Machine.execPark w s
  | .parkCopse w => Sys2Proof.Machine.execParkCopse w s
  | .unpark w => Sys2Proof.Machine.execUnpark w s
  | .unparkCopse w => Sys2Proof.Machine.execUnparkCopse w s
  | .ctxsv w => Sys2Proof.Machine.execCtxsv w s
  | .ctxsvCopse w => Sys2Proof.Machine.execCtxsvCopse w s
  | .ctxld w => Sys2Proof.Machine.execCtxld w s
  | .ctxldCopse w => Sys2Proof.Machine.execCtxldCopse w s
  | .wfi w => Sys2Proof.Machine.execWfi w s
  | .tokenTake w => Sys2Proof.Machine.execTokenTake w s
  | .tokenTry w => Sys2Proof.Machine.execTokenTry w s
  | .tokenGive w => Sys2Proof.Machine.execTokenGive w s
  | .pairW w => Sys2Proof.Machine.execPair w s
  | .teamChoice core quad => Sys2Proof.Machine.execTeamChoice core quad s
  | .sLaneClauseTurn core => Sys2Proof.Machine.execSLaneClauseTurn core s
  | .tlbinvComplete id => Sys2Proof.Machine.execTlbinvComplete id s
  | .ctxsvComplete id => Sys2Proof.Machine.execCtxsvComplete id s
  | .swapDone slot => Sys2Proof.Machine.execSwapDone slot s
  | .egressLastByteLeft port => Sys2Proof.Machine.execEgressLastByteLeft port s
  | .resultDelivery core slot => Sys2Proof.Machine.execResultDelivery core slot s
  | .ctrwaitSatisfied core slot => Sys2Proof.Machine.execCtrwaitSatisfied core slot s
  | .engineAccept core => Sys2Proof.Machine.execEngineAccept core s
  | .matrixCommandStart core => Sys2Proof.Machine.execMatrixCommandStart core s
  | .sgemvStart stack => Sys2Proof.Machine.execSgemvStart stack s
  | .engineCommandComplete core cls => Sys2Proof.Machine.execEngineCommandComplete core cls s
  | .engineCommandFail core cls => Sys2Proof.Machine.execEngineCommandFail core cls s
  | .meshPutCounterIncrease core => Sys2Proof.Machine.execMeshPutCounterIncrease core s
  | .collPhaseAdvance core => Sys2Proof.Machine.execCollPhaseAdvance core s
  | .faultEntryPost core => Sys2Proof.Machine.execFaultEntryPost core s
  | .residencyExpiry core => Sys2Proof.Machine.execResidencyExpiry core s
  | .slotReuseFenceClose core slot => Sys2Proof.Machine.execSlotReuseFenceClose core slot s
  | .copseRetirement core copse => Sys2Proof.Machine.execCopseRetirement core copse s
  | .placementPass cluster => Sys2Proof.Machine.execPlacementPass cluster s
  | .headAgeExpiry => Sys2Proof.Machine.execHeadAgeExpiry s
  | .preferredDieSlackExpiry => Sys2Proof.Machine.execPreferredDieSlackExpiry s
  | .tokenGrant => Sys2Proof.Machine.execTokenGrant s
  | .tokenWaitExpiry => Sys2Proof.Machine.execTokenWaitExpiry s
  | .graftDecision lseq => Sys2Proof.Machine.execGraftDecision lseq s
  | .graftTimeout lseq => Sys2Proof.Machine.execGraftTimeout lseq s
  | .eventTake core ctx => Sys2Proof.Machine.execEventTake core ctx s
  | .timerCompare core ctx => Sys2Proof.Machine.execTimerCompare core ctx s
  | .externalLineRaise line => Sys2Proof.Machine.execExternalLineRaise line s
  | .tamperAlarm => Sys2Proof.Machine.execTamperAlarm s
  | .glitchAlarm => Sys2Proof.Machine.execGlitchAlarm s
  | .worldPeriodEnd => Sys2Proof.Machine.execWorldPeriodEnd s
  | .alarmReset => Sys2Proof.Machine.execAlarmReset s
  | .powerOnReset => Sys2Proof.Machine.execPowerOnReset s
  | .fullReset => Sys2Proof.Machine.execFullReset s
  | .hostDoorbellWrite value => Sys2Proof.Machine.execHostDoorbellWrite value s
  | .hostBar1Write offset bytes => Sys2Proof.Machine.execHostBar1Write offset bytes s
  | .hostHotReset => Sys2Proof.Machine.execHostHotReset s
  | .hostLinkDown => Sys2Proof.Machine.execHostLinkDown s
  | .nvmeFatal port => Sys2Proof.Machine.execNvmeFatal port s
  | .ethLinkDown port => Sys2Proof.Machine.execEthLinkDown port s
  | .ethLinkUp port => Sys2Proof.Machine.execEthLinkUp port s
  | .ethRetryGiveUp port => Sys2Proof.Machine.execEthRetryGiveUp port s
  | .remitDataReceive port pkt => Sys2Proof.Machine.execRemitDataReceive port pkt s
  | .messageComplete key => Sys2Proof.Machine.execMessageComplete key s
  | .trimmedHeaderReceive port pkt => Sys2Proof.Machine.execTrimmedHeaderReceive port pkt s
  | .rreqSend port src => Sys2Proof.Machine.execRreqSend port src s
  | .holeRetryExpiry port key psn => Sys2Proof.Machine.execHoleRetryExpiry port key psn s
  | .rreqReceive port pkt => Sys2Proof.Machine.execRreqReceive port pkt s
  | .ackReceive port pkt => Sys2Proof.Machine.execAckReceive port pkt s
  | .refuseReceive port pkt => Sys2Proof.Machine.execRefuseReceive port pkt s
  | .retxTimeout key => Sys2Proof.Machine.execRetxTimeout key s
  | .flowRecordExpiry src flow => Sys2Proof.Machine.execFlowRecordExpiry src flow s
  | .transitForward port pkt => Sys2Proof.Machine.execTransitForward port pkt s
  | .multicastForward router pkt => Sys2Proof.Machine.execMulticastForward router pkt s
  | .writePropagation die => Sys2Proof.Machine.execWritePropagation die s
  | .lineEviction die line => Sys2Proof.Machine.execLineEviction die line s
  | .spdmGetVersion via request => Sys2Proof.Machine.execSpdmGetVersion via request s
  | .spdmGetCapabilities via request => Sys2Proof.Machine.execSpdmGetCapabilities via request s
  | .spdmNegotiateAlgorithms via request => Sys2Proof.Machine.execSpdmNegotiateAlgorithms via request s
  | .spdmGetDigests via request => Sys2Proof.Machine.execSpdmGetDigests via request s
  | .spdmGetCertificate via request => Sys2Proof.Machine.execSpdmGetCertificate via request s
  | .spdmChallenge via request => Sys2Proof.Machine.execSpdmChallenge via request s
  | .spdmGetMeasurements via request => Sys2Proof.Machine.execSpdmGetMeasurements via request s
  | .spdmUnsupportedRequest via request => Sys2Proof.Machine.execSpdmUnsupportedRequest via request s
  | .sSpcWrite core value => Sys2Proof.Machine.execSSpcWrite core value s
  | .sCodeWrite core ctx value => Sys2Proof.Machine.execSCodeWrite core ctx value s
  | .secCworldWrite n value => Sys2Proof.Machine.execSecCworldWrite n value s
  | .secRgnWrite n value => Sys2Proof.Machine.execSecRgnWrite n value s
  | .secApolWrite value => Sys2Proof.Machine.execSecApolWrite value s
  | .secAlogWrite value => Sys2Proof.Machine.execSecAlogWrite value s
  | .secSvnWrite value => Sys2Proof.Machine.execSecSvnWrite value s
  | .swapOut value => Sys2Proof.Machine.execSwapOut value s
  | .swapIn value => Sys2Proof.Machine.execSwapIn value s
  | .bootExtend core value => Sys2Proof.Machine.execBootExtend core value s
  | .flashRead core value => Sys2Proof.Machine.execFlashRead core value s
  | .flashProgram core value => Sys2Proof.Machine.execFlashProgram core value s
  | .flashErase value => Sys2Proof.Machine.execFlashErase value s
  | .flashTransferDone => Sys2Proof.Machine.execFlashTransferDone s
  | .powerAdmitWrite core ctx value => Sys2Proof.Machine.execPowerAdmitWrite core ctx value s
  | .powerCapWrite value => Sys2Proof.Machine.execPowerCapWrite value s
  | .memProfWrite n value => Sys2Proof.Machine.execMemProfWrite n value s
  | .memUelogWrite value => Sys2Proof.Machine.execMemUelogWrite value s
  | .systemRegisterWrite agent number value => Sys2Proof.Machine.execSystemRegisterWrite agent number value s
  | .ntStoreComplete => Sys2Proof.Machine.execNtStoreComplete s
  | .softError unit uncorrectable => Sys2Proof.Machine.execSoftError unit uncorrectable s
  | .hostLinkUp => Sys2Proof.Machine.execHostLinkUp s
  | .holdingBufferRelease router credit => Sys2Proof.Machine.execHoldingBufferRelease router credit s
  | .receivedFrameDrop frame => Sys2Proof.Machine.execReceivedFrameDrop frame s

end Sys2Proof.Machine
end

