-- ==== Sys2Proof/Machine/Fetch.lean ====
section
/-! DEFINITION. A code word placed where the next step takes its word from: the open clause of a fetch port, as
TEAM_CHOICE and S_LANE_CLAUSE_TURN leave it (R9, R12, R218, R420). -/
namespace Sys2Proof.Machine

/-- The header of a clause of one word: the word's class, NM1 = 0, no wait, no stall (Table 01.1). -/
def oneWordHeader (r : Raw) : Word := BitVec.ofNat 64 (((List.range 6).find? (fun k => classOk k r)).getD 0)

/-- The clause of one word at offset 0, for the fibres of a mask. -/
def oneWordClause (w : Word) (lanes : BitVec 32) : Clause :=
  { slot := 0, lanes := lanes, hpc := 0, header := match rawOfWord w with
      | some r => oneWordHeader r
      | none => 0, idx := 0, words := [w] }

/-- A team of M privilege with 32 fibres at offset 0, which can issue at once, and a window of 256 registers. -/
def bareTeam : Team :=
  { newTeam 0 1 1 0 0 2 0 0 .phys 0 256 0 [] with lanes := List.replicate 32 { freeLane with live := true } }

/-- The copse of that team. -/
def bareCopse : Copse :=
  { id := 1, lseq := 0, asid := 0, priv := 2, x := 0, y := 0, z := 0, gx := 1, gy := 1, gz := 1, st := .resident, slots := [0],
    wallot := (0, 0), aallot := (0, 0), callot := (0, 0), sram := (0, 0), gang := none, cv := [], bar := [] }

/-- A core whose team in slot 0 has a word open on fetch port 0. -/
def teamWithWord (w : Word) (c : Core) : Core :=
  { c with teams := mset c.teams 0 bareTeam, copses := [bareCopse], ports := mset c.ports 0 (oneWordClause w (BitVec.allOnes 32)) }

/-- A core whose M context has a word open. -/
def laneWithWord (w : Word) (c : Core) : Core :=
  { c with released := true, mctx := { c.mctx with clause := some (oneWordClause w 1), lane := { freeLane with live := true } } }

/-- The machine with a word open on core 0: for its M context where only an S-lane takes the word, else for a team. -/
def placeWord (s : State) (w : Word) : State :=
  let lane := match rawOfWord w with
    | some r => laneOnly (rawOp r)
    | none => false
  let s := { s with agenda := [], booted := true }
  if lane then { s.modCore 0 (laneWithWord w) with cursor := .lane 0 .m }
  else { s.modCore 0 (teamWithWord w) with cursor := .port 0 0 }

end Sys2Proof.Machine
end

