-- ==== Sys2Proof/Machine/Step.lean ====
section
/-! DEFINITION. One step of the package: the word or event whose turn it is, then what follows every step. -/
namespace Sys2Proof.Machine

/-- One step (Machine/Schedule.lean names the order). -/
def step (s : State) : Host.Outcome State Fault Refusal :=
  match turn s with
  | .run i => thenDo (exec i { s with agenda := s.agenda.drop 1 }) settle
  | .pass clk => .next (settle { s with now := max s.now clk })
  | .rest => .next s

/-- The machine with an instruction word of `nbits` bits placed as the one word of an open clause, its turn next. -/
def State.withFetchWord (s : State) (nbits w : Nat) : State := placeWord s (BitVec.ofNat 64 (w % 2 ^ nbits))

end Sys2Proof.Machine
end

