-- ==== Sys2Proof/Safety.lean ====
section
/-! DEFINITION. What claims about runs are stated in: a step that goes on, a run of steps that all go on, an invariant
that every step keeps, and the canonical form of every sparse part of the state. -/
namespace Sys2Proof.Machine

/-- A machine whose next step is no fault and no refusal. -/
def State.goesOn (s : State) : Prop := ∃ t, step s = .next t

/-- `n` steps, all of which go on, lead from one state to another. -/
inductive Runs : Nat → State → State → Prop where
  | done (s : State) : Runs 0 s s
  | more {n : Nat} {s t u : State} (h : step s = .next t) (r : Runs n t u) : Runs (n + 1) s u

/-- A property that every step keeps. -/
def Keeps (Inv : State → Prop) : Prop := ∀ s t : State, Inv s → step s = .next t → Inv t

/-- Every byte memory of the package, those that shadow slots hold too, is in its canonical form, and the lines of the L2s
stand in rising order. -/
def State.memoriesOk (s : State) : Bool :=
  Memory.wf s.dram && Memory.wf s.wbuf && Memory.wf s.abuf && Memory.wf s.cbuf && Memory.wf s.sram && Memory.wfD 0xFF s.flash &&
    mrising s.l2 &&
    s.shadows.all (fun x => Memory.wf x.2.wbuf && Memory.wf x.2.abuf && Memory.wf x.2.cbuf && Memory.wf x.2.sram)

/-- An external line is pending only while its source stands (R348). -/
def State.linesOk (s : State) : Prop := s.lines &&& ~~~ linesNow s = 0

/-! ### A word that issues and completes -/

/-- What a word of a path knows of its issue, at the clk at which it issues (R16). -/
def Path.iss (p : Path) (s : State) (r : Raw) : Iss := issOf s p r (issueClk s p r)

/-- The team as the word reads it: an early reader of a write in flight sees the old content (R19). -/
def Path.view (p : Path) (s : State) (r : Raw) : Team := staleView p.team p.lanes (p.iss s r).clk

/-- The lane of a register as the word reads it. -/
def Path.src (p : Path) (s : State) (r : Raw) (n i : Nat) : Word := ((p.view s r).reg n).lane i

/-- The word `r` issues next, on path `p`, and none of the causes that come before a word's own effect is met: decode
accepts it for its issuer and its place in the clause (R36, R38), it neither reads nor overtakes a write in flight where
that is checked (R18), and it reads no dead register while CORE.DEADMODE is 1 (R235). -/
structure Ready (s : State) (p : Path) (r : Raw) : Prop where
  path : openPath s = some p
  accepted : issueReject p.team.slane p.team.priv p.team.wsize (p.clause.header.toNat % 8) (p.iss s r).final r = none
  timely : ((s.core (agentCore p.agent)).stallchk || bit p.clause.header.toNat 8) = true → earlyReg p r (p.iss s r).clk = none
  alive : deadOf (p.iss s r) (p.view s r) (valueSrcs r) = none

/-- The registers that the word's DEAD marks make dead (R234). -/
def Path.dead (p : Path) (s : State) (r : Raw) : List Nat := marksOf (p.iss s r) p.team r

/-- The team as a word's own effect finds it: the DEAD marks that take effect have been applied (R234). -/
def Path.marked (p : Path) (s : State) (r : Raw) : Team := killAll (p.dead s r) p.team

/-- The issuing team, or the issuing S-lane context seen as a team, in a later state. -/
def Path.teamIn (p : Path) (t : State) : Team := (t.teamOf p.agent).getD p.team

/-- The byte memories of the package. -/
inductive Mem where
  | dram
  | wbuf
  | abuf
  | cbuf
  | sram
  | flash
  deriving DecidableEq, Repr

/-- One byte of a memory. -/
def State.byte (s : State) (m : Mem) (a : Nat) : Byte :=
  match m with
  | .dram => cget s.dram a
  | .wbuf => cget s.wbuf a
  | .abuf => cget s.abuf a
  | .cbuf => cget s.cbuf a
  | .sram => cget s.sram a
  | .flash => cgetD 0xFF s.flash a

/-- A context without its registers, flags, status words, its path's record and its clause. -/
def SCtx.blank (x : SCtx) : SCtx :=
  { x with regs := [], lane := freeLane, pend := [], flags := 0, estat := [], clause := none }

/-- A core without the team or context that issues, its fetch ports, and the residency counter that every issue restarts
(R224). -/
def Core.blank (c : Core) (a : Agent) : Core :=
  match a with
  | .team _ slot => { c with teams := mdel c.teams slot, ports := [], portAt := [], crossing := [], residency := 0, residencyPosted := false }
  | .ctx _ k => { (c.setCtx k (c.ctx k).blank) with portAt := [], residency := 0, residencyPosted := false }

/-- Nothing but the clock, the issuing team or context, its core's fetch ports and residency counter differs: every byte
of every memory, every cached line, every device register, every other core, every other team and context, and every
queue, copse and command are as before. -/
structure Kept (s t : State) (p : Path) : Prop where
  bytes : ∀ m a, t.byte m a = s.byte m a
  device : { t with now := s.now, tick := s.tick, cores := s.cores } = s
  cores : ∀ c, c ≠ agentCore p.agent → t.core c = s.core c
  core : (t.core (agentCore p.agent)).blank p.agent = (s.core (agentCore p.agent)).blank p.agent

/-- A region without the mark of whether it has been entered (R53). -/
def Region.blank (r : Region) : Region := { r with entered := false }

/-- The word has issued and its fibres have moved on: everything that `Kept` names, each issuing fibre one word further,
each other fibre as it was, no fibre ended, parked or waiting by it; and of the team nothing but program counters,
predicates, vector registers, scale registers, sticky flags, writes in flight and whether a region has been entered differs. -/
structure Went (s t : State) (p : Path) (r : Raw) : Prop where
  kept : Kept s t p
  moved : ∀ i, i < 32 → p.lanes.getLsbD i = true → ((p.teamIn t).lane i).pc = (p.iss s r).pc + 8
  still : ∀ i, i < 32 → p.lanes.getLsbD i = false → (p.teamIn t).lane i = p.team.lane i
  fibres : ∀ i, i < 32 → ((p.teamIn t).lane i).live = (p.team.lane i).live ∧
    ((p.teamIn t).lane i).parked = (p.team.lane i).parked ∧ ((p.teamIn t).lane i).wait = (p.team.lane i).wait
  rest : { p.teamIn t with lanes := p.team.lanes, regs := p.team.regs, pend := p.team.pend, flags := p.team.flags, scale := p.team.scale, region := p.team.region } =
    p.team
  region : (p.teamIn t).region.map Region.blank = p.team.region.map Region.blank

/-- Beside vector registers: predicate `pn` of each active fibre holds `pv`, every other predicate is as before (a write
to p0 is discarded, R42); a sticky flag is set where it was set or an active lane raises it (R104); the scale registers
are as before. -/
structure After (s t : State) (p : Path) (r : Raw) (pn : Nat) (pv : Nat → Bool) (fl : Nat → Nat) : Prop where
  went : Went s t p r
  preds : ∀ i, i < 32 → ∀ k, k < 16 → ((p.teamIn t).lane i).pred.getLsbD k =
    if (p.iss s r).act.getLsbD i = true ∧ k = pn ∧ pn ≠ 0 then pv i else (p.team.lane i).pred.getLsbD k
  flags : ∀ k, k < 7 → (p.teamIn t).flags.getLsbD k =
    (p.team.flags.getLsbD k || (lanesOf (p.iss s r).act).any (fun i => (fl i).testBit k))
  scale : ∀ k, (p.teamIn t).scaleReg k = p.team.scaleReg k

/-- Team `u` follows team `t` by one result of a word: register `n` holds `val` in every active lane, with format `fmt`,
scale link `link` and SHAPE `shp`, and what it held before in every live lane that is not active; the registers that DEAD marks name
are dead; every other register is as before. Where no lane is active nothing is written. On the S-lane a register has no
tag, and a write to s0 is discarded (R42, R77, R78, R229, R234). -/
structure Wrote (t u : Team) (act : BitVec 32) (marks : List Nat) (n fmt link shp : Nat) (val : Nat → Word) : Prop where
  idle : act = 0 → ∀ k, u.reg k = t.reg k
  tag : act ≠ 0 → t.slane = false →
    (u.reg n).fmt = fmt ∧ (u.reg n).link = link ∧ (u.reg n).isDead = false ∧ (u.reg n).shape = shp
  active : (t.slane = true → n ≠ 0) → ∀ i, i < 32 → act.getLsbD i = true → (u.reg n).lane i = val i
  zero : t.slane = true → n = 0 → (u.reg 0).lane 0 = 0
  inactive : n ∉ marks → ∀ i, i < 32 → act.getLsbD i = false → (t.lane i).live = true → (u.reg n).lane i = (t.reg n).lane i
  dead : t.slane = false → ∀ k, k ≠ n → k ∈ marks → (u.reg k).isDead = true
  others : ∀ k, k ≠ n → k ∉ marks → u.reg k = t.reg k

/-- Only DEAD marks have touched the registers. -/
structure RegsKept (t u : Team) (marks : List Nat) : Prop where
  dead : t.slane = false → ∀ k, k ∈ marks → (u.reg k).isDead = true
  others : ∀ k, k ∉ marks → u.reg k = t.reg k

/-- No flags. -/
def noFlags : Nat → Nat := fun _ => 0

/-- The SHAPE of a result whose own rule gives `shp`: 1 uniform, 2 affine, 3 general (Table 10.1). A team's result is compact
only where active(t) holds every live fibre of it and none is parked (R77). -/
def Path.shape (p : Path) (s : State) (r : Raw) (shp : Nat) : Nat :=
  if p.team.slane = false ∧ p.team.liveMask &&& ~~~(p.iss s r).act = 0 ∧ p.team.parkedMask = 0 then shp else 3

/-- Every register of a list is uniform as the word reads it. -/
def Path.allUniform (p : Path) (s : State) (r : Raw) (rs : List Nat) : Bool := rs.all (fun n => ((p.view s r).reg n).isUniform)

/-- Uniform where every register source is (R76, R103). -/
def Path.uniform (p : Path) (s : State) (r : Raw) (rs : List Nat) : Nat := p.shape s r (if p.allUniform s r rs then 1 else 3)

/-- Every lane holds one value. -/
def sameLanes (val : Nat → Word) : Bool := (List.range 32).all (fun i => val i == val 0)

/-- A base and a stride give every lane its value, in a format that admits affine shape (R76). -/
def fitsLine (fmt : Nat) (line : Word × Word) (val : Nat → Word) : Bool :=
  [5, 6, 7, 8, 21].contains fmt && (List.range 32).all (fun i => payLane fmt (.affine line.1 line.2) i == val i)

/-- A row of Table 03.2: always general; uniform where every register source is; or beside that the base and stride of an
affine result. -/
inductive ShapeRow where
  | general
  | uniform
  | line (f : Team → RW → Option (Word × Word))

/-- IADD, ISUB: without SAT, of affine or uniform sources, bases and strides added or subtracted mod 2^w (Table 03.2). -/
def sumRow (minus : Bool) : ShapeRow := .line fun v w =>
  match lineOf (v.reg w.va.toNat), bLine v w false with
  | some (a, sa), some (b, sb) =>
    if bitOf w.md 9 then none
    else some (lowElem w.ty.toNat (if minus then a - b else a + b), lowElem w.ty.toNat (if minus then sa - sb else sa + sb))
  | _, _ => none

/-- IMUL, SHL: without SAT, of affine A and uniform B, base and stride multiplied by B, or by 2^B, mod 2^w (Table 03.2). -/
def productRow (shift : Bool) : ShapeRow := .line fun v w =>
  match lineOf (v.reg w.va.toNat), bLine v w shift with
  | some (a, sa), some (b, _) =>
    let k : Word := if shift then BitVec.ofNat 64 (2 ^ min (sub b (fmtBits w.ty.toNat) 0) 128) else lowElem w.ty.toNat b
    if bitOf w.md 9 = true ∨ (bitOf w.md 10 = false ∧ (v.reg w.vb.toNat).isUniform = false) then none
    else some (lowElem w.ty.toNat (a * k), lowElem w.ty.toNat (sa * k))
  | _, _ => none

/-- The SHAPE that a row of Table 03.2 gives for the sources `rs` and the result's format and lanes: affine only where base
and stride stand for every lane's value, else general (R76, R77, R232). -/
def Path.rowShape (p : Path) (s : State) (r : Raw) (w : RW) (rs : List Nat) (row : ShapeRow) (fmt : Nat) (val : Nat → Word) : Nat :=
  match row with
  | .general => 3
  | .uniform => p.uniform s r rs
  | .line f =>
    p.shape s r (if p.allUniform s r rs then 1
      else match f (p.view s r) w with
        | some x => if fitsLine fmt x val then 2 else 3
        | none => 3)

/-- The SHAPE that MOV gives its result: the source's where that fits the result's format, uniform for a dead source copied
with TYPE 31 (Table 03.2, R89). -/
def Path.movShape (p : Path) (s : State) (r : Raw) (va ty : Nat) : Nat :=
  let x := (p.view s r).reg va
  p.shape s r (match x.pay with
    | .uniform _ => 1
    | .dead => if ty = 31 then 1 else 3
    | .affine b st =>
      if (ty = 31 ∨ fmtBits ty = fmtBits x.fmt) ∧ fitsLine (if ty = 31 then x.fmt else ty) (b, st) x.lane = true then 2 else 3
    | .general _ => 3)

/-- The instruction completes with one register as its result, and the sticky flags its lanes raise. -/
def Gives (i : Instr) (s : State) (p : Path) (r : Raw) (n fmt link shp : Nat) (val : Nat → Word) (fl : Nat → Nat) : Prop :=
  ∃ t, exec i s = .next t ∧ After s t p r 0 (fun _ => false) fl ∧
    Wrote p.team (p.teamIn t) (p.iss s r).act (p.dead s r) n fmt link shp val

/-- The instruction completes with one predicate as its result. -/
def Tests (i : Instr) (s : State) (p : Path) (r : Raw) (n : Nat) (val : Nat → Bool) (fl : Nat → Nat) : Prop :=
  ∃ t, exec i s = .next t ∧ After s t p r n val fl ∧ RegsKept p.team (p.teamIn t) (p.dead s r)

/-! ### Element-wise words -/

/-- Sub-element `j` of source B in lane `i`: the register's, or the immediate that BIMM selects (R73). -/
def Path.elemB (p : Path) (s : State) (r : Raw) (w : RW) (shift : Bool) (i j : Nat) : Nat :=
  let b := fmtBits w.ty.toNat
  if bitOf w.md 10 then (if shift then w.vb.toNat else immElem (fmtSigned w.ty.toNat) b w.vb.toNat) % 2 ^ b
  else sub (p.src s r w.vb.toNat i) b j

/-- A two-source element-wise word of opcode `op`: whenever it is ready and its sources are accepted for its TYPE (R74), with
no scale link where R75 forbids one, it completes; its result has the format `rt` of the operands', the
shape of its row of Table 03.2 and in sub-element `j` of each active lane the value `f` of the sources' sub-elements, and no
flag is raised. -/
def Elementwise2 (mk : RW → Instr) (op : Nat) (free links shift : Bool) (row : ShapeRow) (rt : Nat → Nat)
    (f : RW → Nat → Nat → Nat) : Prop :=
  ∀ (s : State) (p : Path) (w : RW), Ready s p (.r op w) → typeOk (p.view s (.r op w)) (abRegs w) w.ty.toNat free = true →
    (links = true → linksNone (p.view s (.r op w)) (abRegs w) = true) →
    let fmt := rt (resultFmt (p.view s (.r op w)) (abRegs w) w.ty.toNat)
    ∃ val : Nat → Word,
      Gives (mk w) s p (.r op w) w.vd.toNat fmt 0 (p.rowShape s (.r op w) w (abRegs w) row fmt val) val noFlags ∧
      ∀ i j, j < 64 / fmtBits w.ty.toNat → sub (val i) (fmtBits w.ty.toNat) j =
        f w (sub (p.src s (.r op w) w.va.toNat i) (fmtBits w.ty.toNat) j) (p.elemB s (.r op w) w shift i j)

/-- A three-source element-wise word likewise. -/
def Elementwise3 (mk : RW → Instr) (op : Nat) (free links : Bool) (f : RW → Nat → Nat → Nat → Nat) : Prop :=
  ∀ (s : State) (p : Path) (w : RW), Ready s p (.r op w) →
    typeOk (p.view s (.r op w)) (abRegs w ++ [w.vc.toNat]) w.ty.toNat free = true →
    (links = true → linksNone (p.view s (.r op w)) (abRegs w ++ [w.vc.toNat]) = true) →
    ∃ val : Nat → Word,
      Gives (mk w) s p (.r op w) w.vd.toNat w.ty.toNat 0 (p.uniform s (.r op w) (abRegs w ++ [w.vc.toNat])) val noFlags ∧
      ∀ i j, j < 64 / fmtBits w.ty.toNat → sub (val i) (fmtBits w.ty.toNat) j =
        f w (sub (p.src s (.r op w) w.va.toNat i) (fmtBits w.ty.toNat) j) (p.elemB s (.r op w) w false i j)
          (sub (p.src s (.r op w) w.vc.toNat i) (fmtBits w.ty.toNat) j)

/-- A sub-element of a word's TYPE as an exact integer. -/
def rwInt (w : RW) (x : Nat) : Int := elemInt (fmtSigned w.ty.toNat) (fmtBits w.ty.toNat) x

/-- An exact result brought into a word's TYPE: saturated, or wrapped (R79). -/
def rwFit (w : RW) (sat : Bool) (x : Int) : Nat :=
  wrap (if sat then satBy (fmtSigned w.ty.toNat) x (fmtBits w.ty.toNat) else x) (fmtBits w.ty.toNat)

/-! ### Words over a whole team -/

/-- Whole registers written in all 32 lanes: each listed one has its format, link, SHAPE and lanes; a register that a DEAD mark
names and no result is dead; every other one is as before (R99, R121, R234). -/
structure WroteWhole (t u : Team) (marks : List Nat) (outs : List (Nat × Nat × Nat × Nat × (Nat → Word))) : Prop where
  out : ∀ o ∈ outs, (u.reg o.1).isDead = false ∧ (u.reg o.1).fmt = o.2.1 ∧ (u.reg o.1).link = o.2.2.1 ∧
    (u.reg o.1).shape = o.2.2.2.1 ∧ ∀ i, i < 32 → (u.reg o.1).lane i = o.2.2.2.2 i
  dead : ∀ k, k ∈ marks → (∀ o ∈ outs, o.1 ≠ k) → (u.reg k).isDead = true
  others : ∀ k, k ∉ marks → (∀ o ∈ outs, o.1 ≠ k) → u.reg k = t.reg k

/-- A scale register of a team after at most one was written. -/
def scaleAfter (t : Team) (sc : Option (Nat × BitVec 128)) (k : Nat) : BitVec 128 :=
  match sc with
  | some (x, v) => if k = x then v else t.scaleReg k
  | none => t.scaleReg k

/-- Beside vector registers, of a word over whole blocks: predicates as before, the sticky flags `fl` set, and at most one
scale register written. -/
structure AfterBlocks (s t : State) (p : Path) (r : Raw) (fl : Nat) (sc : Option (Nat × BitVec 128)) : Prop where
  went : Went s t p r
  preds : ∀ i, i < 32 → ((p.teamIn t).lane i).pred = (p.team.lane i).pred
  flags : ∀ k, k < 7 → (p.teamIn t).flags.getLsbD k = (p.team.flags.getLsbD k || fl.testBit k)
  scale : ∀ k, (p.teamIn t).scaleReg k = scaleAfter p.team sc k

/-- The instruction completes with whole registers as its result. -/
def GivesWhole (i : Instr) (s : State) (p : Path) (r : Raw) (outs : List (Nat × Nat × Nat × Nat × (Nat → Word))) (fl : Nat)
    (sc : Option (Nat × BitVec 128)) : Prop :=
  ∃ t, exec i s = .next t ∧ AfterBlocks s t p r fl sc ∧ WroteWhole p.team (p.teamIn t) (p.dead s r) outs

/-- Element `e` of a register, in elements of `w` bits: sub-element e mod (64 / w) of lane ⌊e / (64 / w)⌋ (R32). -/
def Path.elem (p : Path) (s : State) (r : Raw) (n w e : Nat) : Nat := sub (p.src s r n (e / (64 / w))) w (e % (64 / w))

/-- The value at the top of a pairwise tree of `m` levels whose leaf `e` is `x e`, and in general at node `k` of level `m`
(R97). -/
def treeAt (node : Int → Int → Int) (x : Nat → Int) : Nat → Nat → Int
  | 0, k => x k
  | m + 1, k => node (treeAt node x m (2 * k)) (treeAt node x m (2 * k + 1))

/-- The same for leaves that may be absent (R127). -/
def treeOf {α : Type} (node : α → α → α) (x : Nat → α) : Nat → Nat → α
  | 0, k => x k
  | m + 1, k => node (treeOf node x m (2 * k)) (treeOf node x m (2 * k + 1))

/-- The accumulator before element `e` of a prefix combination (R98). -/
def scanAt (node : Int → Int → Int) (x : Nat → Int) (start : Int) : Nat → Int
  | 0 => start
  | e + 1 => node (scanAt node x start e) (x e)

/-- How many keys of A and of B a merge has taken before rank `n` (R99). -/
def mergeAt (le : Nat → Nat → Bool) : Nat → Nat × Nat
  | 0 => (0, 0)
  | n + 1 =>
    let q := mergeAt le n
    if q.2 = 32 ∨ (q.1 < 32 ∧ le q.1 q.2 = true) then (q.1 + 1, q.2) else (q.1, q.2 + 1)

/-- What a merge puts at rank `n`, from the lanes of A and of B (R99). -/
def mergedAt (le : Nat → Nat → Bool) (a b : Nat → Word) (n : Nat) : Word :=
  let q := mergeAt le n
  if q.2 = 32 ∨ (q.1 < 32 ∧ le q.1 q.2 = true) then a q.1 else b q.2

/-- An element as an exact integer, the identity of `op` in place of one of an inactive lane (R97). -/
def Path.elemOr (p : Path) (s : State) (w : RW) (opc op e : Nat) : Int :=
  let b := fmtBits w.ty.toNat
  if (p.iss s (.r opc w)).act.getLsbD (e / (64 / b)) then rwInt w (p.elem s (.r opc w) w.va.toNat b e)
  else identity op b (fmtSigned w.ty.toNat)

/-- An IEEE word of opcode `op` on the registers `rs`: whenever it is ready and each live source has tag format TYPE and
link 0 (R102), it completes; each sub-element of an active lane holds the first part of `f` of the sources' sub-elements,
and the second part is the set of sticky flags that the lane raises (R104, R107). -/
def IeeeWord (mk : RW → Instr) (op : Nat) (rs : RW → List Nat) (fmt : Nat → Nat) (f : RW → Nat → Nat → Nat → Nat × Nat) : Prop :=
  ∀ (s : State) (p : Path) (w : RW), Ready s p (.r op w) → isNarrow w.ty.toNat = false →
    ieeeOk (p.view s (.r op w)) (rs w) w.ty.toNat = true →
    ∃ (val : Nat → Word) (fl : Nat → Nat),
      Gives (mk w) s p (.r op w) w.vd.toNat (fmt w.ty.toNat) 0 (p.uniform s (.r op w) (rs w)) val fl ∧
      ∀ i,
        let b := fmtBits w.ty.toNat
        let x (k j : Nat) : Nat := sub (p.src s (.r op w) (nth (rs w) 0 k) i) b j
        (∀ j, j < 64 / b → sub (val i) b j = (f w (x 0 j) (x 1 j) (x 2 j)).1 % 2 ^ b) ∧
        fl i = orFlags ((List.range (64 / b)).map (fun j => (f w (x 0 j) (x 1 j) (x 2 j)).2))

/-- A word of opcode `op` on the narrow registers `rs`: whenever it is ready, its sources have its TYPE's format and its
path holds every live fibre of the team (R121, R327), it completes; block `b` of the result, its scale byte and its
flags are those of `blockOp` on the sources' blocks (R125). -/
def NarrowWord (mk : RW → Instr) (op : Nat) (rs : RW → List Nat) (f : NOp) : Prop :=
  ∀ (s : State) (p : Path) (w : RW), Ready s p (.r op w) → p.team.slane = false → isNarrow w.ty.toNat = true →
    formatsOk (p.view s (.r op w)) (rs w) (fun x => x == w.ty.toNat) = true → wholeTeam (p.iss s (.r op w)) p.team = true →
    let v := p.view s (.r op w)
    let ty := w.ty.toNat
    let x := fieldOf w.md 10 7
    let block (b : Nat) : Nat × List (Nat × Nat) :=
      blockOp f ty ((rs w).map (fun n => (nth (scalesOf v n ty) 0 b, blockCodes v n ty b)))
    let blocks := (List.range (fmtElems ty)).map block
    let elems := blocks.flatMap (fun b => b.2)
    GivesWhole (mk w) s p (.r op w)
      [(w.vd.toNat, ty, x + 1, 3, fun i => ofSubs (fmtBits ty) (((elems.map (·.1)).drop (i * fmtElems ty)).take (fmtElems ty)))]
      (activeFlags (p.iss s (.r op w)).act (fmtElems ty) elems) (some (x, scaleOf (blocks.map (fun b => b.1))))

/-! ### Words that move fibres or make them wait -/

/-- The word has issued: nothing beside its team and its path differs from `base`; each issuing fibre goes to `dest` where it
does not wait, and waits with `wait` where that is given; its predicates, and every other fibre, are as before; and of the
team nothing but program counters, waits, vector registers, writes in flight and whether a region has been entered differs from
`want`. -/
structure Sent (base t : State) (p : Path) (want : Team) (dest : Nat → Nat) (wait : Option Wait) : Prop where
  kept : Kept base t p
  moved : ∀ i, i < 32 → p.lanes.getLsbD i = true →
    ((p.teamIn t).lane i).pc = dest i ∧ ((p.teamIn t).lane i).wait = wait ∧
    ((p.teamIn t).lane i).pred = (p.team.lane i).pred ∧ ((p.teamIn t).lane i).live = true ∧
    ((p.teamIn t).lane i).parked = false
  still : ∀ i, i < 32 → p.lanes.getLsbD i = false → (p.teamIn t).lane i = p.team.lane i
  rest : { p.teamIn t with lanes := want.lanes, regs := want.regs, pend := want.pend, code := want.code, region := want.region } = want
  region : (p.teamIn t).region.map Region.blank = want.region.map Region.blank
  code : p.team.slane = false → (p.teamIn t).code = want.code

/-- The state in which a transfer's checks have passed: a context that transfers fetches from S.CODE from then on (R419). -/
def Path.based (p : Path) (s : State) (any : Bool) : State :=
  match p.agent with
  | .team _ _ => s
  | .ctx c k => if any then s.modCore c (fun x => x.setCtx k { x.ctx k with fetch := targetSrc s p.agent p.team }) else s

/-- A target passes the checks of R14 for the path's team. -/
def Path.lands (p : Path) (s : State) (x : Int) : Prop :=
  targetCode s (agentCore p.agent) p.team.asid (targetSrc s p.agent p.team) x = 0

/-- The instruction completes by sending the active fibres to `tgt` and the others to the next word. -/
def Transfers (i : Instr) (s : State) (p : Path) (r : Raw) (tgt : Nat → Int) : Prop :=
  ∃ t, exec i s = .next t ∧
    Sent (p.based s ((p.iss s r).act != 0)) t p p.team
      (fun k => if (p.iss s r).act.getLsbD k then (tgt k).toNat else (p.iss s r).pc + 8) none ∧
    RegsKept p.team (p.teamIn t) (p.dead s r)

/-- The instruction completes by making the fibres of its path wait at it. -/
def Holds (i : Instr) (s : State) (p : Path) (r : Raw) (x : Wait) : Prop :=
  ∃ t, exec i s = .next t ∧ Sent s t p p.team (fun _ => (p.iss s r).pc) (some x) ∧ RegsKept p.team (p.teamIn t) (p.dead s r)

/-- A word of an S-lane context has trapped (R195): the S context stops at it and event 11 of the M context is pending; the M
context has latched alarm cause 4 and, under the log policy, entered its handler. -/
structure CtxTraps (s t : State) (p : Path) (r : Raw) (cause : Nat) : Prop where
  user : ∀ core, p.agent = .ctx core .s →
    let c := t.core core
    c.sctx.stopped = true ∧ c.sctx.spc = (p.iss s r).pc ∧ c.sctx.stopCause = cause ∧ c.sctx.epc = (s.core core).sctx.epc ∧
    c.sctx.trap = (s.core core).sctx.trap ∧ c.sctx.regs = (s.core core).sctx.regs ∧
    c.mctx = { (s.core core).mctx with pend11 := true }
  machine : ∀ core, p.agent = .ctx core .m →
    bit (t.reg 0x806) 4 = true ∧
    (bits (s.reg 0x805) 9 8 = 0 →
      let m := (t.core core).mctx
      m.epc = BitVec.ofNat 64 (p.iss s r).pc ∧ m.cause = BitVec.ofNat 64 (cause + 10 * 256) ∧ m.trap = true ∧
      m.lane.pc = (s.core core).mctx.tvec.toNat % 2 ^ 48 ∧ m.regs = (s.core core).mctx.regs)

/-- A word had no effect but its trap: every byte is as before, and so are the registers, predicates, sticky flags and scale
registers of the issuing team, of which the fibres `who` are parked at the word, each with a fault record of the cause; on the
S-lane the context has trapped (R36, R38, R195). -/
structure TurnedAway (s t : State) (p : Path) (r : Raw) (who : BitVec 32) (cause : Nat) : Prop where
  bytes : ∀ m a, t.byte m a = s.byte m a
  regs : ∀ core slot, p.agent = .team core slot → (∀ n, (p.teamIn t).reg n = p.team.reg n) ∧
    (p.teamIn t).flags = p.team.flags ∧ (p.teamIn t).scale = p.team.scale ∧
    ∀ i, i < 32 → ((p.teamIn t).lane i).pred = (p.team.lane i).pred
  parked : ∀ core slot, p.agent = .team core slot → ∀ i, i < 32 → who.getLsbD i = true →
    ((p.teamIn t).lane i).parked = true ∧ ((p.teamIn t).lane i).pc = (p.iss s r).pc ∧
    ∃ rec : FaultRec, (rec ∈ (t.core core).waiting ∨ ∃ e ∈ (t.core core).faults, rec ∈ e.recs) ∧ rec.slot = slot ∧
      rec.lane = i ∧ rec.pc = (p.iss s r).pc ∧ rec.cause = cause ∧ rec.word = (p.iss s r).bits
  context : CtxTraps s t p r cause

/-- The instruction raises a cause for some fibres at its issue, with no other effect. -/
def Refuses (i : Instr) (s : State) (p : Path) (r : Raw) (who : BitVec 32) (cause : Nat) : Prop :=
  ∃ t, exec i s = .next t ∧ TurnedAway s t p r who cause

/-- The instruction completes with no effect but that its fibres have moved on. -/
def Passes (i : Instr) (s : State) (p : Path) (r : Raw) : Prop :=
  ∃ t, exec i s = .next t ∧ Sent s t p p.team (fun _ => (p.iss s r).pc + 8) none ∧ RegsKept p.team (p.teamIn t) (p.dead s r)

/-! ### PAIR -/

/-- A compact operation's lane and flags: of the full instruction with default modifiers, its sources as they were before
either operation wrote (R28, R29). -/
def copResult (p : Path) (s : State) (w : PW) (c : Compact) (i : Nat) : Word × Nat :=
  if c.cop = 0 then (0, 0) else copLane c (p.src s (.p w) c.va.toNat i) (p.src s (.p w) c.vb.toNat i)

/-- The SHAPE of a compact operation's result: that of the full instruction on its TYPE (R28, R76, R103). -/
def Path.copShape (p : Path) (s : State) (w : PW) (c : Compact) (val : Nat → Word) : Nat :=
  let row : ShapeRow :=
    match c.cop.toNat with
    | 2 => sumRow false
    | 3 => sumRow true
    | 6 => productRow false
    | 7 => .general
    | 14 => productRow true
    | _ => .uniform
  if c.cop = 1 then p.movShape s (.p w) c.va.toNat 31 else p.rowShape s (.p w) (copRW c) (copSrcs c) row (copFmt c) val

/-- One compact operation's result between two teams: none for the empty operation; MOV copies the tag as well. -/
def CopWrote (p : Path) (s : State) (w : PW) (c : Compact) (t u : Team) (marks : List Nat) : Prop :=
  if c.cop = 0 then RegsKept t u marks
  else
    let r := (p.view s (.p w)).reg c.va.toNat
    let mov := c.cop = 1
    Wrote t u (p.iss s (.p w)).act marks c.vd.toNat (if mov then (if r.isDead then 0 else r.fmt) else copFmt c)
      (if mov ∧ r.isDead = false ∧ p.team.slane = false then r.link else 0)
      (p.copShape s w c (fun i => (copResult p s w c i).1)) (fun i => (copResult p s w c i).1)

/-! ### Words that reach memory -/

/-- Byte `k` of a line's content. -/
def lineByte (x : BitVec 1024) (k : Nat) : Byte := BitVec.ofNat 8 (x.toNat >>> (8 * k))

/-- The byte of a DRAM location as a die reads it: of its own copy, else of the home copy (R302). -/
def State.seen (s : State) (die loc : Nat) : Byte := lineByte (lineView s die (loc / 128) false).1 (loc % 128)

/-- The byte of a DRAM location at its home. -/
def State.home (s : State) (loc : Nat) : Byte := lineByte (homeData s (loc / 128)) (loc % 128)

/-- Every copy of the byte of a DRAM location is the home copy's, and a clean home copy is DRAM's. -/
def State.agreed (s : State) (loc : Nat) : Prop :=
  ∀ e ∈ s.l2, e.1 % 2 ^ 32 = loc / 128 →
    lineByte e.2.data (loc % 128) = s.home loc ∧
    (e.1 / 2 ^ 32 = homeOf (loc / 128) → e.2.dirty.getLsbD (loc % 128) = false → s.byte .dram loc = s.home loc)

/-- A byte of a DRAM location on which every copy agreed is unchanged, for every die that reads it. -/
def SameByte (s t : State) (loc : Nat) : Prop := t.agreed loc ∧ ∀ die, t.seen die loc = s.seen die loc

/-- The accesses of a word's active fibres in ascending lane order (R137): the state after them, each fibre's value, and the
fibres that trap. -/
def Path.each {α : Type} (p : Path) (s : State) (r : Raw) (f : State → Nat → State × Except Trap α) :
    State × List (Nat × α) × List (Nat × Trap) := eachLane f (lanesOf (p.iss s r).act) s

/-- The state in which fibre `i` makes its access: after those of the lower fibres. -/
def Path.turn {α : Type} (p : Path) (s : State) (r : Raw) (f : State → Nat → State × Except Trap α) (i : Nat) : State :=
  (eachLane f ((lanesOf (p.iss s r).act).filter (fun j => decide (j < i))) s).1

/-- Where one fibre's access goes once its checks have passed (R130, R131). -/
def Path.goal {α : Type} (p : Path) (s : State) (r : Raw) (w : MW) (f : State → Nat → State × Except Trap α) (n : Nat)
    (disp : Int) (rights acc : Nat) (kinds : List Nat) (i : Nat) : Option Tgt :=
  match (laneCheck (p.turn s r f i) (p.iss s r) (p.view s r) w n disp rights acc kinds i).2 with
  | .ok x => some x.1
  | .error _ => none

/-- A target's bytes: which byte of which memory each is. -/
def Tgt.cells (t : Tgt) (n : Nat) : List (Mem × Nat) :=
  match t with
  | .dram first lines => (locsOf first n lines).map (fun a => (.dram, a))
  | .sram a => (List.range n).map (fun k => (.sram, a + k))
  | .abuf a => (List.range n).map (fun k => (.abuf, a + k))
  | .host _ => []
  | .none => []

/-- The byte that a core of a die reads at a place of DRAM, of its cluster SRAM or of its A-buffer. -/
def State.reads (s : State) (die : Nat) (c : Mem × Nat) : Byte := if c.1 = .dram then s.seen die c.2 else s.byte c.1 c.2

/-- Every byte outside a set of places is unchanged: of every local memory, and of DRAM, where every copy agreed on it, for
every die that reads it. The forms of DRAM and of the L2s are those that every step keeps (`MemoriesKept`). -/
structure SameElsewhere (s t : State) (stored : Mem × Nat → Prop) : Prop where
  local_ : ∀ m a, m ≠ .dram → ¬ stored (m, a) → t.byte m a = s.byte m a
  shared : Memory.wf s.dram = true → mrising s.l2 = true → ∀ loc, loc < 2 ^ 39 → ¬ stored (.dram, loc) → s.agreed loc → SameByte s t loc

/-- One result, or with `wide` two, of SHAPE `shp` in registers `n` and `n + 1` (R135, R142, R143). -/
def WroteWide (t u : Team) (act : BitVec 32) (wide : Bool) (n fmt shp : Nat) (val : Nat → Word × Word) : Prop :=
  if wide then
    ∃ m, Wrote t m act [] n fmt 0 shp (fun i => (val i).1) ∧ Wrote m u act [] (n + 1) 8 0 shp (fun i => (val i).2)
  else Wrote t u act [] n fmt 0 shp (fun i => (val i).1)

/-- Each active fibre's access passes its checks in its turn (R131). -/
def Path.allGo {α : Type} (p : Path) (s : State) (r : Raw) (w : MW) (f : State → Nat → State × Except Trap α) (n : Nat)
    (disp : Int) (rights acc : Nat) (kinds : List Nat) : Prop :=
  ∀ i, (p.iss s r).act.getLsbD i = true → (p.goal s r w f n disp rights acc kinds i).isSome = true

/-- The instruction completes with its accesses made, from state `base` on, its fibres moved on, and no register written. -/
def Leaves (i : Instr) (s : State) (p : Path) (r : Raw) (base : State) : Prop :=
  ∃ t, exec i s = .next t ∧ Sent base t p p.team (fun _ => (p.iss s r).pc + 8) none ∧ ∀ k, (p.teamIn t).reg k = p.team.reg k

/-- The instruction completes with its accesses made, its fibres moved on, and one or two registers of SHAPE `shp` written. -/
def Fetches (i : Instr) (s : State) (p : Path) (r : Raw) (base : State) (wide : Bool) (n fmt shp : Nat) (val : Nat → Word × Word) : Prop :=
  ∃ t, exec i s = .next t ∧ Sent base t p p.team (fun _ => (p.iss s r).pc + 8) none ∧
    WroteWide p.team (p.teamIn t) (p.iss s r).act wide n fmt shp val

/-- What each fibre of a load fetched, as the words of VD and VD + 1 (R135). -/
def loadedPair (vals : List (Nat × List Byte)) (i : Nat) : Word × Word :=
  (loadedWord (laneVal [] vals i) 0, loadedWord (laneVal [] vals i) 8)

/-- Byte `k` of a register and, from byte 8 on, of the one after it, in lane `i`. -/
def Path.byteAt (p : Path) (s : State) (r : Raw) (n i k : Nat) : Byte :=
  BitVec.ofNat 8 ((p.src s r (n + k / 8) i).toNat >>> (8 * (k % 8)))

/-- The operand of ATOM, or a value of CAS, that starts in register `n` (R142, R143). -/
def Path.operandOf (p : Path) (s : State) (r : Raw) (w : MW) (n i : Nat) : Nat :=
  if w.width = 4 then (p.src s r n i).toNat + (p.src s r (n + 1) i).toNat * 2 ^ 64
  else (p.src s r n i).toNat % 2 ^ (8 * 2 ^ w.width.toNat)

/-- The old value that each fibre of an atomic found, as the words of VD and VD + 1 (R142). -/
def oldPair (vals : List (Nat × Nat)) (i : Nat) : Word × Word :=
  (BitVec.ofNat 64 (laneVal 0 vals i), BitVec.ofNat 64 (laneVal 0 vals i / 2 ^ 64))

/-! ### Engine words -/

/-- The word's register `n` is an operand of one value `x`: its tag format is in the list (that of a live register; the
S-lane has no tags), and every candidate fibre holds `x` (R147, R157). -/
def Path.operand (p : Path) (s : State) (r : Raw) (n : Nat) (fmts : List Nat) (x : Word) : Prop :=
  formatsOk (p.view s r) [n] fmts.contains = true ∧ ∀ i, p.lanes.getLsbD i = true → p.src s r n i = x

/-- The command that an engine word makes. -/
def Path.cmd (p : Path) (s : State) (r : Raw) (w : EW) (cls : Nat) (ops capt : List Word) : Cmd :=
  { mkCmd s.nextId (p.iss s r) p.team cls w ops capt with world := s.world (agentCore p.agent) }

/-- The instruction submits a command of a class: where its queue has a free entry and its counter is below 63 it is
accepted, stands last among its core's commands, its issuer's counter rises by one and the path moves on; else it waits to
be accepted, and the path waits at the word (R62, R65, R267). No register is written. -/
def Submits (i : Instr) (s : State) (p : Path) (r : Raw) (w : EW) (cls : Nat) (ops capt : List Word) : Prop :=
  let c := agentCore p.agent
  let k := p.cmd s r w cls ops capt
  let u := { s with nextId := s.nextId + 1 }
  ∃ t, exec i s = .next t ∧ (∀ n, (p.teamIn t).reg n = p.team.reg n) ∧
    (canAccept u c k = true →
      Sent (acceptCmd u c (p.iss s r).clk k) t p p.team (fun _ => (p.iss s r).pc + 8) none ∧
      (t.core c).cmds = (s.core c).cmds ++ [{ k with accepted := (p.iss s r).clk, st := guardState (s.core c) (p.iss s r).clk k }] ∧
      ecOf (t.core c) (issuerOf p.agent) p.team.uid cls = ecOf (s.core c) (issuerOf p.agent) p.team.uid cls + 1) ∧
    (canAccept u c k = false →
      Sent (u.modCore c (fun x => { x with toAccept := x.toAccept ++ [k] })) t p p.team (fun _ => (p.iss s r).pc)
        (some (.accept s.nextId)))

/-- The four operands of a format E word: each register field that its row reads holds one value of an admitted format; a
field that it does not read counts as 0. -/
def Path.four (p : Path) (s : State) (op : Nat) (w : EW) (fd fa fb fc : List Nat) (d a b c : Word) : Prop :=
  let r := Raw.e op w
  let row := eRow op w
  (if row.vd = .reg then p.operand s r w.vd.toNat fd d else d = 0) ∧
  (if row.va = .reg then p.operand s r w.va.toNat fa a else a = 0) ∧
  (if row.vb = .reg then p.operand s r w.vb.toNat fb b else b = 0) ∧
  (if row.vc = .reg then p.operand s r w.vc.toNat fc c else c = 0)

/-! ### Class 5 words -/

/-- The instruction makes every fibre of its path wait at the word, each knowing whether it is active. -/
def Stays (i : Instr) (s : State) (p : Path) (r : Raw) (base : State) (wait : Bool → Wait) : Prop :=
  ∃ t, exec i s = .next t ∧ Kept base t p ∧ (∀ n, (p.teamIn t).reg n = p.team.reg n) ∧
    ∀ k, k < 32 → p.lanes.getLsbD k = true →
      ((p.teamIn t).lane k).pc = (p.iss s r).pc ∧ ((p.teamIn t).lane k).wait = some (wait ((p.iss s r).act.getLsbD k))

/-- The word's register `n` is an operand of one value for its active fibres (R188). -/
def Path.operand5 (p : Path) (s : State) (r : Raw) (n : Nat) (fmts : List Nat) (x : Word) : Prop :=
  formatsOk (p.view s r) [n] fmts.contains = true ∧ ∀ i, (p.iss s r).act.getLsbD i = true → p.src s r n i = x

/-- The word writes `x` to VD of its active fibres as one n64 value, uniform where R77 allows it (R188). -/
def Answers (i : Instr) (s : State) (p : Path) (r : Raw) (base : State) (vd : Nat) (x : Word) : Prop :=
  Fetches i s p r base false vd 8 (p.shape s r 1) (fun _ => (x, 0))

end Sys2Proof.Machine
end

