-- ==== Sys2Proof/Certificates/Slice0/Obligations.lean ====
section
/-! DEFINITION. The statements for the provers. -/
open Sys2Proof Sys2Proof.Machine


/-! ### Integer words (class 1) -/

/-- R79, R80: the two-source arithmetic of class 1. R79, R82, R87: the three-source words of class 1. -/
def Obligations.IntegerArithmetic : Prop :=
  (Elementwise2 .iadd 0x18 false true false (sumRow false) id (fun w a b => rwFit w (bitOf w.md 9) (rwInt w a + rwInt w b)) ∧
   Elementwise2 .isub 0x19 false true false (sumRow true) id (fun w a b => rwFit w (bitOf w.md 9) (rwInt w a - rwInt w b)) ∧
   Elementwise2 .imul 0x1B false true false (productRow false) id (fun w a b => rwFit w (bitOf w.md 9) (rwInt w a * rwInt w b)) ∧
   Elementwise2 .imulh 0x1C false true false .general id (fun w a b =>
     rwFit w false (rwInt w a * (if bitOf w.md 0 then (b : Int) else rwInt w b) / 2 ^ fmtBits w.ty.toNat)) ∧
   Elementwise2 .imin 0x1F false true false .uniform id (fun w a b => rwFit w false (min (rwInt w a) (rwInt w b))) ∧
   Elementwise2 .imax 0x20 false true false .uniform id (fun w a b => rwFit w false (max (rwInt w a) (rwInt w b))) ∧
   Elementwise2 .iabsd 0x21 false true false .uniform (fun f => unsignedOf (fmtBits f))
     (fun w a b => rwFit w false ((rwInt w a - rwInt w b).natAbs : Int))) ∧
  (Elementwise3 .imad 0x1D false true (fun w a b c => rwFit w (bitOf w.md 9) (rwInt w a * rwInt w b + rwInt w c)) ∧
   Elementwise3 .iaddmin 0x1E false true (fun w a b c =>
     rwFit w true (min (rwInt w a + rwInt w b) (rwInt w c))) ∧
   Elementwise3 .bfi 0x2B true false (fun w a b c =>
     let n := fmtBits w.ty.toNat
     let pos := b % 256
     let len := if pos ≥ n then 0 else min (b / 256 % 256) (n - pos)
     a % 2 ^ pos + 2 ^ pos * (c % 2 ^ len) + 2 ^ (pos + len) * (a / 2 ^ (pos + len))))

/-- R81: the sum or difference of 64-bit patterns with the carry in, and the carry out: whole in 65 bits. R83, R84: the
predicate form of ICMP, its mask form, and ISEL. -/
def Obligations.CarriesAndCompares : Prop :=
  (∀ (s : State) (p : Path) (w : RW) (minus : Bool), Ready s p (.r 0x1A w) →
     typeOk (p.view s (.r 0x1A w)) [w.va.toNat, w.vb.toNat] w.ty.toNat false = true →
     linksNone (p.view s (.r 0x1A w)) [w.va.toNat, w.vb.toNat] = true →
     ∃ (t : State) (val : Nat → Word) (carry : Nat → Bool),
       exec (if minus then .isubc w else .iaddc w) s = .next t ∧
       After s t p (.r 0x1A w) (fieldOf w.md 8 5) carry noFlags ∧
       Wrote p.team (p.teamIn t) (p.iss s (.r 0x1A w)).act (p.dead s (.r 0x1A w)) w.vd.toNat w.ty.toNat 0 3 val ∧
       ∀ i,
         let a := (p.src s (.r 0x1A w) w.va.toNat i).toNat
         let b := (p.src s (.r 0x1A w) w.vb.toNat i).toNat
         let k := if bitOf w.md 4 = true ∧ (p.view s (.r 0x1A w)).pred i (fieldOf w.md 3 0) = true then 1 else 0
         if minus then (val i).toNat + b + k = a + 2 ^ 64 * b2n (carry i) else (val i).toNat + 2 ^ 64 * b2n (carry i) = a + b + k) ∧
  ((∀ (s : State) (p : Path) (w : RW), Ready s p (.r 0x22 w) →
     typeOk (p.view s (.r 0x22 w)) (abRegs w) w.ty.toNat false = true → linksNone (p.view s (.r 0x22 w)) (abRegs w) = true →
     fieldOf w.md 6 4 < 64 / fmtBits w.ty.toNat →
     ∃ val, Tests (.icmp w) s p (.r 0x22 w) w.vd.toNat val noFlags ∧
       ∀ i, val i = intTest (fieldOf w.md 2 0)
         (rwInt w (sub (p.src s (.r 0x22 w) w.va.toNat i) (fmtBits w.ty.toNat) (fieldOf w.md 6 4)))
         (rwInt w (p.elemB s (.r 0x22 w) w false i (fieldOf w.md 6 4)))) ∧
   Elementwise2 .icmpMask 0x22 false true false .uniform (fun f => unsignedOf (fmtBits f)) (fun w a b =>
     if intTest (fieldOf w.md 2 0) (rwInt w a) (rwInt w b) then 2 ^ fmtBits w.ty.toNat - 1 else 0) ∧
   ∀ (s : State) (p : Path) (w : RW) (link : Nat), Ready s p (.r 0x23 w) →
     typeOk (p.view s (.r 0x23 w)) [w.va.toNat, w.vb.toNat] w.ty.toNat false = true → (p.team.slane = true → link = 0) →
     (p.team.slane = false → ∀ n ∈ [w.va.toNat, w.vb.toNat], ((p.view s (.r 0x23 w)).reg n).isDead = false → ((p.view s (.r 0x23 w)).reg n).link = link) →
     ((∀ n ∈ [w.va.toNat, w.vb.toNat], ((p.view s (.r 0x23 w)).reg n).isDead = true) → link = 0) →
     Gives (.isel w) s p (.r 0x23 w) w.vd.toNat (resultFmt (p.view s (.r 0x23 w)) [w.va.toNat, w.vb.toNat] w.ty.toNat) link 3
       (fun i => if (p.view s (.r 0x23 w)).pred i w.vc.toNat then p.src s (.r 0x23 w) w.va.toNat i else p.src s (.r 0x23 w) w.vb.toNat i)
       noFlags)

/-- R85, R86, R87: bit by bit, and the shifts and bit fields of a sub-element. What the spec's words leave open in it is the
model's choice: log entry 81. -/
def Obligations.BitWords : Prop :=
  (∀ (mk : RW → Instr) (op : Nat) (f : Bool → Bool → Bool),
    (mk, op, f) ∈ [((.andW : RW → Instr), 0x24, (and : Bool → Bool → Bool)), (.orW, 0x25, or), (.xorW, 0x26, xor)] →
    ∀ (s : State) (p : Path) (w : RW), Ready s p (.r op w) → typeOk (p.view s (.r op w)) (abRegs w) w.ty.toNat true = true →
      ∃ val : Nat → Word,
        Gives (mk w) s p (.r op w) w.vd.toNat (resultFmt (p.view s (.r op w)) (abRegs w) w.ty.toNat) 0 (p.uniform s (.r op w) (abRegs w)) val noFlags ∧
        ∀ i j k, j < 64 / fmtBits w.ty.toNat → k < fmtBits w.ty.toNat →
          (sub (val i) (fmtBits w.ty.toNat) j).testBit k =
            f ((sub (p.src s (.r op w) w.va.toNat i) (fmtBits w.ty.toNat) j).testBit k)
              ((p.elemB s (.r op w) w false i j).testBit k != bitOf w.md 0)) ∧
  Elementwise2 .shl 0x27 true false true (productRow true) id (fun w a b =>
    if bitOf w.md 9 then rwFit w true (rwInt w a * 2 ^ b) else a * 2 ^ b % 2 ^ fmtBits w.ty.toNat) ∧
  Elementwise2 .shr 0x28 true false true .uniform id (fun _ a b => a / 2 ^ b) ∧
  Elementwise2 .shra 0x29 true false true .uniform id (fun w a b =>
    let x := sext a (fmtBits w.ty.toNat)
    rwFit w false (if bitOf w.md 0 = true ∧ b ≠ 0 then (x + 2 ^ (b - 1)) / 2 ^ b else x / 2 ^ b)) ∧
  Elementwise2 .bfx 0x2A true false false .uniform id (fun w a b =>
    let n := fmtBits w.ty.toNat
    let pos := b % 256
    let len := if pos ≥ n then 0 else min (b / 256 % 256) (n - pos)
    let field := a / 2 ^ pos % 2 ^ len
    if fmtSigned w.ty.toNat = true ∧ len ≠ 0 then rwFit w false (sext field len) else field)

/-- R88, R89, R90: counts, copies and immediates. R91: an address from a handle and an offset, and an address moved by an
offset; an offset out of range becomes all ones. What the spec's words leave open in it is the model's choice: log entry 81.
-/
def Obligations.CountsMovesAddresses : Prop :=
  ((∀ (s : State) (p : Path) (w : RW), Ready s p (.r 0x2C w) →
     ∃ val : Nat → Word, Gives (.popc w) s p (.r 0x2C w) w.vd.toNat (unsignedOf (fmtBits w.ty.toNat)) 0 (p.uniform s (.r 0x2C w) [w.va.toNat]) val noFlags ∧
       ∀ i j, j < 64 / fmtBits w.ty.toNat → sub (val i) (fmtBits w.ty.toNat) j =
         (List.range (fmtBits w.ty.toNat)).countP (sub (p.src s (.r 0x2C w) w.va.toNat i) (fmtBits w.ty.toNat) j).testBit) ∧
   (∀ (s : State) (p : Path) (w : RW), Ready s p (.r 0x2D w) →
     ∃ val : Nat → Word, Gives (.clz w) s p (.r 0x2D w) w.vd.toNat (unsignedOf (fmtBits w.ty.toNat)) 0 (p.uniform s (.r 0x2D w) [w.va.toNat]) val noFlags ∧
       ∀ i j, j < 64 / fmtBits w.ty.toNat →
         let x := sub (p.src s (.r 0x2D w) w.va.toNat i) (fmtBits w.ty.toNat) j
         let n := sub (val i) (fmtBits w.ty.toNat) j
         n ≤ fmtBits w.ty.toNat ∧ x < 2 ^ (fmtBits w.ty.toNat - n) ∧ (x ≠ 0 → 2 ^ (fmtBits w.ty.toNat - n) ≤ 2 * x) ∧
           (x = 0 → n = fmtBits w.ty.toNat)) ∧
   (∀ (s : State) (p : Path) (w : RW), Ready s p (.r 0x2E w) →
     let r := (p.view s (.r 0x2E w)).reg w.va.toNat
     let whole := w.ty.toNat = 31 ∧ r.isDead = false
     Gives (.movW w) s p (.r 0x2E w) w.vd.toNat (if w.ty.toNat = 31 then (if r.isDead then 0 else r.fmt) else w.ty.toNat)
       (if whole ∧ p.team.slane = false then r.link else 0) (p.movShape s (.r 0x2E w) w.va.toNat w.ty.toNat) (p.src s (.r 0x2E w) w.va.toNat) noFlags) ∧
   (∀ (s : State) (p : Path) (w : IW), Ready s p (.i 0x2F w) →
     ∀ (kind fmt : Nat) (val : Word), w.md.toNat = kind →
       (kind, fmt, val) ∈ [(0, 7, BitVec.ofInt 64 w.imm.toInt), (1, 8, w.imm.setWidth 64), (2, 5, w.imm ++ w.imm), (3, 6, w.imm ++ w.imm),
         (4, 11, w.imm ++ w.imm), (5, 12, BitVec.ofNat 64 (widenF32 w.imm.toNat))] →
       Gives (.movi w) s p (.i 0x2F w) w.vd.toNat fmt 0 (p.shape s (.i 0x2F w) 1) (fun _ => val) noFlags) ∧
   (∀ (s : State) (p : Path) (w : IW), Ready s p (.i 0x2F w) →
     let r := (p.view s (.i 0x2F w)).reg w.vd.toNat
     (p.team.slane = true ∨ r.isDead = true ∨ r.fmt ∈ [7, 8, 0, 21]) →
     Gives (.moviHi w) s p (.i 0x2F w) w.vd.toNat (if r.isDead then 0 else r.fmt) 0 (p.uniform s (.i 0x2F w) [w.vd.toNat])
       (fun i => w.imm ++ (p.src s (.i 0x2F w) w.vd.toNat i).setWidth 32) noFlags) ∧
   (∀ (s : State) (p : Path) (w : IW), Ready s p (.i 0x2F w) →
     Gives (.moviLane w) s p (.i 0x2F w) w.vd.toNat 7 0 (p.shape s (.i 0x2F w) 2) (fun i => BitVec.ofInt 64 (w.imm.toInt + i)) noFlags)) ∧
  (∀ (s : State) (p : Path) (w : RW) (moves : Bool), Ready s p (.r 0x30 w) →
     formatsOk (p.view s (.r 0x30 w)) [w.va.toNat] (fun f => (if moves then [21] else [4, 6, 8, 7, 0]).contains f) = true →
     formatsOk (p.view s (.r 0x30 w)) [w.vb.toNat] (fun f => [5, 6, 7, 8, 0].contains f) = true →
     let a (i : Nat) : Nat := (p.src s (.r 0x30 w) w.va.toNat i).toNat
     let b (i : Nat) : Nat := (p.src s (.r 0x30 w) w.vb.toNat i).toNat
     let fmt := if p.team.slane = true ∨ ((p.view s (.r 0x30 w)).reg w.vb.toNat).isDead = true then 0
       else ((p.view s (.r 0x30 w)).reg w.vb.toNat).fmt
     let index (i : Nat) : Int := if fmt = 5 then sext (b i % 2 ^ 32) 32 else if fmt = 6 then ((b i % 2 ^ 32 : Nat) : Int)
       else if fmt = 7 then sext (b i) 64 else (b i : Int)
     let offset (i : Nat) : Int := (if moves then ((a i % 2 ^ 48 : Nat) : Int) else 0) + index i * 2 ^ fieldOf w.md 3 1
     ∃ (val : Nat → Word) (inRange : Bool),
       Gives (if moves then .mkaddrOff w else .mkaddr w) s p (.r 0x30 w) w.vd.toNat 21 0
         (p.shape s (.r 0x30 w) (if p.allUniform s (.r 0x30 w) [w.va.toNat, w.vb.toNat] then 1
           else if p.allUniform s (.r 0x30 w) [w.va.toNat] = true ∧ ((p.view s (.r 0x30 w)).reg w.vb.toNat).shape = 2 ∧ inRange = true ∧
             fitsLine 21 (val 0, val 1 - val 0) val = true then 2 else 3)) val noFlags ∧
       (inRange = true ↔ ∀ i, i < 32 → 0 ≤ offset i ∧ offset i < 2 ^ 48) ∧
       ∀ i,
         (val i).toNat / 2 ^ 48 = (if moves then a i / 2 ^ 48 else a i % 2 ^ 16) ∧
         (0 ≤ offset i ∧ offset i < 2 ^ 48 → ((val i).toNat % 2 ^ 48 : Nat) = offset i) ∧
         (offset i < 0 ∨ 2 ^ 48 ≤ offset i → (val i).toNat % 2 ^ 48 = 2 ^ 48 - 1))


/-! ### Words across lanes (class 1) -/

/-- R94, R95, R96: whole lanes moved, elements permuted, one element broadcast. What the spec's words leave open in it is the
model's choice: log entries 36 and 81. -/
def Obligations.LaneMoves : Prop :=
  (∀ (s : State) (p : Path) (w : RW) (down : Bool), Ready s p (.r 0x31 w) →
    let r := Raw.r 0x31 w
    let a := w.va.toNat
    let b := w.vb.toNat
    let n := fieldOf w.md 4 0
    (bitOf w.md 6 = true → ((p.view s r).reg a).isDead = false → ((p.view s r).reg b).isDead = false →
      ((p.view s r).reg a).fmt = ((p.view s r).reg b).fmt) →
    Gives (if down then .lshiftDn w else .lshiftUp w) s p r w.vd.toNat (resultFmt (p.view s r) [a] w.ty.toNat) 0 3
      (fun i =>
        if down then (if i + n ≤ 31 then p.src s r a (i + n) else if bitOf w.md 6 then p.src s r b ((i + n) % 32) else 0)
        else (if n ≤ i then p.src s r a (i - n) else if bitOf w.md 6 then p.src s r b (32 - n + i) else 0)) noFlags) ∧
  (∀ (s : State) (p : Path) (w : RW), Ready s p (.r 0x32 w) →
    let r := Raw.r 0x32 w
    let fmt := resultFmt (p.view s r) [w.va.toNat] w.ty.toNat
    let b := fmtBits fmt
    (fmt ≤ 14 ∨ fmt = 18 ∨ fmt = 21) →
    formatsOk (p.view s r) [w.vb.toNat] (fun f => typesInt.contains f && fmtBits f == b) = true →
    ∃ val : Nat → Word,
      Gives (.lperm w) s p r w.vd.toNat fmt 0 3 val noFlags ∧
      ∀ i j, j < 64 / b →
        let e := sub (p.src s r w.vb.toNat i) b j
        sub (val i) b j = if e < 32 * (64 / b) then p.elem s r w.va.toNat b e else 0) ∧
  (∀ (s : State) (p : Path) (w : RW) (indexed : Bool), Ready s p (.r 0x33 w) →
    let r := Raw.r 0x33 w
    let fmt := resultFmt (p.view s r) [w.va.toNat] w.ty.toNat
    let b := fmtBits fmt
    typeOk (p.view s r) [w.va.toNat] w.ty.toNat false = true →
    ∀ e : Nat,
      (if indexed then formatsOk (p.view s r) [w.vb.toNat] (fun f => [5, 6, 7, 8].contains f) = true ∧
          ∀ i, (p.iss s r).act.getLsbD i = true → sub (p.src s r w.vb.toNat i) (fmtBits ((p.view s r).reg w.vb.toNat).fmt) 0 = e
        else fieldOf w.md 9 1 = e ∧ e < 32 * (64 / b)) →
      ∃ val : Nat → Word,
        Gives (if indexed then .lbcastR w else .lbcast w) s p r w.vd.toNat fmt 0 (p.shape s r 1) val noFlags ∧
        ∀ i j, (p.iss s r).act.getLsbD i = true → j < 64 / b →
          sub (val i) b j = if e < 32 * (64 / b) then p.elem s r w.va.toNat b e else 0)

/-- R97, R98: reductions by the pairwise tree, and prefix combinations. R99, R100: the stable merge of two streams of keys,
and of keys with values. What the spec's words leave open in it is the model's choice: log entry 83. -/
def Obligations.ReductionsScansMerges : Prop :=
  ((∀ (s : State) (p : Path) (w : RW) (levels : Nat), Ready s p (.r 0x34 w) →
     typeOk (p.view s (.r 0x34 w)) [w.va.toNat] w.ty.toNat false = true →
     linksNone (p.view s (.r 0x34 w)) [w.va.toNat] = true →
     2 ^ levels = 32 * (64 / fmtBits w.ty.toNat) →
     let b := fmtBits w.ty.toNat
     let wide := bitOf w.md 5
     let n := if wide then 64 else b
     let op := fieldOf w.md 2 0
     let node (x y : Int) : Int := intoType (fmtSigned w.ty.toNat) n (bitOf w.md 9) (combine op n x y)
     let top := wrap (treeAt node (p.elemOr s w 0x34 op) levels 0) n
     ∃ val : Nat → Word,
       Gives (.lreduce w) s p (.r 0x34 w) w.vd.toNat (if wide then (if fmtSigned w.ty.toNat then 7 else 8) else w.ty.toNat) 0
         (p.shape s (.r 0x34 w) 1) val noFlags ∧
       ∀ i j, j < 64 / n → sub (val i) n j = top) ∧
   (∀ (s : State) (p : Path) (w : RW), Ready s p (.r 0x35 w) →
     typeOk (p.view s (.r 0x35 w)) [w.va.toNat] w.ty.toNat false = true →
     linksNone (p.view s (.r 0x35 w)) [w.va.toNat] = true →
     let b := fmtBits w.ty.toNat
     let op := fieldOf w.md 2 0
     let node (x y : Int) : Int := intoType (fmtSigned w.ty.toNat) b false (combine op b x y)
     let acc := scanAt node (p.elemOr s w 0x35 op) (identity op b (fmtSigned w.ty.toNat))
     ∃ val : Nat → Word,
       Gives (.lscan w) s p (.r 0x35 w) w.vd.toNat w.ty.toNat 0 3 val noFlags ∧
       ∀ i j, i < 32 → j < 64 / b →
         sub (val i) b j = wrap (acc (if bitOf w.md 6 then i * (64 / b) + j else i * (64 / b) + j + 1)) b)) ∧
  ((∀ (s : State) (p : Path) (w : RW), Ready s p (.r 0x36 w) → p.team.slane = false →
     let r := Raw.r 0x36 w
     let a := w.va.toNat
     let b := w.vb.toNat
     typeOk (p.view s r) [a, b] w.ty.toNat false = true → linksNone (p.view s r) [a, b] = true → wholeTeam (p.iss s r) p.team = true →
     let key (n i : Nat) : Int := elemInt (fmtSigned w.ty.toNat) 64 (p.src s r n i).toNat
     let le (i k : Nat) : Bool := key a i ≤ key b k
     let rank := mergedAt le (p.src s r a) (p.src s r b)
     GivesWhole (.vmerge w) s p r
       [(w.vd.toNat, w.ty.toNat, 0, 3, rank), (w.vd.toNat + 1, w.ty.toNat, 0, 3, fun i => rank (32 + i))] 0 none) ∧
   (∀ (s : State) (p : Path) (w : RW), Ready s p (.r 0x37 w) → p.team.slane = false →
     let r := Raw.r 0x37 w
     let a := w.va.toNat
     let b := w.vb.toNat
     let d := w.vd.toNat
     typeOk (p.view s r) [a, b] w.ty.toNat false = true → linksNone (p.view s r) [a, b, a + 1, b + 1] = true →
     formatsOk (p.view s r) [a + 1, b + 1] (fun f => [7, 8, 12, 0, 21].contains f) = true → wholeTeam (p.iss s r) p.team = true →
     let key (n i : Nat) : Int := elemInt (fmtSigned w.ty.toNat) 64 (p.src s r n i).toNat
     let le (i k : Nat) : Bool := key a i ≤ key b k
     let rank := mergedAt le (p.src s r a) (p.src s r b)
     let value := mergedAt le (p.src s r (a + 1)) (p.src s r (b + 1))
     let va := (p.view s r).reg (a + 1)
     let vb := (p.view s r).reg (b + 1)
     let fmt := if va.isDead then (if vb.isDead then 0 else vb.fmt) else if vb.isDead = true ∨ va.fmt = vb.fmt then va.fmt else 0
     GivesWhole (.vmergekv w) s p r
       [(d, w.ty.toNat, 0, 3, rank), (d + 1, w.ty.toNat, 0, 3, fun i => rank (32 + i)), (d + 2, fmt, 0, 3, value),
         (d + 3, fmt, 0, 3, fun i => value (32 + i))] 0 none))


/-! ### Float words (class 2) -/

/-- R107, R108 on the IEEE formats: sums, products, quotients, minimum and maximum, each rounded once. R125: block-scaled
arithmetic on the narrow formats. What the spec's words leave open in it is the model's choice: log entry 83. -/
def Obligations.FloatArithmetic : Prop :=
  (IeeeWord .fadd 0x38 vabR id (fun w a b _ => fAdd (ffmt w.ty.toNat) (rmOf w) (ftzOf w) a b) ∧
   IeeeWord .fsub 0x39 vabR id (fun w a b _ => fSub (ffmt w.ty.toNat) (rmOf w) (ftzOf w) a b) ∧
   IeeeWord .fmul 0x3A vabR id (fun w a b _ => fMul (ffmt w.ty.toNat) (rmOf w) (ftzOf w) a b) ∧
   IeeeWord .ffma 0x3B vabcR id (fun w a b c => fFma (ffmt w.ty.toNat) (rmOf w) (ftzOf w) a b c) ∧
   IeeeWord .fdiv 0x3C vabR id (fun w a b _ => fDiv (ffmt w.ty.toNat) (rmOf w) (ftzOf w) a b) ∧
   IeeeWord .fmin 0x3D vabR id (fun w a b _ => fMinMax (ffmt w.ty.toNat) false (bitOf w.md 3) (ftzOf w) a b) ∧
   IeeeWord .fmax 0x3E vabR id (fun w a b _ => fMinMax (ffmt w.ty.toNat) true (bitOf w.md 3) (ftzOf w) a b)) ∧
  (NarrowWord .fadd 0x38 vabR .add ∧ NarrowWord .fsub 0x39 vabR .sub ∧ NarrowWord .fmul 0x3A vabR .mul ∧
   NarrowWord .ffma 0x3B vabcR .fma ∧ NarrowWord .fmin 0x3D vabR .min ∧ NarrowWord .fmax 0x3E vabR .max)

/-- R110, R111, R113, R114: classification, square root, the approximations, rounding to an integral value, and scaling. R109:
the comparison of a sub-element, and the mask of all of them. What the spec's words leave open in it is the model's choice:
log entries 20, 41 and 82. -/
def Obligations.FloatFunctionsAndCompares : Prop :=
  (IeeeWord .fclass 0x46 vaR (fun f => unsignedOf (fmtBits f)) (fun w a _ _ => (fClass (ffmt w.ty.toNat) a, 0)) ∧
   IeeeWord .frcp 0x40 vaR id (fun w a _ _ => fRcp w.ty.toNat (ftzOf w) a) ∧
   IeeeWord .frsq 0x41 vaR id (fun w a _ _ => fRsq w.ty.toNat (ftzOf w) a) ∧
   IeeeWord .fsqrt 0x42 vaR id (fun w a _ _ => fSqrt (ffmt w.ty.toNat) (rmOf w) (ftzOf w) a) ∧
   IeeeWord .fexp2 0x43 vaR id (fun w a _ _ => fExp2 w.ty.toNat (ftzOf w) a) ∧
   IeeeWord .flog2 0x44 vaR id (fun w a _ _ => fLog2 w.ty.toNat (ftzOf w) a) ∧
   IeeeWord .frnd 0x47 vaR id (fun w a _ _ => fRnd (ffmt w.ty.toNat) (rmOf w) (bitOf w.md 3) (ftzOf w) a) ∧
   (∀ (s : State) (p : Path) (w : RW), Ready s p (.r 0x48 w) →
     let r := Raw.r 0x48 w
     let b := fmtBits w.ty.toNat
     ieeeOk (p.view s r) [w.va.toNat] w.ty.toNat = true → linksNone (p.view s r) [w.vb.toNat] = true →
     formatsOk (p.view s r) [w.vb.toNat] (fun f => [3, 4, 5, 6, 7, 8].contains f && fmtBits f == b) = true →
     let out (i j : Nat) : Nat × Nat := fScale (ffmt w.ty.toNat) (rmOf w) (ftzOf w) (sub (p.src s r w.va.toNat i) b j)
       (sext (sub (p.src s r w.vb.toNat i) b j) b)
     ∃ (val : Nat → Word) (fl : Nat → Nat), Gives (.fscale w) s p r w.vd.toNat w.ty.toNat 0 (p.uniform s r (vabR w)) val fl ∧
       ∀ i, (∀ j, j < 64 / b → sub (val i) b j = (out i j).1 % 2 ^ b) ∧
         fl i = orFlags ((List.range (64 / b)).map (fun j => (out i j).2))) ∧
   (∀ (s : State) (p : Path) (w : RW), Ready s p (.r 0x45 w) →
     let r := Raw.r 0x45 w
     let b := fmtBits w.ty.toNat
     ieeeOk (p.view s r) [w.va.toNat] w.ty.toNat = true →
     let out (i j : Nat) : Nat × Nat × Nat := fSinCos w.ty.toNat (ftzOf w) (sub (p.src s r w.va.toNat i) b j)
     ∃ (t : State) (u : Team) (sin cos : Nat → Word) (fl : Nat → Nat), exec (.fsincos w) s = .next t ∧
       After s t p r 0 (fun _ => false) fl ∧
       Wrote p.team u (p.iss s r).act (p.dead s r) w.vd.toNat w.ty.toNat 0 (p.uniform s r [w.va.toNat]) sin ∧
       Wrote u (p.teamIn t) (p.iss s r).act [] (w.vd.toNat + 1) w.ty.toNat 0 (p.uniform s r [w.va.toNat]) cos ∧
       ∀ i, (∀ j, j < 64 / b → sub (sin i) b j = (out i j).1 % 2 ^ b ∧ sub (cos i) b j = (out i j).2.1 % 2 ^ b) ∧
         fl i = orFlags ((List.range (64 / b)).map (fun j => (out i j).2.2)))) ∧
  ((∀ (s : State) (p : Path) (w : RW), Ready s p (.r 0x3F w) → fcmpOk (p.view s (.r 0x3F w)) w = true →
     Tests (.fcmp w) s p (.r 0x3F w) w.vd.toNat (fun i => (fcmpTest (p.view s (.r 0x3F w)) w i (fieldOf w.md 10 7)).1)
       (fun i => (fcmpTest (p.view s (.r 0x3F w)) w i (fieldOf w.md 10 7)).2)) ∧
   (∀ (s : State) (p : Path) (w : RW), Ready s p (.r 0x3F w) → fcmpOk (p.view s (.r 0x3F w)) w = true →
     let b := fmtBits w.ty.toNat
     ∃ (val : Nat → Word) (fl : Nat → Nat), Gives (.fcmpMask w) s p (.r 0x3F w) w.vd.toNat (unsignedOf b) 0
         (p.shape s (.r 0x3F w) (if p.allUniform s (.r 0x3F w) (vabR w) && sameLanes val then 1 else 3)) val fl ∧
       ∀ i,
         (∀ j, j < 64 / b →
           sub (val i) b j = if (fcmpTest (p.view s (.r 0x3F w)) w i j).1 then 2 ^ b - 1 else 0) ∧
         fl i = orFlags ((List.range (64 / b)).map (fun j => (fcmpTest (p.view s (.r 0x3F w)) w i j).2))) ∧
   (∀ (v : Team) (w : RW) (i j : Nat), isNarrow w.ty.toNat = false →
     let f := ffmt w.ty.toNat
     let x (n : Nat) : Nat := ftz f (bitOf w.md 5) (sub ((v.reg n).lane i) (fmtBits w.ty.toNat) j)
     fcmpTest v w i j = (fTest (fieldOf w.md 3 0) (fDecode f (x w.va.toNat)) (fDecode f (x w.vb.toNat)),
       if fIsSNaN f (x w.va.toNat) ∨ fIsSNaN f (x w.vb.toNat) ∨
           (bitOf w.md 4 ∧ (fIsNaN f (x w.va.toNat) ∨ fIsNaN f (x w.vb.toNat))) then 1 else 0)))

/-- R115, R116, R117: conversions between widths, with the part selector. What the spec's words leave open in it is the
model's choice: log entry 82. -/
def Obligations.Conversions : Prop :=
  ∀ (s : State) (p : Path) (w : RW) (toInt : Bool),
    let r := Raw.r (if toInt then 0x4A else 0x49) w
    let v := p.view s r
    let ty := w.ty.toNat
    let src := cvtSrc v w.va.toNat ty
    let part := fieldOf w.md 6 3
    let ns := fmtElems src
    let nd := fmtElems ty
    Ready s p r → (nd > ns → deadOf (p.iss s r) v [w.vd.toNat] = none) →
    formatsOk v [w.va.toNat] (fun f => cvtFormats.contains f) = true → (typesFloat.contains src = true → linksNone v [w.va.toNat] = true) →
    partOk src ty part = true →
    let conv (x : Nat) : Nat × Nat :=
      if toInt then
        (if typesFloat.contains src then iOfFloat (ffmt src) (rmOf w) (fmtSigned ty) (fmtBits ty) x
        else
          let n := elemInt (fmtSigned src) (fmtBits src) x
          (wrap (if bitOf w.md 9 = true ∧ fmtBits ty ≤ fmtBits src then satBy (fmtSigned ty) n (fmtBits ty) else n) (fmtBits ty), 0))
      else
        (if typesFloat.contains src then fConv (ffmt src) (ffmt ty) (rmOf w) (ftzOf w) x
        else fOfInt (ffmt ty) (rmOf w) (ftzOf w) (elemInt (fmtSigned src) (fmtBits src) x))
    let a (i k : Nat) : Nat := sub (p.src s r w.va.toNat i) (fmtBits src) k
    let old (i j : Nat) : Nat := sub (p.src s r w.vd.toNat i) (fmtBits ty) j
    let out (i j : Nat) : Nat × Nat :=
      if nd ≤ ns then conv (a i (part * nd + j))
      else if part * ns ≤ j ∧ j < part * ns + ns then conv (a i (j - part * ns)) else (old i j, 0)
    ∃ (val : Nat → Word) (fl : Nat → Nat),
      Gives (if toInt then .icvt w else .fcvt w) s p r w.vd.toNat ty 0 (p.uniform s r (if nd > ns then [w.va.toNat, w.vd.toNat] else [w.va.toNat])) val fl ∧
      ∀ i, (∀ j, j < nd → sub (val i) (fmtBits ty) j = (out i j).1 % 2 ^ fmtBits ty) ∧
        fl i = orFlags ((List.range nd).map (fun j => (out i j).2))

/-- R122, R123, R124: float registers quantised to blocks, blocks expanded to float registers, blocks re-expressed. What the
spec's words leave open in it is the model's choice: log entries 82, 83 and 95. -/
def Obligations.BlockConversions : Prop :=
  (∀ (s : State) (p : Path) (w : RW) (fix : Bool), Ready s p (.r 0x4B w) → p.team.slane = false →
    let r := Raw.r 0x4B w
    let v := p.view s r
    let ty := w.ty.toNat
    let src := 9 + fieldOf w.md 2 1
    let x := fieldOf w.md 10 7
    let rs := List.range' w.va.toNat (qcvtRegs (fieldOf w.md 2 1) ty)
    ieeeOk v rs src = true → wholeTeam (p.iss s r) p.team = true →
    let vals := (rs.flatMap (fun n => elements v n (fmtBits src))).map (fDecode (ffmt src))
    let blocks := (List.range (fmtElems ty)).map (fun b =>
      blockQcvt ty fix (scaleByte (v.scaleReg x) b) ((vals.drop (32 * b)).take 32))
    let elems := blocks.flatMap (fun b => b.2)
    GivesWhole (if fix then .qcvtFix w else .qcvt w) s p r
      [(w.vd.toNat, ty, x + 1, 3, fun i => ofSubs (fmtBits ty) (((elems.map (·.1)).drop (i * fmtElems ty)).take (fmtElems ty)))]
      (activeFlags (p.iss s r).act (fmtElems ty) elems)
      (some (x, newScale fix (p.team.scaleReg x) (blocks.map (fun b => b.1))))) ∧
  (∀ (s : State) (p : Path) (w : RW), Ready s p (.r 0x4C w) → p.team.slane = false →
    let r := Raw.r 0x4C w
    let v := p.view s r
    let ty := w.ty.toNat
    let src := dqcvtFmt (fieldOf w.md 5 3)
    formatsOk v [w.va.toNat] (fun f => f == src) = true → wholeTeam (p.iss s r) p.team = true →
    let ns := 32 * fmtElems src
    let out (e : Nat) : Nat × Nat :=
      if e < ns then narrowToFloat ty (rmOf w) (ftzOf w) (narrowValue src (nth (scalesOf v w.va.toNat src) 0 (e / 32))
        (p.elem s r w.va.toNat (fmtBits src) e)) else (0, 0)
    let lane (n i : Nat) : Word :=
      ofSubs (fmtBits ty) ((List.range (fmtElems ty)).map (fun j => (out ((32 * n + i) * fmtElems ty + j)).1))
    GivesWhole (.dqcvt w) s p r
      ((List.range (dqcvtRegs (fieldOf w.md 5 3) ty)).map (fun n => (w.vd.toNat + n, ty, 0,
        p.shape s r (if (p.iss s r).act ≠ 0 ∧ p.allUniform s r [w.va.toNat] = true ∧ sameLanes (lane n) = true then 1 else 3),
        lane n)))
      (activeFlags (p.iss s r).act (fmtElems src) ((List.range ns).map out)) none) ∧
  (∀ (s : State) (p : Path) (w : RW), Ready s p (.r 0x4D w) → p.team.slane = false →
    let r := Raw.r 0x4D w
    let v := p.view s r
    let ty := w.ty.toNat
    let x := fieldOf w.md 10 7
    let values (b : Nat) : List FVal := (blockCodes v w.va.toNat ty b).map (narrowValue ty (nth (scalesOf v w.va.toNat ty) 0 b))
    let fixed (b : Nat) : List (Nat × Nat) := blockReexpress ty (scaleByte (v.scaleReg x) b) (values b)
    let fresh (b : Nat) : Nat × List (Nat × Nat) := blockQuant ty (values b)
    formatsOk v [w.va.toNat] (fun f => f == ty) = true → wholeTeam (p.iss s r) p.team = true →
    let lanes (es : List (Nat × Nat)) (i : Nat) : Word := ofSubs (fmtBits ty) (((es.map (·.1)).drop (i * fmtElems ty)).take (fmtElems ty))
    let old := (List.range (fmtElems ty)).flatMap fixed
    let new := (List.range (fmtElems ty)).flatMap (fun b => (fresh b).2)
    GivesWhole (.scadj w) s p r
      [(w.vd.toNat, ty, x + 1, 3, lanes old)] (activeFlags (p.iss s r).act (fmtElems ty) old) none ∧
    GivesWhole (.scadjNorm w) s p r
      [(w.vd.toNat, ty, x + 1, 3, lanes new)] (activeFlags (p.iss s r).act (fmtElems ty) new)
      (some (x, scaleOf ((List.range (fmtElems ty)).map (fun b => (fresh b).1)))))

/-- R126, R127: dot products with one rounding, and the sum of the active elements over the pairwise tree. What the spec's
words leave open in it is the model's choice: log entry 82. -/
def Obligations.DotsAndSums : Prop :=
  (∀ (s : State) (p : Path) (w : RW), Ready s p (.r 0x4E w) →
    let r := Raw.r 0x4E w
    let v := p.view s r
    let ty := w.ty.toNat
    let b := fmtBits ty
    let h := 64 / b / 2
    (if isNarrow ty then formatsOk v (vabR w) (fun f => f == ty) = true else ieeeOk v (vabR w) ty = true) →
    ieeeOk v [w.vc.toNat] 11 = true →
    let part (n i g : Nat) : List Nat := (List.range h).map (fun k => sub (p.src s r n i) b (g * h + k))
    let scale (n i : Nat) : Nat := nth (scalesOf v n ty) 0 (i * fmtElems ty / 32)
    let out (i g : Nat) : Nat × Nat := dotGroup ty (rmOf w) (ftzOf w) (scale w.va.toNat i) (scale w.vb.toNat i)
      (part w.va.toNat i g) (part w.vb.toNat i g) (sub (p.src s r w.vc.toNat i) 32 g)
    ∃ (val : Nat → Word) (fl : Nat → Nat), Gives (.fdot w) s p r w.vd.toNat 11 0
        (p.shape s r (if p.allUniform s r (vabcR w) && sameLanes val then 1 else 3)) val fl ∧
      ∀ i, sub (val i) 32 0 = (out i 0).1 % 2 ^ 32 ∧ sub (val i) 32 1 = (out i 1).1 % 2 ^ 32 ∧
        fl i = (out i 0).2 ||| (out i 1).2) ∧
  (∀ (s : State) (p : Path) (w : RW) (levels : Nat), Ready s p (.r 0x4F w) →
    let r := Raw.r 0x4F w
    let ty := w.ty.toNat
    let b := fmtBits ty
    let acc := if bitOf w.md 5 then (if ty = 11 then 12 else 11) else ty
    ieeeOk (p.view s r) [w.va.toNat] ty = true → 2 ^ levels = 32 * (64 / b) →
    let leaf (e : Nat) : Option (Nat × Nat) :=
      let x := p.elem s r w.va.toNat b e
      if (p.iss s r).act.getLsbD (e / (64 / b)) then some (if acc = ty then (x, 0) else fConv (ffmt ty) (ffmt acc) 0 false x) else none
    let total := (treeOf (sumNode acc (rmOf w)) leaf levels 0).getD (0, 0)
    ∃ val : Nat → Word, Gives (.fsum w) s p r w.vd.toNat acc 0 (p.uniform s r [w.va.toNat]) val (fun _ => total.2) ∧
      ∀ i j, j < 64 / fmtBits acc → sub (val i) (fmtBits acc) j = total.1 % 2 ^ fmtBits acc)

/-- R28, R29: both operations of a PAIR read their sources before either writes; each is the full instruction with default
modifiers. -/
def Obligations.Pairs : Prop :=
  ∀ (s : State) (p : Path) (w : PW), Ready s p (.p w) → copOk (p.view s (.p w)) w.op0 = true → copOk (p.view s (.p w)) w.op1 = true →
    ∃ (t : State) (u : Team) (fl : Nat → Nat), exec (.pairW w) s = .next t ∧ After s t p (.p w) 0 (fun _ => false) fl ∧
      CopWrote p s w w.op0 p.team u (p.dead s (.p w)) ∧ CopWrote p s w w.op1 u (p.teamIn t) [] ∧
      ∀ i, fl i = (copResult p s w w.op0 i).2 ||| (copResult p s w w.op1 i).2


/-! ### Control words (class 0) -/

/-- R43–R47: the transfers. A target must pass the checks of R14 for every fibre that goes there. R44: a BRA whose target
fails a check parks its active fibres at the transfer word, and only them. What the spec's words leave open in it is the
model's choice: log entries 39 and 80. -/
def Obligations.Branches : Prop :=
  ((∀ (s : State) (p : Path) (w : IW), Ready s p (.i 0x01 w) →
     let tgt : Int := ((p.iss s (.i 0x01 w)).pc : Int) + w.imm.toInt * 8
     ((p.iss s (.i 0x01 w)).act ≠ 0 → p.lands s tgt) → Transfers (.bra w) s p (.i 0x01 w) (fun _ => tgt)) ∧
   (∀ (s : State) (p : Path) (w : IW), Ready s p (.i 0x02 w) →
     ((p.iss s (.i 0x02 w)).act = 0 ∨ (p.iss s (.i 0x02 w)).act = p.lanes) →
     let tgt : Int := ((p.iss s (.i 0x02 w)).pc : Int) + w.imm.toInt * 8
     ((p.iss s (.i 0x02 w)).act ≠ 0 → p.lands s tgt) → Transfers (.bru w) s p (.i 0x02 w) (fun _ => tgt)) ∧
   (∀ (s : State) (p : Path) (w : IW) (tgt : Word), Ready s p (.i 0x02 w) →
     ((p.iss s (.i 0x02 w)).act = 0 ∨ (p.iss s (.i 0x02 w)).act = p.lanes) →
     formatsOk (p.view s (.i 0x02 w)) [w.va.toNat] numFmts.contains = true →
     (∀ i, (p.iss s (.i 0x02 w)).act.getLsbD i = true → p.src s (.i 0x02 w) w.va.toNat i = tgt) →
     ((p.iss s (.i 0x02 w)).act ≠ 0 → p.lands s tgt.toNat) → Transfers (.bruR w) s p (.i 0x02 w) (fun _ => tgt.toNat)) ∧
   (∀ (s : State) (p : Path) (w : RW) (returns : Bool),
     let r := Raw.r (if returns then 0x05 else 0x03) w
     Ready s p r → formatsOk (p.view s r) [w.va.toNat] numFmts.contains = true →
     (∀ i, (p.iss s r).act.getLsbD i = true → p.lands s (p.src s r w.va.toNat i).toNat) →
     Transfers (if returns then .ret w else .jmpi w) s p r (fun i => (p.src s r w.va.toNat i).toNat))) ∧
  (∀ (s : State) (p : Path) (w : IW), Ready s p (.i 0x01 w) → p.team.slane = false →
     let r := Raw.i 0x01 w
     let tgt : Int := ((p.iss s r).pc : Int) + w.imm.toInt * 8
     ¬ p.lands s tgt →
     ∃ t, exec (.bra w) s = .next t ∧ (∀ k, (p.teamIn t).reg k = p.team.reg k) ∧
       ∀ i, i < 32 → p.lanes.getLsbD i = true →
         ((p.teamIn t).lane i).parked = (p.iss s r).act.getLsbD i ∧
         ((p.teamIn t).lane i).pc = (if (p.iss s r).act.getLsbD i then (p.iss s r).pc else (p.iss s r).pc + 8))

/-- R47, R48: CALL writes the address of the word after it; LOOP counts down and goes back while the counter stays non-zero.
What the spec's words leave open in it is the model's choice: log entry 80. -/
def Obligations.CallsAndLoops : Prop :=
  (∀ (s : State) (p : Path) (w : IW), Ready s p (.i 0x04 w) →
    let r := Raw.i 0x04 w
    let tgt : Int := ((p.iss s r).pc : Int) + w.imm.toInt * 8
    ((p.iss s r).act ≠ 0 → p.lands s tgt) →
    ∃ t, exec (.callW w) s = .next t ∧
      Sent (p.based s ((p.iss s r).act != 0)) t p p.team
        (fun i => if (p.iss s r).act.getLsbD i then tgt.toNat else (p.iss s r).pc + 8) none ∧
      Wrote p.team (p.teamIn t) (p.iss s r).act (p.dead s r) w.vd.toNat 8 0 3 (fun _ => BitVec.ofNat 64 ((p.iss s r).pc + 8))) ∧
  (∀ (s : State) (p : Path) (w : IW), Ready s p (.i 0x06 w) →
    let r := Raw.i 0x06 w
    let tgt : Int := ((p.iss s r).pc : Int) + w.imm.toInt * 8
    let c (i : Nat) : Word := p.src s r w.va.toNat i
    let more (i : Nat) : Bool := (p.iss s r).act.getLsbD i && 1 < (c i).toNat
    formatsOk (p.view s r) [w.va.toNat] [8, 7].contains = true → ((∃ i, more i = true) → p.lands s tgt) →
    ∃ t, exec (.loopW w) s = .next t ∧
      Sent (p.based s ((List.range 32).any more)) t p p.team (fun i => if more i then tgt.toNat else (p.iss s r).pc + 8) none ∧
      ((∃ i, i < 32 ∧ (p.iss s r).act.getLsbD i = true ∧ c i ≠ 0) →
        Wrote p.team (p.teamIn t) (p.iss s r).act (p.dead s r) w.va.toNat
          (if ((p.view s r).reg w.va.toNat).isDead then 8 else ((p.view s r).reg w.va.toNat).fmt) 0 (p.uniform s r [w.va.toNat])
          (fun i => if c i = 0 then 0 else c i - 1)) ∧
      ((∀ i, i < 32 → (p.iss s r).act.getLsbD i = true → c i = 0) → RegsKept p.team (p.teamIn t) (p.dead s r)))

/-- R49, R50, R51: fibres started in free slots, fibres ended, a team ended. After a word that ends fibres the arrivals of the
core's teams are judged again (R52). R53, R54, R56: a region opens at the header after its clause with its live-ins, and
closes. What the spec's words leave open in it is the model's choice: log entries 37, 39 and 80. -/
def Obligations.FibresAndRegions : Prop :=
  ((∀ (s : State) (p : Path) (w : IW) (tgt : Word), Ready s p (.i 0x07 w) → p.team.slane = false →
     let r := Raw.i 0x07 w
     let free := w.imm &&& ~~~p.team.liveMask
     (p.iss s r).act ≠ 0 → formatsOk (p.view s r) [w.va.toNat] numFmts.contains = true →
     (∀ i, (p.iss s r).act.getLsbD i = true → p.src s r w.va.toNat i = tgt) →
     targetCode s (agentCore p.agent) p.team.asid p.team.code tgt.toNat = 0 →
     ∃ t, exec (.fork w) s = .next t ∧ Kept s t p ∧
       Wrote p.team (p.teamIn t) (p.iss s r).act (p.dead s r) w.vd.toNat 8 0 3 (fun _ => free.setWidth 64) ∧
       ∀ i, i < 32 →
         ((p.teamIn t).lane i).live = ((p.team.lane i).live || free.getLsbD i) ∧
         (free.getLsbD i = true → ((p.teamIn t).lane i).pc = tgt.toNat ∧ ((p.teamIn t).lane i).wait = none ∧
           ((p.teamIn t).lane i).parked = false ∧ ∀ k, k < 16 → (p.teamIn t).pred i k = (k == 0)) ∧
         (p.lanes.getLsbD i = true → ((p.teamIn t).lane i).pc = (p.iss s r).pc + 8) ∧
         (free.getLsbD i = false → p.lanes.getLsbD i = false → (p.teamIn t).lane i = p.team.lane i)) ∧
   (∀ (s : State) (p : Path) (w : RW) (all : Bool),
     let r := Raw.r (if all then 0x09 else 0x08) w
     Ready s p r → p.team.slane = false →
     let ends (i : Nat) : Bool := if all then (p.iss s r).act != 0 else (p.iss s r).act.getLsbD i
     ∃ t, exec (if all then .exitW w else .fend w) s = .next (arriveCore t (agentCore p.agent)) ∧
       ((∃ i, i < 32 ∧ (p.team.lane i).live = true ∧ ends i = false) → Kept s t p ∧ (p.teamIn t).st = p.team.st) ∧
       ((∀ i, i < 32 → (p.team.lane i).live = true → ends i = true) → (p.teamIn t).st = .ending) ∧
       (∀ k, k ∉ p.dead s r → (p.teamIn t).reg k = p.team.reg k) ∧
       ∀ i, i < 32 →
         ((p.teamIn t).lane i).live = ((p.team.lane i).live && !ends i) ∧
         (p.lanes.getLsbD i = true → ends i = false → ((p.teamIn t).lane i).pc = (p.iss s r).pc + 8) ∧
         (p.lanes.getLsbD i = false → ends i = false → (p.teamIn t).lane i = p.team.lane i))) ∧
  ((∀ (s : State) (p : Path) (w : IW) (i : Instr) (live : Word), Ready s p (.i 0x0A w) → p.team.slane = false →
     let r := Raw.i 0x0A w
     i ∈ [Instr.regionW w, .regionProd w, .regionCons w] → p.team.freeRunMask &&& ~~~p.lanes = 0 →
     (∀ k, p.lanes.getLsbD k = true → p.src s r w.va.toNat k = live) →
     ∃ t, exec i s = .next t ∧
       Sent { s with nextId := s.nextId + 1 } t p { p.team with region := some {
           id := s.nextId, at_ := (p.iss s r).pc, entered := false, role := if graftFlagged s p.team.lseq then fieldOf w.md 1 0 else 0,
           pc := p.clause.hpc + 8 * (headerLen p.clause.header + 1), livein := live, ctr := w.vd.toNat, slot := fieldOf w.imm 7 0 } }
         (fun _ => (p.iss s r).pc + 8) none ∧
       RegsKept p.team (p.teamIn t) (p.dead s r)) ∧
   (∀ (s : State) (p : Path) (w : IW), Ready s p (.i 0x0A w) → p.team.slane = false →
     ∃ t, exec (.regionEnd w) s = .next t ∧
       Sent s t p { p.team with region := none } (fun _ => (p.iss s (.i 0x0A w)).pc + 8) none ∧
       RegsKept p.team (p.teamIn t) (p.dead s (.i 0x0A w))))

/-- R57: votes over the active fibres. R70, R71: TAGQ reads a tag as a number, whatever the register holds; DEAD kills a range
of registers. -/
def Obligations.Predicates : Prop :=
  (∀ (s : State) (p : Path) (w : RW),
     let v := p.view s (.r 0x0B w)
     let act := (p.iss s (.r 0x0B w)).act
     let a (i : Nat) : Bool := v.pred i (fieldOf w.va 3 0)
     Ready s p (.r 0x0B w) →
       (∃ some, Tests (.voteAny w) s p (.r 0x0B w) (fieldOf w.vd 3 0) (fun _ => some) noFlags ∧
         (some = true ↔ ∃ i, i < 32 ∧ act.getLsbD i = true ∧ a i = true)) ∧
       (∃ all, Tests (.voteAll w) s p (.r 0x0B w) (fieldOf w.vd 3 0) (fun _ => all) noFlags ∧
         (all = true ↔ ∀ i, i < 32 → act.getLsbD i = true → a i = true)) ∧
       (∃ same, Tests (.voteUni w) s p (.r 0x0B w) (fieldOf w.vd 3 0) (fun _ => same) noFlags ∧
         (same = true ↔ ∀ i j, i < 32 → j < 32 → act.getLsbD i = true → act.getLsbD j = true →
           p.src s (.r 0x0B w) w.va.toNat i = p.src s (.r 0x0B w) w.va.toNat j)) ∧
       (∃ ballot : Word, Gives (.voteBallot w) s p (.r 0x0B w) w.vd.toNat 8 0 3 (fun _ => ballot) noFlags ∧
         ∀ i, ballot.getLsbD i = (decide (i < 32) && (act.getLsbD i && a i)))) ∧
  ((∀ (s : State) (p : Path) (w : RW), Ready s p (.r 0x16 w) →
     Gives (.tagq w) s p (.r 0x16 w) w.vd.toNat 8 0 3
       (fun _ => BitVec.ofNat 64 ((p.view s (.r 0x16 w)).reg w.va.toNat).tag) noFlags) ∧
   (∀ (s : State) (p : Path) (w : RW), Ready s p (.r 0x17 w) → p.team.slane = false →
     ∃ t, exec (.deadW w) s = .next t ∧ Sent s t p p.team (fun _ => (p.iss s (.r 0x17 w)).pc + 8) none ∧
       RegsKept p.team (p.teamIn t) (p.dead s (.r 0x17 w) ++ List.range' w.va.toNat (w.vb.toNat + 1 - w.va.toNat))))

/-- R58: PLOP computes pd := MOD[i] for each active fibre, with i = pa + 2 × pb, from the predicates as they were. -/
def Obligations.PredicateTable : Prop :=
  ∀ (s : State) (p : Path) (w : RW), Ready s p (.r 0x0C w) →
    Tests (.plop w) s p (.r 0x0C w) (fieldOf w.vd 3 0)
      (fun i => (fieldOf w.md 3 0).testBit
        (b2n ((p.view s (.r 0x0C w)).pred i (fieldOf w.va 3 0)) + 2 * b2n ((p.view s (.r 0x0C w)).pred i (fieldOf w.vb 3 0))))
      noFlags

/-- R59: a team outside the presented mask, or with another word, does not touch the register; the first signer starts it
collecting; the last one leaves it idle and lets every signer go on. R61: an arrival at a barrier with another count than it
expects is a mismatch and leaves it unchanged; an arrival below the count raises the arrived count; the last one empties it,
turns its phase and lets every waiting fibre go on. R52, R59, R61: SIGN and BAR make the fibres of their path wait for the
team's arrival, and arrivals are then judged; a BAR that no fibre of the path is active for is not issued by it. What the
spec's words leave open in it is the model's choice: log entry 39. -/
def Obligations.SignaturesAndBarriers : Prop :=
  (∀ (s : State) (core slot n : Nat) (t : Team) (cp : Copse) (mask : BitVec 16) (b : Word) (pc : Nat),
     (s.core core).copse? cp.id = some cp →
     let cv := mget cp.cv ⟨false, 0, [], 0, 0⟩ n
     let me := BitVec.twoPow 16 t.tno
     let u := present s core slot t cp n mask b [] pc false
     let after := ((u.core core).copse? cp.id).map (fun c => mget c.cv ⟨false, 0, [], 0, 0⟩ n)
     (mask &&& me = 0 ∨ (cv.collecting = true ∧ (cv.word ≠ b ∨ cv.ops ≠ [] ∨ cv.arrived &&& me ≠ 0)) →
       u = mismatch s core slot t b n) ∧
     (mask &&& me ≠ 0 → cv.collecting = false → me ≠ mask → after = some ⟨true, b, [], mask, me⟩) ∧
     (mask &&& me ≠ 0 → cv.collecting = false → me = mask → after = some ⟨false, 0, [], 0, 0⟩) ∧
     (mask &&& me ≠ 0 → cv.collecting = true → cv.word = b → cv.ops = [] → cv.arrived &&& me = 0 →
       (cv.arrived ||| me ≠ mask → after = some ⟨true, b, [], mask, cv.arrived ||| me⟩) ∧
       (cv.arrived ||| me = mask → after = some ⟨false, 0, [], 0, 0⟩ ∧
         ∀ k u', (k ∈ cp.slots ∧ k ≠ slot) → (s.core core).team? k = some u' →
           (u.core core).team? k = some (u'.resume s.now (fun x => x == .signed n))))) ∧
  (∀ (s : State) (core slot : Nat) (t : Team) (cp : Copse) (b : Word) (w : IW),
     (s.core core).copse? cp.id = some cp →
     let n := fieldOf w.imm 3 0
     let count := fieldOf w.imm 7 4 + 1
     let bar := mget cp.bar ⟨0, 0, false⟩ n
     let u := arriveBar s core slot t cp b w
     let after := ((u.core core).copse? cp.id).map (fun c => mget c.bar ⟨0, 0, false⟩ n)
     (bar.arrived ≠ 0 → count ≠ bar.expected → u = mismatch s core slot t b n) ∧
     (bar.arrived = 0 ∨ count = bar.expected →
       (bar.arrived + 1 ≠ count → after = some ⟨count, bar.arrived + 1, bar.phase⟩) ∧
       (bar.arrived + 1 = count → after = some ⟨count, 0, !bar.phase⟩ ∧
         ∀ k u', k ∈ cp.slots → k ≠ slot → (s.core core).team? k = some u' →
           (u.core core).team? k = some (u'.resume s.now (fun x => match x with | .barPhase m _ => m == n | _ => false))))) ∧
  ((∀ (s : State) (p : Path) (w : EW), Ready s p (.e 0x0D w) →
     ∃ t, exec (.signW w) s = .next (arriveCore t (agentCore p.agent)) ∧
       Sent s t p p.team (fun _ => (p.iss s (.e 0x0D w)).pc) (some (.arrive (p.iss s (.e 0x0D w)).bits [])) ∧
       RegsKept p.team (p.teamIn t) (p.dead s (.e 0x0D w))) ∧
   (∀ (s : State) (p : Path) (w : IW) (i : Instr), Ready s p (.i 0x0E w) → i ∈ [Instr.barSync w, .barArrive w] →
     let r := Raw.i 0x0E w
     ∃ t, exec i s = .next (arriveCore t (agentCore p.agent)) ∧ RegsKept p.team (p.teamIn t) (p.dead s r) ∧
       ((p.iss s r).act ≠ 0 → Sent s t p p.team (fun _ => (p.iss s r).pc) (some (.arrive (p.iss s r).bits []))) ∧
       ((p.iss s r).act = 0 → Sent s t p p.team (fun _ => (p.iss s r).pc + 8) none)))

/-- R62, R66, R67: a counter at or below its threshold lets WAITC pass, another makes the path wait; NOP does nothing; YIELD
gives way to the other ready teams of its quadrant, for 64 clk at most. R63: a fibre of CTRWAIT whose counter meets its
condition has passed; the path goes on once every active fibre's has, and waits otherwise. What the spec's words leave open in
it is the model's choice: log entries 28, 39 and 80. -/
def Obligations.Waits : Prop :=
  ((∀ (s : State) (p : Path) (w : IW), Ready s p (.i 0x0F w) →
     let r := Raw.i 0x0F w
     let cls := fieldOf w.imm 2 0
     let n := fieldOf w.imm 8 3
     let count := ecOf (s.core (agentCore p.agent)) (issuerOf p.agent) p.team.uid cls
     ((p.iss s r).act = 0 ∨ count ≤ n → Passes (.waitc w) s p r) ∧
     ((p.iss s r).act ≠ 0 → n < count → Holds (.waitc w) s p r (.waitc cls n))) ∧
   (∀ (s : State) (p : Path) (w : RW), Ready s p (.r 0x00 w) → Passes (.nop w) s p (.r 0x00 w)) ∧
   (∀ (s : State) (p : Path) (w : RW), Ready s p (.r 0x13 w) →
     let r := Raw.r 0x13 w
     (∀ core slot, p.agent = .team core slot →
       ∃ t, exec (.yield w) s = .next t ∧ RegsKept p.team (p.teamIn t) (p.dead s r) ∧
         Sent s t p { p.team with hold := some ((p.iss s r).clk + 64,
             (List.range' (slot / 4 * 4) 4).filter (fun x => x != slot && teamReady s core x)) }
           (fun _ => (p.iss s r).pc + 8) none) ∧
     (∀ core k, p.agent = .ctx core k → Passes (.yield w) s p r))) ∧
  (∀ (s : State) (p : Path) (w : MW),
     let r := Raw.m 0x10 w
     let act := (p.iss s r).act
     let acc := ctrReads (p.iss s r) (p.view s r) w (lanesOf act) s
     Ready s p r → formatsOk (p.view s r) [w.va.toNat] (addrFormats w.space).contains = true → acc.2.2 = [] →
     SameElsewhere s acc.1 (fun _ => False) ∧
     ((∀ i, act.getLsbD i = true → i ∈ acc.2.1) → Leaves (.ctrwait w) s p r acc.1) ∧
     ((∃ i, i < 32 ∧ act.getLsbD i = true ∧ i ∉ acc.2.1) → ∃ t, exec (.ctrwait w) s = .next t ∧
       SameElsewhere s t (fun _ => False) ∧ (∀ k, (p.teamIn t).reg k = p.team.reg k) ∧
       ∀ i, i < 32 → p.lanes.getLsbD i = true →
         ((p.teamIn t).lane i).pc = (p.iss s r).pc ∧
         ((p.teamIn t).lane i).wait = some (.ctr (p.iss s r).bits (!act.getLsbD i || acc.2.1.contains i))))

/-- R64, R65: GSET leaves a slot unresolved, GRES resolves it; the commands held on it are then judged. What the spec's words
leave open in it is the model's choice: log entry 94. -/
def Obligations.Guards : Prop :=
  (∀ (s : State) (p : Path) (w : EW), Ready s p (.e 0x11 w) → p.team.slane = false →
    ∃ t, exec (.gset w) s = .next t ∧ (p.teamIn t).guardSlot (fieldOf w.vd 2 0) = 2 ∧
      (∀ k, k ≠ fieldOf w.vd 2 0 → (p.teamIn t).guardSlot k = p.team.guardSlot k) ∧
      Sent s t p { p.team with guards := (p.teamIn t).guards } (fun _ => (p.iss s (.e 0x11 w)).pc + 8) none ∧
      RegsKept p.team (p.teamIn t) (p.dead s (.e 0x11 w))) ∧
  (∀ (s : State) (p : Path) (w : EW) (i : Instr) (value : Bool), Ready s p (.e 0x12 w) → p.team.slane = false →
    let r := Raw.e 0x12 w
    let a (k : Nat) : Bool := (p.view s r).pred k (fieldOf w.va 3 0)
    (i = .gresAny w ∧ (value = true ↔ ∃ k, k < 32 ∧ (p.iss s r).act.getLsbD k = true ∧ a k = true) ∨
      i = .gresAll w ∧ (value = true ↔ ∀ k, k < 32 → (p.iss s r).act.getLsbD k = true → a k = true) ∨
      i = .gresT w ∧ value = true ∨ i = .gresF w ∧ value = false) →
    ∃ t, (let u := t.modCore (agentCore p.agent) (judgeHeld t.now)
          exec i s = .next (completeAll (u.core (agentCore p.agent)).cmds.length u (agentCore p.agent))) ∧
      (p.teamIn t).guardSlot (fieldOf w.vd 2 0) = (if value then 0 else 1) ∧
      (∀ k, k ≠ fieldOf w.vd 2 0 → (p.teamIn t).guardSlot k = p.team.guardSlot k) ∧
      Sent s t p { p.team with guards := (p.teamIn t).guards } (fun _ => (p.iss s r).pc + 8) none ∧
      RegsKept p.team (p.teamIn t) (p.dead s r))

/-- R68: a SYSCALL with an active fibre and room in the trap queue posts one entry for each active fibre with its arguments,
parks the whole team, every other path at its next header, and remembers who awaits a result; without room its path waits;
with no active fibre it does nothing. R69, R195, R323: BRK parks its active fibres at the word after it, each with a fault
record that holds its code; the others go on. On the S-lane it is the context's trap, and where its guard is false nothing.
What the spec's words leave open in it is the model's choice: log entries 39 and 94. -/
def Obligations.SystemTraps : Prop :=
  (∀ (s : State) (p : Path) (w : IW) (core slot : Nat), Ready s p (.i 0x14 w) → p.agent = .team core slot →
     let r := Raw.i 0x14 w
     let act := (p.iss s r).act
     let n := (lanesOf act).length
     let room := (s.core core).tqFree.length
     (act = 0 → Passes (.syscall w) s p r) ∧
     (act ≠ 0 → room < n → Holds (.syscall w) s p r .sysq) ∧
     (act ≠ 0 → n ≤ room → ∃ t, exec (.syscall w) s = .next t ∧ (∀ m a, t.byte m a = s.byte m a) ∧
       (t.core core).tqFree.length + n = room ∧
       (∀ k, k ∉ p.dead s r → (p.teamIn t).reg k = p.team.reg k) ∧
       (p.teamIn t).sys = p.team.sys ++ [⟨w.vd.toNat, (lanesOf act).map (fun i => (i, none)), p.team.freeRunMask⟩] ∧
       (∀ i, i < 32 → act.getLsbD i = true → ∃ e ∈ (t.core core).tq, e.2.st = .pending ∧ e.2.cause = cSYSCALL ∧ e.2.slot = slot ∧
         e.2.uid = p.team.uid ∧ e.2.fmask = BitVec.twoPow 32 i ∧ e.2.info = w.imm ∧ e.2.pc = (p.iss s r).pc ∧
         ∀ j, j < w.md.toNat → (e.2.operands.drop (8 * j)).take 8 = leBytes 8 (p.src s r (w.va.toNat + j) i).toNat) ∧
       (∀ i, i < 32 → p.lanes.getLsbD i = true →
         ((p.teamIn t).lane i).parked = true ∧ ((p.teamIn t).lane i).pc = (p.iss s r).pc + 8) ∧
       ∀ i, i < 32 → p.lanes.getLsbD i = false → p.team.freeRunMask.getLsbD i = true →
         ((p.teamIn t).lane i).parked = true ∨ ((p.teamIn t).lane i).parkDue = true)) ∧
  ((∀ (s : State) (p : Path) (w : IW) (core : Nat) (k : Ctx), Ready s p (.i 0x15 w) → p.agent = .ctx core k →
     let r := Raw.i 0x15 w
     ((p.iss s r).act = 0 → Passes (.brk w) s p r) ∧
     ((p.iss s r).act ≠ 0 → ∃ t, exec (.brk w) s = .next t ∧ (∀ m a, t.byte m a = s.byte m a) ∧ CtxTraps s t p r cBRK)) ∧
   ∀ (s : State) (p : Path) (w : IW) (core slot : Nat), Ready s p (.i 0x15 w) → p.agent = .team core slot →
     let r := Raw.i 0x15 w
     let record (i : Nat) : FaultRec :=
       { slot := slot, uid := p.team.uid, lane := i, pc := (p.iss s r).pc, cause := cBRK, addr := none, word := (p.iss s r).bits,
         reg := 0, code := w.imm.toNat, transfer := 0, lseq := (provenance s p.team (p.iss s r).pc).1,
         opc := (provenance s p.team (p.iss s r).pc).2, toM := p.team.priv == 2, ended := false }
     ∃ t, exec (.brk w) s = .next t ∧ (∀ m a, t.byte m a = s.byte m a) ∧ (∀ k, (p.teamIn t).reg k = p.team.reg k) ∧
       (∀ i, i < 32 → p.lanes.getLsbD i = true →
         ((p.teamIn t).lane i).parked = (p.iss s r).act.getLsbD i ∧ ((p.teamIn t).lane i).pc = (p.iss s r).pc + 8) ∧
       (∀ i, i < 32 → (p.iss s r).act.getLsbD i = true →
         record i ∈ (t.core core).waiting ∨ ∃ e ∈ (t.core core).faults, record i ∈ e.recs))


/-! ### Memory words (class 3) -/

/-- R130, R131, R135, R137: each active fibre of LD whose checks pass reads its bytes, in ascending lane order; LDU makes one
access for all its active fibres. R130, R133, R135: what one fibre's load reads where no check unit is bad, byte by byte: the
bytes of its target, in the order of their addresses, a weak one as its own die reads them. The load stores nothing; one that
does not drop its lines (LAST, R134) leaves every byte that every copy agrees on as it was. What the spec's words leave open
in it is the model's choice: log entries 42 and 46. -/
def Obligations.LoadsAndBytes : Prop :=
  ((∀ (s : State) (p : Path) (w : MW),
     let r := Raw.m 0x50 w
     let acc := p.each s r (fun s i => loadLane s (p.iss s r) (p.view s r) w (widthBytes w) (mDisp w) i)
     Ready s p r → formatsOk (p.view s r) [w.va.toNat] (addrFormats w.space).contains = true → acc.2.2 = [] →
     Fetches (.ld w) s p r acc.1 (w.width == 4) w.vd.toNat (widthFmt w) 3 (loadedPair acc.2.1) ∧
       (w.last = 0 → SameElsewhere s acc.1 (fun _ => False))) ∧
   (∀ (s : State) (p : Path) (w : MW) (u : State) (bs : List Byte),
     let r := Raw.m 0x51 w
     Ready s p r → formatsOk (p.view s r) [w.va.toNat] (addrFormats w.space).contains = true → p.team.slane = false →
     (p.iss s r).act ≠ 0 →
     (∀ i j, (p.iss s r).act.getLsbD i = true → (p.iss s r).act.getLsbD j = true →
       placeOf (p.iss s r) (p.view s r) w (mDisp w) i = placeOf (p.iss s r) (p.view s r) w (mDisp w) j) →
     loadLane s (p.iss s r) (p.view s r) w (widthBytes w) (mDisp w) (lowest (p.iss s r).act) = (u, .ok bs) →
     Fetches (.ldu w) s p r u (w.width == 4) w.vd.toNat (widthFmt w) (p.shape s r 1) (fun _ => (loadedWord bs 0, loadedWord bs 8))) ∧
   (∀ (s : State) (p : Path) (w : MW),
     let r := Raw.m 0x51 w
     let acc := p.each s r (fun s i => loadLane s (p.iss s r) (p.view s r) w (widthBytes w) (mDisp w) i)
     Ready s p r → (p.team.slane = true ∨ (p.iss s r).act = 0 ∧ formatsOk (p.view s r) [w.va.toNat] (addrFormats w.space).contains = true) →
     acc.2.2 = [] → Fetches (.ldu w) s p r acc.1 (w.width == 4) w.vd.toNat (widthFmt w) 3 (loadedPair acc.2.1))) ∧
  (∀ (s : State) (iss : Iss) (v : Team) (w : MW) (disp : Int) (i : Nat) (tgt : Tgt) (e : Option Bte),
     let n := widthBytes w
     let res := loadLane s iss v w n disp i
     (laneCheck s iss v w n disp (if w.last = 1 then 3 else 1) 0 [0, 3] i).2 = .ok (tgt, e) → s.bad = [] →
     ((tgt.cells n ≠ [] ∧ (w.strong = 0 ∨ w.scope.toNat < 5)) →
       ∃ bs, res.2 = .ok bs ∧ bs = (tgt.cells n).map (s.reads (dieOf iss.core))) ∧
     (∀ m a, m ≠ .dram → res.1.byte m a = s.byte m a) ∧
     (w.last = 0 → SameElsewhere s res.1 (fun _ => False)))

/-- R136–R138: where each active fibre's checks pass, ST and STM complete, each fibre storing its bytes: the low bytes of VS
and VS + 1, or the bytes of VS that the mask in VS + 1 names; STU stores once for all its active fibres. None writes a
register. R131, R137, R138, R302: of the stores of one word, each byte stored to holds what the highest lane that stored it
wrote, as the issuing die reads it, and every byte that no active fibre's checked address and mask name is unchanged. A
non-temporal store stays pending until it is performed (R312), and a store to a host buffer goes to the host. What the spec's
words leave open in it is the model's choice: log entries 43, 44 and 46. -/
def Obligations.StoresAndBytes : Prop :=
  ((∀ (s : State) (p : Path) (w : MW) (masked : Bool),
     let r := Raw.m (if masked then 0x54 else 0x52) w
     let bytes (i : Nat) : List (Option Byte) :=
       if masked then maskedBytes (p.view s r) w i else (storeBytes (p.view s r) w i).map some
     let acc := p.each s r (fun s i => storeLane s (p.iss s r) (p.view s r) w (bytes i) (mDisp w) i)
     Ready s p r → formatsOk (p.view s r) [w.va.toNat] (addrFormats w.space).contains = true →
     p.allGo s r w (fun s i => storeLane s (p.iss s r) (p.view s r) w (bytes i) (mDisp w) i) (if masked then 8 else widthBytes w)
       (mDisp w) 2 1 [0, 3] →
     acc.2.2 = [] ∧ Leaves (if masked then .stm w else .st w) s p r acc.1) ∧
   (∀ (s : State) (p : Path) (w : MW),
     let r := Raw.m 0x53 w
     let first := lowest (p.iss s r).act
     let bytes := (storeBytes (p.view s r) w first).map some
     Ready s p r → formatsOk (p.view s r) [w.va.toNat] (addrFormats w.space).contains = true → p.team.slane = false →
     (p.iss s r).act ≠ 0 →
     (∀ i j, (p.iss s r).act.getLsbD i = true → (p.iss s r).act.getLsbD j = true →
       placeOf (p.iss s r) (p.view s r) w (mDisp w) i = placeOf (p.iss s r) (p.view s r) w (mDisp w) j ∧
       storeBytes (p.view s r) w i = storeBytes (p.view s r) w j) →
     (∃ x, (laneCheck s (p.iss s r) (p.view s r) w (widthBytes w) (mDisp w) 2 1 [0, 3] first).2 = .ok x) →
     ∃ u, storeLane s (p.iss s r) (p.view s r) w bytes (mDisp w) first = (u, .ok ()) ∧ Leaves (.stu w) s p r u) ∧
   (∀ (s : State) (p : Path) (w : MW),
     let r := Raw.m 0x53 w
     let f (s : State) (i : Nat) : State × Except Trap Unit :=
       storeLane s (p.iss s r) (p.view s r) w ((storeBytes (p.view s r) w i).map some) (mDisp w) i
     Ready s p r → (p.team.slane = true ∨ (p.iss s r).act = 0 ∧ formatsOk (p.view s r) [w.va.toNat] (addrFormats w.space).contains = true) →
     p.allGo s r w f (widthBytes w) (mDisp w) 2 1 [0, 3] → Leaves (.stu w) s p r (p.each s r f).1) ∧
   (∀ (s : State) (p : Path) (r : Raw) (w : MW) (i k : Nat),
     (storeBytes (p.view s r) w i).length = 2 ^ w.width.toNat ∧
     (w.width.toNat ≤ 4 → k < 2 ^ w.width.toNat → (storeBytes (p.view s r) w i)[k]? = some (p.byteAt s r w.vd.toNat i k)) ∧
     (maskedBytes (p.view s r) w i).length = 8 ∧
     (k < 8 → (maskedBytes (p.view s r) w i)[k]? =
       some (if (p.src s r (w.vd.toNat + 1) i).getLsbD k then some (p.byteAt s r w.vd.toNat i k) else none)))) ∧
  ((∀ (s : State) (iss : Iss) (v : Team) (w : MW) (bytes : List (Option Byte)) (i : Nat) (tgt : Tgt) (e : Option Bte),
     let n := bytes.length
     let t := (storeLane s iss v w bytes (mDisp w) i).1
     (laneCheck s iss v w n (mDisp w) 2 1 [0, 3] i).2 = .ok (tgt, e) →
     (∀ first lines, tgt = .dram first lines → w.nt = 1 → w.strong = 0 → (∃ (k : Nat) (b : Byte), (tgt.cells n)[k]? ≠ none ∧ bytes[k]? = some (some b)) →
       ∃ x : NtStore, t.nt = s.nt ++ [x] ∧ x.agent = iss.agent ∧
         ∀ c, c ∈ x.bytes ↔ ∃ k : Nat, (tgt.cells n)[k]? = some (Mem.dram, c.1) ∧ bytes[k]? = some (some c.2)) ∧
     (∀ a, tgt = .host a → ∃ out, t.hostOut = s.hostOut ++ out ∧
       ∀ c, c ∈ out ↔ ∃ k : Nat, c.1 = a + k ∧ bytes[k]? = some (some c.2))) ∧
   ∀ (s : State) (p : Path) (w : MW) (op : Nat) (bytes : Nat → List (Option Byte)) (n : Nat),
     let r := Raw.m op w
     let f (s : State) (i : Nat) : State × Except Trap Unit := storeLane s (p.iss s r) (p.view s r) w (bytes i) (mDisp w) i
     let goal (i : Nat) : Option Tgt := p.goal s r w f n (mDisp w) 2 1 [0, 3] i
     let u := (p.each s r f).1
     (∀ i, (bytes i).length = n) →
     SameElsewhere s u (fun c => ∃ (i : Nat) (tgt : Tgt) (k : Nat) (b : Byte), (p.iss s r).act.getLsbD i = true ∧ goal i = some tgt ∧ (tgt.cells n)[k]? = some c ∧
       (bytes i)[k]? = some (some b)) ∧
     (Memory.wf s.dram = true → mrising s.l2 = true → (w.nt = 0 ∨ w.strong = 1 ∨ w.space ≠ 0) →
       ∀ (i : Nat) (tgt : Tgt) (k : Nat) (c : Mem × Nat) (b : Byte), (p.iss s r).act.getLsbD i = true → goal i = some tgt → (tgt.cells n)[k]? = some c →
         (bytes i)[k]? = some (some b) → (tgt.cells n).Nodup →
         (∀ j other, i < j → (p.iss s r).act.getLsbD j = true → goal j = some other → c ∉ other.cells n) →
         u.reads (dieOf (agentCore p.agent)) c = b))

/-- R132: the fibres whose access fails park at the word, each with a fault record of its cause and address; the others
complete the word, and only their values reach the registers. R131 (Table 05.3): the checks of an access of SPACE 0 in their
order, the first that fails giving the cause; an access that passes reaches the lines that its pages map. R130: an address in
cluster SRAM or in the A-buffer must be aligned and lie within the copse's allotment, or the buffer's 512 KiB. What the spec's
words leave open in it is the model's choice: log entries 37 and 46. -/
def Obligations.AccessChecks : Prop :=
  (∀ (s : State) (p : Path) (w : MW) (core slot : Nat),
     let r := Raw.m 0x50 w
     let acc := p.each s r (fun s i => loadLane s (p.iss s r) (p.view s r) w (widthBytes w) (mDisp w) i)
     Ready s p r → p.agent = .team core slot → formatsOk (p.view s r) [w.va.toNat] (addrFormats w.space).contains = true →
     ∃ t, exec (.ld w) s = .next t ∧
       (∀ i, i < 32 → p.lanes.getLsbD i = true →
         let fails := acc.2.2.any (fun x => x.1 == i)
         ((p.teamIn t).lane i).parked = fails ∧
         ((p.teamIn t).lane i).pc = (if fails then (p.iss s r).pc else (p.iss s r).pc + 8) ∧
         ((p.iss s r).act.getLsbD i = true → fails = true → (p.team.lane i).live = true →
           ((p.teamIn t).reg w.vd.toNat).lane i = (p.team.reg w.vd.toNat).lane i) ∧
         ((p.iss s r).act.getLsbD i = true → fails = false → w.width ≠ 4 →
           ((p.teamIn t).reg w.vd.toNat).lane i = (loadedPair acc.2.1 i).1)) ∧
       ∀ x ∈ acc.2.2, ∃ rec : FaultRec,
         (rec ∈ (t.core core).waiting ∨ ∃ e ∈ (t.core core).faults, rec ∈ e.recs) ∧
         rec.slot = slot ∧ rec.uid = p.team.uid ∧ rec.lane = x.1 ∧ rec.pc = (p.iss s r).pc ∧ rec.cause = x.2.cause ∧
         rec.addr = x.2.addr) ∧
  (∀ (s : State) (q : Req),
     let c := check0 s q true
     let o := q.off.toNat
     let fails (k : Nat) : Prop := ∃ a, c = .error (k, a) ∧ a.asid = q.asid ∧ a.handle = q.handle ∧ a.acc = q.acc
     (q.off < 0 ∨ 2 ^ 48 ≤ q.off → fails cBOUNDS) ∧
     (0 ≤ q.off → q.off < 2 ^ 48 →
       (o % q.align ≠ 0 → fails cALIGN) ∧
       (o % q.align = 0 →
         (s.bte q.asid q.handle = none → fails cNULLH) ∧
         ∀ e, s.bte q.asid q.handle = some e →
           (e.length < o + q.n → fails cBOUNDS) ∧
           (o + q.n ≤ e.length →
             ((q.rights &&& e.rights ≠ q.rights ∨ e.kind ∉ q.kinds ∨ (∃ k, q.emask = some k ∧ bit e.emask k = false)) → fails cRIGHTS) ∧
             (q.rights &&& e.rights = q.rights → e.kind ∈ q.kinds → (∀ k, q.emask = some k → bit e.emask k = true) →
               (e.kind = 3 → (hostAddr s e o q.n (bit q.rights 1)).isSome = true) →
               (e.owner ≠ q.asid → e.owner ≠ 0xFFFF → fails cOWNER) ∧
               (e.owner = q.asid ∨ e.owner = 0xFFFF →
                 (e.world ≠ s.world q.core → fails cWORLD) ∧
                 (e.world = s.world q.core → e.kind = 0 →
                   (∀ k, linesOf s q.asid q.handle (s.world q.core) e (piecesOf o q.n) = .error k → fails k) ∧
                   ∀ ls, linesOf s q.asid q.handle (s.world q.core) e (piecesOf o q.n) = .ok ls →
                     c = .ok (.dram (o % 128) ls, some e)))))))) ∧
  (∀ (s : State) (iss : Iss) (t : Team) (w : MW) (v : Word) (fmt n align : Nat) (rights acc : Nat) (kinds : List Nat),
     let c := (mCheck s iss t w v fmt n align 0 rights kinds acc).2
     let o := if t.slane = false ∧ (fmt = 5 ∨ fmt = 6) then v.toNat % 2 ^ 32 else v.toNat
     (w.space = 1 ∨ w.space = 2) →
     let len := if w.space = 1 then (sramOf s iss.core t).2 else 524288
     (o % align ≠ 0 → ∃ a, c = .error (cALIGN, a)) ∧
     (o % align = 0 → len < o + n → ∃ a, c = .error (cBOUNDS, a)) ∧
     (o % align = 0 → o + n ≤ len →
       c = .ok (if w.space = 1 then .sram ((sramOf s iss.core t).1 + o) else .abuf (iss.core * 2 ^ 19 + o), none)))

/-- R140, R141: LDS reads one record of 272 bytes, whose first 256 fill all 32 lanes of the narrow register, with a scale byte
for each block behind them; STS stores one. What the spec's words leave open in it is the model's choice: log entries 56 and
83. -/
def Obligations.ScaledRecords : Prop :=
  (∀ (s : State) (p : Path) (w : MW) (u : State) (bs : List Byte),
    let r := Raw.m 0x55 w
    let nfmt := fieldOf w.off 15 11
    let x := fieldOf w.off 10 7
    Ready s p r → (p.iss s r).act ≠ 0 → formatsOk (p.view s r) [w.va.toNat] (addrFormats w.space).contains = true →
    wholeTeam (p.iss s r) p.team = true →
    (∀ i, p.lanes.getLsbD i = true → placeOf (p.iss s r) (p.view s r) w (recordDisp w) i =
      placeOf (p.iss s r) (p.view s r) w (recordDisp w) (lowest p.lanes)) →
    loadLane s (p.iss s r) (p.view s r) w 272 (recordDisp w) (lowest p.lanes) = (u, .ok bs) →
    ∃ t, exec (.lds w) s = .next t ∧
      Sent u t p { p.team with scale := (p.teamIn t).scale } (fun _ => (p.iss s r).pc + 8) none ∧
      WroteWhole p.team (p.teamIn t) [] [(w.vd.toNat, nfmt, x + 1, 3, fun l => loadedWord bs (8 * l))] ∧
      ∀ k, (p.teamIn t).scaleReg k =
        if k = x then scaleOf (((bs.drop 256).take (fmtElems nfmt)).map BitVec.toNat) else p.team.scaleReg k) ∧
  (∀ (s : State) (p : Path) (w : MW) (u : State),
    let r := Raw.m 0x56 w
    let n := w.vd.toNat
    Ready s p r → (p.iss s r).act ≠ 0 → formatsOk (p.view s r) [n] isNarrow = true →
    formatsOk (p.view s r) [w.va.toNat] (addrFormats w.space).contains = true → wholeTeam (p.iss s r) p.team = true →
    (∀ i, p.lanes.getLsbD i = true → placeOf (p.iss s r) (p.view s r) w (recordDisp w) i =
      placeOf (p.iss s r) (p.view s r) w (recordDisp w) (lowest p.lanes)) →
    storeLane s (p.iss s r) (p.view s r) w
      (((List.range 32).flatMap (fun l => leBytes 8 (p.src s r n l).toNat) ++ recordScale (p.view s r) n).map some) (recordDisp w)
      (lowest p.lanes) = (u, .ok ()) →
    Leaves (.sts w) s p r u) ∧
  (∀ (s : State) (p : Path) (w : MW) (op : Nat) (i : Instr), (op, i) ∈ [(0x55, Instr.lds w), (0x56, .sts w)] →
    Ready s p (.m op w) → (p.iss s (.m op w)).act = 0 → Leaves i s p (.m op w) s) ∧
  (∀ (v : Team) (n : Nat),
    let x := v.reg n
    (x.isDead = false → x.link ≠ 0 → recordScale v n = leBytes 16 (v.scaleReg (x.link - 1)).toNat) ∧
    (x.isDead = false → x.link = 0 → recordScale v n = List.replicate 16 (if x.fmt = 18 then 0 else 0x7F)))

/-- R142, R143, R144: each active fibre in ascending lane order replaces the value it finds by the operation's, and receives
the value it found. R142–R144: the atomics of one word change only the bytes that their checked addresses name; one fibre's
indivisible step reads its bytes as a little-endian number, stores the operation's value, where it gives one, in their place,
and changes no other byte. What the spec's words leave open in it is the model's choice: log entries 42 and 96. -/
def Obligations.Atomics : Prop :=
  ((∀ (s : State) (p : Path) (w : MW),
     let r := Raw.m 0x57 w
     let b := 8 * widthBytes w
     let signed := w.last = 1
     let less (x y : Nat) : Bool := if signed then decide (sext x b < sext y b) else decide (x < y)
     let acc (f : Nat → Nat → Nat) := p.each s r (fun s i =>
       atomLane s (p.iss s r) (p.view s r) w (widthBytes w) (fun m => some (f m (p.operandOf s r w w.vd.toNat i))) i)
     ∀ (i : Instr) (f : Nat → Nat → Nat), (i, f) ∈
       [(Instr.atomAdd w, fun m a => (m + a) % 2 ^ b), (Instr.atomMin w, fun m a => if less a m then a else m),
        (Instr.atomMax w, fun m a => if less m a then a else m), (Instr.atomAnd w, fun m a => m &&& a),
        (Instr.atomOr w, fun m a => m ||| a), (Instr.atomXor w, fun m a => m ^^^ a), (Instr.atomExch w, fun _ a => a),
        (Instr.atomIncw w, fun m a => if a ≤ m then 0 else m + 1),
        (Instr.atomFadd w, fun m a => (fAdd (ffmt (if w.width = 2 then 11 else 12)) 0 false m a).1),
        (Instr.atomFmin w, fun m a => (fMinMax (ffmt (if w.width = 2 then 11 else 12)) false false false m a).1),
        (Instr.atomFmax w, fun m a => (fMinMax (ffmt (if w.width = 2 then 11 else 12)) true false false m a).1)] →
     Ready s p r → formatsOk (p.view s r) [w.va.toNat] (addrFormats w.space).contains = true → (acc f).2.2 = [] →
     Fetches i s p r (acc f).1 (w.width == 4) w.vd.toNat
       (if signed then (if w.width = 2 then 5 else 7) else if w.nt = 1 then (if w.width = 2 then 11 else 12)
        else if w.width = 2 then 6 else 8) 3 (oldPair (acc f).2.1)) ∧
   (∀ (s : State) (p : Path) (w : MW),
     let r := Raw.m 0x58 w
     let d := w.vd.toNat
     let acc := p.each s r (fun s i => atomLane s (p.iss s r) (p.view s r) w (widthBytes w) (fun m =>
       if m = p.operandOf s r w d i then some (p.operandOf s r w (if w.width = 4 then d + 2 else d + 1) i) else none) i)
     Ready s p r → formatsOk (p.view s r) [w.va.toNat] (addrFormats w.space).contains = true → acc.2.2 = [] →
     Fetches (.cas w) s p r acc.1 (w.width == 4) d (if w.width = 2 then 6 else 8) 3 (oldPair acc.2.1))) ∧
  ((∀ (s : State) (p : Path) (w : MW) (op : Nat) (g : Nat → Nat → Option Nat),
     let r := Raw.m op w
     let f (s : State) (i : Nat) : State × Except Trap Nat :=
       atomLane s (p.iss s r) (p.view s r) w (widthBytes w) (g i) i
     SameElsewhere s (p.each s r f).1 (fun c => ∃ i tgt, (p.iss s r).act.getLsbD i = true ∧
       p.goal s r w f (widthBytes w) (mDisp w) 11 2 [0] i = some tgt ∧ c ∈ tgt.cells (widthBytes w))) ∧
   ∀ (s : State) (iss : Iss) (v : Team) (w : MW) (f : Nat → Option Nat) (i : Nat) (tgt : Tgt) (e : Option Bte),
     let n := widthBytes w
     let res := atomLane s iss v w n f i
     (laneCheck s iss v w n (mDisp w) 11 2 [0] i).2 = .ok (tgt, e) → s.bad = [] → (tgt.cells n).Nodup → tgt.cells n ≠ [] →
     SameElsewhere s res.1 (fun c => c ∈ tgt.cells n ∧ ∃ old new, res.2 = .ok old ∧ f old = some new) ∧
     (Memory.wf s.dram = true → mrising s.l2 = true → (∀ c ∈ tgt.cells n, c.1 = .dram → s.agreed c.2) →
       let old := ofLe ((tgt.cells n).map (s.reads (dieOf iss.core)))
       res.2 = .ok old ∧
       ∀ new, f old = some new → (tgt.cells n).map (res.1.reads (dieOf iss.core)) = leBytes n new))

/-- R152, R153, R154: prefetch and maintenance act on the line of each active fibre's address whose checks pass and write no
register; PROBE answers with the cause that an access would meet, 0 for none, and with the fields of the buffer's entry, and
touches nothing. R152, R153, R296: a line fetched at a class other than no-allocate stands in its L2; a cleaned line's bytes
are in DRAM; an invalidated line has no copy, and its DRAM bytes are as they were; a zeroed one reads zero on its die. What
the spec's words leave open in it is the model's choice: log entries 42 and 56. -/
def Obligations.Upkeep : Prop :=
  ((∀ (s : State) (p : Path) (w : MW) (i : Instr), i ∈ [Instr.prefL1 w, .prefL2 w] →
     let r := Raw.m 0x5D w
     let c := agentCore p.agent
     let f (s : State) (k : Nat) : State × Except Trap Unit :=
       let x := laneCheck s (p.iss s r) (p.view s r) w 1 (mDisp w) 1 0 [0] k
       match x.2 with
       | .ok (.dram _ ls, e) =>
         let cls := evClass w.evp.toNat e
         let l := nth ls 0 0
         let u := fetchLine (noteAccess s x.1 e) (dieOf c) l cls
         (if i = .prefL1 w then noteL1 u { weakMode c p.agent with cls := cls } l else u, .ok ())
       | _ => (s, .ok ())
     Ready s p r → formatsOk (p.view s r) [w.va.toNat] (addrFormats w.space).contains = true →
     Leaves i s p r (p.each s r f).1 ∧ SameElsewhere s (p.each s r f).1 (fun _ => False)) ∧
   (∀ (s : State) (p : Path) (w : MW),
     let r := Raw.m 0x5E w
     let rights (i : Instr) : Nat := if i = .cmaintClean w then 1 else 2
     let act (i : Instr) (s : State) (cls l : Nat) : State :=
       if i = .cmaintClean w then cleanEverywhere s l else if i = .cmaintInv w then dropEverywhere s l
       else if i = .cmaintCinv w then flushEverywhere s l else zeroLine s (dieOf (agentCore p.agent)) cls l
     let f (i : Instr) (s : State) (k : Nat) : State × Except Trap Unit :=
       let c := laneCheck s (p.iss s r) (p.view s r) w 1 (mDisp w) (rights i) (if rights i = 1 then 0 else 1) [0] k
       match c.2 with
       | .error x => (s, .error (checkTrap x))
       | .ok (.dram _ ls, e) => (act i (noteAccess s c.1 e) (evClass 0 e) (nth ls 0 0), .ok ())
       | .ok _ => (s, .ok ())
     ∀ i, i ∈ [Instr.cmaintClean w, .cmaintInv w, .cmaintCinv w, .cmaintZero w] → Ready s p r →
       formatsOk (p.view s r) [w.va.toNat] (addrFormats w.space).contains = true → (p.each s r (f i)).2.2 = [] →
       Leaves i s p r (p.each s r (f i)).1) ∧
   (∀ (s : State) (p : Path) (w : MW),
     let r := Raw.m 0x5F w
     let chk (i : Nat) : Checked :=
       (laneCheck s (p.iss s r) (p.view s r) w (widthBytes w) (mDisp w) (if w.nt = 1 then 2 else 1) (b2n (w.nt == 1)) [0, 3] i).2
     Ready s p r → formatsOk (p.view s r) [w.va.toNat] (addrFormats w.space).contains = true →
     ∃ val : Nat → Word, Gives (.probe w) s p r w.vd.toNat 8 0 (p.uniform s r [w.va.toNat]) val noFlags ∧
       ∀ i, i < 32 → (p.iss s r).act.getLsbD i = true →
         (∀ x, chk i = .ok x → (val i).toNat % 256 = 0) ∧ (∀ k a, chk i = .error (k, a) → (val i).toNat % 256 = k) ∧
         (w.space ≠ 0 → (val i).toNat < 256) ∧
         (∀ x e, chk i = .ok (x, some e) → w.space = 0 →
           (val i).toNat = b2n e.world * 2 ^ 15 + e.profile * 2 ^ 12 + e.psize * 2 ^ 10 + e.kind * 2 ^ 8))) ∧
  (∀ (s : State) (line die cls : Nat), line < 2 ^ 32 → die < 4 → Memory.wf s.dram = true → mrising s.l2 = true →
     (cls < 3 → ∃ l, (fetchLine s die line cls).l2Line die line = some l ∧ l.cls = cls) ∧
     (∀ d, d < 4 → (dropEverywhere s line).l2Line d line = none ∧ (flushEverywhere s line).l2Line d line = none) ∧
     (∀ loc, loc / 128 = line → s.agreed loc →
       (flushEverywhere s line).byte .dram loc = s.home loc ∧ (cleanEverywhere s line).byte .dram loc = s.home loc) ∧
     (∀ loc, loc / 128 = line → (dropEverywhere s line).byte .dram loc = s.byte .dram loc) ∧
     (∀ k, k < 128 → (zeroLine s die cls line).seen die (line * 128 + k) = 0))

/-- R133, R145, R146, R312: fences at device or system scope write back the die's dirty remote lines, drop its remote lines
that are not wholly dirty and empty the core's L1, or both; a drain waits for the listed commands of its class alone, and
`drain.nt` performs the issuer's non-temporal stores, whose bytes every die then reads. No register is written. What the
spec's words leave open in it is the model's choice: log entries 43, 57 and 93. -/
def Obligations.FencesAndDrains : Prop :=
  (∀ (s : State) (p : Path) (w : MW),
    let r := Raw.m 0x59 w
    let die := dieOf (agentCore p.agent)
    let wide := (p.iss s r).act ≠ 0 ∧ 5 ≤ w.scope.toNat
    Ready s p r →
    Leaves (.fenceRel w) s p r (if wide then releaseDie s die else s) ∧
    Leaves (.fenceAcq w) s p r (if wide then acquireDie s (agentCore p.agent) die else s) ∧
    Leaves (.fenceAr w) s p r
      (if wide then acquireDie (releaseDie (propagateAll s p.agent) die) (agentCore p.agent) die else s)) ∧
  (∀ (s : State) (p : Path) (w : IW),
    let r := Raw.i 0x5C w
    let copyTo (k : Cmd) (space : Nat) : Bool := k.op == 0x69 && k.md 2 1 == space
    ∀ (i : Instr) (f : Cmd → Bool), (i, f) ∈
      [(Instr.drainW w, fun k => copyTo k 3 || (k.op == 0x63 && k.md 6 5 == 2)),
       (Instr.drainA w, fun k => copyTo k 2 || (k.op == 0x6A && k.md 7 6 == 2) || (k.op == 0x63 && k.md 6 5 == 0) ||
          (k.op == 0x6E && k.md 1 0 == 2) || (k.op == 0x68 && k.md 2 2 == 0)),
       (Instr.drainC w, fun k => [0x60, 0x61, 0x62, 0x65, 0x66].contains k.op || (k.op == 0x68 && k.md 3 3 == 1)),
       (Instr.drainK w, fun k => copyTo k 1)] →
    Ready s p r →
    let ids := ((s.core (agentCore p.agent)).cmds.filter (fun k => k.writing && f k)).map (fun k => k.id)
    ((p.iss s r).act = 0 ∨ ids = [] → Passes i s p r) ∧ ((p.iss s r).act ≠ 0 → ids ≠ [] → Holds i s p r (.drain ids))) ∧
  (∀ (s : State) (p : Path) (w : IW),
    let r := Raw.i 0x5C w
    Ready s p r → Leaves (.drainNt w) s p r (if (p.iss s r).act = 0 then s else ntPerformAll s p.agent)) ∧
  (∀ (s : State) (a : Agent), ∀ x ∈ (ntPerformAll s a).nt, x.agent ≠ a) ∧
  (∀ (s : State) (x : NtStore), Memory.wf s.dram = true → mrising s.l2 = true → ∀ c ∈ x.bytes, (∀ d ∈ x.bytes, d.1 = c.1 → d = c) → c.1 < 2 ^ 39 →
    (ntPerform s x).byte .dram c.1 = c.2 ∧ ∀ die, die < 4 → (ntPerform s x).seen die c.1 = c.2) ∧
  (∀ (s : State) (core die : Nat), mrising s.l2 = true →
    (∀ x ∈ (releaseDie s die).l2, x.1 / 2 ^ 32 = die → homeOf (x.1 % 2 ^ 32) ≠ die → x.2.dirty = 0) ∧
    (∀ x ∈ (acquireDie s core die).l2, x.1 / 2 ^ 32 = die → homeOf (x.1 % 2 ^ 32) ≠ die → x.2.dirty = BitVec.allOnes 128) ∧
    ((acquireDie s core die).core core).l1 = [])


/-! ### Engine words (class 4, PUT and PUTR) -/

/-- R147, R148, R149: a put whose counter is aligned, whose length is at most 4 GiB and whose ranges and counter pass their
checks is submitted in class 5; PUTR captures its lanes at issue. R157, R178, R179, R180: copies, row copies, gathers and
scatters are submitted where their ranges pass their checks. What the spec's words leave open in it is the model's choice: log
entries 52 and 53. -/
def Obligations.PutsAndCopies : Prop :=
  ((∀ (s : State) (p : Path) (w : EW) (d a b c : Word),
     let r := Raw.e 0x5A w
     Ready s p r → p.four s 0x5A w numFmts addrFmts addrFmts addrFmts d a b c →
     (fieldOf w.md 2 0 ≠ 0 → allOnes c = false → c.toNat % 2 ^ 48 % (if bitOf w.md 3 then 4 else 8) = 0) → d.toNat ≤ 2 ^ 32 →
     sourceCheck s (p.iss s r) p.team a d.toNat = none →
     memCheck s (p.iss s r) p.team b d.toNat 1 2 [0, 3, 2] 5 1 = none →
     counterCheck s (p.iss s r) p.team w [d, a, b, c] = none → Submits (.put w) s p r w 5 [d, a, b, c] []) ∧
   (∀ (s : State) (p : Path) (w : EW) (b c : Word),
     let r := Raw.e 0x5B w
     let n := if p.team.slane then 1 else fieldOf w.md 12 8 + 1
     Ready s p r → p.operand s r w.vb.toNat addrFmts b →
     (if fieldOf w.md 2 0 = 0 then c = 0 else p.operand s r w.vc.toNat addrFmts c) →
     (fieldOf w.md 2 0 ≠ 0 → allOnes c = false → c.toNat % 2 ^ 48 % (if bitOf w.md 3 then 4 else 8) = 0) →
     memCheck s (p.iss s r) p.team b (8 * n) 1 2 [0, 3, 2] 5 1 = none →
     counterCheck s (p.iss s r) p.team w [BitVec.ofNat 64 (8 * n), 0, b, c] = none →
     Submits (.putr w) s p r w 5 [BitVec.ofNat 64 (8 * n), 0, b, c] ((List.range n).map (p.src s r w.va.toNat)))) ∧
  ((∀ (s : State) (p : Path) (w : EW) (d a b c : Word),
     let r := Raw.e 0x69 w
     let ssp := fieldOf w.md 0 0
     let dsp := fieldOf w.md 2 1
     let rows := bitOf w.md 5
     let len := if rows then d.toNat % 2 ^ 32 else d.toNat
     let n := if rows then d.toNat / 2 ^ 32 else 1
     let span (stride : Nat) : Nat := if len = 0 ∨ n = 0 then 0 else (n - 1) * stride + len
     Ready s p r → p.four s 0x69 w numFmts (placeFmts ssp) (placeFmts dsp) numFmts d a b c → (rows = false → len ≤ 2 ^ 32) →
     placeCheck s (p.iss s r) p.team ssp a (span (if rows then c.toNat % 2 ^ 32 else 0)) false 0 copyKinds = none →
     placeCheck s (p.iss s r) p.team dsp b (span (if rows then c.toNat / 2 ^ 32 else 0)) true 0 copyKinds = none →
     Submits (.dcopy w) s p r w 0 [d, a, b, c] []) ∧
   (∀ (s : State) (p : Path) (w : EW) (d a b c : Word),
     let r := Raw.e 0x6A w
     let sp := fieldOf w.md 7 6
     let isp := fieldOf w.md 5 5
     Ready s p r → p.four s 0x6A w numFmts addrFmts (placeFmts sp) (placeFmts isp) d a b c →
     placeCheck s (p.iss s r) p.team isp c (d.toNat * (if bitOf w.md 4 then 8 else 4)) false 1 copyKinds = none →
     entryCheck s (p.iss s r) p.team a 1 1 0 = none →
     placeCheck s (p.iss s r) p.team sp b (d.toNat * 2 ^ fieldOf w.md 3 0) true 1 copyKinds = none →
     Submits (.gather w) s p r w 1 [d, a, b, c] []) ∧
   (∀ (s : State) (p : Path) (w : EW) (d a b c : Word),
     let r := Raw.e 0x6B w
     let sp := fieldOf w.md 7 6
     let isp := fieldOf w.md 5 5
     Ready s p r → p.four s 0x6B w numFmts (placeFmts sp) addrFmts (placeFmts isp) d a b c →
     placeCheck s (p.iss s r) p.team isp c (d.toNat * (if bitOf w.md 4 then 8 else 4)) false 1 copyKinds = none →
     placeCheck s (p.iss s r) p.team sp a (d.toNat * 2 ^ fieldOf w.md 3 0) false 1 copyKinds = none →
     entryCheck s (p.iss s r) p.team b 2 1 1 = none → Submits (.scatter w) s p r w 1 [d, a, b, c] []) ∧
   (∀ (s : State) (p : Path) (w : EW) (d a b : Word),
     let r := Raw.e 0x6C w
     Ready s p r → memCheck s (p.iss s r) p.team b d.toNat 1 2 [0] 0 1 = none →
     (p.four s 0x6C w numFmts addrFmts addrFmts [] d a b 0 → memCheck s (p.iss s r) p.team a d.toNat 1 1 [0] 0 0 = none →
       Submits (.rowcopy w) s p r w 0 [d, a, b, 0] []) ∧
     (p.four s 0x6C w numFmts numFmts addrFmts [] d a b 0 → d.toNat % 8 = 0 →
       Submits (.rowcopyInit w) s p r w 0 [d, a, b, 0] [])))

/-- R159, R170, R172–R175: MMA, MJOB and MPERM make the fibres present the word with its operand values; SGEMV, ACCWR, ACCZ,
EPLD and MDRAIN are submitted where their checks pass. R160, R172, R185: with no command before it ACCRD reads its quarter of
the tile into all 32 lanes, and ESTAT its status word, which `.clr` then clears; each with commands before it leaves its
result to be delivered, and the path goes on. What the spec's words leave open in it is the model's choice: log entries 38,
52, 55, 88 and 97. -/
def Obligations.MatrixWords : Prop :=
  ((∀ (s : State) (p : Path) (w : EW) (i : Instr) (op : Nat) (d a b c : Word),
     (i, op) ∈ [(Instr.mma w, 0x60), (Instr.mjob w, 0x61), (Instr.mperm w, 0x62)] → Ready s p (.e op w) →
     p.four s op w numFmts numFmts numFmts numFmts d a b c → c.toNat % 2 ^ 16 ≠ 0 →
     ∃ t, exec i s = .next (arriveCore t (agentCore p.agent)) ∧ (∀ n, (p.teamIn t).reg n = p.team.reg n) ∧
       Sent s t p p.team (fun _ => (p.iss s (.e op w)).pc) (some (.arrive (p.iss s (.e op w)).bits [d, a, b, c]))) ∧
   (∀ (s : State) (p : Path) (w : EW) (d a b c : Word),
     let r := Raw.e 0x63 w
     let dst := fieldOf w.md 6 5
     let k := bits c.toNat 16 0
     let n := bits c.toNat 47 24
     let vectors := bits c.toNat 49 48 + 1
     let prof := profileOf s p.team.asid b
     Ready s p r → p.four s 0x63 w (if dst = 1 then addrFmts else numFmts) numFmts addrFmts numFmts d a b c →
     a.toNat % 16 = 0 → (dst ≠ 1 → d.toNat % 16 = 0) → 32 ≤ k → k ≤ 65536 → k % 32 = 0 → 1 ≤ n →
     a.toNat + 2 * k * vectors ≤ 2 ^ 19 → (dst ≠ 1 → d.toNat + 4 * n * vectors ≤ if dst = 0 then 2 ^ 19 else 2 ^ 20) →
     memCheck s (p.iss s r) p.team b (n * gemvRow (fieldOf w.md 4 0) k) 1 1 [0] 4 0 = none → bit prof 0 = true →
     (dst = 1 → memCheck s (p.iss s r) p.team d (4 * n * vectors) 1 2 [0] 4 1 = none) →
     Submits (.sgemv w) s p r w 4 [d, a, b, c] [BitVec.ofNat 64 (bits prof 5 3)]) ∧
   (∀ (s : State) (p : Path) (w : EW),
     let r := Raw.e 0x65 w
     Ready s p r → formatsOk (p.view s r) [w.va.toNat] (twin (fieldOf w.md 4 0)) = true → wholeTeam (p.iss s r) p.team = true →
     Submits (.accwr w) s p r w 2 [] ((List.range 32).map (p.src s r w.va.toNat))) ∧
   (∀ (s : State) (p : Path) (w : EW), Ready s p (.e 0x66 w) → Submits (.accz w) s p (.e 0x66 w) w 2 [] []) ∧
   (∀ (s : State) (p : Path) (w : EW) (a : Word),
     Ready s p (.e 0x67 w) → p.four s 0x67 w [] numFmts [] [] 0 a 0 0 → a.toNat % 4 = 0 →
     a.toNat + 4 * (fieldOf w.md 7 2 + 1) ≤ 2 ^ 19 → Submits (.epld w) s p (.e 0x67 w) w 2 [0, a, 0, 0] []) ∧
   (∀ (s : State) (p : Path) (w : EW) (d a b c : Word),
     let r := Raw.e 0x68 w
     let mem := bitOf w.md 2
     let len := 15 * (a.toNat % 2 ^ 16) + 16
     Ready s p r → p.four s 0x68 w (if mem then addrFmts else numFmts) numFmts numFmts numFmts d a b c →
     b.toNat % 64 = 0 → c.toNat % 64 = 0 → b.toNat < 2 ^ 19 → c.toNat < 2 ^ 19 →
     ((s.core (agentCore p.agent)).cmds.any (fun k => k.op == 0x67 && k.md 1 0 == fieldOf w.md 1 0) = true ∨
       ∀ ws, mget? (s.core (agentCore p.agent)).eprog (fieldOf w.md 1 0) = some ws →
         shortStride (epiRun ws) (a.toNat % 2 ^ 16) mem = false) →
     (mem = true → memCheck s (p.iss s r) p.team d len 1 2 copyKinds 2 1 = none) → (mem = false → d.toNat + len ≤ 2 ^ 19) →
     Submits (.mdrain w) s p r w 2 [d, a, b, c] [])) ∧
  ((∀ (s : State) (p : Path) (w : EW) (xs : List Word),
     let r := Raw.e 0x64 w
     let c := agentCore p.agent
     Ready s p r → p.team.slane = false → wholeTeam (p.iss s r) p.team = true →
     ((s.core c).cmds.any (fun k => k.cls == 2) = false → readQuarter s c w.md = some xs →
       GivesWhole (.accrd w) s p r [(w.vd.toNat, fieldOf w.md 4 0, 0, 3, fun i => nth xs 0 i)] 0 none) ∧
     ((s.core c).cmds.any (fun k => k.cls == 2) = true → ∃ t, exec (.accrd w) s = .next t ∧
       (∀ n, (p.teamIn t).reg n = p.team.reg n) ∧ (∃ k, (t.core c).cmds = (s.core c).cmds ++ [k] ∧ k.cls = 8) ∧
       ∀ i, i < 32 → p.lanes.getLsbD i = true → ((p.teamIn t).lane i).pc = (p.iss s r).pc + 8)) ∧
   (∀ (s : State) (p : Path) (w : EW),
     let r := Raw.e 0x6F w
     let cls := fieldOf w.md 2 0
     let c := agentCore p.agent
     let busy := (s.core c).cmds.any (fun k => k.cls == cls && k.counts (issuerOf p.agent) p.team.uid)
     Ready s p r →
     (busy = false → ∃ t, exec (.estat w) s = .next t ∧
       Sent s t p (if bitOf w.md 3 then { p.team with estat := mdel p.team.estat cls } else p.team) (fun _ => (p.iss s r).pc + 8) none ∧
       Wrote p.team (p.teamIn t) (p.iss s r).act [] w.vd.toNat 8 0 (p.shape s r 1) (fun _ => p.team.estatus cls) ∧
       ∀ k, (p.teamIn t).estatus k = if k = cls ∧ bitOf w.md 3 = true then 0 else p.team.estatus k) ∧
     (busy = true → ∃ t, exec (.estat w) s = .next t ∧ (∀ n, (p.teamIn t).reg n = p.team.reg n) ∧
       (∃ k, (t.core c).cmds = (s.core c).cmds ++ [k] ∧ k.cls = 9) ∧
       ∀ i, i < 32 → p.lanes.getLsbD i = true → ((p.teamIn t).lane i).pc = (p.iss s r).pc + 8)))

/-- R181, R183, R184: collectives and storage reads are submitted where the ranges that their operands fix pass. What the
spec's words leave open in it is the model's choice: log entries 52, 53, 54 and 89. -/
def Obligations.Collectives : Prop :=
  (∀ (s : State) (p : Path) (w : EW) (i : Instr) (d a b c : Word),
    let r := Raw.e 0x6D w
    let op := fieldOf w.md 2 0
    let n := ceilDiv (d.toNat * fmtBits (fieldOf w.md 7 3)) 8 + (if op = 3 then d.toNat / 32 else 0)
    i ∈ [Instr.collSum w, .collMin w, .collMax w, .collNsum w, .collGath w, .collBcast w, .collRsum w] → Ready s p r →
    p.four s 0x6D w numFmts addrFmts addrFmts addrFmts d a b c → (op = 3 → d.toNat % 32 = 0) →
    memCheck s (p.iss s r) p.team a n 1 1 [0] 3 0 = none →
    memCheck s (p.iss s r) p.team b (if op = 4 ∨ op = 6 then 0 else n) 1 2 [0] 3 1 = none →
    memCheck s (p.iss s r) p.team c 64 1 1 [0] 3 0 = none → Submits i s p r w 3 [d, a, b, c] []) ∧
  (∀ (s : State) (p : Path) (w : EW) (d a b c : Word),
    let r := Raw.e 0x6E w
    let dsp := fieldOf w.md 1 0
    let n := d.toNat % 2 ^ 32
    let cap := d.toNat / 2 ^ 32
    let lba := lbaOf s p.team.asid a
    Ready s p r → p.four s 0x6E w numFmts addrFmts (placeFmts dsp) addrFmts d a b c →
    (lba ≠ 0 → a.toNat % 2 ^ 48 % lba = 0 ∧ n % lba = 0) → (bitOf w.md 2 = false → cap = 0) →
    memCheck s (p.iss s r) p.team a n 1 1 [1] 6 0 = none →
    placeCheck s (p.iss s r) p.team dsp b (if bitOf w.md 2 then cap else n) true 6 [0] = none →
    (bitOf w.md 3 = true → memCheck s (p.iss s r) p.team c 0 1 1 [0] 6 0 = none) →
    Submits (.sread w) s p r w 6 [d, a, b, c] [])


/-! ### Class 5: the S-lane and what teams may use of it -/

/-- R192: SYSR reads a register as one n64 value; SYSW writes it, from a register or an immediate, whole or by setting or
clearing bits, and changes no other register of the issuer. What the spec's words leave open in it is the model's choice: log
entry 62. -/
def Obligations.SystemRegisters : Prop :=
  (∀ (s : State) (p : Path) (w : SW), Ready s p (.s 0x70 w) →
    Answers (.sysr w) s p (.s 0x70 w) s w.vd.toNat (regRead s p.agent (bitOf w.md 2) w.sreg.toNat)) ∧
  (∀ (s : State) (p : Path) (w : SW) (i : Instr) (f : Word → Word → Word) (x : Word),
    let r := Raw.s 0x71 w
    let n := w.sreg.toNat
    let sb := bitOf w.md 2
    let new := f (regRead s p.agent sb n) x
    (i, f) ∈ [(Instr.sysw w, fun _ x => x), (Instr.syswImm w, fun _ x => x), (Instr.syswSet w, fun old x => old ||| x),
      (Instr.syswClr w, fun old x => old &&& ~~~x)] →
    Ready s p r → ((p.iss s r).act = 0 → Leaves i s p r s) ∧
    ((p.iss s r).act ≠ 0 → (if bitOf w.md 0 then x = BitVec.ofNat 64 w.imm.toNat else p.operand5 s r w.va.toNat numFmts x) →
      (n = 0x80A ∧ dieBusy s (swapSlot new) = true → ∃ u id, Stays i s p r u (fun a => .proc id a)) ∧
      (¬(n = 0x80A ∧ dieBusy s (swapSlot new) = true) →
        (n ≠ 0x882 → (regWrite (s.putTeam p.agent p.team) p.agent sb n new).2 = none) ∧
        ∀ u, regWrite (s.putTeam p.agent p.team) p.agent sb n new = (u, none) →
          ∃ t, exec i s = .next t ∧ Kept u t p ∧ ∀ k, (p.teamIn t).reg k = ((u.teamOf p.agent).getD p.team).reg k)))

/-- R189–R192 (Tables 07.3, 07.4): what a write leaves in the registers of a context and of a team; bits that a register does
not have read as 0, and the always enabled bit 11 of S.IMASK as 1. What the spec's words leave open in it is the model's
choice: log entry 7. -/
def Obligations.RegisterFields : Prop :=
  (∀ (s : State) (core : Nat) (k : Ctx) (v : Word) (n : Nat) (mask fixed : Word), (n, mask, fixed) ∈
      [(0x001, 1, 0), (0x002, 1, 0), (0x181, 0xFFFFFFFFFFFF, 0), (0x182, 0xFFFFFFFFFFFF, 0), (0x183, 0xFF3F, 0),
       (0x185, 0xFFF, 0x800), (0x186, 0x7F, 0), (0x187, 0xFFFF, 0), (0x201, 7, 0), (0x211, 0xFFFFFFFFFFFFFFFF, 0),
       (0x580, 0xFFFF, 0), (0x600, 0xFFFFFFFFF0, 0), (0x601, 0x1FFFF, 0), (0x700, 0x7FFFFFF000, 0), (0x702, 0x7FFFFFFFF0, 0)] →
    let a : Agent := .ctx core k
    regRead (regWrite s a false n v).1 a false n = v &&& mask ||| fixed) ∧
  (∀ (s : State) (core slot : Nat) (t : Team) (v : Word), (s.core core).team? slot = some t →
    let a : Agent := .team core slot
    (∀ n, n < 32 → regRead (regWrite s a false (0x110 + n) v).1 a false (0x110 + n) = v) ∧
    regRead (regWrite s a false 0x100 v).1 a false 0x100 = v &&& 0x7F) ∧
  (∀ (s : State) (core : Nat) (k : Ctx), regRead s (.ctx core k) false 0x180 =
    BitVec.ofNat 64 (b2n ((s.core core).ctx k).trap + 2 * b2n (k == .m) + 4 * b2n (s.world core))) ∧
  (∀ (s : State) (core : Nat) (k : Ctx) (n : Nat) (v : Word) (j : Ctx), n ∈ [0x181, 0x182, 0x183, 0x185, 0x186, 0x201, 0x211] →
    j ≠ k → ((regWrite s (.ctx core k) false n v).1.core core).ctx j = (s.core core).ctx j)

/-- R193, R419, R420: taking an event, which the M context does not do while the S context is inside a clause: S.EPC receives
the next header's PC, S.CAUSE the code and number of the lowest pending enabled source, TRAP becomes 1 and the PC S.TVEC; a
context at WFI first goes on to its next header (R204). What the spec's words leave open in it is the model's choice: log
entries 33 and 34. -/
def Obligations.TakingEvents : Prop :=
  (∀ (s : State) (core : Nat) (k : Ctx) (src : Nat),
    let x := (s.core core).ctx k
    let new : CodeSrc := if x.code = 0 then .phys else .buffer x.code
    let tgt := x.tvec.toNat % 2 ^ 48
    atBoundary (s.core core) k = true → x.trap = false → source s core k = some src → (k = .m → ctxInside (s.core core) .s = false) →
    entryCode s core (if k = .m then 0 else 1) new tgt = 0 →
    exec (.eventTake core k) s = .next (s.modCore core (fun c => c.setCtx k { x with
      epc := BitVec.ofNat 64 (x.lane.pc % 2 ^ 48), cause := BitVec.ofNat 64 (sourceCause c src + 256 * src), trap := true,
      pend11 := if src = 11 then false else x.pend11, fetch := new, lane := { x.lane with pc := tgt, hpc := tgt } }))) ∧
  (∀ (s : State) (core : Nat) (k : Ctx), source s core k = none → exec (.eventTake core k) s = .next s) ∧
  (∀ (s : State) (core : Nat) (k : Ctx), ((s.core core).ctx k).trap = true → ((s.core core).ctx k).lane.wait = none →
    exec (.eventTake core k) s = .next s) ∧
  (∀ (s : State) (core : Nat) (k : Ctx), (source s core k).isSome = true → ((s.core core).ctx k).lane.wait = some .wfi →
    exec (.eventTake core k) s = exec (.eventTake core k)
      (s.modCore core (fun c => c.setCtx k { c.ctx k with lane := resumeLane s.now (c.ctx k).lane }))) ∧
  (∀ (s : State) (core : Nat) (k : Ctx) (src : Nat), source s core k = some src ↔
    src < 12 ∧ bit (enabled s core k) src = true ∧ ∀ j, j < src → bit (enabled s core k) j = false)

/-- R194, R195: SRET outside trap context is ILLEGAL and the context's trap; with a pending enabled event it enters the
handler again and keeps S.EPC; else it goes to S.EPC and TRAP becomes 0. What the spec's words leave open in it is the model's
choice: log entry 33. -/
def Obligations.TrapReturn : Prop :=
  ∀ (s : State) (p : Path) (w : SW) (core : Nat) (k : Ctx), Ready s p (.s 0x72 w) → p.agent = .ctx core k →
    let x := (s.core core).ctx k
    let new : CodeSrc := if x.code = 0 then .phys else .buffer x.code
    let asid := if k = .m then 0 else 1
    (x.trap = false → ∃ t, exec (.sret w) s = .next t ∧ (∀ m a, t.byte m a = s.byte m a) ∧ CtxTraps s t p (.s 0x72 w) cILLEGAL) ∧
    (x.trap = true → source s core k = none → targetCode s core asid new (x.epc.toNat % 2 ^ 48 : Nat) = 0 →
      ∃ t, exec (.sret w) s = .next t ∧
        Sent (s.modCore core (fun c => c.setCtx k { x with fetch := new, trap := false })) t p p.team
          (fun _ => x.epc.toNat % 2 ^ 48) none ∧ ∀ n, (p.teamIn t).reg n = p.team.reg n) ∧
    (∀ src, x.trap = true → source s core k = some src → entryCode s core asid new (x.tvec.toNat % 2 ^ 48) = 0 →
      ∃ t, exec (.sret w) s = .next t ∧
        Sent (s.modCore core (fun c => c.setCtx k { x with
            fetch := new, cause := BitVec.ofNat 64 (sourceCause c src + 256 * src), trap := true,
            pend11 := if src = 11 then false else x.pend11 })) t p p.team
          (fun _ => x.tvec.toNat % 2 ^ 48) none ∧ ∀ n, (p.teamIn t).reg n = p.team.reg n)

/-- R36, R38, R46, R74, R75, R96, R102, R121, R147, R195: a word that decode rejects for its issuer has no effect but its
trap: a team's fibres park at it with its cause; the S context stops at it and the M context's event 11 is pending; the M
context, under the log policy, enters its handler. So has a word whose source has a format or a scale link that it does not
accept (FORMAT for its active fibres), and one whose path, guard, target, index or operand is not uniform where its rule asks
for that (UNIFORM, for the candidates of BRU, PUT and PUTR and for the whole path of a whole-team word). What the spec's words
leave open in it is the model's choice: log entry 32. -/
def Obligations.RejectedWords : Prop :=
  (∀ (s : State) (p : Path) (r : Raw) (body : State → Iss → Team → Team → Res) (x : Reject), openPath s = some p →
    issueReject p.team.slane p.team.priv p.team.wsize (p.clause.header.toNat % 8) (p.iss s r).final r = some x →
    ∃ t, runWord r body s = .next t ∧ TurnedAway s t p r p.lanes (rejectCause x)) ∧
  (∀ (s : State) (p : Path) (w : RW) (op : Nat) (i : Instr) (rs : List Nat) (free : Bool),
    let ab := abRegs w
    let v := p.view s (.r op w)
    let act := (p.iss s (.r op w)).act
    (op, i, rs, free) ∈ [(0x18, .iadd w, ab, false), (0x19, .isub w, ab, false), (0x1B, .imul w, ab, false), (0x1C, .imulh w, ab, false),
      (0x1F, .imin w, ab, false), (0x20, .imax w, ab, false), (0x21, .iabsd w, ab, false), (0x22, .icmp w, ab, false),
      (0x22, .icmpMask w, ab, false), (0x1D, .imad w, ab ++ [w.vc.toNat], false), (0x1E, .iaddmin w, ab ++ [w.vc.toNat], false),
      (0x34, .lreduce w, [w.va.toNat], false), (0x35, .lscan w, [w.va.toNat], false), (0x36, .vmerge w, [w.va.toNat, w.vb.toNat], false),
      (0x24, .andW w, ab, true), (0x25, .orW w, ab, true), (0x26, .xorW w, ab, true), (0x27, .shl w, ab, true), (0x28, .shr w, ab, true),
      (0x29, .shra w, ab, true), (0x2A, .bfx w, ab, true), (0x2B, .bfi w, ab ++ [w.vc.toNat], true)] →
    Ready s p (.r op w) → act ≠ 0 →
    (typeOk v rs w.ty.toNat free = false ∨ free = false ∧ linksNone v rs = false) → Refuses i s p (.r op w) act cFORMAT) ∧
  (∀ (s : State) (p : Path) (w : RW) (op : Nat) (i : Instr) (rs : List Nat),
    let v := p.view s (.r op w)
    let iss := p.iss s (.r op w)
    let ty := w.ty.toNat
    (op, i, rs) ∈ [(0x38, .fadd w, [w.va.toNat, w.vb.toNat]), (0x39, .fsub w, [w.va.toNat, w.vb.toNat]),
      (0x3A, .fmul w, [w.va.toNat, w.vb.toNat]), (0x3B, .ffma w, [w.va.toNat, w.vb.toNat, w.vc.toNat]),
      (0x3D, .fmin w, [w.va.toNat, w.vb.toNat]), (0x3E, .fmax w, [w.va.toNat, w.vb.toNat])] →
    Ready s p (.r op w) →
    (iss.act ≠ 0 → (formatsOk v rs (fun f => f == ty) = false ∨ isNarrow ty = false ∧ linksNone v rs = false) →
      Refuses i s p (.r op w) iss.act cFORMAT) ∧
    (isNarrow ty = true → formatsOk v rs (fun f => f == ty) = true → wholeTeam iss p.team = false →
      Refuses i s p (.r op w) iss.lanes cUNIFORM)) ∧
  (∀ (s : State) (p : Path) (w : RW) (op : Nat) (i : Instr) (ok : Bool),
    let v := p.view s (.r op w)
    let iss := p.iss s (.r op w)
    let src := 9 + fieldOf w.md 2 1
    let wide := ieeeOk v (List.range' w.va.toNat (qcvtRegs (fieldOf w.md 2 1) w.ty.toNat)) src
    (op, i, ok) ∈ [(0x4B, .qcvt w, wide), (0x4B, .qcvtFix w, wide),
      (0x4C, .dqcvt w, formatsOk v [w.va.toNat] (fun f => f == dqcvtFmt (fieldOf w.md 5 3))),
      (0x4D, .scadj w, formatsOk v [w.va.toNat] (fun f => f == w.ty.toNat))] →
    Ready s p (.r op w) →
    (ok = false → iss.act ≠ 0 → Refuses i s p (.r op w) iss.act cFORMAT) ∧
    (ok = true → wholeTeam iss p.team = false → Refuses i s p (.r op w) iss.lanes cUNIFORM)) ∧
  (∀ (s : State) (p : Path) (w : IW),
    let r := Raw.i 0x02 w
    let iss := p.iss s r
    Ready s p r →
    (iss.act ≠ 0 → iss.act ≠ iss.lanes → Refuses (.bru w) s p r iss.lanes cUNIFORM) ∧
    (formatsOk (p.view s r) [w.va.toNat] numFmts.contains = true →
      (iss.act ≠ 0 ∧ iss.act ≠ iss.lanes ∨ ∃ a b, a < 32 ∧ b < 32 ∧ iss.act.getLsbD a = true ∧ iss.act.getLsbD b = true ∧
        p.src s r w.va.toNat a ≠ p.src s r w.va.toNat b) →
      Refuses (.bruR w) s p r iss.lanes cUNIFORM)) ∧
  (∀ (s : State) (p : Path) (w : RW) (a b : Nat),
    let r := Raw.r 0x33 w
    let v := p.view s r
    let act := (p.iss s r).act
    let at_ (i : Nat) : Nat := sub (p.src s r w.vb.toNat i) (fmtBits (v.reg w.vb.toNat).fmt) 0
    Ready s p r → typeOk v [w.va.toNat] w.ty.toNat false = true → formatsOk v [w.vb.toNat] (fun f => [5, 6, 7, 8].contains f) = true →
    a < 32 → b < 32 → act.getLsbD a = true → act.getLsbD b = true → at_ a ≠ at_ b → Refuses (.lbcastR w) s p r act cUNIFORM) ∧
  (∀ (s : State) (p : Path) (w : EW) (op : Nat) (i : Instr) (ops : List (Nat × List Nat)),
    let vc := if fieldOf w.md 2 0 = 0 then [] else [(w.vc.toNat, addrFmts)]
    let v := p.view s (.e op w)
    let bad := ∃ o ∈ ops, (v.reg o.1).isDead = false ∧ (v.reg o.1).fmt ∉ o.2
    (op, i, ops) ∈ [(0x5A, .put w, (w.vd.toNat, numFmts) :: (w.va.toNat, addrFmts) :: (w.vb.toNat, addrFmts) :: vc),
      (0x5B, .putr w, (w.vb.toNat, addrFmts) :: vc)] →
    Ready s p (.e op w) →
    (p.team.slane = false → bad → Refuses i s p (.e op w) p.lanes cFORMAT) ∧
    (¬bad → (∃ o ∈ ops, ∃ a b, a < 32 ∧ b < 32 ∧ p.lanes.getLsbD a = true ∧ p.lanes.getLsbD b = true ∧
        p.src s (.e op w) o.1 a ≠ p.src s (.e op w) o.1 b) → Refuses i s p (.e op w) p.lanes cUNIFORM))

/-- R196: TQTAKE with no pending entry gives 0; else it stores the records of the oldest pending entries of its context and
takes them. R196–R198, R328, R329: an answer to an entry that is not taken, ended or of another cause sets TQ.STAT to 1, 3, 2
or 4 and has no other effect but to free an ended entry; else TQ.STAT is 0, the entry is free (but for the fibres that
`replay.m` leaves), and its team gets the result, fails, or restarts. What the spec's words leave open in it is the model's
choice: log entries 30, 59 and 80. -/
def Obligations.TrapQueueEntries : Prop :=
  (∀ (s : State) (p : Path) (w : SW) (core : Nat) (k : Ctx),
     let r := Raw.s 0x73 w
     let a := p.src s r w.va.toNat 0
     let es := (pendingOf (s.core core) k).take w.imm.toNat
     Ready s p r → p.agent = .ctx core k → (p.iss s r).act ≠ 0 → a.toNat % 2 ^ 48 % 64 = 0 →
     (es = [] → Answers (.tqtake w) s p r s w.vd.toNat 0) ∧
     (∀ u, es ≠ [] → sysWriteWeak core p.agent p.team.asid a 64 (es.flatMap (fun e => recordBytes e.1 e.2)) s = (u, none) →
       Answers (.tqtake w) s p r
         (u.modCore core (fun c => es.foldl (fun (c : Core) e => { c with tq := mset c.tq e.1 { e.2 with st := .taken } }) c))
         w.vd.toNat (BitVec.ofNat 64 es.length))) ∧
  ((∀ (s : State) (p : Path) (w : SW) (core : Nat) (k : Ctx) (op : Nat) (i : Instr) (allowed : TqEntry → Bool)
     (effect : State → Nat → TqEntry → State),
     let r := Raw.s op w
     let a := p.src s r w.va.toNat 0
     let b := p.src s r w.vd.toNat 0
     let n := a.toNat % 64
     let e := (s.core core).tqAt n
     let stat (code : Nat) : State := s.modCore core (fun c => c.setCtx k { c.ctx k with tqstat := code })
     let free (s : State) : State := s.modCore core (fun c => { c with tq := mset c.tq n { c.tqAt n with st := .free } })
     let restarts (e : TqEntry) : Bool := e.cause != cSYSCALL && e.cause != cRESIDENCY && e.cause != cQUEUE
     (op, i, allowed, effect) ∈
       [(0x74, Instr.tqpost w, fun (e : TqEntry) => e.cause == cSYSCALL, fun s _ e => postResult (free s) core e b),
        (0x74, Instr.tqpostOom w, fun (e : TqEntry) => e.cause == cSYSCALL || e.cause == cPAGE, fun s _ e => exhaust (free s) e.lseq b),
        (0x75, Instr.replay w, restarts, fun s _ e => free (restart s core e (BitVec.allOnes 32))),
        (0x75, Instr.replayDrop w, fun _ => true, fun s _ e =>
           if e.cause = cSYSCALL then postResult (free s) core e (BitVec.allOnes 64) else free s)] →
     Ready s p r → p.agent = .ctx core k → (p.iss s r).act ≠ 0 →
     (e.st ≠ .taken ∨ e.gen ≠ bits a.toNat 13 6 → Leaves i s p r (stat 1)) ∧
     (e.st = .taken → e.gen = bits a.toNat 13 6 →
       (e.ended = true → Leaves i s p r (free (stat 3))) ∧
       (e.ended = false → allowed e = false → Leaves i s p r (stat 2)) ∧
       (e.ended = false → allowed e = true → Leaves i s p r (effect (stat 0) n e)))) ∧
   (∀ (s : State) (p : Path) (w : SW) (core : Nat) (k : Ctx),
     let r := Raw.s 0x75 w
     let a := p.src s r w.va.toNat 0
     let n := a.toNat % 64
     let e := (s.core core).tqAt n
     let m : BitVec 32 := BitVec.ofNat 32 (p.src s r w.vd.toNat 0).toNat
     let stat (code : Nat) : State := s.modCore core (fun c => c.setCtx k { c.ctx k with tqstat := code })
     Ready s p r → p.agent = .ctx core k → (p.iss s r).act ≠ 0 → e.st = .taken → e.gen = bits a.toNat 13 6 → e.ended = false →
     (e.cause != cSYSCALL && e.cause != cRESIDENCY && e.cause != cQUEUE) = true →
     (e.fmask &&& m = 0 → Leaves (.replayM w) s p r (stat 4)) ∧
     (e.fmask &&& m ≠ 0 → Leaves (.replayM w) s p r ((restart (stat 0) core e m).modCore core (fun c =>
       { c with tq := mset c.tq n (if e.fmask &&& ~~~m = 0 then { c.tqAt n with st := .free } else { e with fmask := e.fmask &&& ~~~m }) })))) ∧
   (∀ (s : State) (core : Nat) (e : TqEntry) (m : BitVec 32) (t : Team), (s.core core).team? e.slot = some t → t.uid = e.uid →
     e.cause ≠ cENGINE →
     ∃ u, ((restart s core e m).core core).team? e.slot = some u ∧ (∀ n, u.reg n = t.reg n) ∧
       ∀ i, i < 32 → (t.lane i).live = true → (u.lane i).pc = (t.lane i).pc ∧
         (u.lane i).parked = ((t.lane i).parked && !(e.fmask &&& m).getLsbD i)) ∧
   (∀ (s : State) (core : Nat) (e : TqEntry) (x : Word) (t : Team) (y : SysWait), (s.core core).team? e.slot = some t → t.uid = e.uid →
     t.sys = [y] → t.slane = false → (∀ q ∈ y.results, q.1 ≠ lowest e.fmask → q.2.isSome = true) →
     (lowest e.fmask, none) ∈ y.results → (∀ q ∈ y.results, q.1 < 32) →
     ∃ u, ((postResult s core e x).core core).team? e.slot = some u ∧ u.sys = [] ∧
       (u.reg y.vd).lane (lowest e.fmask) = x ∧ (u.reg y.vd).fmt = 7 ∧
       ∀ i, i < 32 → y.resume.getLsbD i = true → (t.lane i).live = true → (t.lane i).parkDue = false → (u.lane i).parked = false))

/-- R200, R201, R362, R364, R366: LAUNCH of a sound descriptor enqueues it and gives its LSEQ, or 2⁶³ + 2 where its queue is
closed and 2⁶³ + 1 where it is full; TKCLAIM takes tickets with one atomic step. What the spec's words leave open in it is the
model's choice: log entry 63. -/
def Obligations.Launches : Prop :=
  (∀ (s : State) (p : Path) (w : SW) (a : Word) (u : State) (b : List Byte) (x : Tgt × Option Bte),
    let r := Raw.s 0x77 w
    let c := agentCore p.agent
    let res := enqueue1 (releaseDie (propagateAll u p.agent) (dieOf c)) c (w.imm.toNat % 8) (descOf b) b
    Ready s p r → (p.iss s r).act ≠ 0 → p.operand5 s r w.va.toNat addrFmts a →
    sysCheck s (sysReq p.team.asid c a 0 128 64 1 [0, 3]) a = .ok x →
    sysRead (weakMode c p.agent) p.team.asid a [(0, 128)] s = (u, .ok b) →
    validate u c p.team.priv p.team.asid (descOf b) = .ok 0 → Answers (.launch w) s p r res.1 w.vd.toNat res.2) ∧
  (∀ (s : State) (core prio : Nat) (d : Desc) (b : List Byte),
    let q := queueGet s d.asid prio
    let res := enqueue1 s core prio d b
    (bit q 0 = false ∨ bit q 1 = true → res = (s, BitVec.ofNat 64 (2 ^ 63 + 2))) ∧
    (bit q 0 = true → bit q 1 = false → bits q 31 16 ≤ bits q 47 32 → res = (s, BitVec.ofNat 64 (2 ^ 63 + 1))) ∧
    (bit q 0 = true → bit q 1 = false → bits q 47 32 < bits q 31 16 → slotBusy s (s.reg 0x703) = false →
      res.2 = BitVec.ofNat 64 (s.reg 0x703) ∧ res.1.reg 0x703 = (s.reg 0x703 + 1) % 2 ^ 48)) ∧
  (∀ (s : State) (p : Path) (w : SW) (a : Word) (tgt : Tgt) (e : Option Bte) (u : State) (old : Nat),
    let r := Raw.s 0x78 w
    let c := agentCore p.agent
    let q := sysReq p.team.asid c a 0 16 16 11 [0]
    let next := old % 2 ^ 64
    let limit := old / 2 ^ 64
    let n := min w.imm.toNat (limit - next)
    Ready s p r → (p.iss s r).act ≠ 0 → p.operand5 s r w.va.toNat addrFmts a → sysCheck s q a = .ok (tgt, e) →
    atomTgt (noteAccess s q e) (devMode c p.agent 3) tgt 16 (fun r => some (
      (r % 2 ^ 64 + min w.imm.toNat (r / 2 ^ 64 - r % 2 ^ 64)) % 2 ^ 64 + r / 2 ^ 64 * 2 ^ 64)) = (u, some old) →
    Answers (.tkclaim w) s p r (noteClaim u tgt n) w.vd.toNat (BitVec.ofNat 64 (n * 2 ^ 48 + next % 2 ^ 48)))

/-- R205, R355: on a core that holds a token, or for `token.try` with one free, the issuer becomes a holder and gets 1;
`token.try` gets 0 otherwise and `token.take` waits its turn; `token.give` ends the issuer's holding. R188, R199, R204: WFI
ends at once with a pending enabled event and waits otherwise; TLBINV of no bytes does nothing, and any other waits until its
removal, which takes the pages that its range meets, is complete. A word of class 5 for no active fibre has no effect. What
the spec's words leave open in it is the model's choice: log entries 48 and 58. -/
def Obligations.TokensAndWaits : Prop :=
  (∀ (s : State) (p : Path) (w : SW),
     let r := Raw.s 0x7E w
     let c := agentCore p.agent
     let h := holderOf s p.agent
     let held := s.modCore c (fun x => { x with holders := if x.holders.contains h then x.holders else x.holders ++ [h] })
     Ready s p r →
     ((p.iss s r).act = 0 → Leaves (.tokenTake w) s p r s ∧ Leaves (.tokenTry w) s p r s ∧ Leaves (.tokenGive w) s p r s) ∧
     ((p.iss s r).act ≠ 0 →
       Leaves (.tokenGive w) s p r (s.modCore c (fun x => { x with holders := x.holders.filter (fun y => y != h) })) ∧
       ((s.core c).holders ≠ [] → Answers (.tokenTake w) s p r held w.vd.toNat 1 ∧ Answers (.tokenTry w) s p r held w.vd.toNat 1) ∧
       ((s.core c).holders = [] →
         (0 < tokensFree s → Answers (.tokenTry w) s p r held w.vd.toNat 1) ∧
         (tokensFree s = 0 → Answers (.tokenTry w) s p r s w.vd.toNat 0) ∧
         Stays (.tokenTake w) s p r { s with tokens := s.tokens ++ [⟨c, h, some p.agent, s.now, false⟩] }
           (fun a => .token w.vd.toNat a)))) ∧
  ((∀ (s : State) (p : Path) (w : SW) (core : Nat) (k : Ctx), Ready s p (.s 0x7D w) → p.agent = .ctx core k →
     ((source s core k).isSome = true → Passes (.wfi w) s p (.s 0x7D w)) ∧
     (source s core k = none → Holds (.wfi w) s p (.s 0x7D w) .wfi)) ∧
   (∀ (s : State) (p : Path) (w : SW) (a n : Word),
     let r := Raw.s 0x76 w
     let imm := w.imm.toNat
     let all := bit imm 16
     Ready s p r → (p.iss s r).act ≠ 0 → (all = false → p.operand5 s r w.va.toNat addrFmts a ∧ p.operand5 s r w.vd.toNat numFmts n) →
     (all = true → a = 0 ∧ n = 0) →
     (all = false → n = 0 → Leaves (.tlbinv w) s p r s) ∧
     (all = true ∨ (n ≠ 0 ∧ allOnes a = false) → Stays (.tlbinv w) s p r
       (startTlb { s with nextId := s.nextId + 1, procs := s.procs ++ [⟨s.nextId, p.agent, .tlbinv false imm a n⟩] })
       (fun act => .proc s.nextId act))) ∧
   (∀ (s : State) (p : Path) (w : SW) (op : Nat) (i : Instr), (op, i) ∈
       [(0x70, Instr.sysr w), (0x71, .sysw w), (0x71, .syswImm w), (0x71, .syswSet w), (0x71, .syswClr w), (0x73, .tqtake w),
        (0x74, .tqpost w), (0x74, .tqpostOom w), (0x75, .replay w), (0x75, .replayM w), (0x75, .replayDrop w), (0x76, .tlbinv w),
        (0x77, .launch w), (0x78, .tkclaim w), (0x79, .park w), (0x79, .parkCopse w), (0x7A, .unpark w), (0x7A, .unparkCopse w),
        (0x7B, .ctxsv w), (0x7B, .ctxsvCopse w), (0x7C, .ctxld w), (0x7C, .ctxldCopse w), (0x7E, .tokenTake w),
        (0x7E, .tokenTry w), (0x7E, .tokenGive w)] →
     Ready s p (.s op w) → (p.iss s (.s op w)).act = 0 → Leaves i s p (.s op w) s) ∧
   (∀ (s : State) (imm : Nat) (a n : Word),
     let t := invalidate s imm a n
     let h := a.toNat / 2 ^ 48
     let o := a.toNat % 2 ^ 48
     (∀ q, q ∈ t.ptc ↔ q ∈ s.ptc ∧ ¬(q.asid = imm % 2 ^ 16 ∧ (bit imm 16 = true ∨
       q.handle = h ∧ q.page * 2 ^ q.shift < o + n.toNat ∧ o < (q.page + 1) * 2 ^ q.shift))) ∧
     (∀ q, q ∈ t.btc ↔ q ∈ s.btc ∧ ¬(bit imm 17 = true ∧ q.asid = imm % 2 ^ 16 ∧ (bit imm 16 = true ∨ q.handle = h)))))

/-- R202, R214: PARK halts the running teams that it names, its own among them, and completes once their paths have stopped;
UNPARK lets halted teams issue again, and a path that waited for a power token goes on where its core holds one. R203,
R240–R243: CTXSV of a team that is not halted gives 2⁶³ + 1; of a halted one whose commands are over it stores the area, which
holds its window, flags, scale registers and tags where Table 10.6 says, and gives its bytes; else it waits until they are.
CTXLD into a slot that holds a team gives 2⁶³ + 2, of an area that is none 2⁶³ + 4; else it gives what restoring the area
gives. What the spec's words leave open in it is the model's choice: log entries 22, 60, 61 and 84. -/
def Obligations.ParkingAndContexts : Prop :=
  ((∀ (s : State) (p : Path) (w : SW) (x : Word) (whole : Bool) (op : Nat),
     let r := Raw.s op w
     let core := x.toNat % 256
     let slots := targetSlots s x whole
     let own := s.putTeam p.agent p.team
     let parked := slots.foldl (fun s slot => parkTeam s core slot) own
     Ready s p r → (p.iss s r).act ≠ 0 → p.operand5 s r w.va.toNat numFmts x → targetCheck s (p.iss s r) x = none →
     (∀ c k, p.agent = .team c k → c = core → k ∉ slots) →
     (op = 0x79 →
       (slots.all (stoppedPaths (parked.core core)) = true → Leaves (if whole then .parkCopse w else .park w) s p r parked) ∧
       (slots.all (stoppedPaths (parked.core core)) = false →
         Stays (if whole then .parkCopse w else .park w) s p r
           { parked with nextId := parked.nextId + 1, procs := parked.procs ++ [⟨parked.nextId, p.agent, .park core slots⟩] }
           (fun a => .proc parked.nextId a))) ∧
     (op = 0x7A → Leaves (if whole then .unparkCopse w else .unpark w) s p r (slots.foldl (fun s slot => unparkTeam s core slot) own))) ∧
   (∀ (s : State) (p : Path) (w : SW) (x : Word) (whole : Bool) (core slot : Nat),
     let r := Raw.s 0x79 w
     Ready s p r → (p.iss s r).act ≠ 0 → p.operand5 s r w.va.toNat numFmts x → targetCheck s (p.iss s r) x = none →
     p.agent = .team core slot → p.team.st = .running → x.toNat % 256 = core → slot ∈ targetSlots s x whole →
     ∃ t, exec (if whole then .parkCopse w else .park w) s = .next t ∧ (p.teamIn t).st = .halted ∧
       ∀ n, (p.teamIn t).reg n = p.team.reg n) ∧
   (∀ (s : State) (core slot : Nat) (t : Team), (s.core core).team? slot = some t →
     (t.st = .running → ((parkTeam s core slot).core core).team? slot ≠ none ∧
       ∀ u, ((parkTeam s core slot).core core).team? slot = some u → u.st = .halted ∧ ∀ n, u.reg n = t.reg n) ∧
     (t.st = .halted → ∀ u, ((unparkTeam s core slot).core core).team? slot = some u → u.st = .running ∧
       ((∀ l ∈ t.lanes, l.wait.any isTokenWait = false) → ∀ n, u.reg n = t.reg n) ∧
       ((s.core core).holdsToken = true → ∀ i, i < 32 → (t.lane i).live = true → (t.lane i).parked = false →
         (∃ vd act, (t.lane i).wait = some (.token vd act)) → (u.lane i).wait = none)))) ∧
  ((∀ (s : State) (core slot : Nat) (t : Team), (s.core core).team? slot = some t → t.wsize < 2048 →
     let b := saveBytes s core slot false
     fieldAt b 0 4 = 0xCA5D0001 ∧ fieldAt b 8 1 = t.wsize / 8 ∧ fieldAt b 15 1 = t.flags.toNat ∧
     (∀ n, n < 16 → fieldAt b (576 + 16 * n) 16 = (t.scaleReg n).toNat) ∧
     ∀ n, n < t.wsize → fieldAt b (832 + 2 * n) 2 = (savedReg t n).tag % 2 ^ 16) ∧
   ∀ (s : State) (p : Path) (w : SW) (x a : Word) (whole : Bool),
     let core := x.toNat % 256
     let slot := bits x.toNat 11 8
     let me := agentCore p.agent
     (∀ (tgt : Tgt × Option Bte),
       let r := Raw.s 0x7B w
       let i : Instr := if whole then .ctxsvCopse w else .ctxsv w
       let slots := targetSlots s x whole
       let halted := slots.all (fun k => match (s.core core).team? k with
         | some t => t.st == .halted || (whole && t.st == .ended)
         | none => true)
       let stopped := (s.putTeam p.agent p.team).modCore core (fun c => stopCmds c slots)
       Ready s p r → (p.iss s r).act ≠ 0 → p.operand5 s r w.vd.toNat numFmts x → p.operand5 s r w.va.toNat addrFmts a →
       targetCheck s (p.iss s r) x = none →
       sysCheck s (sysReq p.team.asid me a 0 (saveBytes s core slot whole).length 256 2 [0, 3]) a = .ok tgt →
       (halted = false → Answers i s p r s w.vd.toNat (BitVec.ofNat 64 (2 ^ 63 + 1))) ∧
       (∀ (u : State) (n : Nat), halted = true → saveReady (stopped.core core) slots = true →
         (∀ c k, p.agent = .team c k → c = core → k ∉ slots) →
         saveNow stopped (devMode me p.agent 2) p.team.asid core slot whole a = (u, .ok n) →
         Answers i s p r u w.vd.toNat (BitVec.ofNat 64 (n % 2 ^ 32))) ∧
       (halted = true → saveReady (stopped.core core) slots = false → (∀ c k, p.agent = .team c k → c = core → k ∉ slots) →
         Stays i s p r { stopped with nextId := stopped.nextId + 1, procs := stopped.procs ++
             [⟨stopped.nextId, p.agent, .ctxsv core slot whole a w.vd.toNat⟩] } (fun act => .proc stopped.nextId act))) ∧
     (∀ (u : State) (tgt : Tgt × Option Bte) (head : List Byte),
       let r := Raw.s 0x7C w
       let i : Instr := if whole then .ctxldCopse w else .ctxld w
       let m := devMode me p.agent 1
       Ready s p r → (p.iss s r).act ≠ 0 → p.operand5 s r w.vd.toNat numFmts x → p.operand5 s r w.va.toNat addrFmts a →
       s.world core = s.world me → sysCheck s (sysReq p.team.asid me a 0 64 256 1 [0, 3]) a = .ok tgt →
       sysRead m p.team.asid a [(0, 64)] s = (u, .ok head) →
       (((u.core core).team? slot).isSome = true → Answers i s p r u w.vd.toNat (BitVec.ofNat 64 (2 ^ 63 + 2))) ∧
       (((u.core core).team? slot).isSome = false →
         (fieldAt head 0 4 ≠ (if whole then 0xCA5D0002 else 0xCA5D0001) →
           Answers i s p r u w.vd.toNat (BitVec.ofNat 64 (2 ^ 63 + 4))) ∧
         (fieldAt head 0 4 = (if whole then 0xCA5D0002 else 0xCA5D0001) →
           ∀ (v : State) (b : List Byte), sysRead m p.team.asid a (stretchesAt a.toNat (fieldAt head 4 4)) u = (v, .ok b) →
             let res := if whole then loadCopse v core (savedFor v p.team.asid a) b else loadTeam v core slot (savedFor v p.team.asid a) b
             Answers i s p r res.1 w.vd.toNat res.2))))


/-! ### Events of the package -/

/-- R191, R338–R341, R347: a reset keeps flash with its header, the fuses and what Table 19.2 says it keeps, loses the local
memories, every team, copse, command and trap-queue entry, and runs the boot chain: the first accepted slot's monitor starts
on every core in service, or, where both are refused, the package is in recovery with alarm cause 3 and no core leaves reset.
R347: an alarm event latches its cause, counts, and where its policy is not to log only orders a reset, before which policy 2
destroys the keys; a period of WORLD faults ends after 2^24 clk, with an alarm of cause 2 where the faults reached the
threshold and none has been raised. What the spec's words leave open in it is the model's choice: log entries 8, 9, 10, 11 and
31. -/
def Obligations.ResetsAndAlarms : Prop :=
  (∀ (s : State) (i : Instr) (k : ResetKind), (i, k) ∈ [(Instr.powerOnReset, .powerOn), (.fullReset, .full), (.alarmReset, .alarm)] →
     ∃ t, exec i s = .next t ∧ t.booted = true ∧ t.fuseSvn = s.fuseSvn ∧ t.header = s.header ∧ (∀ o, t.byte .flash o = s.byte .flash o) ∧
       (∀ m a, m ≠ .dram → m ≠ .flash → t.byte m a = 0) ∧
       (∀ n, (t.core n).teams = [] ∧ (t.core n).copses = [] ∧ (t.core n).cmds = [] ∧ (t.core n).tq = [] ∧
         (t.core n).sctx = SCtx.reset) ∧
       (k ≠ .alarm → ∀ n, n < 4 → t.reg (0x810 + n) = nth (withdrawalMasks s.flash) 0 n) ∧
       (k = .alarm → mrising s.regs = true → ∀ n, 0x800 ≤ n → n < 0x880 → n ≠ 0x806 → t.reg n = s.reg n) ∧
       (∀ (slot : Nat) (fallback : Bool), chosenSlot s = some (slot, fallback) →
         let svn := (slotOf s slot).2.2
         t.recovery = false ∧ t.keys = s.keys ∧ t.reg 0x880 = 2 + 16 * slot + 32 * b2n fallback + 256 * (svn % 256) ∧
         ∀ n, n < 256 →
           (t.withdrawn n = true → (t.core n).released = false) ∧
           (t.withdrawn n = false → (t.core n).released = true ∧ (t.core n).mctx.lane.live = true ∧
             (t.core n).mctx.lane.pc = Config.imageEntry (slotImage s slot) ∧ (t.core n).mctx.fetch = .phys ∧
             (t.core n).mctx.trap = false)) ∧
       (chosenSlot s = none → t.recovery = true ∧ t.reg 0x880 = 33 ∧ bit (t.reg 0x806) 3 = true ∧ ∀ n, (t.core n).released = false)) ∧
  ((∀ (s : State) (i : Instr) (cause : Nat), (i, cause) ∈ [(Instr.tamperAlarm, 0), (.glitchAlarm, 1)] →
     ∃ t, exec i s = .next t ∧ bit (t.reg 0x806) cause = true ∧
       (∀ k, k < 5 → k ≠ cause → bit (t.reg 0x806) k = bit (s.reg 0x806) k) ∧
       bits (t.reg 0x806) 15 8 = min 255 (bits (s.reg 0x806) 15 8 + 1) ∧ t.cores = s.cores ∧ (∀ m a, t.byte m a = s.byte m a) ∧
       (bits (s.reg 0x805) (2 * cause + 1) (2 * cause) = 0 → t.agenda = s.agenda ∧ t.keys = s.keys) ∧
       (bits (s.reg 0x805) (2 * cause + 1) (2 * cause) ≠ 0 → t.agenda = .alarmReset :: s.agenda) ∧
       (bits (s.reg 0x805) (2 * cause + 1) (2 * cause) = 1 → t.keys = s.keys) ∧
       (bits (s.reg 0x805) (2 * cause + 1) (2 * cause) = 2 → t.keys = 4)) ∧
   (∀ s : State, s.now < s.worldStart + 2 ^ 24 → exec .worldPeriodEnd s = .next s) ∧
   (∀ s : State, s.worldStart + 2 ^ 24 ≤ s.now →
     ∃ t, exec .worldPeriodEnd s = .next t ∧ t.worldFaults = 0 ∧ t.worldRaised = false ∧ t.worldStart ≤ s.now ∧
       s.now < t.worldStart + 2 ^ 24 ∧
       (s.reg 0x807 ≠ 0 → s.reg 0x807 ≤ s.worldFaults → s.worldRaised = false → bit (t.reg 0x806) 2 = true) ∧
       (s.reg 0x807 = 0 ∨ s.worldFaults < s.reg 0x807 ∨ s.worldRaised = true → t.reg 0x806 = s.reg 0x806)))

/-- R421: every reset sets each mesh and Ethernet register as if 0 had been written to it (the weights, RREQ.RATE, RREQ.BURST,
RETX.TIMEOUT and HOLE.RETRY then read 1, the others 0), and empties every queue, hole table, bucket table and flow record. -/
def Obligations.EthernetReset : Prop :=
  ∀ (s : State) (i : Instr), i ∈ [Instr.powerOnReset, .fullReset, .alarmReset] → ∃ t, exec i s = .next t ∧
    (∀ (core : Nat) (k : Ctx),
      (∀ c, c < 8 → regRead t (.ctx core k) false (0x280 + c) = 1) ∧ regRead t (.ctx core k) false 0x288 = 0 ∧
      (∀ p r, p < 12 → r < 19 → regRead t (.ctx core k) false (0x400 + 32 * p + r) = if r ∈ [5, 6, 8, 9] then 1 else 0) ∧
      ∀ n, 0x580 ≤ n → n ≤ 0x584 → regRead t (.ctx core k) false n = 0) ∧
    t.egress = [] ∧ t.tx = [] ∧ t.txFlows = [] ∧ t.rx = [] ∧ t.rxLow = [] ∧ t.holes = [] ∧ t.buckets = [] ∧
    t.ingress = [] ∧ ∀ n, (t.core n).mcHeld = [] ∧ (t.core n).mcWait = [] ∧ (t.core n).links = []

/-- R343: a flash operation starts where none is under way: a read and a program of 4 KiB units at BOOT.FADDR, an erase of the
64 KiB block that holds it; it ends with the protected-range bit below 0x10_0000, with ERROR beyond the end, and else erased
bytes read 0xFF, and programmed bytes what was programmed. A program transfer may end a flash update, which makes the slot
that was not booted preferred only where its image is accepted, in a header of the next sequence. R341, R344, R351–R353: the
host's doorbell, its writes to flash in recovery, where an endpoint is fitted, hot reset and link events under HOST.RSTPOLICY,
a controller's fatal status, and attestation's answers. What the spec's words leave open in it is the model's choice: log
entries 6, 10, 11, 12, 14, 15, 73, 78, 90, 91 and 92. -/
def Obligations.DeviceEvents : Prop :=
  ((∀ (s : State) (i : Instr) (core cmd : Nat) (v : Word),
     (i, cmd, core) ∈ [(Instr.flashRead core v, 0, core), (.flashProgram core v, 1, core), (.flashErase v, 2, 0)] →
     (v.toNat % 4 ≠ cmd → exec i s = .next s) ∧
     (v.toNat % 4 = cmd → s.flashOp.isSome = true → exec i s = .next s) ∧
     (v.toNat % 4 = cmd → s.flashOp = none →
       let o := if cmd = 2 then s.reg 0x8A9 / 0x10000 * 0x10000 else s.reg 0x8A9
       let n := if cmd = 2 then 0x10000 else bits v.toNat 31 12 * 4096
       ∃ t, exec i s = .next t ∧ t.flashOp = some ⟨core, cmd, o, n, BitVec.ofNat 64 (s.reg 0x8A8), decide (2 ^ 29 < o + n),
           decide (cmd ≠ 0 ∧ o < 0x100000)⟩ ∧ t.reg 0x8AB = 0 ∧ ∀ m a, t.byte m a = s.byte m a)) ∧
   (∀ s : State, s.flashOp = none → exec .flashTransferDone s = .next s) ∧
   (∀ (s : State) (f : FlashOp), s.flashOp = some f →
     ∃ t, exec .flashTransferDone s = .next t ∧ t.flashOp = none ∧
       (f.protectedHit = true → t.reg 0x8AB = 4 ∧ ∀ m a, t.byte m a = s.byte m a) ∧
       (f.protectedHit = false → f.error = true → t.reg 0x8AB = 2 ∧ ∀ m a, t.byte m a = s.byte m a) ∧
       (f.protectedHit = false → f.error = false → f.cmd = 2 → mrising s.flash = true →
         (∀ o, f.offset ≤ o → o < f.offset + f.length → t.byte .flash o = 0xFF) ∧
         ∀ o, (o < f.offset ∨ f.offset + f.length ≤ o) → t.byte .flash o = s.byte .flash o) ∧
       (f.protectedHit = false → f.error = false → f.cmd = 1 → ∀ (u : State) (bs : List Byte),
         (∀ c ∈ s.flash, ¬(f.offset ≤ c.1 ∧ c.1 < f.offset + f.length)) →
         bootRead f.core f.addr (stretchesAt f.addr.toNat f.length) { s with flashOp := none, tick := s.tick + 1 } = (u, some bs) →
         (t.header = u.header ∨
           (let v : State := { u with flash := t.flash }
            let slot := 1 - bits (u.reg 0x880) 4 4
            imageAccepted v (slotImage v slot) (Config.imageSvn (slotImage v slot)) = true ∧
              ∃ h, t.header = some h ∧ h.prefersB = (slot == 1) ∧ h.seq = (headerOf v).seq + 1)) ∧
         t.reg 0x8AB = u.reg 0x8AB ∧ (∀ k, k < bs.length → t.byte .flash (f.offset + k) = nth bs 0 k) ∧
         ∀ o, (o < f.offset ∨ f.offset + bs.length ≤ o) → t.byte .flash o = u.byte .flash o) ∧
       (f.protectedHit = false → f.error = false → f.cmd = 0 → ∀ u : State,
         bootWrite f.core f.addr (flashRead s f.offset f.length) (stretchesAt f.addr.toNat f.length)
           { s with flashOp := none, tick := s.tick + 1 } = (u, true) → t = u))) ∧
  ((∀ (s : State) (v : Word), ∃ t, exec (.hostDoorbellWrite v) s = .next t ∧ (∀ k, k < 64 → bit (t.reg 0x8C2) k =
       (bit (s.reg 0x8C2) k || v.getLsbD k)) ∧ t.cores = s.cores ∧ ∀ m a, t.byte m a = s.byte m a) ∧
   (∀ (s : State) (o : Nat) (bs : List Byte),
     (s.recovery = false ∨ bit (s.reg 0x8C1) 1 = false ∨ 2 ^ 29 < 0x100000 + o + bs.length → exec (.hostBar1Write o bs) s = .next s) ∧
     (s.recovery = true → bit (s.reg 0x8C1) 1 = true → 0x100000 + o + bs.length ≤ 2 ^ 29 → ∃ t, exec (.hostBar1Write o bs) s = .next t ∧
       (∀ k, k < bs.length → t.byte .flash (0x100000 + o + k) = nth bs 0 k) ∧
       ∀ a, (a < 0x100000 + o ∨ 0x100000 + o + bs.length ≤ a) → t.byte .flash a = s.byte .flash a)) ∧
   (∀ (s : State) (i : Instr) (b : Nat), (i, b) ∈ [(Instr.hostHotReset, 2), (.hostLinkDown, 3)] →
     ∃ t, exec i s = .next t ∧ bit (t.reg 0x8C1) b = true ∧
       (b = 3 → bit (t.reg 0x8C1) 0 = false) ∧ bits (t.reg 0x8C1) 15 8 = min 255 (s.reg 0x8C1 / 256 + 1) ∧
       (bit (s.reg 0x8C0) 0 = true → t.agenda = .fullReset :: s.agenda ∧ t.reg 0x8C2 = s.reg 0x8C2) ∧
       (bit (s.reg 0x8C0) 0 = false → t.agenda = s.agenda ∧ t.reg 0x8C2 = 0 ∧
         ∀ n, n < 16 → bit (t.reg (0x8D1 + 2 * n)) 0 = false)) ∧
   (∀ s : State, ∃ t, exec .hostLinkUp s = .next t ∧ bit (t.reg 0x8C1) 0 = true ∧ bit (t.reg 0x8C1) 1 = true) ∧
   (∀ (s : State) (port : Nat), port < 4 → ∃ t, exec (.nvmeFatal port) s = .next t ∧ bit (t.reg 0x8AD) port = true ∧
     t.nvmeFatal = s.nvmeFatal ||| BitVec.twoPow 4 port) ∧
   (∀ (s : State) (core : Nat) (v : Word), v.toNat % 4 = 0 → exec (.bootExtend core v) s = .next s) ∧
   (∀ (s : State) (core : Nat) (v : Word) (n : Nat) (tgt : Tgt) (e : Option Bte) (u : State) (bs : List Byte),
     let q := bootReq core (BitVec.ofNat 64 (s.reg 0x881)) 0 48 1
     v.toNat % 4 = n → n ≠ 0 → check0 s q true = .ok (tgt, e) →
     readTgt (noteAccess s q e) (devMode core (.ctx core .m) 1) tgt 48 = (u, some bs) →
     ∃ t, exec (.bootExtend core v) s = .next t ∧
       measurement t n = sha384 (measurement u n ++ bs) ∧
       ∀ m, m < 4 → m ≠ n → measurement t m = measurement u m) ∧
   (∀ (s : State) (via : SpdmPath) (req : List Byte),
     let field (o n : Nat) : Nat := ofLe ((List.range' o n).map (fun i => nth req 0 i))
     let bytesAt (o n : Nat) : List Byte := (List.range' o n).map (fun i => nth req 0 i)
     let answers (i : Instr) (bytes : List Byte) (join : List Byte → Transcript) (k : Nat) : Prop :=
       exec i s = .next (if spdmOpen s via then
         { s with replies := s.replies ++ [bytes], transcript := join (req ++ bytes), tick := s.tick + k }
       else { s with tick := s.tick + k })
     let errors (i : Instr) (code data : Byte) : Prop := exec i s = .next (if spdmOpen s via then
         { s with replies := s.replies ++ [[0x13, 0x7F, code, data]] } else s)
     let t := s.transcript
     let first (bs : List Byte) : Transcript := ⟨t.vca ++ bs, t.certs, []⟩
     let certs (bs : List Byte) : Transcript := ⟨t.vca, t.certs ++ bs, []⟩
     let signed := (nth req 0 2).getLsbD 0
     let what := field 3 1
     let block (n : Nat) : List Byte := [BitVec.ofNat 8 n, 1, 51, 0, Config.blockType n, 48, 0] ++ measurement s (n - 1)
     let blocks := if what = 0xFF then [1, 2, 3, 4] else if 1 ≤ what ∧ what ≤ 4 then [what] else []
     let record := blocks.flatMap block
     let front := [0x13, 0x60, if what = 0 then 4 else 0, 0] ++ leBytes 1 blocks.length ++ leBytes 3 record.length ++ record
     let nonce := (List.range 32).map (fun i => Config.nonceByte i s.tick)
     let sign (purpose before start part context : List Byte) : List Byte :=
       let hash := sha384 (before ++ req ++ start ++ nonce ++ part ++ leBytes 2 16224 ++ context)
       start ++ nonce ++ part ++ leBytes 2 16224 ++ (List.range 16224).map (Config.slhSign hash) ++ context ++
         (List.range 384).map (Config.rsaSign (spdmSigned purpose hash))
     let chain := Config.certChain
     let dmtf := field 6 1 % 2
     answers (.spdmGetVersion via req) [0x10, 4, 0, 0, 0, 1, 0, 0x13] (fun bs => ⟨bs, [], []⟩) 0 ∧
     answers (.spdmGetCapabilities via req) ([0x13, 0x61, 0, 0, 0, BitVec.ofNat 8 Config.spdmLimits.1, 0, 0] ++ leBytes 4 spdmFlags ++
       leBytes 4 Config.spdmLimits.2.1 ++ leBytes 4 Config.spdmLimits.2.2) first 0 ∧
     (spdmFlags.testBit 1 = true ∧ spdmFlags.testBit 2 = true ∧ spdmFlags.testBit 4 = true ∧ spdmFlags.testBit 3 = false ∧ spdmFlags < 64) ∧
     answers (.spdmNegotiateAlgorithms via req) ([0x13, 0x63, 0, 0, 36, 0, BitVec.ofNat 8 dmtf, Config.spdmOther] ++ leBytes 4 (4 * dmtf) ++
       leBytes 4 (field 8 4 &&& 4) ++ leBytes 4 (field 12 4 &&& 2) ++ List.replicate 16 0) first 0 ∧
     answers (.spdmGetDigests via req) ([0x13, 0x01, 1, 1] ++ sha384 chain) certs 0 ∧
     (field 2 1 % 16 ≠ 0 → errors (.spdmGetCertificate via req) 1 0) ∧
     (field 2 1 % 16 = 0 → field 3 1 % 2 = 1 →
       answers (.spdmGetCertificate via req) ([0x13, 0x02, 0, 0] ++ leBytes 2 0 ++ leBytes 2 chain.length) certs 0) ∧
     (field 2 1 % 16 = 0 → field 3 1 % 2 = 0 →
       (chain.length ≤ field 4 2 → errors (.spdmGetCertificate via req) 1 0) ∧
       (field 4 2 < chain.length →
         let n := min (field 6 2) (chain.length - field 4 2)
         answers (.spdmGetCertificate via req) ([0x13, 0x02, 0, 0] ++ leBytes 2 n ++ leBytes 2 (chain.length - field 4 2 - n) ++
           (chain.drop (field 4 2)).take n) certs 0)) ∧
     (s.keys.getLsbD 0 = false → errors (.spdmChallenge via req) 5 0 ∧
       (signed = true → errors (.spdmGetMeasurements via req) 5 0)) ∧
     (s.keys.getLsbD 0 = true →
       (field 2 1 ≠ 0 ∨ (what ≠ 0 ∧ what ≠ 1 ∧ what ≠ 0xFF) → errors (.spdmChallenge via req) 1 0) ∧
       (∀ summary : List Byte, field 2 1 = 0 →
         (what = 0 ∧ summary = [] ∨ what = 1 ∧ summary = sha384 (([1, 2, 3, 4].filter (fun n => Config.tcbBlock n)).flatMap block) ∨
           what = 0xFF ∧ summary = sha384 ([1, 2, 3, 4].flatMap block)) →
         answers (.spdmChallenge via req) (sign (textBytes "responder-challenge_auth signing".toList) (t.vca ++ t.certs)
           ([0x13, 0x03, 0, 1] ++ sha384 chain) summary (bytesAt 36 8)) (fun _ => ⟨t.vca, [], []⟩) 1)) ∧
     ((signed = false ∨ s.keys.getLsbD 0 = true) → (what ≠ 0 ∧ blocks = []) ∨ (signed = true ∧ field 36 1 % 16 ≠ 0) →
       errors (.spdmGetMeasurements via req) 1 0) ∧
     ((what = 0 ∨ blocks ≠ []) →
       (signed = false →
         answers (.spdmGetMeasurements via req) (front ++ nonce ++ [0, 0] ++ bytesAt 4 8) (fun bs => ⟨t.vca, [], t.meas ++ bs⟩) 1) ∧
       (signed = true → s.keys.getLsbD 0 = true → field 36 1 % 16 = 0 →
         answers (.spdmGetMeasurements via req) (sign (textBytes "responder-measurements signing".toList) (t.vca ++ t.meas) front []
           (bytesAt 37 8)) (fun _ => ⟨t.vca, [], []⟩) 1)) ∧
     errors (.spdmUnsupportedRequest via req) 7 (nth req 0 1)))

/-- R195, R290, R291, R338, R342, R346, R347, R355, R419, R421: writes to the registers that have a rule of their own, the
start of an S context that has never run, and the register write that has none: it is SYSW's. What the spec's words leave open
in it is the model's choice: log entries 13, 68, 74 and 77. -/
def Obligations.RegisterEvents : Prop :=
  (∀ (s : State) (n : Nat) (v : Word), n < 4 → ∃ t, exec (.secCworldWrite n v) s = .next t ∧ t.cores = s.cores ∧
    (∀ m, m ≠ 0x800 + n → t.reg m = s.reg m) ∧ ∀ i, i < 64 → bit (t.reg (0x800 + n)) i =
      (if worldFixed (s.core (64 * n + i)) then bit (s.reg (0x800 + n)) i
       else v.getLsbD i && (s.keys.getLsbD 1 || bit (s.reg (0x800 + n)) i))) ∧
  (∀ (s : State) (n : Nat) (v : Word), n < 64 → ∃ t, exec (.secRgnWrite n v) s = .next t ∧
    t.cores = s.cores ∧ (∀ m, m ≠ 0x840 + n → t.reg m = s.reg m) ∧
    bits (t.reg (0x840 + n)) 37 0 = v.toNat % 2 ^ 38 ∧ bits (t.reg (0x840 + n)) 61 38 = 0 ∧
    bit (t.reg (0x840 + n)) 63 = v.getLsbD 63 ∧
    bit (t.reg (0x840 + n)) 62 = (v.getLsbD 62 && (s.keys.getLsbD 1 || bit (s.reg (0x840 + n)) 62))) ∧
  (∀ (s : State) (v : Word),
    ((∃ c, c < 5 ∧ bits v.toNat (2 * c + 1) (2 * c) = 3) → exec (.secApolWrite v) s = .next s) ∧
    ((∀ c, c < 5 → bits v.toNat (2 * c + 1) (2 * c) ≠ 3) → exec (.secApolWrite v) s = .next (s.setReg 0x805 (v.toNat % 1024)))) ∧
  (∀ (s : State) (v : Word), exec (.secAlogWrite v) s = .next (s.setReg 0x806 0)) ∧
  (∀ (s : State) (v : Word), exec (.secSvnWrite v) s = .next { s with fuseSvn := max s.fuseSvn (v.toNat % 256) }) ∧
  (∀ (s : State) (n : Nat) (v : Word), n < 8 →
    let bad := bit v.toNat 0 = true ∧ (n = 0 ∨ bit v.toNat 1 = true)
    (bad → exec (.memProfWrite n v) s = .next s) ∧
    (¬bad → exec (.memProfWrite n v) s = .next (s.setReg (0x610 + n) (v.toNat % 64)))) ∧
  (∀ (s : State) (v : Word), exec (.memUelogWrite v) s = .next (s.setReg 0x621 0)) ∧
  (∀ (s : State) (v : Word), ∃ t, exec (.powerCapWrite v) s = .next t ∧
    t.reg 0x720 = max 800 (min 3200 (v.toNat % 4096)) ∧ bit (t.reg 0x724) 1 = bit (s.reg 0x724) 1 ∧
    (t.reg 0x720 ≠ s.reg 0x720 → bit (t.reg 0x724) 0 = true) ∧ t.cores = s.cores ∧
    ∀ m, m ≠ 0x720 → m ≠ 0x724 → t.reg m = s.reg m) ∧
  (∀ (s : State) (core : Nat) (k : Ctx) (v : Word), ∃ t, exec (.sCodeWrite core k v) s = .next t ∧
    ((t.core core).ctx k).code = v.toNat % 2 ^ 16 ∧ ((t.core core).ctx k).fetch = ((s.core core).ctx k).fetch ∧
    (t.core core).icache = [] ∧ (t.core core).teams = (s.core core).teams) ∧
  (∀ (s : State) (core : Nat) (v : Word),
    let x := (s.core core).sctx
    let pc := v.toNat % 2 ^ 48
    let src : CodeSrc := if x.code = 0 then .phys else .buffer x.code
    (x.stopped = false → exec (.sSpcWrite core v) s =
      .next (s.modCore core (fun c => { c with sctx := { x with spc := pc } }))) ∧
    (x.stopped = true → ∃ t, exec (.sSpcWrite core v) s = .next t ∧
      let y := (t.core core).sctx
      y.spc = pc ∧ y.lane.live = true ∧ y.lane.pc = pc ∧ y.regs = x.regs ∧ y.trap = x.trap ∧ y.epc = x.epc ∧
      (targetCode s core 1 src pc = 0 → y.stopped = false ∧ y.fetch = src ∧ (t.core core).mctx = (s.core core).mctx) ∧
      (targetCode s core 1 src pc ≠ 0 → y.stopped = true ∧ (t.core core).mctx.pend11 = true))) ∧
  (∀ (s : State) (core : Nat),
    let x := (s.core core).sctx
    let src : CodeSrc := if x.code = 0 then .phys else .buffer x.code
    let t := beginS s core
    (startS s core = s ∨ startS s core = t) ∧
    (x.spc = 0 ∨ x.lane.live = true ∨ x.stopped = true → startS s core = s) ∧
    bits (t.reg 0x880) 3 0 = 3 ∧ (t.core core).sctx.lane.live = true ∧
    (targetCode (s.setReg 0x880 (s.reg 0x880 - s.reg 0x880 % 16 + 3)) core 1 src x.spc = 0 →
      (t.core core).sctx.stopped = false ∧ (t.core core).sctx.lane.pc = x.spc)) ∧
  (∀ (s : State) (a : Agent) (n : Nat) (v : Word), ownEvent n = false → agentHas s a n = true →
    (∃ r w, sysReg n = some (r, some w)) → exec (.systemRegisterWrite a n v) s = .next (regWrite s a false n v).1)


/-! ### Events of engines, of the mesh and of memory -/

/-- R62, R65, R150, R161, R160, R185, R267–R270, R275, R276: a waiting command is accepted where there is room; the matrix and
vector engines run the first command of their queue; a finished command completes in its place, its counter falls, and a
failure posts its issuer's entry; a deferred result reaches its register. R182, R401, R417: the counter of a landed put rises
by one atomic step at its home and the put is done; a collective goes from phase to phase as its counter rises by NRANKS − 1
for each, and fails with PEER where a rank that it waits for has failed. What the spec's words leave open in it is the model's
choice: log entries 51, 74, 89, 92 and 97. -/
def Obligations.EngineEvents : Prop :=
  ((∀ (s : State) (core : Nat), (∀ k ∈ (s.core core).toAccept, canAccept s core k = false) → exec (.engineAccept core) s = .next s) ∧
   (∀ (s : State) (core : Nat) (k : Cmd), (s.core core).toAccept = [k] → canAccept s core k = true →
     ∃ t k', exec (.engineAccept core) s = .next t ∧ (t.core core).cmds = (s.core core).cmds ++ [k'] ∧ (t.core core).toAccept = [] ∧
       k'.id = k.id ∧ k'.cls = k.cls ∧ k'.ops = k.ops ∧ k'.accepted = s.now ∧ k'.st = guardState (s.core core) s.now k ∧
       ∀ slot u, (s.core core).team? slot = some u →
         (t.core core).team? slot = some (u.resume s.now (fun w => w == .accept k.id))) ∧
   (∀ (s : State) (core : Nat), (∀ j ∈ (s.core core).cmds, j.cls = 2 → j.st ≠ .aside) →
     matrixNext (s.core core) = (s.core core).cmds.find? (fun k => k.cls == 2)) ∧
   (∀ (s : State) (core : Nat), matrixNext (s.core core) = none → exec (.matrixCommandStart core) s = .next s) ∧
   (∀ (s : State) (core : Nat) (k : Cmd), matrixNext (s.core core) = some k →
     (k.st ≠ .queued → exec (.matrixCommandStart core) s = .next s) ∧
     (k.st = .queued → exec (.matrixCommandStart core) s =
       .next (setCmd (runMatrix s core k).1 core { k with st := .done (runMatrix s core k).2 }))) ∧
   (∀ (s : State) (core cls : Nat) (k : Cmd) (u : State), [0, 1, 5, 6, 7].contains cls = true →
     nextDone (s.core core) (fun k => k.cls == cls) = none → nextRun s (s.core core) cls = some k → u = runOne s core k →
     (nextDone (u.core core) (fun k => k.cls == cls && !failedCmd k) = none → exec (.engineCommandComplete core cls) s = .next u) ∧
     (nextDone (u.core core) (fun k => k.cls == cls && failedCmd k) = none → exec (.engineCommandFail core cls) s = .next u)) ∧
   (∀ (s : State) (stack core : Nat) (k : Cmd) (op : Nat) (w : EW), stackQueue s stack = [(core, k)] →
     rawOfWord k.bits = some (.e op w) → exec (.sgemvStart stack) s =
       .next (setCmd (runSgemv s core k w).1 core { k with st := .done (runSgemv s core k w).2 })) ∧
   (∀ (s : State) (core cls : Nat) (k : Cmd) (f : Option CmdFail), cls < 8 → ((s.core core).cmds.map (fun k => k.id)).Nodup →
     let finds (failed : Bool) : Prop := nextDone (s.core core) (fun k => k.cls == cls && (failedCmd k == failed)) = some (k, f)
     let ends (i : Instr) : Prop := ∃ t, exec i s = .next t ∧ (∀ j ∈ (t.core core).cmds, j.id ≠ k.id) ∧
       ∀ i uid, k.counts i uid = true → ecOf (t.core core) i uid cls + 1 = ecOf (s.core core) i uid cls
     (finds false → ends (.engineCommandComplete core cls)) ∧
     (finds true → ends (.engineCommandFail core cls) ∧ ∀ slot u, k.issuers = [.team slot] → k.uids = [u.uid] →
       (s.core core).team? slot = some u → u.st = .running →
       ∃ t i, exec (.engineCommandFail core cls) s = .next t ∧ i < 64 ∧ ((t.core core).tqAt i).st = .pending ∧
         ((t.core core).tqAt i).cause = cENGINE ∧ ((t.core core).tqAt i).slot = slot ∧ ((t.core core).tqAt i).uid = u.uid ∧
         ((t.core core).tqAt i).fmask = u.freeRunMask)) ∧
   (∀ (s : State) (core slot : Nat) (u : Team), (s.core core).team? slot = some u →
     ((∀ k ∈ (s.core core).cmds, k.cls < 8) → exec (.resultDelivery core slot) s =
       .next (s.modCore core (fun c => judgeHeld s.now (c.setTeam slot { u with pend := inFlight s.now u.pend })))) ∧
     (∀ (k : Cmd) (p : Pend), (s.core core).cmds = [k] → k.cls = 9 → k.issuers = [.team slot] → k.uids = [u.uid] → u.st = .running →
       u.slane = false → u.pend.find? (fun p => p.ready == never + k.id) = some p →
       (∀ q ∈ u.pend, q.dst = .vreg k.vd → q.ready = never + k.id) →
       ∃ t u', exec (.resultDelivery core slot) s = .next t ∧ (t.core core).cmds = [] ∧ (t.core core).team? slot = some u' ∧
         (u'.reg k.vd).fmt = 8 ∧ ∀ i, i < 32 → p.wrote.getLsbD i = true → (u'.reg k.vd).lane i = u.estatus (k.md 2 0)))) ∧
  ((∀ (s : State) (core : Nat) (k : Cmd),
     (s.core core).cmds.find? (fun k => k.cls == 5 && k.st == .landed && ordReady s (s.core core) k) = some k →
     let r := increase s core k.asid k.world (nth k.ops 0 3) (k.md 3 3 == 1) (some 5)
     exec (.meshPutCounterIncrease core) s = .next (setCmd r.1 core { k with st := .done (r.2.map (fun c => failAddr c 0)) })) ∧
   (∀ (s : State) (core : Nat), (∀ k ∈ (s.core core).cmds, k.st ≠ .landed) → exec (.meshPutCounterIncrease core) s = .next s) ∧
   (∀ (s : State) (core asid : Nat) (world : Bool) (v : Word) (emask : Option Nat) (first l : Nat) (e : Option Bte),
     let q : Req := { asid := asid, core := core, handle := v.toNat / 2 ^ 48, off := (v.toNat % 2 ^ 48 : Nat), n := 8, align := 8,
                      rights := 10, kinds := [0], emask := emask, acc := 2 }
     checkIn s world q true = .ok (.dram first [l], e) → s.bad = [] → mrising s.l2 = true → Memory.wf s.dram = true → first % 8 = 0 → first < 128 → l < 2 ^ 32 →
     (∀ k, k < 8 → s.agreed (l * 128 + first + k)) →
     let u := increase s core asid world v false emask
     u.2 = none ∧ ofLe ((List.range 8).map (fun k => u.1.home (l * 128 + first + k))) =
       (ofLe ((List.range 8).map (fun k => s.home (l * 128 + first + k))) + 1) % 2 ^ 64) ∧
   (∀ (s : State) (core : Nat),
     let live (k : Cmd) : Bool := k.cls == 3 && (match k.st with
       | .queued => true
       | .coll _ _ => true
       | _ => false)
     let fails (u : State) (k : Cmd) (f : CmdFail) : State := setCmd u core { k with st := .done (some f) }
     ((s.core core).cmds.find? live = none → exec (.collPhaseAdvance core) s = .next s) ∧
     ∀ (k : Cmd), (s.core core).cmds.find? live = some k →
       (∀ u f, readGroup s core k = (u, .error f) →
         exec (.collPhaseAdvance core) s = .next (fails (if k.st = .queued then beginLoose u core k else u) k f)) ∧
       (∀ u g, readGroup s core k = (u, .ok g) →
         (k.st = .queued →
           (putsWait u core k g = true → exec (.collPhaseAdvance core) s = .next u) ∧
           (putsWait u core k g = false → exec (.collPhaseAdvance core) s = .next (collStart u core k g))) ∧
         (∀ phase base v f, k.st = .coll phase base → readCounter u core k g = (v, .error f) →
           exec (.collPhaseAdvance core) s = .next (fails v k f)) ∧
         (∀ phase base v c, k.st = .coll phase base → readCounter u core k g = (v, .ok c) →
           let risen := (c + 2 ^ 64 - base) % 2 ^ 64
           (risen < phase * (g.n - 1) →
             (lostPeer v core k g base = none → exec (.collPhaseAdvance core) s = .next v) ∧
             (∀ r, lostPeer v core k g base = some r →
               exec (.collPhaseAdvance core) s = .next (fails v k (peerFail r)))) ∧
           (phase * (g.n - 1) ≤ risen →
             (phase < 3 → putsWait v core k g = true → exec (.collPhaseAdvance core) s = .next v) ∧
             (phase < 3 → putsWait v core k g = false →
             (phase = 1 → exec (.collPhaseAdvance core) s = .next (collB v core k g base)) ∧
             (phase = 2 → exec (.collPhaseAdvance core) s = .next (collC v core k g base))) ∧
             (phase = 3 → exec (.collPhaseAdvance core) s = .next (collEnd v core k g base)))))))

/-- R265, R291, R293, R296, R300, R301, R308, R312, R396, R397, R399, R400: a strong write reaches its home, an evicted line
its memory and no copy of it stays on its die, a non-temporal store every copy; a soft error is counted or makes its unit bad
and is logged; a packet's class is that of its kind of traffic; a copy goes to its link where its branch has a credit and no
copy is held for it, and is held where not, 32 copies at most; what does not fit waits whole, and no packet passes one that
waits for a branch of its own; a link sends control before bulk, and the packets of one class in order. What the spec's words
leave open in it is the model's choice: log entries 43, 44, 45, 50, 72, 74, 86 and 92. -/
def Obligations.MemoryEvents : Prop :=
  (∀ (s : State) (die : Nat), (∀ p ∈ s.props, p.die ≠ die) → exec (.writePropagation die) s = .next s) ∧
  (∀ (s : State) (die : Nat) (p : Propagation) (l : Line), propReady s die = [p] → s.l2Line die p.line = some l →
    ∃ t, exec (.writePropagation die) s = .next t ∧ (∀ m a, m ≠ .dram → t.byte m a = s.byte m a) ∧
      t.tick = s.tick + 1 ∧ (∀ k, k < 128 → p.bytes.getLsbD k = true → l.dirty.getLsbD k = true → p.line < 2 ^ 32 → die < 4 →
        Memory.wf s.dram = true → mrising s.l2 = true → t.home (p.line * 128 + k) = lineByte l.data k)) ∧
  (∀ (s : State) (die : Nat), propReady s die ≠ [] →
    ∃ p ∈ propReady s die, exec (.writePropagation die) s = .next { (propagate s p) with tick := s.tick + 1 }) ∧
  (∀ (s : State) (die line : Nat),
    let set := setOf s die line
    ((∀ v, victim set ≠ some (lineKey die line, v)) → exec (.lineEviction die line) s = .next s) ∧
    (∀ v, victim set = some (lineKey die line, v) → die < 4 → line < 2 ^ 32 →
      ∃ t, exec (.lineEviction die line) s = .next t ∧ t.l2Line die line = none ∧ ∀ m a, m ≠ .dram → t.byte m a = s.byte m a)) ∧
  (∀ s : State, s.nt = [] → exec .ntStoreComplete s = .next s) ∧
  (∀ s : State, ntReady s ≠ [] → ∃ n c, (n, c) ∈ ntReady s ∧ ∃ t, exec .ntStoreComplete s = .next t ∧ t.tick = s.tick + 1 ∧
    t.nt = (s.nt.replace n { n with bytes := n.bytes.erase c }).filter (fun m => !m.bytes.isEmpty) ∧
    (∀ m a, m ≠ .dram → t.byte m a = s.byte m a) ∧
    (Memory.wf s.dram = true → mrising s.l2 = true → c.1 < 2 ^ 39 →
      t.byte .dram c.1 = c.2 ∧ (∀ die, die < 4 → t.seen die c.1 = c.2) ∧ ∀ a, a ≠ c.1 → t.byte .dram a = s.byte .dram a)) ∧
  (∀ (s : State) (x : CheckUnit) (hard : Bool), unitPresent s x = false → exec (.softError x hard) s = .next s) ∧
  (∀ (s : State) (core sector : Nat) (hard : Bool), unitPresent s (.l1 core sector) = true →
    ∃ t, exec (.softError (.l1 core sector) hard) s = .next t ∧ t.reg 0x620 = min (2 ^ 32 - 1) (s.reg 0x620 + 1) ∧ t.bad = s.bad ∧
      (t.core core).l1 = mdel (s.core core).l1 (sector / 4) ∧ ∀ m a, t.byte m a = s.byte m a) ∧
  (∀ (s : State) (x : CheckUnit), unitPresent s x = true → (∀ core sector, x ≠ .l1 core sector) →
    (exec (.softError x false) s = .next (s.setReg 0x620 (min (2 ^ 32 - 1) (s.reg 0x620 + 1)))) ∧
    (x ∈ s.bad → exec (.softError x true) s = .next s) ∧
    (x ∉ s.bad → ∃ t, exec (.softError x true) s = .next t ∧ t.bad = x :: s.bad ∧ (∀ m a, t.byte m a = s.byte m a) ∧
      (bit (s.reg 0x621) 63 = true → t.reg 0x621 = s.reg 0x621 ||| 2 ^ 62) ∧
      (bit (s.reg 0x621) 63 = false → unitLog x < 2 ^ 63 → t.reg 0x621 = 2 ^ 63 + unitLog x))) ∧
  (∀ k : MeshPacket,
    (k.kind ∈ [Traffic.counter, .remitControl, .tlbinv, .queueEvent] → classOf k = 0) ∧
    (k.kind ∈ [Traffic.invalidation, .coherence, .signal, .tokenGrant] → classOf k = 1) ∧
    (k.kind ∈ [Traffic.access, .l2Line, .walk] → classOf k = 2) ∧ (k.kind = .putData → classOf k = 3) ∧ (k.kind = .copy → classOf k = 4) ∧
    (k.kind = .collData → classOf k = 5) ∧ (k.kind ∈ [Traffic.storage, .gemv] → classOf k = 6) ∧ (k.kind = .transit → classOf k = 7)) ∧
  (∀ (c : Core) (waiting : List MeshPacket) (k : MeshPacket),
    let free (b : Nat) : Bool := c.hasCredit b (classOf k) && !c.mcHeld.any (fun h => h.branch == b)
    let held := k.branches.filter (fun b => !free b)
    (forwards c waiting k = true ↔ (∀ j ∈ waiting, ∀ b ∈ j.branches, b ∉ k.branches) ∧
      (k.kind ∈ [Traffic.tlbinv, .invalidation] → c.mcHeld.length + held.length ≤ 32) ∧
      (k.kind ∉ [Traffic.tlbinv, .invalidation] → held = [])) ∧
    (forward c k).mcHeld = c.mcHeld ++ held.map (fun b => (⟨b, k.id, classOf k, k.flits⟩ : HeldCopy)) ∧
    (forward c k).mcPeak = max c.mcPeak (c.mcHeld.length + held.length) ∧
    (k.branches.Nodup → ∀ b,
      ((forward c k).link b).queue = (c.link b).queue ++ (if b ∈ k.branches ∧ free b = true then [⟨k.id, classOf k, k.flits⟩] else []) ∧
      (forward c k).used b (classOf k) = c.used b (classOf k) + (if b ∈ k.branches ∧ free b = true then 1 else 0))) ∧
  (∀ (c : Core) (b cls : Nat), (c.used b cls = 0 → c.hasCredit b cls = true) ∧
    (let waits := ((c.link b).queue.filter (fun k => k.cls == cls)).length
     (waits < c.used b cls → (creditBack c b cls).used b cls + 1 = c.used b cls) ∧ (c.used b cls ≤ waits → creditBack c b cls = c))) ∧
  (∀ (ks waiting : List MeshPacket) (c : Core), ∃ ws, (drain ks waiting c).mcWait = waiting ++ ws ∧ ws.Sublist ks) ∧
  (∀ (s : State) (router : Nat) (k : MeshPacket),
    let c := s.core router
    ∃ t, exec (.multicastForward router k) s = .next t ∧ t.tick = s.tick + 1 ∧ (∀ m, m ≠ router → t.core m = s.core m) ∧
      t.core router = serveAll s.tick k.branches (drain (c.mcWait ++ [k]) [] c) ∧
      (c.mcWait = [] → (t.core router).mcWait = if forwards c [] k then [] else [k]) ∧
      (c.mcWait = [] → forwards c [] k = false → (t.core router).mcHeld = c.mcHeld)) ∧
  (∀ (c : Core) (b : Nat), ((c.link b).queue = [] → serve b 1 c = c) ∧
    ∀ l k, (c.link b).send c.weight = (l, some k) → k ∈ (c.link b).queue ∧ l.queue = (c.link b).queue.erase k ∧
      ((c.link b).ctl < 2 → 2 ≤ k.cls → ∀ j ∈ (c.link b).queue, 2 ≤ j.cls) ∧
      (∀ j ∈ (c.link b).queue.takeWhile (fun j => j != k), j.cls ≠ k.cls) ∧
      serve b 1 c = { c with links := mset c.links b l, mcSent := c.mcSent ++ [(b, k.id)] }) ∧
  (∀ (s : State) (router b cls : Nat),
    let c := creditBack (s.core router) b cls
    let after (x : Core) : State := s.setCore router (serve b 1 (drain x.mcWait [] x))
    ((∀ h ∈ c.mcHeld, h.branch ≠ b) → exec (.holdingBufferRelease router ⟨b, cls⟩) s = .next (after c)) ∧
    (∀ h, c.mcHeld.find? (fun h => h.branch == b) = some h →
      (c.hasCredit b h.cls = false → exec (.holdingBufferRelease router ⟨b, cls⟩) s = .next (after c)) ∧
      (c.hasCredit b h.cls = true → exec (.holdingBufferRelease router ⟨b, cls⟩) s =
        .next (after (joinLink { c with mcHeld := c.mcHeld.erase h } b ⟨h.id, h.cls, h.flits⟩)))))


/-! ### Events of the Remit transport -/

/-- R405, R409, R412, R413: a DATA packet of this device lands once, is answered where its message is over, and is dropped and
counted where its header, its place or its window does not admit it; a landed message whose predecessor is over increases its
counter, completes and is acknowledged. What the spec's words leave open in it is the model's choice: log entries 70 and 74.
-/
def Obligations.PacketsReceived : Prop :=
  (∀ (s : State) (port : Nat) (k : Packet), s.portOn port = true →
    let key := keyOf s k
    let m := recordFor s port k
    let go (t : State) : Prop := exec (.remitDataReceive port k) s = .next t
    let d := s.dropAt port
    (headerFits k = false → go d) ∧
    (headerFits k = true → k.type = 0 → k.trim = false → k.dst = s.devId →
      (belowLow s key = true → s.rxOf key = none → go (answer d port 2 k.src k.flow k.msg 0 0 0 k.path)) ∧
      (beyondWindow s key = true → go d) ∧
      (beyondWindow s key = false → (belowLow s key = false ∨ s.rxOf key ≠ none) →
        (m.st = .complete → go (answer d port 2 k.src k.flow k.msg 0 0 0 k.path)) ∧
        (∀ c, m.st = .failed c → go (answer d port 3 k.src k.flow k.msg 0 0 c k.path)) ∧
        (m.st = .landed → go d) ∧
        (m.st = .open_ → (∃ x ∈ m.landed, x.1 = k.poff) → go d) ∧
        (m.st = .open_ → (∀ x ∈ m.landed, x.1 ≠ k.poff) → go (landPacket s port k m))))) ∧
  (∀ (s : State) (port : Nat) (k : Packet),
    (s.portOn port = false ∨ headerFits k = true ∧ (k.type ≠ 0 ∨ k.trim = true ∨ k.dst ≠ s.devId)) →
    exec (.remitDataReceive port k) s = .next s) ∧
  (∀ (s : State) (port : Nat) (k : Packet) (m : RxMsg),
    let q : Req := { asid := k.dasid, core := 0, handle := k.daddr.toNat / 2 ^ 48, off := (k.daddr.toNat % 2 ^ 48 + k.poff : Nat),
                     n := k.plen, align := 1, rights := 2, kinds := [0, 3], emask := some 5, acc := 1 }
    let t := landPacket s port k m
    (∀ c a, checkIn s (s.portWorld port) q true = .error (c, a) → t = failMessage s m port k.path c ∧
      ∀ mm a, t.byte mm a = s.byte mm a) ∧
    (∀ x, checkIn s (s.portWorld port) q true = .ok x → ∃ n, t.rxOf m.key = some n ∧ n.landed = (k.poff, k.plen) :: m.landed ∧
      (n.st = .landed ↔ ∀ b < m.head.mlen, ∃ x ∈ n.landed, x.1 ≤ b ∧ b < x.1 + x.2) ∧ (n.st = .landed ∨ n.st = .open_) ∧
      ∀ h ∈ t.holes, ¬(h.key = m.key ∧ h.psn = k.psn))) ∧
  (∀ (s : State) (key : MsgKey), s.rxOf key = none → exec (.messageComplete key) s = .next s) ∧
  (∀ (s : State) (key : MsgKey) (m : RxMsg), s.rxOf key = some m →
    (m.st ≠ .landed → exec (.messageComplete key) s = .next s) ∧
    (m.st = .landed → messageReady s m = true → m.key = key →
      (∀ u c, increase s 0 m.head.dasid (s.portWorld m.port) m.head.caddr m.head.c32 none = (u, some c) → m.head.csc ≠ 0 →
        exec (.messageComplete key) s = .next (failMessage u m m.port m.path c)) ∧
      (m.head.csc = 0 ∨ (∃ u, increase s 0 m.head.dasid (s.portWorld m.port) m.head.caddr m.head.c32 none = (u, none)) →
        ∃ t n, exec (.messageComplete key) s = .next t ∧ t.rxOf key = some n ∧ n.st = .complete ∧ n.doneAt = s.now ∧
          ∀ h ∈ t.holes, h.key ≠ key)))

/-- R407, R408, R410–R412: a trimmed header opens a hole, its RREQ leaves while the source's bucket has tokens, a hole waits
again after HOLE.RETRY; a flow's records go 16 ms after the last of them was over. What the spec's words leave open in it is
the model's choice: log entries 70 and 74. -/
def Obligations.HolesAndRecords : Prop :=
  (∀ (s : State) (port : Nat) (k : Packet), s.portOn port = true → headerFits k = false →
    exec (.trimmedHeaderReceive port k) s = .next (s.dropAt port)) ∧
  (∀ (s : State) (port : Nat) (k : Packet), s.portOn port = true → headerFits k = true → k.type = 0 → k.trim = true →
    k.dst = s.devId →
    let key := keyOf s k
    let go (t : State) : Prop := exec (.trimmedHeaderReceive port k) s = .next t
    let done := belowLow s key = true ∨ ∃ m, s.rxOf key = some m ∧
      (m.settled = true ∨ m.st = .landed ∨ ∃ x ∈ m.landed, x.1 = k.poff)
    let mine (h : Hole) : Prop := h.key = key ∧ h.psn = k.psn
    (beyondWindow s key = true → go (s.dropAt port)) ∧
    (beyondWindow s key = false →
      (done → go (s.bumpEth port 11)) ∧
      (¬done → (∃ h ∈ s.holes, mine h) → ∃ t, go t ∧ t.holes.length = s.holes.length ∧
        ∀ h ∈ t.holes, mine h → h.requested = none ∧ h.path = k.path) ∧
      (¬done → (∀ h ∈ s.holes, ¬mine h) → 1024 ≤ holeOpen s port → go (s.dropAt port)) ∧
      (¬done → (∀ h ∈ s.holes, ¬mine h) → holeOpen s port < 1024 → ∃ t, go t ∧
        t.holes = s.holes ++ [⟨port, key, k.psn, k.poff, k.olen, k.path, s.now, none⟩] ∧ holeOpen s port < t.eth port 16))) ∧
  (∀ (s : State) (port : Nat) (k : Packet),
    (s.portOn port = false ∨ headerFits k = true ∧ (k.type ≠ 0 ∨ k.trim = false ∨ k.dst ≠ s.devId)) →
    exec (.trimmedHeaderReceive port k) s = .next s) ∧
  (∀ (s : State) (port src : Nat) (h : Hole),
    s.holes.find? (fun h => h.port == port && h.key.src == src && h.requested.isNone) = some h →
    ((bucketOf s port src).tokens = 0 → exec (.rreqSend port src) s = .next s) ∧
    (0 < (bucketOf s port src).tokens → ∃ t, exec (.rreqSend port src) s = .next t ∧
      t.holes = s.holes.map (fun x => if x = h then { x with requested := some s.now } else x) ∧
      ∃ b, t.buckets.find? (fun b => b.port == port && b.src == src) = some b ∧ b.tokens + 1 = (bucketOf s port src).tokens ∧
        b.lastReq = s.now)) ∧
  (∀ (s : State) (port src : Nat), (∀ h ∈ s.holes, ¬(h.port = port ∧ h.key.src = src ∧ h.requested = none)) →
    exec (.rreqSend port src) s = .next s) ∧
  (∀ (s : State) (port psn : Nat) (key : MsgKey), ∃ t, exec (.holeRetryExpiry port key psn) s = .next t ∧
    t.holes.length = s.holes.length ∧ ∀ (i : Nat) (h : Hole), s.holes[i]? = some h → ∃ h', t.holes[i]? = some h' ∧
      h'.requested = (if h.port = port ∧ h.key = key ∧ h.psn = psn ∧ (∃ r, h.requested = some r ∧ r + 2250 * s.ethPos port 9 ≤ s.now)
        then none else h.requested)) ∧
  (∀ (s : State) (src flow : Nat),
    let over_ := ∀ m ∈ s.rx, m.key.src = src → m.key.flow = flow → m.settled = true ∧ m.doneAt + 36000000 ≤ s.now
    (¬over_ → exec (.flowRecordExpiry src flow) s = .next s) ∧
    (over_ → ∃ t, exec (.flowRecordExpiry src flow) s = .next t ∧ (∀ m ∈ t.rx, ¬(m.key.src = src ∧ m.key.flow = flow)) ∧
      ∀ m ∈ s.rx, ¬(m.key.src = src ∧ m.key.flow = flow) → m ∈ t.rx))

/-- R150, R402, R404, R405, R408, R414, R415: the sender's side of RREQ, ACK, REFUSE and the timeout; transit; and a port's
own events. What the spec's words leave open in it is the model's choice: log entries 71, 73 and 74. -/
def Obligations.PacketsSent : Prop :=
  (∀ (s : State) (port type : Nat) (k : Packet) (i : Instr),
    (i, type) ∈ [(Instr.rreqReceive port k, 1), (.ackReceive port k, 2), (.refuseReceive port k, 3)] →
    let mine := k.type = type ∧ k.trim = false ∧ k.dst = s.devId
    (s.portOn port = false → exec i s = .next s) ∧
    (s.portOn port = true → headerFits k = false → exec i s = .next (s.dropAt port)) ∧
    (headerFits k = true → (¬mine ∨ answered s k = none) → exec i s = .next s)) ∧
  (∀ (s : State) (port : Nat) (k : Packet) (m : TxMsg),
    s.portOn port = true → headerFits k = true → k.trim = false → k.dst = s.devId → answered s k = some m →
    (k.type = 1 → ∀ p, m.pkts.filter (fun p => p.psn == k.psn) = [p] →
      let n := { m with timeouts := 0, trims := mset m.trims k.psn (mget m.trims 0 k.psn + 1), sentAt := s.now }
      let u := s.bumpEth port 13
      let w := { u with tx := u.tx.map (fun x => if x.key = m.key then n else x) }
      let path := pathOf w n p
      let go (t : State) : Prop := exec (.rreqReceive port k) s = .next t
      (egressPort w k.src path = none → go (finishMessage w n (some ⟨13, 0, 0, k.src⟩))) ∧
      (∀ q, egressPort w k.src path = some q →
        (w.portWorld q ≠ m.world → go (finishMessage w n (some (failAddr cWORLD 0)))) ∧
        (w.portWorld q = m.world →
          let v := w.bumpEth q 14
          go (ranPut (enqueue v none q { p with retx := true, path := path, stime := v.timer % 2 ^ 32 }) n)))) ∧
    (k.type = 2 → exec (.ackReceive port k) s = .next (finishMessage s m none)) ∧
    (k.type = 3 → exec (.refuseReceive port k) s =
      .next (finishMessage s m (some { detail := 1, cause := k.rcause, aux := 0, devid := k.src })))) ∧
  (∀ (s : State) (m : TxMsg) (p : Packet),
    pathOf s m p = true ↔ ∃ q, egressPort s m.key.dst false = some q ∧ s.eth q 7 ≠ 0 ∧ s.eth q 7 ≤ mget m.trims 0 p.psn) ∧
  (∀ (s : State) (m : TxMsg) (f : Option CmdFail) (k : Cmd),
    (s.core m.core).cmds.find? (fun k => k.id == m.cmd) = some k → k.st = .sent m.key →
    (∀ x ∈ (finishMessage s m f).tx, x.key ≠ m.key) ∧
    ∃ j ∈ ((finishMessage s m f).core m.core).cmds, j.id = k.id ∧ j.st = .done f) ∧
  (∀ (s : State) (m : TxMsg) (x : CmdFail) (k : Cmd) (phase base : Nat),
    (s.core m.core).cmds.find? (fun k => k.id == m.cmd) = some k → k.st = .coll phase base →
    (∀ j ∈ ((finishMessage s m none).core m.core).cmds, j ∈ (s.core m.core).cmds) ∧
    ∃ j ∈ ((finishMessage s m (some x)).core m.core).cmds, j.id = k.id ∧ j.st = .done (some ⟨13, 0, m.rank, x.devid⟩)) ∧
  (∀ (s : State) (key : MsgKey) (m : TxMsg), s.tx.find? (fun m => m.key == key) = some m →
    let due := m.sentAt + 2250 * s.ethPos m.port 8
    (s.now < due → exec (.retxTimeout key) s = .next s) ∧
    (due ≤ s.now → 7 ≤ m.timeouts → exec (.retxTimeout key) s = .next (finishMessage s m (some ⟨13, 0, 0, key.dst⟩))) ∧
    (due ≤ s.now → m.timeouts < 7 →
      let n := { m with timeouts := m.timeouts + 1, sentAt := s.now }
      let w := { s with tx := s.tx.map (fun x => if x.key = key then n else x) }
      exec (.retxTimeout key) s = .next (resend w n m.pkts) ∧
      (m.pkts ≠ [] → egressPort w key.dst false = none →
        exec (.retxTimeout key) s = .next (finishMessage w n (some ⟨13, 0, 0, key.dst⟩))))) ∧
  (∀ (s : State) (port : Nat) (k : Packet), s.portOn port = true →
    let go (t : State) : Prop := exec (.transitForward port k) s = .next t
    (headerFits k = false → go (s.dropAt port)) ∧
    (headerFits k = true → k.dst = s.devId → go s) ∧
    (headerFits k = true → k.dst ≠ s.devId →
      (egressPort s k.dst k.path = none → go (s.dropAt port)) ∧
      (∀ p, egressPort s k.dst k.path = some p →
        (s.portWorld p ≠ s.portWorld port → go (s.dropAt port)) ∧
        (s.portWorld p = s.portWorld port → go (enqueue s (some port) p k))))) ∧
  (∀ (s : State) (from_ : Option Nat) (p : Nat) (k : Packet),
    let cut := k.type = 0 ∧ k.trim = false ∧ k.plen ≠ 0 ∧ 2 ≤ k.cls ∧ s.eth p 4 ≠ 0 ∧ s.eth p 4 < queuedBytes s p false
    let full := (if k.cls < 2 then 65536 else 2 ^ 20) < queuedBytes s p (k.cls < 2) + packetBytes k
    let held := ∃ q, from_ = some q ∧ bit (s.eth q 1) 2 = true ∧ ((∃ i ∈ s.ingress, i.port = q) ∨ ¬cut ∧ full)
    (∀ q, from_ = some q → held → enqueue s from_ p k = { s with ingress := s.ingress ++ [⟨q, p, k⟩] }) ∧
    (¬held → ¬cut → full → enqueue s from_ p k = s.dropAt p) ∧
    (¬held → ¬cut → ¬full →
      enqueue s from_ p k = { s with egress := s.egress ++ [⟨p, k.cls < 2, packetBytes k, k, meshKind from_ p k⟩] }) ∧
    (cut → ∀ e ∈ (enqueue s from_ p k).egress, e ∉ s.egress → e.pkt.trim = true ∧ e.pkt.payload = [] ∧ e.pkt.olen = k.plen ∧
      e.class0 = true)) ∧
  (∀ (s : State) (port : Nat),
    (∀ frame, (s.portOn port = true → frameDropped s port frame = true →
        exec (.receivedFrameDrop ⟨port, frame⟩) s = .next (s.dropAt port)) ∧
      ((s.portOn port = false ∨ frameDropped s port frame = false) → exec (.receivedFrameDrop ⟨port, frame⟩) s = .next s)) ∧
    (s.portOn port = false → exec (.egressLastByteLeft port) s = .next s) ∧
    (s.portOn port = true → nextEgress s port = none → exec (.egressLastByteLeft port) s = .next { s with tick := s.tick + 1 }) ∧
    (∀ e, s.portOn port = true → nextEgress s port = some e → s.ingress = [] → exec (.egressLastByteLeft port) s =
      .next { s with egress := s.egress.erase e, wire := mset s.wire port (frameOf s port e.pkt), tick := s.tick + 1 }) ∧
    (bit (s.eth port 1) 2 = false → nextEgress s port = s.egress.find? (fun e => e.port == port)) ∧
    (s.eth port 0 % 4 = 0 → exec (.ethLinkUp port) s = .next s) ∧
    (s.eth port 0 % 4 ≠ 0 → ∃ t, exec (.ethLinkUp port) s = .next t ∧ bit (t.eth port 1) 0 = true ∧ bit (t.eth port 2) 1 = true) ∧
    (∃ t, exec (.ethLinkDown port) s = .next t ∧ t.eth port 1 = 0 ∧ bit (t.eth port 2) 0 = true) ∧
    (∃ t, exec (.ethRetryGiveUp port) s = .next t ∧ bit (t.eth port 2) 2 = true ∧ t.eth port 1 = s.eth port 1))


/-! ### Events of cores, of launches and of swaps -/

/-- R12, R36, R63, R195, R215–R218, R420: a quadrant chooses the oldest issuable team and its lowest unheld paths begin on its
free ports; a clause that does not decode parks its path; a context of the S-lane begins its clause; a CTRWAIT whose last
condition holds lets its path go on. What the spec's words leave open in it is the model's choice: log entries 28, 32 and 74.
-/
def Obligations.TurnEvents : Prop :=
  (∀ (s : State) (core quad : Nat), choice s core quad = none → exec (.teamChoice core quad) s = .next s) ∧
  (∀ (s : State) (core quad : Nat) (x : Choice), choice s core quad = some x →
    let u := { s with now := max s.now x.clk }
    let v := (if x.fresh then noteChoice u core quad x else u).modCore core (fun c =>
      { c with idlePorts := c.idlePorts.filter (fun p => p / 2 != quad) ++ (if x.idle then x.ports else []) })
    (x.idle = true → x.fresh = false ∧ exec (.teamChoice core quad) s = .next v) ∧
    (∀ t, x.idle = false → (v.core core).team? x.slot = some t → exec (.teamChoice core quad) s =
      .next (((freePaths v core x.slot t).zip x.ports).foldl (fun s p => beginPath s core x.slot p.2 p.1) v)) ∧
    (x.fresh = true → ∀ t, (s.core core).team? x.slot = some t → x.slot / 4 = quad ∧
      (∀ w, (v.core core).team? x.slot = some w → w.age = x.clk ∧ w.hold = none) ∧
      ∀ y w k, y / 4 = quad → (s.core core).team? y = some w → teamClk s core y = some k → k ≤ x.clk →
        min 65535 (x.clk - w.age) ≤ min 65535 (x.clk - t.age))) ∧
  (∀ (s : State) (core slot port : Nat) (p : Standing) (t : Team), (s.core core).team? slot = some t →
    (∀ cl, (opening s core slot t p).1 = .ok cl →
      mget? ((beginPath s core slot port p).core core).ports port = some cl ∧ cl.lanes = p.lanes) ∧
    (∀ pc cause w addr, (opening s core slot t p).1 = .error (pc, cause, w, addr) → t.lanes.length = 32 →
      ∃ u, ((beginPath s core slot port p).core core).team? slot = some u ∧ (∀ n, u.reg n = t.reg n) ∧
        ∀ i, i < 32 → p.lanes.getLsbD i = true → (u.lane i).parked = true ∧ (u.lane i).pc = pc)) ∧
  (∀ (s : State) (core : Nat), ctxTurn s core = none → exec (.sLaneClauseTurn core) s = .next s) ∧
  (∀ (s : State) (core : Nat), (ctxInside (s.core core) .m = true ∨ ctxInside (s.core core) .s = true → ctxTurn s core = none) ∧
    (ctxInside (s.core core) .m = false → ctxInside (s.core core) .s = false → ctxReady s core .m = true → ctxReady s core .s = true →
      ctxTurn s core = some (if (s.core core).lastTurn = .m then .s else .m))) ∧
  (∀ (s : State) (core : Nat) (k : Ctx), ctxTurn s core = some k →
    let t := asTeam (s.core core) k
    let o := (opening s core 0 t ⟨(t.lane 0).pc, (t.lane 0).hpc, 1⟩).1
    (∀ cl, o = .ok cl → ∃ u, exec (.sLaneClauseTurn core) s = .next u ∧ ((u.core core).ctx k).clause = some cl ∧
      (u.core core).lastTurn = k ∧ ((u.core core).ctx k).regs = ((s.core core).ctx k).regs) ∧
    (∀ pc cause w addr, o = .error (pc, cause, w, addr) → exec (.sLaneClauseTurn core) s = .next (ctxTrap s core k pc cause))) ∧
  (∀ (s : State) (core slot : Nat) (t : Team), (s.core core).team? slot = some t →
    (t.st ≠ .running ∨ ctrGroups t = [] → exec (.ctrwaitSatisfied core slot) s = .next s) ∧
    (t.st = .running → exec (.ctrwaitSatisfied core slot) s = .next ((ctrGroups t).foldl (fun s g => ctrPoll (.team core slot) g s) s))) ∧
  (∀ (s : State) (core slot : Nat) (t : Team) (g : Word × Nat × Nat) (op : Nat) (w : MW), (s.core core).team? slot = some t →
    rawOfWord g.1 = some (.m op w) →
    let waits (i : Nat) (met : Bool) : Bool :=
      (t.lane i).live && !(t.lane i).parked && (t.lane i).pc == g.2.1 && (t.lane i).earliest == g.2.2 &&
        (t.lane i).wait == some (.ctr g.1 met)
    let unmet := maskOf (fun i => waits i false)
    let first := t.lane (lowest (unmet ||| maskOf (fun i => waits i true)))
    let iss : Iss := { core := core, agent := .team core slot, lanes := unmet ||| maskOf (fun i => waits i true), act := unmet,
                       pc := g.2.1, hpc := first.hpc, clk := s.now, deadmode := false, final := first.last, bits := g.1 }
    let r := ctrReads iss t w (lanesOf unmet) s
    r.2.2 = [] → unmet ≠ 0 → (∀ i, unmet.getLsbD i = true → i ∈ r.2.1) →
    ∃ u, ((ctrPoll (.team core slot) g s).core core).team? slot = some u ∧ (∀ n, u.reg n = t.reg n) ∧
      ∀ i, i < 32 → (waits i true = true ∨ waits i false = true) → (u.lane i).pc = (t.lane i).pc + 8 ∧ (u.lane i).wait = none)

/-- R193, R199, R203, R205, R224, R324–R326, R332, R348, R355, R367, R372: entries of the fault buffer and of the residency
counter are posted, the timer and the external lines rise, operations of class 5 complete, and power tokens are granted. What
the spec's words leave open in it is the model's choice: log entries 26, 29, 58, 65, 69, 74 and 80. -/
def Obligations.CoreEvents : Prop :=
  (∀ (s : State) (core : Nat), (∀ k, faultDue s core = some k → s.now < k) → exec (.faultEntryPost core) s = .next s) ∧
  (∀ (s : State) (core : Nat) (e : FaultEntry) (es : List FaultEntry), (s.core core).faults = e :: es →
    (s.core core).tqFree ≠ [] → ((s.core core).waiting ≠ [] ∨ e.created + 256 ≤ s.now) →
    ∃ t i, exec (.faultEntryPost core) s = .next t ∧ i ∈ (s.core core).tqFree ∧
      ((s.core core).waiting = [] → (t.core core).faults = es) ∧
      let x := (t.core core).tqAt i
      x.st = .pending ∧ x.gen = (((s.core core).tqAt i).gen + 1) % 256 ∧ x.cause = (entryOf e).cause ∧ x.fmask = (entryOf e).fmask ∧ x.pc = (entryOf e).pc ∧
        x.operands = (entryOf e).operands ∧ x.slot = (entryOf e).slot ∧ x.lseq = (entryOf e).lseq ∧ x.toM = (entryOf e).toM) ∧
  (∀ (s : State) (core : Nat),
    (idling s core = false ∨ (s.core core).residencyPosted = true ∨ (s.core core).tqFree = [] →
      exec (.residencyExpiry core) s = .next s) ∧
    (idling s core = true → (s.core core).residencyPosted = false → (s.core core).tqFree ≠ [] →
      ∃ t i, exec (.residencyExpiry core) s = .next t ∧ i ∈ (s.core core).tqFree ∧ (t.core core).residencyPosted = true ∧
        (s.core core).residency + 2 ^ 20 ≤ t.now ∧ ((t.core core).tqAt i).st = .pending ∧ ((t.core core).tqAt i).cause = cRESIDENCY ∧
        ((t.core core).tqAt i).operands = le 8 (slotCodes s core) ++ le 24 0)) ∧
  (∀ (s : State) (core : Nat) (k : Ctx),
    let cmp := ((s.core core).ctx k).timercmp.toNat
    (cmp ≤ s.timer → exec (.timerCompare core k) s = .next s) ∧
    (s.timer < cmp → ∃ t, exec (.timerCompare core k) s = .next t ∧ t.timer = cmp ∧ t.cores = s.cores ∧ t.regs = s.regs)) ∧
  (∀ (s : State) (line : Nat),
    (line < 8 → (linesNow s).getLsbD line = true → exec (.externalLineRaise line) s = .next { s with lines := s.lines ||| BitVec.twoPow 8 line }) ∧
    (8 ≤ line ∨ (linesNow s).getLsbD line = false → exec (.externalLineRaise line) s = .next s)) ∧
  (∀ (s : State) (p : Proc) (imm core slot i : Nat) (a n : Word) (u : Team) (b : Bool), s.procs.find? (fun q => q.id == p.id) = some p →
    p.kind = .tlbinv true imm a n → p.agent = .team core slot → (s.core core).team? slot = some u → i < 32 → u.lanes.length = 32 →
    (u.lane i).live = true → (u.lane i).parked = false → (u.lane i).wait = some (.proc p.id b) →
    ∃ t v, exec (.tlbinvComplete p.id) s = .next t ∧ t.nt = [] ∧ (∀ q ∈ t.procs, q.id ≠ p.id) ∧ (t.core core).team? slot = some v ∧
      (v.lane i).pc = (u.lane i).pc + 8 ∧ (v.lane i).wait = none ∧ ∀ n, v.reg n = u.reg n) ∧
  (∀ (s : State) (p : Proc) (core slot vd : Nat) (whole : Bool) (a : Word), s.procs.find? (fun q => q.id == p.id) = some p →
    p.kind = .ctxsv core slot whole a vd →
    let slots := if whole then copseSlots (s.core core) slot else [slot]
    (saveReady (s.core core) slots = false → exec (.ctxsvComplete p.id) s = .next s) ∧
    (∀ t u n, saveReady (s.core core) slots = true → s.teamOf p.agent = some t →
      saveNow s (devMode (agentCore p.agent) p.agent 2) t.asid core slot whole a = (u, .ok n) →
      exec (.ctxsvComplete p.id) s = .next (endProc u p (some (vd, BitVec.ofNat 64 (n % 2 ^ 32))))) ∧
    (∀ t u x, saveReady (s.core core) slots = true → s.teamOf p.agent = some t →
      saveNow s (devMode (agentCore p.agent) p.agent 2) t.asid core slot whole a = (u, .error x) →
      exec (.ctxsvComplete p.id) s = .next (failProc u p x))) ∧
  (∀ s : State, tokenReady s = false → exec .tokenGrant s = .next s) ∧
  (∀ (s : State) (r : TokenReq) (rest : List TokenReq), s.tokens = r :: rest → tokenReady s = true →
    ∃ t, exec .tokenGrant s = .next t ∧ t.tokens = s.tokens.filter (fun x => x.core != r.core) ∧
      (∀ x ∈ s.tokens, x.core = r.core → x.holder ∈ (t.core r.core).holders) ∧
      ∀ h ∈ (s.core r.core).holders, h ∈ (t.core r.core).holders) ∧
  (∀ s : State,
    ((∃ r ∈ s.tokens, r.flagged = false ∧ r.since + 225000 ≤ s.now) → ∃ t, exec .tokenWaitExpiry s = .next t ∧
      bit (t.reg 0x724) 1 = true ∧ t.tokens.length = s.tokens.length) ∧
    ((∀ r ∈ s.tokens, r.flagged = true ∨ s.now < r.since + 225000) → exec .tokenWaitExpiry s = .next s)) ∧
  (∀ (s : State) (core : Nat) (k : Ctx) (v : Word),
    let first := 8 * (v.toNat % 32)
    let mine := (List.range' first 8).filter (fun n => bit v.toNat (8 + n - first))
    let need := (mine.filter (fun n => (s.core n).holders.isEmpty)).length
    (bits v.toNat 15 8 = 0 → ∃ t, exec (.powerAdmitWrite core k v) s = .next t ∧ ((t.core core).ctx k).admits = true ∧
      ∀ n, first ≤ n → n < first + 8 → Holder.ctx core k ∉ (t.core n).holders) ∧
    (bits v.toNat 15 8 ≠ 0 → need ≤ tokensFree s → ∃ t, exec (.powerAdmitWrite core k v) s = .next t ∧
      ((t.core core).ctx k).admits = true ∧ ∀ n ∈ mine, Holder.ctx core k ∈ (t.core n).holders) ∧
    (bits v.toNat 15 8 ≠ 0 → tokensFree s < need → ∃ t, exec (.powerAdmitWrite core k v) s = .next t ∧
      ((t.core core).ctx k).admits = false ∧ ∀ n, (t.core n).holders = (s.core n).holders))

/-- R214, R220, R221, R368–R370, R376, R380, Table 22.1: the end of a team and of a copse, placement, ageing, and the graft
unit's decisions. What the spec's words leave open in it is the model's choice: log entries 64, 65, 66, 74, 84 and 87. -/
def Obligations.LaunchEvents : Prop :=
  (∀ (s : State) (core slot : Nat) (t : Team), (s.core core).team? slot = some t →
    (t.st ≠ .ending ∨ execSlotReuseFenceClose.ecAll (s.core core) slot t.uid ≠ 0 → exec (.slotReuseFenceClose core slot) s = .next s) ∧
    (t.st = .ending → execSlotReuseFenceClose.ecAll (s.core core) slot t.uid = 0 → ∃ u, exec (.slotReuseFenceClose core slot) s = .next u ∧
      (u.core core).team? slot = some { (inFlight t.endAt (t.pend.map (fun p => if p.scoreboarded then p else { p with ready := 0 }))).foldr
          (fun p (t : Team) => p.undo t) t with
        st := .ended, pend := [], hold := none } ∧ (∀ m a, u.byte m a = s.byte m a) ∧
      ∀ cp, (s.core core).copse? t.copse = some cp → (∀ y ∈ cp.slots, ∀ v, (u.core core).team? y = some v → v.copse = t.copse → v.st = .ended) →
        (u.core core).copse? t.copse = some { cp with st := .retiring })) ∧
  (∀ (s : State) (core : Nat) (cp : Copse), (s.core core).copse? cp.id = some cp →
    let c := s.core core
    (copseOver c cp = false ∨ copseDrained c cp = false ∨ s.now < retireClk c cp s.now → exec (.copseRetirement core cp.id) s = .next s) ∧
    (copseOver c cp = true → copseDrained c cp = true → retireClk c cp s.now ≤ s.now → ∃ t, exec (.copseRetirement core cp.id) s = .next t ∧
      (t.core core).copse? cp.id = none ∧ Holder.copse cp.id ∉ (t.core core).holders ∧
      (∀ slot ∈ cp.slots, ∀ u, c.team? slot = some u → u.copse = cp.id → (t.core core).team? slot = none) ∧
      ∀ slot, slot ∉ cp.slots → (t.core core).team? slot = c.team? slot)) ∧
  (∀ (s : State) (cluster : Nat),
    (agentCoreOf s cluster = none → exec (.placementPass cluster) s = .next s) ∧
    (∀ agent, agentCoreOf s cluster = some agent →
      let u := noteHead s
      exec (.placementPass cluster) s = .next (passOver agent cluster (headLaunch u) (launchOrder u) u) ∧
      ∀ l rest, launchOrder u = l :: rest → (headLaunch u = some l) ∧
        ((tryUnit u agent cluster l).2 = true → exec (.placementPass cluster) s = .next (tryUnit u agent cluster l).1))) ∧
  (∀ (s : State) (agent cluster l : Nat),
    let d := runDesc s l
    (recLimit s l ≤ recNext s l ∨ unitFits s cluster l (recNext s l) = none → tryUnit s agent cluster l = (s, false)) ∧
    (recNext s l < recLimit s l → (unitFits s cluster l (recNext s l)).isSome = true → d.mx = false →
      (tryUnit s agent cluster l).2 = true)) ∧
  (∀ (s : State) (core l u g : Nat) (d : Desc) (places : List (Nat × Nat)) (r : Nat × Nat) (tno slot base : Nat) (t : Team),
    (places.map (fun p => p.1)).Nodup → places[tno]? = some (slot, base) →
    ((releaseCopse s core l u g d places r).core core).team? slot = some t →
    t.st = .running ∧ t.age = s.now ∧ t.lseq = l ∧ t.asid = d.asid ∧ t.priv = d.priv ∧ t.tno = tno ∧ t.wbase = base ∧ t.wsize = nth d.windows 0 tno ∧
    t.flags = 0 ∧ t.guards = [] ∧ t.scale = [] ∧ t.region = none ∧ (imageFor s l = none → t.reg 0 = ⟨21, 0, .uniform (recDesc s l).param⟩) ∧
    ∀ i, i < 32 → (t.lane i).live = true ∧ (t.lane i).parked = false ∧ (t.lane i).wait = none ∧ (t.lane i).pred = 1) ∧
  (∀ s : State, (headAges s = true → exec .headAgeExpiry s = .next { s with aged := headLaunch s }) ∧
    (headAges s = false → exec .headAgeExpiry s = .next s)) ∧
  (∀ s : State, ∃ t, exec .preferredDieSlackExpiry s = .next t ∧
    ∀ l ∈ launchOrder s, ((l, recNext s l) ∈ t.slackDone ↔ slackPassed s l = true)) ∧
  (∀ (s : State) (l : Nat),
    (pairFor s l = none → exec (.graftDecision l) s = .next s) ∧
    ∀ p c core a, pairFor s l = some (p, c, core) → a = acquireDie s core (dieOf core) →
      (∀ reason, examine a core p c = .inl reason → exec (.graftDecision l) s = .next (ungraft (ungraft a p reason) c 0)) ∧
      (∀ im, examine a core p c = .inr im →
        let slot := (freeSlot a (recAsid a p)).getD 0
        let u := { a with images := mset a.images slot im, grafts := a.grafts.filter (fun g => g.lseq != c) }
        let v := recSet (recSet u p 160 8 c) c 160 8 p
        exec (.graftDecision l) s = .next (ungraft (recSet (enterState v c 5) c 153 1 0) p 0))) ∧
  (∀ (s : State) (g : GraftPending), s.grafts.find? (fun x => x.lseq == g.lseq) = some g →
    (g.partner = none → g.at_ + 45000 ≤ s.now → exec (.graftTimeout g.lseq) s = .next (ungraft s g.lseq 0)) ∧
    (g.partner ≠ none ∨ s.now < g.at_ + 45000 → exec (.graftTimeout g.lseq) s = .next s))

/-- R333–R335, R349, Tables 18.6, 18.7: a write to SEC.SWAP is refused with its outcome, or starts. A swap-out leaves the
cluster's W-, A- and C-buffers, its SRAM, teams, copses, epilogue slots and e registers in the slot, and the cluster with
every one of these buffers zero and no team and no copse. A swap-in gives all of them back from the slot to the same core
positions of the target cluster, its teams halted, but for teams whose launch is over meanwhile. What the spec's words leave
open in it is the model's choice: log entries 22, 62 and 74. -/
def Obligations.Swaps : Prop :=
  (∀ (s : State) (v : Word) (i : Instr), s.memoriesOk = true →
    (i = .swapOut v ∧ swapDirIn v = false ∨ i = .swapIn v ∧ swapDirIn v = true) →
    let slot := swapSlot v
    let cl := swapCluster v
    let w := v.toNat % 32 + 256 * slot + 2048 * b2n (swapDirIn v)
    let live (y : Nat × Team) : Nat × Team := (y.1, if y.2.st = .running then { y.2 with st := .halted } else y.2)
    (dieBusy s slot = true → exec i s = .next s) ∧
    (dieBusy s slot = false → swapRefusal s v ≠ 0 → exec i s = .next (setOutcome (s.setReg 0x80A w) slot (swapRefusal s v))) ∧
    (dieBusy s slot = false → swapRefusal s v = 0 → ∃ t, exec i s = .next t ∧
      t.swaps = s.swaps ++ [⟨slot, cl, swapDirIn v⟩] ∧
      (swapDirIn v = false → ∀ n, (t.core n).teams = (s.core n).teams ∧ (t.core n).copses = (s.core n).copses) ∧
      (∀ sh, swapDirIn v = true → mget? s.shadows slot = some sh → mget? t.shadows slot = none ∧
        (∀ o, o < 2 ^ 24 → t.byte .sram (cl * 2 ^ 24 + o) = cget sh.sram o) ∧
        (∀ o, o < 2 ^ 23 → t.byte .wbuf (8 * cl * 2 ^ 20 + o) = cget sh.wbuf o) ∧
        (∀ o, o < 2 ^ 22 → t.byte .abuf (8 * cl * 2 ^ 19 + o) = cget sh.abuf o) ∧
        (∀ o, o < 2 ^ 21 → t.byte .cbuf (8 * cl * 2 ^ 18 + o) = cget sh.cbuf o) ∧
        (sh.cores.map (fun q => q.1) = List.range 8 →
          (∀ q ∈ sh.cores, ∀ y ∈ q.2.teams, recHolds s y.2.lseq = true → recState s y.2.lseq < 7) →
          ∀ q ∈ sh.cores, let c := t.core (8 * cl + q.1)
            c.teams = q.2.teams.map live ∧ c.copses = q.2.copses ∧ c.eprog = q.2.eprog ∧ c.ereg = q.2.ereg)))) ∧
  (∀ (s : State) (v : Word), (swapDirIn v = true → exec (.swapOut v) s = .next s) ∧ (swapDirIn v = false → exec (.swapIn v) s = .next s)) ∧
  (∀ (s : State) (slot : Nat), (∀ w ∈ s.swaps, w.slot ≠ slot) → exec (.swapDone slot) s = .next s) ∧
  (∀ (s : State) (w : Swap), s.memoriesOk = true → s.swaps.find? (fun x => x.slot == w.slot) = some w →
    let cl := w.cluster
    let ready := w.dirIn = true ∨ ∀ n ∈ clusterCores cl, saveReady (s.core n) ((s.core n).teams.map (fun t => t.1)) = true
    (¬ready → exec (.swapDone w.slot) s = .next s) ∧
    (ready → w.dirIn = true →
      exec (.swapDone w.slot) s = .next (setOutcome { s with swaps := s.swaps.filter (fun x => x != w) } w.slot 0)) ∧
    (ready → w.dirIn = false → ∃ t sh, exec (.swapDone w.slot) s = .next t ∧ w ∉ t.swaps ∧ mget? t.shadows w.slot = some sh ∧
      (∀ o, o < 2 ^ 24 → cget sh.sram o = s.byte .sram (cl * 2 ^ 24 + o) ∧ t.byte .sram (cl * 2 ^ 24 + o) = 0) ∧
      (∀ o, o < 2 ^ 23 → cget sh.wbuf o = s.byte .wbuf (8 * cl * 2 ^ 20 + o) ∧ t.byte .wbuf (8 * cl * 2 ^ 20 + o) = 0) ∧
      (∀ o, o < 2 ^ 22 → cget sh.abuf o = s.byte .abuf (8 * cl * 2 ^ 19 + o) ∧ t.byte .abuf (8 * cl * 2 ^ 19 + o) = 0) ∧
      (∀ o, o < 2 ^ 21 → cget sh.cbuf o = s.byte .cbuf (8 * cl * 2 ^ 18 + o) ∧ t.byte .cbuf (8 * cl * 2 ^ 18 + o) = 0) ∧
      sh.cores.map (fun q => q.1) = List.range 8 ∧
      ∀ n ∈ clusterCores cl, (t.core n).teams = [] ∧ (t.core n).copses = [] ∧ (t.core n).eprog = [] ∧ (t.core n).ereg = [] ∧
        ∃ x, mget? sh.cores (n % 8) = some x ∧ x.copses = (s.core n).copses ∧ x.eprog = (s.core n).eprog ∧
          x.ereg = (s.core n).ereg ∧ x.teams = (s.core n).teams.map (fun t => (t.1, swapTeam t.2))))


/-! ### The machine -/

/-- R14, R15, R16, R23, R37: the word at the cursor whose turn it is runs as the instruction that it decodes to, followed by
what follows every step; an event that is due before it comes first, the clock passing to it, and so does a freed port of its
quadrant that takes up a path no later; every event of the table goes on in every state; and a clause holds the words that the
code source gives from its header on. What the spec's words leave open in it is the model's choice: log entries 23, 25 and 27.
-/
def Obligations.StepRunsDecoded : Prop :=
  (∀ (s : State) (p : Path) (b : Word) (r : Raw) (i : Instr), s.agenda = [] → openPath s = some p → p.clause.words.head? = some b →
    decodeWord b = .ok i → rawOf i = some r →
    let k := issueClk s p r
    let none_ := ∀ core q x, s.cursor = .port core q → choice s core (q / 2) = some x → k < x.clk
    let last := ∀ e, due s = some e → k ≤ e.1
    (none_ → k ≤ s.now → step s = thenDo (exec i s) settle) ∧
    (none_ → s.now < k → k < never → last → step s = thenDo (exec i s) settle) ∧
    (∀ core q x, s.cursor = .port core q → choice s core (q / 2) = some x → x.clk ≤ k →
      (x.clk ≤ s.now → k ≤ s.now ∨ last → step s = thenDo (exec (.teamChoice core (q / 2)) s) settle) ∧
      (s.now < x.clk → last → step s = .next (settle { s with now := x.clk }))) ∧
    (∀ c e, s.now < k → due s = some (c, e) → c < k →
      (c ≤ s.now → step s = thenDo (exec e s) settle) ∧ (s.now < c → step s = .next (settle { s with now := c })))) ∧
  (∀ (s : State) (i : Instr) (rest : List Instr), s.agenda = i :: rest → step s = thenDo (exec i { s with agenda := rest }) settle) ∧
  (∀ (i : Instr) (s : State), rawOf i = none → ∃ t, exec i s = .next t) ∧
  (∀ (s : State) (core slot : Nat) (t : Team) (p : Standing) (cl : Clause), p.pc = p.hpc → (opening s core slot t p).1 = .ok cl →
    cl.hpc = p.hpc ∧ fetchAt s core t.asid t.code p.hpc = .ok cl.header ∧ cl.words.length = headerLen cl.header ∧
    ∀ j, j < cl.words.length → fetchAt s core t.asid t.code (p.hpc + 8 * (j + 1)) = .ok (nth cl.words 0 j))

/-- R15, R23–R27: words written out from Tables 01.3–01.7 and the encodings of the instruction pages, and what they decode to.
-/
def Obligations.DecodedWords : Prop :=
  decodeWord 0x2001A00006040A38 = .ok (.fadd ⟨0x100, 0, 13, 0, 0, 0, 6, 4, 10⟩) ∧
  decodeWord 0x0010A0020704091E = .ok (.iaddmin ⟨0, 4, 5, 0, 0, 2, 7, 4, 9⟩) ∧
  decodeWord 0x002D600040020650 = .ok (.ld ⟨0, 0, 0, 0, 0, 1, 1, 5, 3, 0, 0, 64, 2, 6⟩) ∧
  decodeWord 0x0441200B0A090860 = .ok (.mma ⟨0x441, 2, 0, 0, 11, 10, 9, 8⟩) ∧
  decodeWord 0x0005100706050462 = .ok (.mperm ⟨5, 1, 0, 0, 7, 6, 5, 4⟩) ∧
  decodeWord 0xFFFFFFF903000001 = .ok (.bra ⟨0xFFFFFFF9, 0, 0, 3, 0, 0⟩) ∧
  decodeWord 0x2100000000000770 = .ok (.sysr ⟨0x210, 0, 0, 0, 0, 0, 7⟩) ∧
  decodeWord 0x0000000000000080 = .error .illegal

/-- R15, R23–R27: every well-formed instruction but an event has a word, whose decoding is that instruction with every field
at the value it has; and a word that decodes is the word of the instruction that it decodes to. -/
def Obligations.RoundTrip : Prop :=
  (∀ i : Instr, wellFormed i = true → (rawOf i).isSome = true → ∃ b, encode i = some b ∧ decodeWord b = .ok i ∧
    ∀ rest, decode (encodeBytes i ++ rest) = .ok (i, rest)) ∧
  (∀ (b : Word) (i : Instr), decodeWord b = .ok i → wellFormed i = true ∧ encode i = some b)

/-- R191, R339, R421, Tables 07.6 and 21.6: what reset leaves in the registers to which the spec gives a value; every memory
is in its canonical form and no external line is pending. What the spec's words leave open in it is the model's choice: log
entries 1 and 7. -/
def Obligations.ResetState : Prop :=
  (∀ (core : Nat) (k : Ctx) (n v : Nat),
    (n, v) ∈ [(0x001, 0), (0x002, 0), (0x181, 0), (0x182, 0), (0x183, 0), (0x185, 0x800), (0x186, 0), (0x187, 0), (0x188, 0),
      (0x201, 0), (0x210, 0), (0x211, 0xFFFFFFFFFFFFFFFF), (0x703, 0x100)] →
    regRead State.reset (.ctx core k) false n = BitVec.ofNat 64 v) ∧
  (∀ (core : Nat) (k : Ctx) (c p : Nat), c < 8 → p < 12 →
    regRead State.reset (.ctx core k) false (0x280 + c) = 1 ∧
    ∀ r, r < 19 → regRead State.reset (.ctx core k) false (0x400 + 32 * p + r) = if r ∈ [5, 6, 8, 9] then 1 else 0) ∧
  (∀ (core i : Nat), ((State.reset.core core).tqAt i).st = .free ∧ ((State.reset.core core).tqAt i).gen = 0 ∧
    (State.reset.core core).released = false ∧ (State.reset.core core).teams = []) ∧
  State.reset.memoriesOk = true ∧ State.reset.linesOk

/-- R348: after every step an external line is pending only while its source stands. What the spec's words leave open in it is
the model's choice: log entry 69. -/
def Obligations.LinesKept : Prop := Keeps State.linesOk

/-- Every step keeps every byte memory, those of the shadow slots too, in its one canonical form, and the L2s' lines in rising
order. What the spec's words leave open in it is the model's choice: log entry 5. -/
def Obligations.MemoriesKept : Prop := Keeps (fun s => s.memoriesOk = true)

/-- R190, R193–R195, R338: no word of a team of U privilege changes a register of an S-lane context or, but for the alarm log
SEC.ALOG, one of the SEC, BOOT and HOST blocks. -/
def Obligations.UserWords : Prop :=
  ∀ (s t : State) (p : Path) (core slot : Nat) (i : Instr) (r : Raw), rawOf i = some r → openPath s = some p →
    p.agent = .team core slot → p.team.priv = 0 → exec i s = .next t →
    (∀ c k, let x := (s.core c).ctx k
      let y := (t.core c).ctx k
      y.epc = x.epc ∧ y.tvec = x.tvec ∧ y.cause = x.cause ∧ y.imask = x.imask ∧ y.trap = x.trap ∧ y.code = x.code ∧
        y.tqstat = x.tqstat ∧ y.timercmp = x.timercmp ∧ y.flags = x.flags ∧ y.spc = x.spc ∧ y.stopped = x.stopped ∧ ∀ n, mget y.regs 0 n = mget x.regs 0 n) ∧
    ∀ n, 0x800 ≤ n → n < 0x900 → n ≠ 0x806 → t.reg n = s.reg n
end

