-- ==== Sys2Proof/Laws/Maps.lean ====
section
/-! SUPPORT. What reading a file gives after writing or deleting, and that every operation on a byte memory keeps its
canonical form. -/
namespace Sys2Proof.Machine

theorem mget?_mset {α : Type} (m : List (Nat × α)) (n j : Nat) (x : α) :
    mget? (mset m n x) j = if j = n then some x else mget? m j := by
  induction m with
  | nil =>
    by_cases h : n = j
    · simp [mset, mget?, h]
    · simp [mset, mget?, h, Ne.symm h]
  | cons e m ih =>
    obtain ⟨k, v⟩ := e
    simp only [mset]
    split
    · by_cases h : n = j
      · simp [mget?, h]
      · simp [mget?, h, Ne.symm h]
    · split
      · rename_i h2
        by_cases h : n = j
        · simp [mget?, h]
        · simp [mget?, h, Ne.symm h, ← h2]
      · by_cases h : k = j
        · subst h
          have : k ≠ n := by omega
          simp [mget?, this]
        · simp [mget?, h, ih]

theorem mget_mset {α : Type} (m : List (Nat × α)) (d : α) (n j : Nat) (x : α) :
    mget (mset m n x) d j = if j = n then x else mget m d j := by
  unfold mget
  rw [mget?_mset]
  split <;> rfl

@[simp] theorem mget_mset_self {α : Type} (m : List (Nat × α)) (d : α) (n : Nat) (x : α) : mget (mset m n x) d n = x := by
  simp [mget_mset]

theorem mget_mset_ne {α : Type} (m : List (Nat × α)) (d : α) {n j : Nat} (x : α) (h : j ≠ n) :
    mget (mset m n x) d j = mget m d j := by
  simp [mget_mset, h]

theorem mget?_mdel {α : Type} (m : List (Nat × α)) (n j : Nat) : mget? (mdel m n) j = if j = n then none else mget? m j := by
  induction m with
  | nil => simp [mdel, mget?]
  | cons e m ih =>
    obtain ⟨k, v⟩ := e
    simp only [mdel, List.filter_cons] at ih ⊢
    by_cases hk : k = n
    · subst hk
      simp only [bne_self_eq_false, Bool.false_eq_true, if_false, ih, mget?]
      by_cases h : j = k
      · simp [h]
      · simp [h, Ne.symm h]
    · simp only [bne_iff_ne, ne_eq, hk, not_false_eq_true, if_true, mget?, ih]
      by_cases h : k = j
      · subst h
        simp [hk]
      · simp [h]

theorem mget_mdel {α : Type} (m : List (Nat × α)) (d : α) (n j : Nat) :
    mget (mdel m n) d j = if j = n then d else mget m d j := by
  unfold mget
  rw [mget?_mdel]
  split <;> rfl

@[simp] theorem mdel_mset {α : Type} (m : List (Nat × α)) (n : Nat) (x : α) : mdel (mset m n x) n = mdel m n := by
  induction m with
  | nil => simp [mset, mdel]
  | cons e m ih =>
    obtain ⟨k, v⟩ := e
    simp only [mset]
    split
    · simp [mdel]
    · split
      · subst_vars
        simp [mdel]
      · simp only [mdel, List.filter_cons] at ih ⊢
        rw [ih]

/-! ### Memories -/

theorem cgetD_csetD (d : Byte) (m : Cells) (a x : Nat) (b : Byte) :
    cgetD d (csetD d m a b) x = if x = a then b else cgetD d m x := by
  unfold csetD cgetD
  split
  · rw [mget_mdel]
    split
    · subst_vars
      rfl
    · rfl
  · rw [mget_mset]

/-- A read after a write gives what was written there, and what was there before anywhere else. -/
theorem cget_cset (m : Cells) (a x : Nat) (b : Byte) : cget (cset m a b) x = if x = a then b else cget m x := by
  unfold cset cget
  exact cgetD_csetD 0 m a x b

/-- Bytes written from `a` read back in place; every other byte is as before. -/
theorem cget_cwrite (bs : List Byte) (m : Cells) (a x : Nat) :
    cget (cwrite m a bs) x = if a ≤ x ∧ x < a + bs.length then bs.getD (x - a) 0 else cget m x := by
  induction bs generalizing m a with
  | nil => rw [if_neg (by simp only [List.length_nil]; omega)]; rfl
  | cons b bs ih =>
    simp only [cwrite, ih, cget_cset, List.length_cons]
    by_cases h : x = a
    · rw [if_neg (by omega), if_pos h, if_pos (by omega)]
      have h3 : x - a = 0 := by omega
      rw [h3, List.getD_cons_zero]
    · by_cases h2 : a + 1 ≤ x ∧ x < a + 1 + bs.length
      · have e : x - a = (x - (a + 1)) + 1 := by omega
        have h3 : a ≤ x ∧ x < a + (bs.length + 1) := by omega
        rw [if_pos h2, if_pos h3, e, List.getD_cons_succ]
      · have h3 : ¬(a ≤ x ∧ x < a + (bs.length + 1)) := by omega
        rw [if_neg h2, if_neg h, if_neg h3]

/-- Rising numbers, all above a bound. -/
theorem mrising_cons {α : Type} (k : Nat) (v : α) (m : List (Nat × α)) :
    mrising ((k, v) :: m) = true ↔ mrising m = true ∧ ∀ e ∈ m, k < e.1 := by
  induction m generalizing k v with
  | nil => simp [mrising]
  | cons e m ih =>
    obtain ⟨j, w⟩ := e
    simp only [mrising, Bool.and_eq_true, decide_eq_true_eq]
    constructor
    · rintro ⟨h, hr⟩
      refine ⟨hr, ?_⟩
      intro e he
      rcases List.mem_cons.mp he with h' | h'
      · subst h'
        exact h
      · have := ((ih j w).mp hr).2 e h'
        omega
    · rintro ⟨hr, h⟩
      exact ⟨h _ (List.mem_cons_self ..), hr⟩

theorem mem_mset {α : Type} {m : List (Nat × α)} {n : Nat} {x : α} {e : Nat × α} (h : e ∈ mset m n x) : e = (n, x) ∨ e ∈ m := by
  induction m with
  | nil => simpa [mset] using h
  | cons c m ih =>
    obtain ⟨k, v⟩ := c
    simp only [mset] at h
    split at h
    · simpa using h
    · split at h
      · rcases List.mem_cons.mp h with h | h
        · exact .inl h
        · exact .inr (List.mem_cons_of_mem _ h)
      · rcases List.mem_cons.mp h with h | h
        · exact .inr (by simp [h])
        · rcases ih h with h | h
          · exact .inl h
          · exact .inr (List.mem_cons_of_mem _ h)

theorem mset_rising {α : Type} (m : List (Nat × α)) (n : Nat) (x : α) (h : mrising m = true) : mrising (mset m n x) = true := by
  induction m with
  | nil => simp [mset, mrising]
  | cons e m ih =>
    obtain ⟨k, v⟩ := e
    have hm := (mrising_cons k v m).mp h
    simp only [mset]
    split
    · refine (mrising_cons _ _ _).mpr ⟨h, ?_⟩
      intro e he
      rcases List.mem_cons.mp he with rfl | he
      · assumption
      · have := hm.2 e he
        omega
    · split
      · subst_vars
        exact (mrising_cons _ _ _).mpr hm
      · refine (mrising_cons _ _ _).mpr ⟨ih hm.1, ?_⟩
        intro e he
        rcases mem_mset he with rfl | he
        · simp only
          omega
        · exact hm.2 e he

theorem filter_rising {α : Type} (m : List (Nat × α)) (p : Nat × α → Bool) (h : mrising m = true) :
    mrising (m.filter p) = true := by
  induction m with
  | nil => simp [mrising]
  | cons e m ih =>
    obtain ⟨k, v⟩ := e
    have hm := (mrising_cons k v m).mp h
    simp only [List.filter_cons]
    split
    · exact (mrising_cons _ _ _).mpr ⟨ih hm.1, fun e he => hm.2 e (List.mem_filter.mp he).1⟩
    · exact ih hm.1

theorem wfD_iff (d : Byte) (m : Cells) : Memory.wfD d m = true ↔ mrising m = true ∧ ∀ c ∈ m, c.2 ≠ d := by
  simp [Memory.wfD, List.all_eq_true]

/-- A write keeps the canonical form. -/
theorem csetD_wf (d : Byte) (m : Cells) (a : Nat) (b : Byte) (h : Memory.wfD d m = true) : Memory.wfD d (csetD d m a b) = true := by
  rw [wfD_iff] at h ⊢
  unfold csetD
  split
  · exact ⟨filter_rising _ _ h.1, fun c hc => h.2 c (List.mem_filter.mp hc).1⟩
  · refine ⟨mset_rising _ _ _ h.1, ?_⟩
    intro c hc
    rcases mem_mset hc with rfl | hc
    · assumption
    · exact h.2 c hc

theorem cset_wf (m : Cells) (a : Nat) (b : Byte) (h : Memory.wf m = true) : Memory.wf (cset m a b) = true := csetD_wf 0 m a b h

/-- A run of writes keeps the canonical form. -/
theorem cwrite_wf (bs : List Byte) (m : Cells) (a : Nat) (h : Memory.wf m = true) : Memory.wf (cwrite m a bs) = true := by
  induction bs generalizing m a with
  | nil => exact h
  | cons b bs ih => exact ih _ _ (cset_wf m a b h)

theorem filter_wfD (d : Byte) (m : Cells) (p : Host.Cell → Bool) (h : Memory.wfD d m = true) : Memory.wfD d (m.filter p) = true := by
  rw [wfD_iff] at h ⊢
  exact ⟨filter_rising _ _ h.1, fun c hc => h.2 c (List.mem_filter.mp hc).1⟩

/-- Clearing a range keeps the canonical form. -/
theorem cclear_wf (m : Cells) (a n : Nat) (h : Memory.wf m = true) : Memory.wf (cclear m a n) = true := filter_wfD 0 m _ h

/-- Replacing a range keeps the canonical form. -/
theorem cpaste_wf (m : Cells) (a n : Nat) (part : Cells) (h : Memory.wf m = true) : Memory.wf (cpaste m a n part) = true := by
  unfold cpaste
  generalize hm : cclear m a n = c
  have hc : Memory.wf c = true := hm ▸ cclear_wf m a n h
  clear hm
  induction part generalizing c with
  | nil => exact hc
  | cons e part ih => exact ih _ (cset_wf _ _ _ hc)

end Sys2Proof.Machine
end

