-- ==== Sys2Proof/Laws/Issue.lean ====
section
/-! SUPPORT. What issuing and retiring a word does: a word that is ready has its own effect, and retirement moves the
path on and changes nothing else. -/
namespace Sys2Proof.Machine

/-! ### Cores and teams -/

theorem core_setCore (s : State) (c d : Nat) (x : Core) : (s.setCore c x).core d = if d = c then x else s.core d := by
  simp [State.core, State.setCore, mget_mset]

@[simp] theorem core_setCore_self (s : State) (c : Nat) (x : Core) : (s.setCore c x).core c = x := by simp [core_setCore]

theorem core_modCore (s : State) (c d : Nat) (f : Core → Core) :
    (s.modCore c f).core d = if d = c then f (s.core c) else s.core d := by
  simp [State.modCore, core_setCore]

@[simp] theorem core_modCore_self (s : State) (c : Nat) (f : Core → Core) : (s.modCore c f).core c = f (s.core c) := by
  simp [core_modCore]

@[simp] theorem team?_setTeam (c : Core) (slot k : Nat) (t : Team) :
    (c.setTeam slot t).team? k = if k = slot then some t else c.team? k := by
  simp [Core.team?, Core.setTeam, mget?_mset]

@[simp] theorem ctx_setCtx (c : Core) (k : Ctx) (x : SCtx) : (c.setCtx k x).ctx k = x := by cases k <;> rfl

theorem ctx_setCtx_ne (c : Core) (k j : Ctx) (x : SCtx) (h : j ≠ k) : (c.setCtx k x).ctx j = c.ctx j := by
  cases k <;> cases j <;> first | rfl | exact absurd rfl h

/-! ### Lanes -/

theorem nth_eq {α : Type} (l : List α) (d : α) (i : Nat) : nth l d i = l.getD i d := by
  simp [nth]

theorem lane_modLanes (t : Team) (m : BitVec 32) (f : Nat → Lane → Lane) (i : Nat) (h : i < 32) :
    (t.modLanes m f).lane i = if m.getLsbD i then f i (t.lane i) else t.lane i := by
  simp [Team.modLanes, Team.lane, nth_eq, h]

@[simp] theorem modLanes_regs (t : Team) (m : BitVec 32) (f : Nat → Lane → Lane) : (t.modLanes m f).regs = t.regs := rfl
@[simp] theorem modLanes_slane (t : Team) (m : BitVec 32) (f : Nat → Lane → Lane) : (t.modLanes m f).slane = t.slane := rfl
@[simp] theorem modLanes_pend (t : Team) (m : BitVec 32) (f : Nat → Lane → Lane) : (t.modLanes m f).pend = t.pend := rfl

/-- What retirement leaves of a fibre's record. -/
theorem retireLane_keeps (iss : Iss) (st : Nat) (res : Res) (i : Nat) (l : Lane) :
    (retireLane iss st res i l).pred = l.pred ∧ (retireLane iss st res i l).live = l.live ∧
      (retireLane iss st res i l).parked = l.parked := by
  unfold retireLane
  split
  · exact ⟨rfl, rfl, rfl⟩
  · dsimp only
    split
    · exact ⟨rfl, rfl, rfl⟩
    · split <;> exact ⟨rfl, rfl, rfl⟩

/-! ### A ready word -/

theorem staleView_nil (t : Team) (m : BitVec 32) (clk : Nat) (h : t.pend = []) : staleView t m clk = t := by
  simp [staleView, h, inFlight]

/-- A ready word has its own effect. -/
theorem runWord_ready {s : State} {p : Path} {r : Raw} {body : State → Iss → Team → Team → Res} (h : Ready s p r)
    (hb : (body s (p.iss s r) (p.view s r) (p.marked s r)).traps = []) :
    runWord r body s = .next (retire s p (p.iss s r) r (body s (p.iss s r) (p.view s r) (p.marked s r))) := by
  have hc : (p.iss s r).core = agentCore p.agent := rfl
  unfold runWord
  rw [h.path]
  simp only
  change Host.Outcome.next (retire s p (p.iss s r) r (effect s p (p.iss s r) r body)) = _
  congr 2
  unfold effect
  rw [h.accepted, hc]
  dsimp only
  have he : (if ((s.core (agentCore p.agent)).stallchk || bit p.clause.header.toNat 8) = true then
      earlyReg p r (p.iss s r).clk else none) = none := by
    split
    · exact h.timely ‹_›
    · rfl
  have ha : deadOf (p.iss s r) (staleView p.team p.lanes (p.iss s r).clk) (valueSrcs r) = none := h.alive
  rw [he]
  dsimp only
  rw [ha]
  dsimp only
  change (if (p.dead s r).isEmpty || (body s (p.iss s r) (p.view s r) (p.marked s r)).traps.isEmpty then _ else _) = _
  rw [hb]
  simp only [List.isEmpty_nil, Bool.or_true, if_true]
  rfl

theorem takeTraps_nil (s : State) (iss : Iss) (t : Team) : takeTraps s iss t [] = (s, t) := by
  unfold takeTraps
  cases iss.agent <;> simp [countWorld]

/-! ### Retirement -/

@[simp] theorem retiredTeam_regs (n : Nat) (p : Path) (iss : Iss) (r : Raw) (res : Res) : (retiredTeam n p iss r res).regs = res.t.regs := rfl
@[simp] theorem retiredTeam_slane (n : Nat) (p : Path) (iss : Iss) (r : Raw) (res : Res) : (retiredTeam n p iss r res).slane = res.t.slane := rfl

theorem retiredTeam_lane (n : Nat) (p : Path) (iss : Iss) (r : Raw) (res : Res) (i : Nat) (h : i < 32) :
    ((retiredTeam n p iss r res).lane i).pred = (res.t.lane i).pred ∧ ((retiredTeam n p iss r res).lane i).live = (res.t.lane i).live ∧
      ((retiredTeam n p iss r res).lane i).parked = (res.t.lane i).parked := by
  have e : (retiredTeam n p iss r res).lane i =
      (res.t.modLanes (passedOf p res) (retireLane iss (stallOf p.clause.header p.clause.idx) res)).lane i := rfl
  rw [e, lane_modLanes _ _ _ _ h]
  split
  · exact retireLane_keeps ..
  · exact ⟨rfl, rfl, rfl⟩

theorem retiredTeam_rest (n : Nat) (p : Path) (iss : Iss) (r : Raw) (res : Res) :
    { retiredTeam n p iss r res with lanes := res.t.lanes, pend := res.t.pend, region := res.t.region } = res.t := rfl

/-- Of a region, a word changes nothing but whether it has been entered. -/
theorem retiredTeam_region (n : Nat) (p : Path) (iss : Iss) (r : Raw) (res : Res) :
    (retiredTeam n p iss r res).region.map Region.blank = res.t.region.map Region.blank := by
  have e : (retiredTeam n p iss r res).region = res.t.region.map (enterRegion p.team
    (res.t.modLanes (passedOf p res) (retireLane iss (stallOf p.clause.header p.clause.idx) res)) iss) := rfl
  rw [e]
  cases res.t.region <;> rfl

/-- Retirement without traps, on a team's path. -/
theorem retire_team {s : State} {p : Path} {r : Raw} {res : Res} {c slot : Nat} (ha : p.agent = .team c slot)
    (ht : res.traps = []) :
    retire s p (p.iss s r) r res =
      { res.s with now := max res.s.now (p.iss s r).clk, tick := s.tick + 1 }.modCore c
        (teamDone p (p.iss s r) r (delayOf s p r (p.iss s r).clk) (passedOf p res) (max res.s.now (p.iss s r).clk) slot
          (retiredTeam (delayOf s p r (p.iss s r).clk) p (p.iss s r) r res)) := by
  unfold retire
  simp only [ht, takeTraps_nil, ha]

/-- Retirement without traps, on an S-lane context's path. -/
theorem retire_ctx {s : State} {p : Path} {r : Raw} {res : Res} {c : Nat} {k : Ctx} (ha : p.agent = .ctx c k)
    (ht : res.traps = []) :
    retire s p (p.iss s r) r res =
      { res.s with now := max res.s.now (p.iss s r).clk, tick := s.tick + 1 }.modCore c
        (ctxDone p (p.iss s r) (max res.s.now (p.iss s r).clk) k
          (retiredTeam (delayOf s p r (p.iss s r).clk) p (p.iss s r) r res)) := by
  unfold retire
  simp only [ht, takeTraps_nil, ha, List.isEmpty_nil, if_true]

theorem teamDone_blank (p : Path) (iss : Iss) (r : Raw) (delay : Nat) (ok : BitVec 32) (now c slot : Nat) (t : Team) (x : Core) :
    (teamDone p iss r delay ok now slot t x).blank (.team c slot) = x.blank (.team c slot) := by
  simp [teamDone, Core.blank, Core.setTeam]

theorem ctxDone_blank (p : Path) (iss : Iss) (now c : Nat) (k : Ctx) (t : Team) (x : Core) :
    (ctxDone p iss now k t x).blank (.ctx c k) = x.blank (.ctx c k) := by
  cases k <;> rfl

/-- A word without traps whose effect leaves the state outside its team alone keeps everything else. -/
theorem retire_kept {s : State} {p : Path} {r : Raw} {res : Res} (ht : res.traps = []) (hs : res.s = s) :
    Kept s (retire s p (p.iss s r) r res) p := by
  cases ha : p.agent with
  | team c slot =>
    rw [retire_team ha ht, hs]
    refine ⟨?_, ?_, ?_, ?_⟩
    · intro m a
      cases m <;> rfl
    · rfl
    · intro d hd
      rw [ha] at hd
      simp only [agentCore] at hd
      rw [core_modCore, if_neg hd]
      rfl
    · rw [ha]
      simp only [agentCore, core_modCore_self, teamDone_blank]
      rfl
  | ctx c k =>
    rw [retire_ctx ha ht, hs]
    refine ⟨?_, ?_, ?_, ?_⟩
    · intro m a
      cases m <;> rfl
    · rfl
    · intro d hd
      rw [ha] at hd
      simp only [agentCore] at hd
      rw [core_modCore, if_neg hd]
      rfl
    · rw [ha]
      simp only [agentCore, core_modCore_self, ctxDone_blank]
      rfl

/-- Registers as the S-lane holds them: no tag, one value (R78). -/
def laneForm (t : Team) : Prop := ∀ e ∈ t.regs, e.2 = ⟨31, 0, .uniform (e.2.lane 0)⟩

theorem asTeam_laneForm (c : Core) (k : Ctx) : laneForm (asTeam c k) := by
  intro e he
  simp only [asTeam, List.mem_map] at he
  obtain ⟨x, _, rfl⟩ := he
  rfl

theorem mget?_map {α β : Type} (m : List (Nat × α)) (f : α → β) (n : Nat) :
    mget? (m.map (fun e => (e.1, f e.2))) n = (mget? m n).map f := by
  induction m with
  | nil => rfl
  | cons e m ih =>
    simp only [List.map_cons, mget?]
    split
    · rfl
    · exact ih

theorem asTeam_ofTeam_reg (c : Core) (k : Ctx) (t : Team) (cl : Option Clause) (h : laneForm t) (hl : t.slane = true) (n : Nat) :
    (asTeam (((ofTeam c k t).setCtx k { (ofTeam c k t).ctx k with clause := cl })) k).reg n = t.reg n := by
  have e : (asTeam (((ofTeam c k t).setCtx k { (ofTeam c k t).ctx k with clause := cl })) k).regs = t.regs := by
    simp only [asTeam, ctx_setCtx, ofTeam, List.map_map]
    conv => rhs; rw [← List.map_id t.regs]
    apply List.map_congr_left
    intro x hx
    simp only [Function.comp, id]
    exact Prod.ext rfl (h x hx).symm
  have sl : (asTeam (((ofTeam c k t).setCtx k { (ofTeam c k t).ctx k with clause := cl })) k).slane = true := rfl
  unfold Team.reg
  rw [e, sl, hl]

theorem teamIn_teamDone (p : Path) (iss : Iss) (r : Raw) (delay : Nat) (ok : BitVec 32) (now c slot : Nat) (t : Team) (s : State)
    (ha : p.agent = .team c slot) : p.teamIn (s.modCore c (teamDone p iss r delay ok now slot t)) = t := by
  have h (x : Core) : (teamDone p iss r delay ok now slot t x).team? slot = some t := by
    change mget? (mset x.teams slot t) slot = some t
    simp [mget?_mset]
  simp [Path.teamIn, State.teamOf, ha, h]

theorem teamIn_ctxDone (p : Path) (iss : Iss) (now c : Nat) (k : Ctx) (t : Team) (s : State) (ha : p.agent = .ctx c k) :
    p.teamIn (s.modCore c (ctxDone p iss now k t)) =
      asTeam ((ofTeam (s.core c) k t).setCtx k { (ofTeam (s.core c) k t).ctx k with clause := advance p.clause 1 }) k := by
  simp only [Path.teamIn, State.teamOf, ha, core_modCore_self, Option.getD_some]
  cases k <;> rfl

/-- A path at a fetch port is a team's; its team is the one in that slot. -/
theorem openPath_team {s : State} {p : Path} {c slot : Nat} (hp : openPath s = some p) (ha : p.agent = .team c slot) :
    (s.core c).team? slot = some p.team ∧ p.team.slane = false := by
  unfold openPath at hp
  split at hp
  · split at hp
    · split at hp
      · rename_i t h
        dsimp only at hp
        split at hp
        · cases hp
        · rename_i hz
          injection hp with hp
          subst hp
          cases ha
          exact ⟨h, by simpa using fun e => hz (.inr e)⟩
      · cases hp
    · cases hp
  · split at hp
    · dsimp only at hp
      split at hp
      · cases hp
      · injection hp with hp
        subst hp
        cases ha
    · cases hp

/-- The path of an S-lane context is seen as a team. -/
theorem openPath_ctx {s : State} {p : Path} {c : Nat} {k : Ctx} (hp : openPath s = some p) (ha : p.agent = .ctx c k) :
    p.team = asTeam (s.core c) k ∧ p.lanes = 1 := by
  unfold openPath at hp
  split at hp
  · split at hp
    · split at hp
      · rename_i t h
        dsimp only at hp
        split at hp
        · cases hp
        · injection hp with hp
          subst hp
          cases ha
      · cases hp
    · cases hp
  · split at hp
    · dsimp only at hp
      split at hp
      · cases hp
      · injection hp with hp
        subst hp
        cases ha
        exact ⟨rfl, rfl⟩
    · cases hp

/-- The registers of the path's team after a word without traps are those that its effect left. -/
theorem teamIn_reg {s : State} {p : Path} {r : Raw} {res : Res} (ht : res.traps = [])
    (hf : res.t.slane = true → laneForm res.t) (hl : res.t.slane = p.team.slane) (hp : openPath s = some p) (n : Nat) :
    (p.teamIn (retire s p (p.iss s r) r res)).reg n = res.t.reg n := by
  cases ha : p.agent with
  | team c slot =>
    rw [retire_team ha ht, teamIn_teamDone _ _ _ _ _ _ _ _ _ _ ha]
    rfl
  | ctx c k =>
    have hsl : res.t.slane = true := by rw [hl, (openPath_ctx hp ha).1]; rfl
    rw [retire_ctx ha ht, teamIn_ctxDone _ _ _ _ _ _ _ ha,
      asTeam_ofTeam_reg _ _ (retiredTeam (delayOf s p r (p.iss s r).clk) p (p.iss s r) r res) _ (hf hsl) hsl]
    rfl

end Sys2Proof.Machine
end

