-- ==== Sys2Proof/Laws/Registers.lean ====
section
/-! SUPPORT. What writing a vector register, a predicate and a whole register does, and what of a team a word without traps
keeps. -/
namespace Sys2Proof.Machine

/-! ### Registers -/

theorem reg_eq (t : Team) (n : Nat) : t.reg n =
    if t.slane = true ∧ n = 0 then ⟨31, 0, .uniform 0⟩ else mget t.regs (if t.slane then ⟨31, 0, .uniform 0⟩ else ⟨0, 0, .dead⟩) n := by
  unfold Team.reg
  simp

/-- A register after a whole write (R78, R228). -/
theorem reg_setReg (t : Team) (n k : Nat) (r : VReg) :
    (t.setReg n r).reg k =
      if k ≠ n then t.reg k
      else if t.slane = true then (if n = 0 then ⟨31, 0, .uniform 0⟩ else ⟨31, 0, .uniform (r.lane 0)⟩)
      else if r.isDead = true then ⟨0, 0, .dead⟩ else r := by
  unfold Team.setReg
  by_cases hs : t.slane = true
  · by_cases hn : n = 0
    · subst hn
      by_cases hk : k = 0
      · simp [hs, hk, Team.reg]
      · simp [hs, hk]
    · by_cases hk : k = n
      · subst hk
        simp [hs, hn, reg_eq]
      · simp [hs, hn, hk, reg_eq, mget_mset]
  · have hs' : t.slane = false := by simpa using hs
    by_cases hd : r.isDead = true
    · by_cases hk : k = n
      · subst hk
        simp [hs', hd, reg_eq, mget_mdel]
      · simp [hs', hd, hk, reg_eq, mget_mdel]
    · by_cases hk : k = n
      · subst hk
        simp [hs', hd, reg_eq]
      · simp [hs', hd, hk, reg_eq, mget_mset]

@[simp] theorem setReg_slane (t : Team) (n : Nat) (r : VReg) : (t.setReg n r).slane = t.slane := by
  unfold Team.setReg
  split
  · rfl
  · split
    · rfl
    · split <;> rfl

@[simp] theorem setReg_lanes (t : Team) (n : Nat) (r : VReg) : (t.setReg n r).lanes = t.lanes := by
  unfold Team.setReg
  split
  · rfl
  · split
    · rfl
    · split <;> rfl

theorem setReg_rest (t : Team) (n : Nat) (r : VReg) : { t.setReg n r with regs := t.regs } = t := by
  unfold Team.setReg
  split
  · rfl
  · split
    · rfl
    · split <;> rfl

theorem reg_kill (t : Team) (n k : Nat) : (t.kill n).reg k = if t.slane = false ∧ k = n then ⟨0, 0, .dead⟩ else t.reg k := by
  unfold Team.kill
  by_cases hs : t.slane = true
  · simp [hs]
  · have hs' : t.slane = false := by simpa using hs
    by_cases hk : k = n
    · subst hk
      simp [hs', reg_eq, mget_mdel]
    · simp [hs', hk, reg_eq, mget_mdel]

@[simp] theorem kill_slane (t : Team) (n : Nat) : (t.kill n).slane = t.slane := by
  unfold Team.kill
  split <;> rfl

@[simp] theorem kill_lanes (t : Team) (n : Nat) : (t.kill n).lanes = t.lanes := by
  unfold Team.kill
  split <;> rfl

theorem kill_rest (t : Team) (n : Nat) : { t.kill n with regs := t.regs, pend := t.pend } = t := by
  unfold Team.kill
  split <;> rfl

theorem killAll_slane (ns : List Nat) (t : Team) : (killAll ns t).slane = t.slane := by
  induction ns generalizing t with
  | nil => rfl
  | cons n ns ih => exact (ih (t.kill n)).trans (kill_slane t n)

theorem killAll_lanes (ns : List Nat) (t : Team) : (killAll ns t).lanes = t.lanes := by
  induction ns generalizing t with
  | nil => rfl
  | cons n ns ih => exact (ih (t.kill n)).trans (kill_lanes t n)

theorem killAll_rest (ns : List Nat) (t : Team) : { killAll ns t with regs := t.regs, pend := t.pend } = t := by
  induction ns generalizing t with
  | nil => rfl
  | cons n ns ih =>
    have h := ih (t.kill n)
    have k := kill_rest t n
    have e : killAll (n :: ns) t = killAll ns (t.kill n) := rfl
    rw [e]
    generalize killAll ns (t.kill n) = u at h ⊢
    generalize t.kill n = v at h k
    cases u
    cases v
    cases t
    simp only [Team.mk.injEq] at h k ⊢
    simp_all

/-- A register after DEAD marks (R234). -/
theorem reg_killAll (ns : List Nat) (t : Team) (k : Nat) :
    (killAll ns t).reg k = if t.slane = false ∧ k ∈ ns then ⟨0, 0, .dead⟩ else t.reg k := by
  induction ns generalizing t with
  | nil => simp [killAll]
  | cons n ns ih =>
    have e : killAll (n :: ns) t = killAll ns (t.kill n) := rfl
    rw [e, ih, kill_slane, reg_kill]
    by_cases hs : t.slane = false <;> by_cases hk : k ∈ ns <;> by_cases hn : k = n <;> simp [hs, hk, hn]

theorem compactOk_lanes (iss : Iss) (t u : Team) (h : u.lanes = t.lanes) : compactOk iss u = compactOk iss t := by
  simp [compactOk, Team.liveMask, Team.parkedMask, Team.lane, h]

/-- The value that a compact shape gives is the value the word computes, in every active lane. -/
def WantFits (fmt : Nat) (want : Want) (act : BitVec 32) (val : Nat → Word) : Prop :=
  match want with
  | .uniform => ∀ i, i < 32 → act.getLsbD i = true → val (lowest act) = val i
  | .affine b st => ∀ i, i < 32 → act.getLsbD i = true → payLane fmt (.affine b st) i = val i
  | .general => True

/-- The SHAPE that a result wants (Table 10.1). -/
def Want.shape : Want → Nat
  | .uniform => 1
  | .affine _ _ => 2
  | .general => 3

theorem writeReg_slane (iss : Iss) (t : Team) (n fmt link : Nat) (want : Want) (val : Nat → Word) :
    (writeReg iss t n fmt link want val).slane = t.slane := by
  unfold writeReg
  dsimp only
  split
  · rfl
  · exact setReg_slane ..

theorem writeReg_lanes (iss : Iss) (t : Team) (n fmt link : Nat) (want : Want) (val : Nat → Word) :
    (writeReg iss t n fmt link want val).lanes = t.lanes := by
  unfold writeReg
  dsimp only
  split
  · rfl
  · exact setReg_lanes ..

theorem writeReg_rest (iss : Iss) (t : Team) (n fmt link : Nat) (want : Want) (val : Nat → Word) :
    { writeReg iss t n fmt link want val with regs := t.regs } = t := by
  unfold writeReg
  dsimp only
  split
  · rfl
  · exact setReg_rest ..

theorem range_getD (f : Nat → Word) (i : Nat) (h : i < 32) : nth ((List.range 32).map f) 0 i = f i := by
  simp [nth, h]

theorem liveMask_getLsbD (f : Nat → Bool) : ∀ i, i < 32 → (maskOf f).getLsbD i = f i := by
  have hfold (n : Nat) (h : n ≤ 32) : (List.range n).foldl (fun acc i => if f i then acc + 2 ^ i else acc) 0 < 2 ^ n ∧
      ∀ i, i < n → ((List.range n).foldl (fun acc i => if f i then acc + 2 ^ i else acc) 0).testBit i = f i := by
    induction n with
    | zero => simp
    | succ n ih =>
      obtain ⟨h1, h2⟩ := ih (by omega)
      simp only [List.range_succ, List.foldl_append, List.foldl_cons, List.foldl_nil]
      generalize (List.range n).foldl (fun acc i => if f i then acc + 2 ^ i else acc) 0 = x at h1 h2 ⊢
      constructor
      · split <;> (rw [Nat.pow_succ]; omega)
      · intro i hi
        by_cases hn : i = n
        · subst hn
          split
          · rename_i hf
            rw [Nat.add_comm, Nat.testBit_two_pow_add_eq, Nat.testBit_lt_two_pow h1, hf]
            rfl
          · rename_i hf
            rw [Nat.testBit_lt_two_pow h1]
            simpa using hf
        · have hlt : i < n := by omega
          split
          · rw [Nat.add_comm, Nat.testBit_two_pow_add_gt hlt, h2 i hlt]
          · exact h2 i hlt
  intro i hi
  unfold maskOf
  rw [BitVec.getLsbD_ofNat]
  simp [hi, (hfold 32 (by omega)).2 i hi]

/-- Where a compact result may be written, every live fibre is active. -/
theorem compactOk_live {iss : Iss} {t : Team} (h : compactOk iss t = true) (i : Nat) (hi : i < 32) (hl : (t.lane i).live = true) :
    iss.act.getLsbD i = true := by
  unfold compactOk at h
  simp only [Bool.and_eq_true, beq_iff_eq] at h
  have hm : t.liveMask.getLsbD i = true := by
    unfold Team.liveMask
    rw [liveMask_getLsbD _ i hi, hl]
  have h0 := congrArg (fun x => x.getLsbD i) h.1
  simp only [BitVec.getLsbD_and, BitVec.getLsbD_not, hm, hi, decide_true, Bool.true_and] at h0
  simpa using h0

/-- What writing one result does, after DEAD marks (R42, R77, R78, R229, R234). -/
theorem writeReg_wrote {iss : Iss} {t : Team} {marks : List Nat} {n fmt link : Nat} {want : Want} {val : Nat → Word}
    (hm : marks = [] ∨ iss.act ≠ 0) (hw : compactOk iss t = true → WantFits fmt want iss.act val)
    (hs : t.slane = true → ∀ i, iss.act.getLsbD i = true → i = 0) (hs0 : t.slane = true → iss.act ≠ 0 → iss.act.getLsbD 0 = true)
    (hs1 : t.slane = true → ∀ i, i < 32 → (t.lane i).live = true → i = 0) :
    Wrote t (writeReg iss (killAll marks t) n fmt link want val) iss.act marks n fmt link
      (if compactOk iss t = true then want.shape else 3) val := by
  have hc := compactOk_lanes iss t (killAll marks t) (killAll_lanes marks t)
  by_cases ha : iss.act = 0
  · have hmk : marks = [] := by
      rcases hm with h | h
      · exact h
      · exact absurd ha h
    subst hmk
    have e : writeReg iss (killAll [] t) n fmt link want val = t := by
      unfold writeReg
      rw [if_pos ha]
      rfl
    rw [e]
    refine ⟨fun _ k => rfl, fun h => absurd ha h, ?_, ?_, fun _ i _ _ _ => rfl, ?_, fun k _ _ => rfl⟩
    · intro _ i _ hi
      rw [ha] at hi
      simp at hi
    · intro h1 _
      simp [Team.reg, h1, VReg.lane, payLane]
    · intro _ k _ hk
      simp at hk
  · -- the payload
    obtain ⟨pay, hp, hd, hsh, hv, hin⟩ : ∃ pay : Pay,
        writeReg iss (killAll marks t) n fmt link want val = (killAll marks t).setReg n ⟨fmt, link, pay⟩ ∧
        (⟨fmt, link, pay⟩ : VReg).isDead = false ∧
        (⟨fmt, link, pay⟩ : VReg).shape = (if compactOk iss t = true then want.shape else 3) ∧
        (∀ i, i < 32 → iss.act.getLsbD i = true → payLane fmt pay i = val i) ∧
        (∀ i, i < 32 → iss.act.getLsbD i = false → (t.lane i).live = true → payLane fmt pay i = ((killAll marks t).reg n).lane i) := by
      unfold writeReg
      simp only [ha, if_false]
      have hgen (i : Nat) (hi : i < 32) : payLane fmt (.general ((List.range 32).map (fun i =>
          if iss.act.getLsbD i then val i else ((killAll marks t).reg n).lane i))) i =
          if iss.act.getLsbD i then val i else ((killAll marks t).reg n).lane i := by
        simp only [payLane]
        exact range_getD _ i hi
      by_cases hco : compactOk iss t = true
      · have hb : (compactOk iss (killAll marks t) && iss.act != 0) = true := by
          rw [hc, hco]
          simpa using ha
        simp only [hb, if_true]
        have hno (i : Nat) (hi : i < 32) (h1 : iss.act.getLsbD i = false) (h2 : (t.lane i).live = true) : False := by
          have := compactOk_live hco i hi h2
          rw [h1] at this
          cases this
        have hw' := hw hco
        cases want with
        | uniform => exact ⟨_, rfl, rfl, by rw [if_pos hco]; rfl, fun i hi h => hw' i hi h, fun i hi h1 h2 => (hno i hi h1 h2).elim⟩
        | affine b st => exact ⟨_, rfl, rfl, by rw [if_pos hco]; rfl, fun i hi h => hw' i hi h, fun i hi h1 h2 => (hno i hi h1 h2).elim⟩
        | general =>
          refine ⟨_, rfl, rfl, by rw [if_pos hco]; rfl, fun i hi h => ?_, fun i hi h1 h2 => (hno i hi h1 h2).elim⟩
          rw [hgen i hi, if_pos h]
      · have hb : (compactOk iss (killAll marks t) && iss.act != 0) = false := by
          rw [hc]
          simp only [Bool.not_eq_true] at hco
          rw [hco]
          rfl
        simp only [hb, Bool.false_eq_true, if_false]
        refine ⟨_, rfl, rfl, by rw [if_neg hco]; rfl, fun i hi h => ?_, fun i hi h1 _ => ?_⟩
        · rw [hgen i hi, if_pos h]
        · rw [hgen i hi, h1]
          rfl
    rw [hp]
    have hsl := killAll_slane marks t
    refine ⟨fun h => absurd h ha, ?_, ?_, ?_, ?_, ?_, ?_⟩
    · intro _ hf
      rw [reg_setReg]
      simp [hsl, hf, hd, hsh]
    · intro h0 i hi hai
      rw [reg_setReg]
      by_cases hf : t.slane = true
      · have hi0 := hs hf i hai
        subst hi0
        simp [hsl, hf, h0 hf, VReg.lane]
        simpa [payLane] using hv 0 hi hai
      · simp [hsl, hf, hd, VReg.lane]
        exact hv i hi hai
    · intro hf hn
      subst hn
      rw [reg_setReg]
      simp [hsl, hf, VReg.lane, payLane]
    · intro hnm i hi hai hlive
      by_cases hf : t.slane = true
      · have h00 := hs1 hf i hi hlive
        subst h00
        rw [hs0 hf ha] at hai
        cases hai
      · rw [reg_setReg]
        simp only [ne_eq, not_true_eq_false, if_false, hsl, hf, hd, VReg.lane]
        have := hin i hi hai hlive
        rw [reg_killAll] at this
        simp only [hnm, and_false, if_false] at this
        exact this
    · intro hf k hk hmem
      rw [reg_setReg]
      simp [hk, reg_killAll, hf, hmem, VReg.isDead]
    · intro k hk hnm
      rw [reg_setReg]
      simp [hk, reg_killAll, hnm]

end Sys2Proof.Machine
end

