-- ==== Sys2Proof/Laws/Words.lean ====
section
/-! SUPPORT. A word that is ready and whose effect is one register, or only its team's predicates and flags: that it
completes, what it leaves, and that it keeps everything else. -/
namespace Sys2Proof.Machine

theorem activeOf_sub (v : Team) (lanes : BitVec 32) (r : Raw) (i : Nat) (h : (activeOf v lanes r).getLsbD i = true) :
    lanes.getLsbD i = true := by
  unfold activeOf at h
  cases hg : guardOf r with
  | mk g neg =>
    rw [hg] at h
    dsimp only at h
    split at h
    · split at h
      · simp at h
      · exact h
    · by_cases hi : i < 32
      · rw [liveMask_getLsbD _ i hi] at h
        simp only [Bool.and_eq_true] at h
        exact h.1
      · rw [BitVec.getLsbD_of_ge _ _ (by omega)] at h
        cases h

/-- The active lanes of a word are those of its team's guard (R24). -/
theorem iss_act (s : State) (p : Path) (r : Raw) : (p.iss s r).act = activeOf (p.view s r) p.lanes r := rfl

/-- Active lanes issue. -/
theorem act_sub {s : State} {p : Path} {r : Raw} {i : Nat} (h : (p.iss s r).act.getLsbD i = true) : p.lanes.getLsbD i = true :=
  activeOf_sub _ _ _ i h

theorem one_getLsbD (i : Nat) (h : (1 : BitVec 32).getLsbD i = true) : i = 0 := by
  by_cases hi : i < 32
  · revert h
    have : ∀ i : Fin 32, (1 : BitVec 32).getLsbD i.1 = true → i.1 = 0 := by decide
    exact this ⟨i, hi⟩
  · rw [BitVec.getLsbD_of_ge _ _ (by omega)] at h
    cases h

theorem asTeam_lane_succ (x : Core) (k : Ctx) (j : Nat) (h : j < 31) : (asTeam x k).lane (j + 1) = freeLane := by
  unfold Team.lane nth asTeam
  dsimp only
  rw [List.getElem?_cons_succ, List.getElem?_replicate, if_pos h]
  rfl

/-- The lanes of an S-lane context's path (R78). -/
theorem lane_facts {s : State} {p : Path} {r : Raw} (h : Ready s p r) (hs : p.team.slane = true) :
    (∀ i, (p.iss s r).act.getLsbD i = true → i = 0) ∧ ((p.iss s r).act ≠ 0 → (p.iss s r).act.getLsbD 0 = true) ∧
      (∀ i, i < 32 → (p.team.lane i).live = true → i = 0) ∧ laneForm p.team := by
  cases ha : p.agent with
  | team c slot =>
    have := (openPath_team h.path ha).2
    rw [hs] at this
    cases this
  | ctx c k =>
    obtain ⟨ht, hl⟩ := openPath_ctx h.path ha
    have hact : ∀ i, (p.iss s r).act.getLsbD i = true → i = 0 := by
      intro i hi
      rw [iss_act, hl] at hi
      exact one_getLsbD i (activeOf_sub _ _ _ i hi)
    refine ⟨hact, ?_, ?_, ?_⟩
    · intro hne
      by_cases h0 : (p.iss s r).act.getLsbD 0 = true
      · exact h0
      · exfalso
        apply hne
        apply BitVec.eq_of_getLsbD_eq
        intro i _
        by_cases hi : (p.iss s r).act.getLsbD i = true
        · have := hact i hi
          subst this
          exact absurd hi h0
        · simpa using hi
    · intro i hi hlive
      rw [ht] at hlive
      by_cases hz : i = 0
      · exact hz
      · obtain ⟨j, rfl⟩ : ∃ j, i = j + 1 := ⟨i - 1, by omega⟩
        rw [asTeam_lane_succ _ _ _ (by omega)] at hlive
        cases hlive
    · rw [ht]
      exact asTeam_laneForm _ _

theorem setReg_laneForm {t : Team} {n : Nat} {v : VReg} (h : t.slane = true → laneForm t) :
    (t.setReg n v).slane = true → laneForm (t.setReg n v) := by
  intro hs
  rw [setReg_slane] at hs
  have hf := h hs
  unfold Team.setReg
  simp only [hs, Bool.true_and, if_true]
  split
  · exact hf
  · intro e he
    rcases mem_mset he with rfl | he
    · rfl
    · exact hf e he

theorem killAll_laneForm {t : Team} {ns : List Nat} (h : t.slane = true → laneForm t) :
    (killAll ns t).slane = true → laneForm (killAll ns t) := by
  induction ns generalizing t with
  | nil => exact h
  | cons n ns ih =>
    apply ih (t := t.kill n)
    intro hs
    rw [kill_slane] at hs
    have hf := h hs
    unfold Team.kill
    rw [if_pos hs]
    exact hf

theorem writeReg_laneForm {iss : Iss} {t : Team} {n fmt link : Nat} {want : Want} {val : Nat → Word}
    (h : t.slane = true → laneForm t) :
    (writeReg iss t n fmt link want val).slane = true → laneForm (writeReg iss t n fmt link want val) := by
  unfold writeReg
  dsimp only
  split
  · exact h
  · exact setReg_laneForm h

theorem ready_one (t : Team) (h : readyOf t 1 ≠ 0) : (readyOf t 1).getLsbD 0 = true := by
  by_cases hr : (readyOf t 1).getLsbD 0 = true
  · exact hr
  · exfalso
    apply h
    apply BitVec.eq_of_getLsbD_eq
    intro j hj
    by_cases hj0 : j = 0
    · subst hj0
      simpa using hr
    · unfold readyOf
      rw [liveMask_getLsbD _ j hj]
      have : (1 : BitVec 32).getLsbD j = false := Bool.eq_false_iff.mpr (fun h1 => hj0 (one_getLsbD j h1))
      rw [this]; simp

/-- Every issuing fibre is live and neither parked nor waiting. -/
theorem openPath_live {s : State} {p : Path} (hp : openPath s = some p) (i : Nat) (hi : i < 32) (h : p.lanes.getLsbD i = true) :
    (p.team.lane i).live = true ∧ (p.team.lane i).parked = false ∧ (p.team.lane i).wait = none := by
  have key : ∀ (t : Team) (m : BitVec 32), (readyOf t m).getLsbD i = true →
      (t.lane i).live = true ∧ (t.lane i).parked = false ∧ (t.lane i).wait = none := by
    intro t m hm
    unfold readyOf at hm
    rw [liveMask_getLsbD _ i hi] at hm
    simp only [Bool.and_eq_true, Bool.not_eq_true'] at hm
    exact ⟨hm.1.1.2, hm.1.2, by simpa using hm.2⟩
  unfold openPath at hp
  split at hp
  · split at hp
    · split at hp
      · dsimp only at hp
        split at hp
        · cases hp
        · injection hp with hp
          subst hp
          exact key _ _ h
      · cases hp
    · cases hp
  · split at hp
    · dsimp only at hp
      split at hp
      · cases hp
      · rename_i hz
        injection hp with hp
        subst hp
        have h0 := one_getLsbD i h
        subst h0
        exact key _ 1 (ready_one _ (fun e => hz (.inl e)))
    · cases hp

theorem passedOf_getLsbD (p : Path) (res : Res) (h : res.traps = []) (i : Nat) (hi : i < 32) :
    (passedOf p res).getLsbD i = p.lanes.getLsbD i := by
  unfold passedOf
  rw [liveMask_getLsbD _ i hi, h]
  simp

/-- A fibre's record after a word that neither traps, moves nor waits. -/
theorem retiredTeam_pc {n : Nat} {p : Path} {iss : Iss} {r : Raw} {res : Res} (ht : res.traps = []) (hm : res.moves = [])
    (hw : res.wait = none) (i : Nat) (hi : i < 32) :
    ((retiredTeam n p iss r res).lane i).wait = (res.t.lane i).wait ∧
      (p.lanes.getLsbD i = false → (retiredTeam n p iss r res).lane i = res.t.lane i) ∧
      (p.lanes.getLsbD i = true → (res.t.lane i).live = true → ((retiredTeam n p iss r res).lane i).pc = iss.pc + 8) := by
  have e : (retiredTeam n p iss r res).lane i =
      (res.t.modLanes (passedOf p res) (retireLane iss (stallOf p.clause.header p.clause.idx) res)).lane i := rfl
  rw [e, lane_modLanes _ _ _ _ hi, passedOf_getLsbD p res ht i hi]
  by_cases hb : p.lanes.getLsbD i = true
  · rw [if_pos hb]
    refine ⟨?_, fun h => absurd h (by rw [hb]; decide), ?_⟩
    · unfold retireLane
      split
      · rfl
      · simp [hm, hw]
    · intro _ hl
      unfold retireLane
      simp [hl, hm, hw]
  · rw [if_neg hb]
    exact ⟨rfl, fun _ => rfl, fun h => absurd h hb⟩

theorem asTeam_done_lane (x : Core) (k : Ctx) (u : Team) (cl : Option Clause) :
    (asTeam ((ofTeam x k u).setCtx k { (ofTeam x k u).ctx k with clause := cl }) k).lane 0 = u.lane 0 := by
  cases k <;> rfl

/-- A ready word whose effect is confined to its team, and neither traps, moves nor waits, completes; what it leaves of the
team is what its effect left. -/
theorem word_went {s : State} {p : Path} {r : Raw} {body : State → Iss → Team → Team → Res} {u : Team} (h : Ready s p r)
    (hb : body s (p.iss s r) (p.view s r) (p.marked s r) = { s := s, t := u })
    (hl : ∀ i, i < 32 → (u.lane i).live = (p.team.lane i).live ∧ (u.lane i).parked = (p.team.lane i).parked ∧
      (u.lane i).wait = (p.team.lane i).wait)
    (ho : ∀ i, i < 32 → p.lanes.getLsbD i = false → u.lane i = p.team.lane i)
    (hr : { u with lanes := p.team.lanes, regs := p.team.regs, pend := p.team.pend, flags := p.team.flags, scale := p.team.scale } =
      p.team)
    (hf : u.slane = true → laneForm u) (hsc : u.slane = true → u.scale = p.team.scale) :
    ∃ t, runWord r body s = .next t ∧ Went s t p r ∧ (∀ k, (p.teamIn t).reg k = u.reg k) ∧
      (∀ i, i < 32 → ((p.teamIn t).lane i).pred = (u.lane i).pred) ∧ (p.teamIn t).flags = u.flags ∧
      (p.teamIn t).scale = u.scale := by
  have hsl : u.slane = p.team.slane := by rw [← hr]
  have hlive := openPath_live h.path
  refine ⟨_, runWord_ready h (by rw [hb]), ?_⟩
  rw [hb]
  have hk : Kept s (retire s p (p.iss s r) r { s := s, t := u }) p := retire_kept rfl rfl
  have hreg : ∀ k, (p.teamIn (retire s p (p.iss s r) r { s := s, t := u })).reg k = u.reg k :=
    fun k => teamIn_reg rfl hf hsl h.path k
  cases ha : p.agent with
  | team c slot =>
    have e := teamIn_teamDone p (p.iss s r) r (delayOf s p r (p.iss s r).clk) (passedOf p { s := s, t := u }) (max s.now (p.iss s r).clk) c slot
      (retiredTeam (delayOf s p r (p.iss s r).clk) p (p.iss s r) r { s := s, t := u })
      { s with now := max s.now (p.iss s r).clk, tick := s.tick + 1 } ha
    have hret := retire_team (s := s) (p := p) (r := r) (res := { s := s, t := u }) ha rfl
    rw [hret] at hk hreg ⊢
    rw [e] at hreg ⊢
    refine ⟨⟨hk, ?_, ?_, ?_, ?_, ?_⟩, hreg, ?_, rfl, rfl⟩
    all_goals (try rw [e])
    · intro i hi hb'
      exact (retiredTeam_pc rfl rfl rfl i hi).2.2 hb' (by rw [(hl i hi).1]; exact (hlive i hi hb').1)
    · intro i hi hb'
      exact ((retiredTeam_pc rfl rfl rfl i hi).2.1 hb').trans (ho i hi hb')
    · intro i hi
      have h1 := retiredTeam_lane s.tick p (p.iss s r) r { s := s, t := u } i hi
      have h2 := hl i hi
      exact ⟨h1.2.1.trans h2.1, h1.2.2.trans h2.2.1, (retiredTeam_pc rfl rfl rfl i hi).1.trans h2.2.2⟩
    · generalize p.team = q at hr ⊢
      cases u; cases q
      simp only [Team.mk.injEq] at hr
      simp only [retiredTeam, Team.modLanes, Team.mk.injEq]
      simp_all
    · refine (retiredTeam_region ..).trans ?_
      have := congrArg Team.region hr
      exact congrArg (Option.map Region.blank) this
    · intro i hi
      exact (retiredTeam_lane s.tick p (p.iss s r) r { s := s, t := u } i hi).1
  | ctx c k =>
    obtain ⟨hteam, hones⟩ := openPath_ctx h.path ha
    have hslt : u.slane = true := by rw [hsl, hteam]; rfl
    have e := teamIn_ctxDone p (p.iss s r) (max s.now (p.iss s r).clk) c k
      (retiredTeam (delayOf s p r (p.iss s r).clk) p (p.iss s r) r { s := s, t := u })
      { s with now := max s.now (p.iss s r).clk, tick := s.tick + 1 } ha
    have hret := retire_ctx (s := s) (p := p) (r := r) (res := { s := s, t := u }) ha rfl
    rw [hret] at hk hreg ⊢
    rw [e] at hreg ⊢
    have succ : ∀ i, i < 32 → i ≠ 0 → ∀ x : Core, (asTeam x k).lane i = freeLane := by
      intro i hi h0 x
      obtain ⟨j, rfl⟩ : ∃ j, i = j + 1 := ⟨i - 1, by omega⟩
      exact asTeam_lane_succ x k j (by omega)
    have usucc : ∀ i, i < 32 → i ≠ 0 → u.lane i = freeLane := by
      intro i hi h0
      rw [ho i hi (by rw [hones]; exact Bool.eq_false_iff.mpr (fun hc => h0 (one_getLsbD i hc))), hteam, succ i hi h0]
    refine ⟨⟨hk, ?_, ?_, ?_, ?_, ?_⟩, hreg, ?_, ?_, ?_⟩
    all_goals (try rw [e])
    · intro i hi hb'
      have h0 := one_getLsbD i (by rw [← hones]; exact hb')
      subst h0
      rw [asTeam_done_lane]
      exact (retiredTeam_pc rfl rfl rfl 0 hi).2.2 hb' (by rw [(hl 0 hi).1]; exact (hlive 0 hi hb').1)
    · intro i hi hb'
      have h0 : i ≠ 0 := by
        rintro rfl
        rw [hones] at hb'
        revert hb'
        decide
      rw [succ i hi h0, hteam, succ i hi h0]
    · intro i hi
      by_cases h0 : i = 0
      · subst h0
        rw [asTeam_done_lane]
        have h1 := retiredTeam_lane s.tick p (p.iss s r) r { s := s, t := u } 0 hi
        have h2 := hl 0 hi
        exact ⟨h1.2.1.trans h2.1, h1.2.2.trans h2.2.1, (retiredTeam_pc rfl rfl rfl 0 hi).1.trans h2.2.2⟩
      · rw [succ i hi h0, hteam, succ i hi h0]
        exact ⟨rfl, rfl, rfl⟩
    · have e2 : u.estat = p.team.estat := by rw [← hr]
      rw [hteam] at e2 ⊢
      have key : ∀ (x : Core) (u : Team), u.estat = (x.ctx k).estat →
          { asTeam ((ofTeam x k u).setCtx k { (ofTeam x k u).ctx k with clause := advance p.clause 1 }) k with
            lanes := (asTeam x k).lanes, regs := (asTeam x k).regs, pend := (asTeam x k).pend,
            flags := (asTeam x k).flags, scale := (asTeam x k).scale, region := (asTeam x k).region } = asTeam x k := by
        intro x u h2
        cases k <;> simp only [asTeam, ofTeam, Core.setCtx, Core.ctx] at * <;> rw [h2]
      exact key (s.core c) (retiredTeam (delayOf s p r (p.iss s r).clk) p (p.iss s r) r { s := s, t := u }) e2
    · rw [hteam]
      cases k <;> rfl
    · intro i hi
      by_cases h0 : i = 0
      · subst h0
        rw [asTeam_done_lane]
        exact (retiredTeam_lane s.tick p (p.iss s r) r { s := s, t := u } 0 hi).1
      · rw [succ i hi h0, usucc i hi h0]
    · cases k <;> rfl
    · rw [hsc hslt, hteam]
      cases k <;> rfl

end Sys2Proof.Machine
end

