-- ==== Sys2Proof/Laws/Results.lean ====
section
/-! SUPPORT. Words with one result: a ready word whose effect is one register, with the sticky flags its lanes raise, or one
predicate, completes with it and changes nothing else. -/
namespace Sys2Proof.Machine

/-! ### Flags and predicates -/

theorem orFlags_go (l : List Nat) (a k : Nat) :
    (l.foldl (fun a b => a ||| b) a).testBit k = (a.testBit k || l.any (fun x => x.testBit k)) := by
  induction l generalizing a with
  | nil => simp
  | cons x l ih => simp [ih, Nat.testBit_or, Bool.or_assoc]

theorem orFlags_testBit (l : List Nat) (k : Nat) : (orFlags l).testBit k = l.any (fun x => x.testBit k) := by
  simp [orFlags, orFlags_go]

@[simp] theorem setFlags_slane (t : Team) (f : Nat) : (t.setFlags f).slane = t.slane := rfl
@[simp] theorem setFlags_lanes (t : Team) (f : Nat) : (t.setFlags f).lanes = t.lanes := rfl
@[simp] theorem setFlags_regs (t : Team) (f : Nat) : (t.setFlags f).regs = t.regs := rfl
@[simp] theorem setFlags_scale (t : Team) (f : Nat) : (t.setFlags f).scale = t.scale := rfl
theorem setFlags_zero (t : Team) : t.setFlags 0 = t := by simp [Team.setFlags]

theorem setFlags_get (t : Team) (m : BitVec 32) (fl : Nat → Nat) (k : Nat) (hk : k < 7) :
    (t.setFlags (orFlags ((lanesOf m).map fl))).flags.getLsbD k =
      (t.flags.getLsbD k || (lanesOf m).any (fun i => (fl i).testBit k)) := by
  unfold Team.setFlags
  rw [BitVec.getLsbD_or, BitVec.getLsbD_ofNat, orFlags_testBit, List.any_map]
  simp only [hk, decide_true, Bool.true_and]
  rfl

theorem setFlags_reg (t : Team) (f k : Nat) : (t.setFlags f).reg k = t.reg k := rfl

theorem killAll_flags (ns : List Nat) (t : Team) : (killAll ns t).flags = t.flags := by
  have h := congrArg Team.flags (killAll_rest ns t)
  exact h

theorem killAll_scale (ns : List Nat) (t : Team) : (killAll ns t).scale = t.scale := by
  have h := congrArg Team.scale (killAll_rest ns t)
  exact h

theorem writeReg_flags (iss : Iss) (t : Team) (n fmt link : Nat) (want : Want) (val : Nat → Word) :
    (writeReg iss t n fmt link want val).flags = t.flags := by
  have h := congrArg Team.flags (writeReg_rest iss t n fmt link want val)
  exact h

theorem writeReg_scale (iss : Iss) (t : Team) (n fmt link : Nat) (want : Want) (val : Nat → Word) :
    (writeReg iss t n fmt link want val).scale = t.scale := by
  have h := congrArg Team.scale (writeReg_rest iss t n fmt link want val)
  exact h

theorem lane_congr {t u : Team} (h : u.lanes = t.lanes) (i : Nat) : u.lane i = t.lane i := by
  simp [Team.lane, h]

/-- A predicate after a predicate write (R42). -/
theorem writePred_pred (t : Team) (m : BitVec 32) (p : Nat) (val : Nat → Bool) (i : Nat) (hi : i < 32) (k : Nat) (hk : k < 16) :
    ((writePred t m p val).lane i).pred.getLsbD k =
      if m.getLsbD i = true ∧ k = p ∧ p ≠ 0 then val i else (t.lane i).pred.getLsbD k := by
  unfold writePred
  by_cases hp : p = 0
  · simp [hp]
  · rw [if_neg hp, lane_modLanes _ _ _ _ hi]
    by_cases hm : m.getLsbD i = true
    · rw [if_pos hm]
      dsimp only
      by_cases hkp : k = p
      · subst hkp
        by_cases hv : val i = true <;> simp [hv, hm, hp, hk]
      · by_cases hv : val i = true <;> simp [hv, hm, hkp, hk]
    · rw [if_neg hm]
      simp [hm]

theorem writePred_lane (t : Team) (m : BitVec 32) (p : Nat) (val : Nat → Bool) (i : Nat) (hi : i < 32) :
    ((writePred t m p val).lane i).live = (t.lane i).live ∧ ((writePred t m p val).lane i).parked = (t.lane i).parked ∧
      ((writePred t m p val).lane i).wait = (t.lane i).wait ∧
      (m.getLsbD i = false → (writePred t m p val).lane i = t.lane i) := by
  unfold writePred
  split
  · exact ⟨rfl, rfl, rfl, fun _ => rfl⟩
  · rw [lane_modLanes _ _ _ _ hi]
    split
    · rename_i h
      exact ⟨rfl, rfl, rfl, fun h' => absurd h (by rw [h']; decide)⟩
    · exact ⟨rfl, rfl, rfl, fun _ => rfl⟩

theorem writePred_rest (t : Team) (m : BitVec 32) (p : Nat) (val : Nat → Bool) :
    { writePred t m p val with lanes := t.lanes } = t := by
  unfold writePred
  split <;> rfl

theorem writePred_reg (t : Team) (m : BitVec 32) (p : Nat) (val : Nat → Bool) (k : Nat) :
    (writePred t m p val).reg k = t.reg k := by
  unfold writePred
  split <;> rfl

/-! ### The team as a ready word's effect finds it -/

theorem undo_slane (p : Pend) (v : Team) : (p.undo v).slane = v.slane := by
  unfold Pend.undo
  split
  · dsimp only
    split <;> rfl
  · exact (congrArg Team.slane (writePred_rest v p.wrote _ _) : _)
  · rfl
  · rfl
  · rfl

theorem staleView_slane (t : Team) (m : BitVec 32) (clk : Nat) : (staleView t m clk).slane = t.slane := by
  unfold staleView
  generalize inFlight clk t.pend = l
  induction l with
  | nil => rfl
  | cons x l ih =>
    rw [List.foldr_cons]
    split
    · exact (undo_slane x _).trans ih
    · exact ih

theorem view_slane (s : State) (p : Path) (r : Raw) : (p.view s r).slane = p.team.slane := staleView_slane ..

theorem marked_lanes (s : State) (p : Path) (r : Raw) : (p.marked s r).lanes = p.team.lanes := killAll_lanes _ _

theorem marked_slane (s : State) (p : Path) (r : Raw) : (p.marked s r).slane = p.team.slane := killAll_slane _ _

theorem marked_laneForm {s : State} {p : Path} {r : Raw} (h : Ready s p r) :
    (p.marked s r).slane = true → laneForm (p.marked s r) :=
  killAll_laneForm (fun hs => (lane_facts h hs).2.2.2)

theorem marked_reg (s : State) (p : Path) (r : Raw) (k : Nat) :
    (p.marked s r).reg k = if p.team.slane = false ∧ k ∈ p.dead s r then ⟨0, 0, .dead⟩ else p.team.reg k := reg_killAll _ _ _

theorem dead_marks (s : State) (p : Path) (r : Raw) : p.dead s r = [] ∨ (p.iss s r).act ≠ 0 := by
  by_cases h : (p.iss s r).act = 0
  · left
    simp [Path.dead, marksOf, h]
  · exact .inr h

/-- A ready word whose effect leaves a team with the marked one's fibres, predicates apart. -/
theorem word_after {s : State} {p : Path} {r : Raw} {body : State → Iss → Team → Team → Res} {u : Team} {pn : Nat}
    {pv : Nat → Bool} {fl : Nat → Nat} (h : Ready s p r)
    (hb : body s (p.iss s r) (p.view s r) (p.marked s r) = { s := s, t := u })
    (hlanes : u.lanes = (writePred (p.marked s r) (p.iss s r).act pn pv).lanes)
    (hflags : u.flags = ((p.marked s r).setFlags (orFlags ((lanesOf (p.iss s r).act).map fl))).flags)
    (hscale : u.scale = p.team.scale)
    (hr : { u with lanes := p.team.lanes, regs := p.team.regs, pend := p.team.pend, flags := p.team.flags, scale := p.team.scale } =
      p.team)
    (hf : u.slane = true → laneForm u) :
    ∃ t, runWord r body s = .next t ∧ After s t p r pn pv fl ∧ ∀ k, (p.teamIn t).reg k = u.reg k := by
  have hlane : ∀ i, u.lane i = (writePred (p.marked s r) (p.iss s r).act pn pv).lane i := lane_congr hlanes
  have hm : ∀ i, (p.marked s r).lane i = p.team.lane i := lane_congr (marked_lanes s p r)
  obtain ⟨t, h1, h2, h3, h4, h5, h6⟩ := word_went (u := u) h hb
    (fun i hi => by
      have hw := writePred_lane (p.marked s r) (p.iss s r).act pn pv i hi
      rw [hlane, ← hm]
      exact ⟨hw.1, hw.2.1, hw.2.2.1⟩)
    (fun i hi hb' => by
      have ha : (p.iss s r).act.getLsbD i = false := Bool.eq_false_iff.mpr (fun hc => by
        have := act_sub hc
        rw [hb'] at this
        cases this)
      rw [hlane, (writePred_lane _ _ _ _ i hi).2.2.2 ha, hm])
    hr hf (fun _ => hscale)
  refine ⟨t, h1, ⟨h2, ?_, ?_, ?_⟩, h3⟩
  · intro i hi k hk
    rw [h4 i hi, hlane, writePred_pred _ _ _ _ i hi k hk, hm]
  · intro k hk
    rw [h5, hflags, setFlags_get _ _ _ k hk]
    unfold Path.marked
    rw [killAll_flags]
  · intro k
    unfold Team.scaleReg
    rw [h6, hscale]

/-- Where a result of a team may be compact (R77). -/
theorem path_shape {p : Path} (s : State) (r : Raw) (h : p.team.slane = false) (x : Nat) :
    p.shape s r x = if compactOk (p.iss s r) p.team = true then x else 3 := by
  unfold Path.shape compactOk
  simp [h]

/-- A ready word whose effect is one register result and one predicate. -/
theorem word_both {i : Instr} {s : State} {p : Path} {r : Raw} {body : State → Iss → Team → Team → Res} {n fmt link pn : Nat}
    {want : Want} {val : Nat → Word} {pv : Nat → Bool} {fl : Nat → Nat} (hi : exec i s = runWord r body s) (h : Ready s p r)
    (hb : body s (p.iss s r) (p.view s r) (p.marked s r) =
      { s := s, t := (writePred (writeReg (p.iss s r) (p.marked s r) n fmt link want val) (p.iss s r).act pn pv).setFlags
          (orFlags ((lanesOf (p.iss s r).act).map fl)) })
    (hw : compactOk (p.iss s r) p.team = true → WantFits fmt want (p.iss s r).act val) :
    ∃ t, exec i s = .next t ∧ After s t p r pn pv fl ∧
      Wrote p.team (p.teamIn t) (p.iss s r).act (p.dead s r) n fmt link (p.shape s r want.shape) val := by
  have hw0 := writeReg_rest (p.iss s r) (p.marked s r) n fmt link want val
  have hk0 : { p.marked s r with regs := p.team.regs, pend := p.team.pend } = p.team := killAll_rest _ _
  have hx := writeReg_lanes (p.iss s r) (p.marked s r) n fmt link want val
  have hp0 := writePred_rest (writeReg (p.iss s r) (p.marked s r) n fmt link want val) (p.iss s r).act pn pv
  have hfl : (writePred (writeReg (p.iss s r) (p.marked s r) n fmt link want val) (p.iss s r).act pn pv).flags =
      (p.marked s r).flags := by
    have h := congrArg Team.flags hp0
    exact Eq.trans h (writeReg_flags _ _ _ _ _ _ _)
  have hscl : (writePred (writeReg (p.iss s r) (p.marked s r) n fmt link want val) (p.iss s r).act pn pv).scale =
      (p.marked s r).scale := by
    have h := congrArg Team.scale hp0
    exact Eq.trans h (writeReg_scale _ _ _ _ _ _ _)
  have hregs : (writePred (writeReg (p.iss s r) (p.marked s r) n fmt link want val) (p.iss s r).act pn pv).regs =
      (writeReg (p.iss s r) (p.marked s r) n fmt link want val).regs := by
    have h := congrArg Team.regs hp0
    exact h
  have hsl : (writePred (writeReg (p.iss s r) (p.marked s r) n fmt link want val) (p.iss s r).act pn pv).slane =
      (writeReg (p.iss s r) (p.marked s r) n fmt link want val).slane := by
    have h := congrArg Team.slane hp0
    exact h
  obtain ⟨t, h1, h2, h3⟩ := word_after (pn := pn) (pv := pv) (fl := fl) h hb
    (by rw [setFlags_lanes]
        unfold writePred
        split
        · exact hx
        · simp only [Team.modLanes, lane_congr hx])
    (by simp only [Team.setFlags, hfl])
    (by rw [setFlags_scale, hscl]; exact killAll_scale _ _)
    (by
      generalize writePred (writeReg (p.iss s r) (p.marked s r) n fmt link want val) (p.iss s r).act pn pv = y at hp0 ⊢
      generalize writeReg (p.iss s r) (p.marked s r) n fmt link want val = x at hw0 hp0
      generalize p.marked s r = m at hw0 hk0
      generalize p.team = q at hk0 ⊢
      cases y; cases x; cases m; cases q
      simp only [Team.mk.injEq, Team.setFlags] at hw0 hk0 hp0 ⊢
      simp_all)
    (fun hs => by
      have hm := writeReg_laneForm (iss := p.iss s r) (n := n) (fmt := fmt) (link := link) (want := want) (val := val)
        (marked_laneForm h) (by rw [← hsl]; exact hs)
      intro e he
      rw [setFlags_regs, hregs] at he
      exact hm e he)
  refine ⟨t, hi.trans h1, h2, ?_⟩
  have hwr := writeReg_wrote (iss := p.iss s r) (t := p.team) (marks := p.dead s r) (n := n) (fmt := fmt) (link := link)
    (want := want) (val := val) (dead_marks s p r) hw (fun hs => (lane_facts h hs).1) (fun hs => (lane_facts h hs).2.1)
    (fun hs => (lane_facts h hs).2.2.1)
  have hreg : ∀ k, (p.teamIn t).reg k = (writeReg (p.iss s r) (killAll (p.dead s r) p.team) n fmt link want val).reg k :=
    fun k => (h3 k).trans (writePred_reg _ _ _ _ k)
  constructor
  · intro ha k
    rw [hreg]
    exact hwr.idle ha k
  · intro ha hs
    rw [hreg, path_shape s r hs]
    exact hwr.tag ha hs
  · intro h0 j hj ha
    rw [hreg]
    exact hwr.active h0 j hj ha
  · intro hs hn
    rw [hreg]
    exact hwr.zero hs hn
  · intro hn j hj ha hl
    rw [hreg]
    exact hwr.inactive hn j hj ha hl
  · intro hs k hk hm
    rw [hreg]
    exact hwr.dead hs k hk hm
  · intro k hk hm
    rw [hreg]
    exact hwr.others k hk hm

/-- A ready word whose effect is one register result. -/
theorem word_gives {i : Instr} {s : State} {p : Path} {r : Raw} {body : State → Iss → Team → Team → Res} {n fmt link : Nat}
    {want : Want} {val : Nat → Word} {fl : Nat → Nat} (hi : exec i s = runWord r body s) (h : Ready s p r)
    (hb : body s (p.iss s r) (p.view s r) (p.marked s r) =
      { s := s, t := (writeReg (p.iss s r) (p.marked s r) n fmt link want val).setFlags
          (orFlags ((lanesOf (p.iss s r).act).map fl)) })
    (hw : compactOk (p.iss s r) p.team = true → WantFits fmt want (p.iss s r).act val) :
    Gives i s p r n fmt link (p.shape s r want.shape) val fl :=
  word_both (pn := 0) (pv := fun _ => false) hi h (by rw [hb]; rfl) hw

theorem noFlags_none (m : BitVec 32) : orFlags ((lanesOf m).map noFlags) = 0 := by
  have hz : ∀ l : List Nat, orFlags (l.map noFlags) = 0 := by
    intro l
    unfold orFlags noFlags
    induction l with
    | nil => rfl
    | cons a l ih => simpa using ih
  exact hz _

/-- The same where no flag is raised. -/
theorem word_gives_plain {i : Instr} {s : State} {p : Path} {r : Raw} {body : State → Iss → Team → Team → Res} {n fmt link : Nat}
    {want : Want} {val : Nat → Word} (hi : exec i s = runWord r body s) (h : Ready s p r)
    (hb : body s (p.iss s r) (p.view s r) (p.marked s r) =
      { s := s, t := writeReg (p.iss s r) (p.marked s r) n fmt link want val })
    (hw : compactOk (p.iss s r) p.team = true → WantFits fmt want (p.iss s r).act val) :
    Gives i s p r n fmt link (p.shape s r want.shape) val noFlags := by
  refine word_gives hi h ?_ hw
  rw [hb]
  rw [noFlags_none, setFlags_zero]

/-- A ready word whose effect is one predicate. -/
theorem word_tests {i : Instr} {s : State} {p : Path} {r : Raw} {body : State → Iss → Team → Team → Res} {n : Nat}
    {val : Nat → Bool} {fl : Nat → Nat} (hi : exec i s = runWord r body s) (h : Ready s p r)
    (hb : body s (p.iss s r) (p.view s r) (p.marked s r) =
      { s := s, t := (writePred (p.marked s r) (p.iss s r).act n val).setFlags (orFlags ((lanesOf (p.iss s r).act).map fl)) }) :
    Tests i s p r n val fl := by
  have hw0 := writePred_rest (p.marked s r) (p.iss s r).act n val
  have hk0 : { p.marked s r with regs := p.team.regs, pend := p.team.pend } = p.team := killAll_rest _ _
  have hfl : (writePred (p.marked s r) (p.iss s r).act n val).flags = (p.marked s r).flags := by
    have h := congrArg Team.flags hw0
    exact h
  have hscl : (writePred (p.marked s r) (p.iss s r).act n val).scale = (p.marked s r).scale := by
    have h := congrArg Team.scale hw0
    exact h
  have hregs : (writePred (p.marked s r) (p.iss s r).act n val).regs = (p.marked s r).regs := by
    have h := congrArg Team.regs hw0
    exact h
  have hsl : (writePred (p.marked s r) (p.iss s r).act n val).slane = (p.marked s r).slane := by
    have h := congrArg Team.slane hw0
    exact h
  obtain ⟨t, h1, h2, h3⟩ := word_after (pn := n) (pv := val) (fl := fl) h hb rfl
    (by simp only [Team.setFlags, hfl])
    (by rw [setFlags_scale, hscl]; exact killAll_scale _ _)
    (by
      generalize writePred (p.marked s r) (p.iss s r).act n val = x at hw0 ⊢
      generalize p.marked s r = m at hw0 hk0
      generalize p.team = q at hk0 ⊢
      cases x; cases m; cases q
      simp only [Team.mk.injEq, Team.setFlags] at hw0 hk0 ⊢
      simp_all)
    (fun hs => by
      have hs' : (p.marked s r).slane = true := by rw [← hsl]; exact hs
      have hm := marked_laneForm h hs'
      intro e he
      rw [setFlags_regs, hregs] at he
      exact hm e he)
  refine ⟨t, hi.trans h1, h2, ?_⟩
  have hreg : ∀ k, (p.teamIn t).reg k = (p.marked s r).reg k := fun k => (h3 k).trans (writePred_reg _ _ _ _ k)
  constructor
  · intro hs k hk
    rw [hreg, marked_reg]
    simp [hs, hk, VReg.isDead]
  · intro k hk
    rw [hreg, marked_reg]
    simp [hk]

end Sys2Proof.Machine
end

