-- ==== Sys2Proof/Laws/Elements.lean ====
section
/-! SUPPORT. Sub-elements of a lane: reading back what a lane was built from, and when a compact shape fits. -/
namespace Sys2Proof.Machine

theorem pack_go (w : Nat) (xs : List Nat) :
    (xs.reverse.foldl (fun acc x => acc * 2 ^ w + x % 2 ^ w) 0 < 2 ^ (w * xs.length)) ∧
      ∀ j, j < xs.length → (xs.reverse.foldl (fun acc x => acc * 2 ^ w + x % 2 ^ w) 0) / 2 ^ (w * j) % 2 ^ w = xs.getD j 0 % 2 ^ w := by
  induction xs with
  | nil => simp
  | cons x xs ih =>
    obtain ⟨h1, h2⟩ := ih
    simp only [List.reverse_cons, List.foldl_append, List.foldl_cons, List.foldl_nil, List.length_cons]
    generalize List.foldl (fun acc x => acc * 2 ^ w + x % 2 ^ w) 0 xs.reverse = y at h1 h2 ⊢
    have hp : 0 < 2 ^ w := Nat.two_pow_pos w
    have hx : x % 2 ^ w < 2 ^ w := Nat.mod_lt _ hp
    constructor
    · rw [Nat.mul_add, Nat.mul_one, Nat.pow_add]
      calc y * 2 ^ w + x % 2 ^ w < y * 2 ^ w + 2 ^ w := by omega
        _ = (y + 1) * 2 ^ w := by rw [Nat.add_mul, Nat.one_mul]
        _ ≤ 2 ^ (w * xs.length) * 2 ^ w := Nat.mul_le_mul_right _ h1
    · intro j hj
      cases j with
      | zero =>
        simp only [Nat.mul_zero, Nat.pow_zero, Nat.div_one, List.getD_cons_zero]
        rw [Nat.mul_comm, Nat.mul_add_mod, Nat.mod_mod]
      | succ j =>
        have hd : (y * 2 ^ w + x % 2 ^ w) / 2 ^ w = y := by
          rw [Nat.mul_comm, Nat.mul_add_div hp, Nat.div_eq_of_lt hx, Nat.add_zero]
        rw [Nat.mul_add, Nat.mul_one, Nat.add_comm (w * j), Nat.pow_add, ← Nat.div_div_eq_div_mul, hd, List.getD_cons_succ]
        exact h2 j (by omega)

/-- A sub-element of a lane built from its sub-elements (R32). -/
theorem sub_ofSubs (w : Nat) (xs : List Nat) (j : Nat) (hj : j < xs.length) (hw : w * xs.length ≤ 64) :
    sub (ofSubs w xs) w j = xs.getD j 0 % 2 ^ w := by
  obtain ⟨h1, h2⟩ := pack_go w xs
  unfold sub ofSubs
  rw [BitVec.toNat_ofNat, Nat.shiftRight_eq_div_pow, Nat.mod_eq_of_lt (Nat.lt_of_lt_of_le h1 (Nat.pow_le_pow_right (by decide) hw))]
  exact h2 j hj

theorem mul_div_le' (w : Nat) : w * (64 / w) ≤ 64 := Nat.mul_div_le 64 w

theorem sub_map1 (w : Nat) (f : Nat → Nat) (a : Word) (j : Nat) (hj : j < 64 / w) : sub (map1 w f a) w j = f (sub a w j) % 2 ^ w := by
  unfold map1
  rw [sub_ofSubs w _ j (by simpa using hj) (by simpa using mul_div_le' w)]
  simp [hj]

theorem sub_map2 (w : Nat) (f : Nat → Nat → Nat) (a b : Word) (j : Nat) (hj : j < 64 / w) :
    sub (map2 w f a b) w j = f (sub a w j) (sub b w j) % 2 ^ w := by
  unfold map2
  rw [sub_ofSubs w _ j (by simpa using hj) (by simpa using mul_div_le' w)]
  simp [hj]

theorem sub_map3 (w : Nat) (f : Nat → Nat → Nat → Nat) (a b c : Word) (j : Nat) (hj : j < 64 / w) :
    sub (map3 w f a b c) w j = f (sub a w j) (sub b w j) (sub c w j) % 2 ^ w := by
  unfold map3
  rw [sub_ofSubs w _ j (by simpa using hj) (by simpa using mul_div_le' w)]
  simp [hj]

theorem sub_replicate (w x j : Nat) (hj : j < 64 / w) : sub (ofSubs w (List.replicate (64 / w) x)) w j = x % 2 ^ w := by
  rw [sub_ofSubs w _ j (by simpa using hj) (by simpa using mul_div_le' w)]
  simp [hj]

theorem wrap_lt (x : Int) (n : Nat) : wrap x n < 2 ^ n := by
  unfold wrap
  have h : (0 : Int) < 2 ^ n := by exact_mod_cast Nat.two_pow_pos n
  have h1 := Int.emod_nonneg x (Int.ne_of_gt h)
  have h2 := Int.emod_lt_of_pos x h
  have h3 : ((x % 2 ^ n).toNat : Int) < ((2 ^ n : Nat) : Int) := by
    rw [Int.toNat_of_nonneg h1]
    push_cast
    exact h2
  exact_mod_cast h3

theorem wrap_mod (x : Int) (n : Nat) : wrap x n % 2 ^ n = wrap x n := Nat.mod_eq_of_lt (wrap_lt x n)

/-! ### Shapes -/

/-- A uniform register has one value in every lane. -/
theorem uniform_lane {r : VReg} (h : r.isUniform = true) (i : Nat) : r.lane i = r.lane 0 := by
  cases r with
  | mk fmt link pay => cases pay <;> simp_all [VReg.isUniform, VReg.lane, payLane]

/-- A shape that `fitWant` keeps fits, where a uniform result is one value. -/
theorem fitWant_fits {fmt : Nat} {want : Want} {act : BitVec 32} {val : Nat → Word}
    (h : want = .uniform → ∀ i, val i = val 0) : WantFits fmt (fitWant fmt want val) act val := by
  cases want with
  | uniform =>
    intro i _ _
    rw [h rfl i]
    exact h rfl _
  | general => exact True.intro
  | affine b st =>
    unfold fitWant
    dsimp only
    split
    · rename_i hc
      simp only [Bool.and_eq_true, List.all_eq_true, List.mem_range, beq_iff_eq] at hc
      exact fun i hi _ => hc.2 i hi
    · exact True.intro

theorem uniWant_uniform {v : Team} {rs : List Nat} (h : uniWant v rs = .uniform) : allUniform v rs = true := by
  unfold uniWant at h
  split at h
  · rename_i hc
    simp only [Bool.and_eq_true] at hc
    exact hc.2
  · cases h

theorem addWant_uniform {v : Team} {w : RW} {d sat : Bool} (h : addWant v w d sat = .uniform) : allUniform v (abRegs w) = true := by
  unfold addWant at h
  split at h
  · cases h
  · split at h
    · assumption
    · split at h
      · cases h
      · split at h <;> cases h

theorem mulWant_uniform {v : Team} {w : RW} {sh sat : Bool} (h : mulWant v w sh sat = .uniform) : allUniform v (abRegs w) = true := by
  unfold mulWant at h
  split at h
  · cases h
  · split at h
    · assumption
    · split at h
      · cases h
      · split at h <;> cases h

theorem allUniform_lane {v : Team} {rs : List Nat} (h : allUniform v rs = true) {n : Nat} (hn : n ∈ rs) (i : Nat) :
    (v.reg n).lane i = (v.reg n).lane 0 :=
  uniform_lane (List.all_eq_true.mp h n hn) i

theorem bLane_uniform {v : Team} {w : RW} {sh : Bool} (h : allUniform v (abRegs w) = true) (i : Nat) :
    bLane v w sh i = bLane v w sh 0 := by
  unfold bLane
  split
  · rfl
  · rename_i hb
    exact allUniform_lane h (by simp [abRegs, hb]) i

theorem aLane_uniform {v : Team} {w : RW} (h : allUniform v (abRegs w) = true) (i : Nat) :
    (v.reg w.va.toNat).lane i = (v.reg w.va.toNat).lane 0 :=
  allUniform_lane h (by unfold abRegs; split <;> simp) i

theorem fits_line {fmt : Nat} {b st : Word} {val : Nat → Word} :
    (fitWant fmt (.affine b st) val).shape = if fitsLine fmt (b, st) val = true then 2 else 3 := by
  unfold fitWant fitsLine affineFmt
  dsimp only
  have e : (fmt == 5 || fmt == 6 || fmt == 7 || fmt == 8 || fmt == 21) = [5, 6, 7, 8, 21].contains fmt := by
    simp [List.contains, List.elem, Bool.or_assoc]
    cases fmt == 5 <;> cases fmt == 6 <;> cases fmt == 7 <;> cases fmt == 8 <;> cases fmt == 21 <;> rfl
  rw [e]
  split <;> rfl

/-- A team's result takes the SHAPE of its row; the S-lane has none (R78). -/
theorem shape_congr {p : Path} {s : State} {r : Raw} {x y : Nat} (h : p.team.slane = false → x = y) : p.shape s r x = p.shape s r y := by
  unfold Path.shape
  by_cases hs : p.team.slane = false
  · rw [h hs]
  · simp [hs]

/-- The SHAPE of a result that is uniform where every register source is (Table 03.2, R103). -/
theorem uniWant_shape (p : Path) (s : State) (r : Raw) (rs : List Nat) (fmt : Nat) (val : Nat → Word) :
    p.shape s r (fitWant fmt (uniWant (p.view s r) rs) val).shape = p.uniform s r rs := by
  unfold Path.uniform
  refine shape_congr fun hs => ?_
  unfold uniWant Path.allUniform allUniform
  rw [show (p.view s r).slane = p.team.slane from view_slane s p r, hs]
  cases (rs.all fun n => ((p.view s r).reg n).isUniform) <;> rfl

/-- The SHAPE of a sum or difference (Table 03.2). -/
theorem addWant_shape (p : Path) (s : State) (r : Raw) (w : RW) (d : Bool) (fmt : Nat) (val : Nat → Word) :
    p.shape s r (fitWant fmt (addWant (p.view s r) w d (bitOf w.md 9)) val).shape =
      p.rowShape s r w (abRegs w) (sumRow d) fmt val := by
  unfold Path.rowShape sumRow
  dsimp only
  refine shape_congr fun hs => ?_
  unfold addWant
  rw [show (p.view s r).slane = p.team.slane from view_slane s p r, hs]
  simp only [Bool.false_eq_true, if_false]
  change (fitWant fmt (if allUniform (p.view s r) (abRegs w) = true then Want.uniform else _) val).shape =
    if allUniform (p.view s r) (abRegs w) = true then 1 else _
  by_cases hu : allUniform (p.view s r) (abRegs w) = true
  · rw [if_pos hu, if_pos hu]; rfl
  · rw [if_neg hu, if_neg hu]
    cases lineOf ((p.view s r).reg w.va.toNat) with
    | none => cases bitOf w.md 9 <;> rfl
    | some x =>
      cases bLine (p.view s r) w false with
      | none => cases bitOf w.md 9 <;> rfl
      | some y =>
        cases bitOf w.md 9 with
        | true => rfl
        | false => exact fits_line

/-- The SHAPE of a product or a shift to the left (Table 03.2). -/
theorem mulWant_shape (p : Path) (s : State) (r : Raw) (w : RW) (sh : Bool) (fmt : Nat) (val : Nat → Word) :
    p.shape s r (fitWant fmt (mulWant (p.view s r) w sh (bitOf w.md 9)) val).shape =
      p.rowShape s r w (abRegs w) (productRow sh) fmt val := by
  unfold Path.rowShape productRow
  dsimp only
  refine shape_congr fun hs => ?_
  unfold mulWant
  rw [show (p.view s r).slane = p.team.slane from view_slane s p r, hs]
  simp only [Bool.false_eq_true, if_false]
  change (fitWant fmt (if allUniform (p.view s r) (abRegs w) = true then Want.uniform else _) val).shape =
    if allUniform (p.view s r) (abRegs w) = true then 1 else _
  by_cases hu : allUniform (p.view s r) (abRegs w) = true
  · rw [if_pos hu, if_pos hu]; rfl
  · rw [if_neg hu, if_neg hu]
    cases lineOf ((p.view s r).reg w.va.toNat) with
    | none => split <;> rfl
    | some x =>
      cases bLine (p.view s r) w sh with
      | none => split <;> rfl
      | some y =>
        cases bitOf w.md 9 <;> cases bitOf w.md 10 <;> cases ((p.view s r).reg w.vb.toNat).isUniform <;>
          first | rfl | exact fits_line

/-- A two-source element-wise word completes with the lane function of its operands. -/
theorem binBody_gives {i : Instr} {s : State} {p : Path} {r : Raw} {w : RW} {free links shift : Bool} {rt : Nat → Nat}
    {want : Team → Want} {f : Word → Word → Word} (hi : exec i s = runWord r (binBody w free links shift rt want f) s)
    (h : Ready s p r) (ht : typeOk (p.view s r) (abRegs w) w.ty.toNat free = true)
    (hl : links = true → linksNone (p.view s r) (abRegs w) = true)
    (hw : want (p.view s r) = .uniform → allUniform (p.view s r) (abRegs w) = true) :
    Gives i s p r w.vd.toNat (rt (resultFmt (p.view s r) (abRegs w) w.ty.toNat)) 0
      (p.shape s r (fitWant (rt (resultFmt (p.view s r) (abRegs w) w.ty.toNat)) (want (p.view s r))
        (fun k => f ((p.view s r).reg w.va.toNat |>.lane k) (bLane (p.view s r) w shift k))).shape)
      (fun k => f ((p.view s r).reg w.va.toNat |>.lane k) (bLane (p.view s r) w shift k)) noFlags := by
  refine word_gives_plain (want := fitWant (rt (resultFmt (p.view s r) (abRegs w) w.ty.toNat)) (want (p.view s r))
    (fun k => f ((p.view s r).reg w.va.toNat |>.lane k) (bLane (p.view s r) w shift k))) hi h ?_ ?_
  · unfold binBody
    dsimp only
    rw [if_neg]
    · rfl
    · rw [ht]
      cases links
      · simp
      · simp [hl rfl]
  · intro _
    apply fitWant_fits
    intro hu k
    have ha := hw hu
    rw [aLane_uniform ha k, bLane_uniform ha k]

/-- A three-source element-wise word completes with the lane function of its operands. -/
theorem terBody_gives {i : Instr} {s : State} {p : Path} {r : Raw} {w : RW} {free links : Bool}
    {f : Word → Word → Word → Word} (hi : exec i s = runWord r (terBody w free links f) s)
    (h : Ready s p r) (ht : typeOk (p.view s r) (abRegs w ++ [w.vc.toNat]) w.ty.toNat free = true)
    (hl : links = true → linksNone (p.view s r) (abRegs w ++ [w.vc.toNat]) = true) :
    Gives i s p r w.vd.toNat w.ty.toNat 0 (p.uniform s r (abRegs w ++ [w.vc.toNat]))
      (fun k => f ((p.view s r).reg w.va.toNat |>.lane k) (bLane (p.view s r) w false k) ((p.view s r).reg w.vc.toNat |>.lane k))
      noFlags := by
  rw [← uniWant_shape p s r (abRegs w ++ [w.vc.toNat]) w.ty.toNat
    (fun k => f ((p.view s r).reg w.va.toNat |>.lane k) (bLane (p.view s r) w false k) ((p.view s r).reg w.vc.toNat |>.lane k))]
  refine word_gives_plain (want := fitWant w.ty.toNat (uniWant (p.view s r) (abRegs w ++ [w.vc.toNat]))
    (fun k => f ((p.view s r).reg w.va.toNat |>.lane k) (bLane (p.view s r) w false k) ((p.view s r).reg w.vc.toNat |>.lane k)))
    hi h ?_ ?_
  · unfold terBody
    dsimp only
    rw [if_neg]
    · rfl
    · rw [ht]
      cases links
      · simp
      · simp [hl rfl]
  · intro _
    apply fitWant_fits
    intro hu k
    have ha := uniWant_uniform hu
    have hab : allUniform (p.view s r) (abRegs w) = true := by
      unfold allUniform at ha ⊢
      rw [List.all_append, Bool.and_eq_true] at ha
      exact ha.1
    rw [aLane_uniform hab k, bLane_uniform hab k, allUniform_lane ha (n := w.vc.toNat) (by simp) k]

end Sys2Proof.Machine
end

