-- ==== Sys2Proof/Laws/Whole.lean ====
section
/-! SUPPORT. Words over a whole team: a ready word whose effect is whole registers, sticky flags and a scale register
completes with them. -/
namespace Sys2Proof.Machine

theorem mset_lookup (t : Team) (x : Nat) (v : BitVec 128) (k : Nat) :
    (t.setScale x v).scaleReg k = if k = x then v else t.scaleReg k := by
  simp [Team.setScale, Team.scaleReg, mget_mset]

theorem writeAll_reg {t : Team} (h : t.slane = false) (n fmt link : Nat) (val : Nat → Word) (k : Nat) :
    (writeAll t n fmt link val).reg k = if k = n then ⟨fmt, link, .general ((List.range 32).map val)⟩ else t.reg k := by
  unfold writeAll
  rw [reg_setReg]
  by_cases hk : k = n <;> simp [hk, h, VReg.isDead]

@[simp] theorem writeAll_slane (t : Team) (n fmt link : Nat) (val : Nat → Word) : (writeAll t n fmt link val).slane = t.slane :=
  setReg_slane ..

@[simp] theorem writeAll_lanes (t : Team) (n fmt link : Nat) (val : Nat → Word) : (writeAll t n fmt link val).lanes = t.lanes :=
  setReg_lanes ..

theorem writeAll_rest (t : Team) (n fmt link : Nat) (val : Nat → Word) : { writeAll t n fmt link val with regs := t.regs } = t :=
  setReg_rest ..

/-- A team with registers written whole, from the first of a list to its last. -/
def writeList (t : Team) (outs : List (Nat × Nat × Nat × (Nat → Word))) : Team :=
  outs.foldl (fun t o => writeAll t o.1 o.2.1 o.2.2.1 o.2.2.2) t

theorem writeList_keeps (outs : List (Nat × Nat × Nat × (Nat → Word))) (t : Team) :
    (writeList t outs).slane = t.slane ∧ (writeList t outs).lanes = t.lanes ∧ { writeList t outs with regs := t.regs } = t := by
  induction outs generalizing t with
  | nil => exact ⟨rfl, rfl, rfl⟩
  | cons o outs ih =>
    obtain ⟨h1, h2, h3⟩ := ih (writeAll t o.1 o.2.1 o.2.2.1 o.2.2.2)
    have h4 := writeAll_rest t o.1 o.2.1 o.2.2.1 o.2.2.2
    refine ⟨h1.trans (writeAll_slane ..), h2.trans (writeAll_lanes ..), ?_⟩
    change { writeList (writeAll t o.1 o.2.1 o.2.2.1 o.2.2.2) outs with regs := t.regs } = t
    generalize writeList (writeAll t o.1 o.2.1 o.2.2.1 o.2.2.2) outs = x at h3 ⊢
    generalize writeAll t o.1 o.2.1 o.2.2.1 o.2.2.2 = y at h3 h4
    cases x; cases y; cases t
    simp only [Team.mk.injEq] at h3 h4 ⊢
    simp_all

theorem writeList_other (outs : List (Nat × Nat × Nat × (Nat → Word))) (t : Team) (hs : t.slane = false) (k : Nat)
    (h : ∀ o ∈ outs, o.1 ≠ k) : (writeList t outs).reg k = t.reg k := by
  induction outs generalizing t with
  | nil => rfl
  | cons o outs ih =>
    have := ih (writeAll t o.1 o.2.1 o.2.2.1 o.2.2.2) (by rw [writeAll_slane]; exact hs) (fun q hq => h q (List.mem_cons_of_mem _ hq))
    refine this.trans ?_
    rw [writeAll_reg hs, if_neg (Ne.symm (h o List.mem_cons_self))]

theorem writeList_out (outs : List (Nat × Nat × Nat × (Nat → Word))) (t : Team) (hs : t.slane = false)
    (hd : (outs.map (·.1)).Nodup) (o : Nat × Nat × Nat × (Nat → Word)) (ho : o ∈ outs) :
    (writeList t outs).reg o.1 = ⟨o.2.1, o.2.2.1, .general ((List.range 32).map o.2.2.2)⟩ := by
  induction outs generalizing t with
  | nil => cases ho
  | cons q outs ih =>
    rw [List.map_cons, List.nodup_cons] at hd
    rcases List.mem_cons.mp ho with rfl | ho
    · change (writeList (writeAll t o.1 o.2.1 o.2.2.1 o.2.2.2) outs).reg o.1 = _
      rw [writeList_other outs _ (by rw [writeAll_slane]; exact hs) o.1
        (fun r hr e => hd.1 (e ▸ List.mem_map_of_mem hr)), writeAll_reg hs, if_pos rfl]
    · exact ih (writeAll t q.1 q.2.1 q.2.2.1 q.2.2.2) (by rw [writeAll_slane]; exact hs) hd.2 ho

/-- The team after a word over whole blocks. -/
def wholeTo (t : Team) (outs : List (Nat × Nat × Nat × (Nat → Word))) (fl : Nat) (sc : Option (Nat × BitVec 128)) : Team :=
  (match sc with
    | some (x, v) => (writeList t outs).setScale x v
    | none => writeList t outs).setFlags fl

/-- General results, with their SHAPE. -/
def withShape (outs : List (Nat × Nat × Nat × (Nat → Word))) : List (Nat × Nat × Nat × Nat × (Nat → Word)) :=
  outs.map (fun o => (o.1, o.2.1, o.2.2.1, 3, o.2.2.2))

/-- A ready team word whose effect is whole registers, flags and at most one scale register completes with them, each of
general shape. -/
theorem word_whole {i : Instr} {s : State} {p : Path} {r : Raw} {body : State → Iss → Team → Team → Res}
    {outs : List (Nat × Nat × Nat × (Nat → Word))} {fl : Nat} {sc : Option (Nat × BitVec 128)}
    (hi : exec i s = runWord r body s) (h : Ready s p r) (hsl : p.team.slane = false) (hd : (outs.map (·.1)).Nodup)
    (hb : body s (p.iss s r) (p.view s r) (p.marked s r) = { s := s, t := wholeTo (p.marked s r) outs fl sc }) :
    GivesWhole i s p r (withShape outs) fl sc := by
  have hms : (p.marked s r).slane = false := (marked_slane s p r).trans hsl
  obtain ⟨k1, k2, k3⟩ := writeList_keeps outs (p.marked s r)
  have hk0 : { p.marked s r with regs := p.team.regs, pend := p.team.pend } = p.team := killAll_rest _ _
  have hlanes : (wholeTo (p.marked s r) outs fl sc).lanes = p.team.lanes := by
    refine Eq.trans ?_ (k2.trans (marked_lanes s p r))
    unfold wholeTo
    cases sc <;> rfl
  have hreg : ∀ k, (wholeTo (p.marked s r) outs fl sc).reg k = (writeList (p.marked s r) outs).reg k := by
    intro k
    unfold wholeTo
    cases sc <;> rfl
  have hsl2 : (wholeTo (p.marked s r) outs fl sc).slane = false := by
    refine Eq.trans ?_ (k1.trans hms)
    unfold wholeTo
    cases sc <;> rfl
  have hscale : ∀ k, (wholeTo (p.marked s r) outs fl sc).scaleReg k = scaleAfter p.team sc k := by
    intro k
    have e : (writeList (p.marked s r) outs).scale = p.team.scale := by
      have h1 := congrArg Team.scale k3
      exact Eq.trans h1 (killAll_scale _ _)
    unfold wholeTo scaleAfter
    cases sc with
    | none => simp [Team.setFlags, Team.scaleReg, e]
    | some q => simp [Team.setFlags, Team.scaleReg, Team.setScale, e, mget_mset]
  have hflags : ∀ k, k < 7 → (wholeTo (p.marked s r) outs fl sc).flags.getLsbD k = (p.team.flags.getLsbD k || fl.testBit k) := by
    intro k hk
    have e : (writeList (p.marked s r) outs).flags = p.team.flags := by
      have h1 := congrArg Team.flags k3
      exact Eq.trans h1 (killAll_flags _ _)
    have e2 : (wholeTo (p.marked s r) outs fl sc).flags = p.team.flags ||| BitVec.ofNat 7 fl := by
      unfold wholeTo
      cases sc <;> simp [Team.setFlags, Team.setScale, e]
    rw [e2, BitVec.getLsbD_or, BitVec.getLsbD_ofNat]
    simp [hk]
  have hrest : { wholeTo (p.marked s r) outs fl sc with lanes := p.team.lanes, regs := p.team.regs, pend := p.team.pend, flags := p.team.flags, scale := p.team.scale } =
      p.team := by
    have e : { wholeTo (p.marked s r) outs fl sc with lanes := p.team.lanes, regs := p.team.regs, pend := p.team.pend, flags := p.team.flags, scale := p.team.scale } =
          { writeList (p.marked s r) outs with lanes := p.team.lanes, regs := p.team.regs, pend := p.team.pend, flags := p.team.flags, scale := p.team.scale } := by
      unfold wholeTo
      cases sc <;> rfl
    rw [e]
    generalize writeList (p.marked s r) outs = x at k3 ⊢
    generalize p.marked s r = m at k3 hk0
    generalize p.team = q at hk0 ⊢
    cases x; cases m; cases q
    simp only [Team.mk.injEq] at k3 hk0 ⊢
    simp_all
  have hlane : ∀ j, (wholeTo (p.marked s r) outs fl sc).lane j = p.team.lane j := lane_congr hlanes
  obtain ⟨t, h1, h2, h3, h4, h5, h6⟩ := word_went h hb (fun j _ => by rw [hlane]; exact ⟨rfl, rfl, rfl⟩)
    (fun j _ _ => hlane j) hrest (fun hc => by rw [hsl2] at hc; cases hc) (fun hc => by rw [hsl2] at hc; cases hc)
  refine ⟨t, hi.trans h1, ⟨h2, ?_, ?_, ?_⟩, ?_, ?_, ?_⟩
  · intro j hj
    rw [h4 j hj, hlane]
  · intro k hk
    rw [h5]
    exact hflags k hk
  · intro k
    have : (p.teamIn t).scaleReg k = (wholeTo (p.marked s r) outs fl sc).scaleReg k := by
      unfold Team.scaleReg
      rw [h6]
    rw [this]
    exact hscale k
  · intro o ho
    obtain ⟨q, hq, rfl⟩ := List.mem_map.mp ho
    rw [h3, hreg, writeList_out outs _ hms hd q hq]
    exact ⟨rfl, rfl, rfl, rfl, fun j hj => range_getD _ j hj⟩
  · intro k hk hno
    replace hno : ∀ o ∈ outs, o.1 ≠ k := fun o ho => hno (o.1, o.2.1, o.2.2.1, 3, o.2.2.2) (List.mem_map.mpr ⟨o, ho, rfl⟩)
    rw [h3, hreg, writeList_other outs _ hms k hno, marked_reg]
    simp [hsl, hk, VReg.isDead]
  · intro k hk hno
    replace hno : ∀ o ∈ outs, o.1 ≠ k := fun o ho => hno (o.1, o.2.1, o.2.2.1, 3, o.2.2.2) (List.mem_map.mpr ⟨o, ho, rfl⟩)
    rw [h3, hreg, writeList_other outs _ hms k hno, marked_reg]
    simp [hk]

end Sys2Proof.Machine
end

