-- ==== Sys2Proof/Laws/Moves.lean ====
section
/-! SUPPORT. Words that move fibres or make them wait: what a ready word leaves whose effect neither traps nor reaches
beyond its team, but may transfer fibres, let its path wait, or write a register. -/
namespace Sys2Proof.Machine

/-- Retirement without traps keeps everything beside the path's team as the effect left it. -/
theorem retire_kept_res {s : State} {p : Path} {r : Raw} {res : Res} (ht : res.traps = []) :
    Kept res.s (retire s p (p.iss s r) r res) p := by
  cases ha : p.agent with
  | team c slot =>
    rw [retire_team ha ht]
    refine ⟨?_, ?_, ?_, ?_⟩
    · intro m a
      cases m <;> rfl
    · rfl
    · intro d hd
      rw [ha] at hd
      simp only [agentCore] at hd
      rw [core_modCore, if_neg hd]
      rfl
    · rw [ha]
      simp only [agentCore, core_modCore_self, teamDone_blank]
      rfl
  | ctx c k =>
    rw [retire_ctx ha ht]
    refine ⟨?_, ?_, ?_, ?_⟩
    · intro m a
      cases m <;> rfl
    · rfl
    · intro d hd
      rw [ha] at hd
      simp only [agentCore] at hd
      rw [core_modCore, if_neg hd]
      rfl
    · rw [ha]
      simp only [agentCore, core_modCore_self, ctxDone_blank]
      rfl

/-- Everything a ready word leaves that has no traps: beside its team, the state of its effect; of its team, its effect's,
with each passing fibre moved on. -/
theorem word_runs {s : State} {p : Path} {r : Raw} {body : State → Iss → Team → Team → Res} {res : Res} (h : Ready s p r)
    (hb : body s (p.iss s r) (p.view s r) (p.marked s r) = res) (ht : res.traps = [])
    (hf : res.t.slane = true → laneForm res.t) (hsl : res.t.slane = p.team.slane)
    (ho : ∀ i, i < 32 → p.lanes.getLsbD i = false → res.t.lane i = p.team.lane i)
    (hc : ∀ c k, p.agent = .ctx c k → { asTeam (res.s.core c) k with lanes := res.t.lanes, regs := res.t.regs, pend := res.t.pend, flags := res.t.flags, estat := res.t.estat, code := res.t.code } =
      res.t) :
    ∃ t, runWord r body s = .next t ∧ Kept res.s t p ∧ (∀ k, (p.teamIn t).reg k = res.t.reg k) ∧
      (∀ i, i < 32 → (p.teamIn t).lane i = (retiredTeam (delayOf s p r (p.iss s r).clk) p (p.iss s r) r res).lane i) ∧
      { p.teamIn t with lanes := res.t.lanes, regs := res.t.regs, pend := res.t.pend, code := res.t.code, region := res.t.region } = res.t ∧
      (p.teamIn t).region.map Region.blank = res.t.region.map Region.blank ∧
      (p.team.slane = false → (p.teamIn t).code = res.t.code) := by
  refine ⟨_, runWord_ready h (by rw [hb]; exact ht), ?_⟩
  rw [hb]
  have hk : Kept res.s (retire s p (p.iss s r) r res) p := retire_kept_res ht
  have hreg : ∀ k, (p.teamIn (retire s p (p.iss s r) r res)).reg k = res.t.reg k :=
    fun k => teamIn_reg ht hf hsl h.path k
  refine ⟨hk, hreg, ?_⟩
  cases ha : p.agent with
  | team c slot =>
    rw [retire_team ha ht, teamIn_teamDone _ _ _ _ _ _ _ _ _ _ ha]
    exact ⟨fun _ _ => rfl, rfl, retiredTeam_region .., fun _ => rfl⟩
  | ctx c k =>
    obtain ⟨hteam, hones⟩ := openPath_ctx h.path ha
    have hc' := hc c k ha
    rw [retire_ctx ha ht, teamIn_ctxDone _ _ _ _ _ _ _ ha]
    refine ⟨?_, ?_, ?_, fun hz => by rw [hteam] at hz; cases hz⟩
    · intro i hi
      by_cases h0 : i = 0
      · subst h0
        rw [asTeam_done_lane]
      · have hb' : p.lanes.getLsbD i = false := by
          rw [hones]
          exact Bool.eq_false_iff.mpr (fun hx => h0 (one_getLsbD i hx))
        obtain ⟨j, rfl⟩ : ∃ j, i = j + 1 := ⟨i - 1, by omega⟩
        have e : ∀ x : Core, (asTeam x k).lane (j + 1) = freeLane := fun x => asTeam_lane_succ x k j (by omega)
        have e2 : (retiredTeam (delayOf s p r (p.iss s r).clk) p (p.iss s r) r res).lane (j + 1) = res.t.lane (j + 1) := by
          have e3 : (retiredTeam (delayOf s p r (p.iss s r).clk) p (p.iss s r) r res).lane (j + 1) =
            (res.t.modLanes (passedOf p res) (retireLane (p.iss s r) (stallOf p.clause.header p.clause.idx) res)).lane (j + 1) := rfl
          rw [e3, lane_modLanes _ _ _ _ hi, passedOf_getLsbD p res ht _ hi, hb']
          rfl
        rw [e, e2, ho _ hi hb', hteam, e]
    · have key : ∀ (x : Core) (u v : Team), u.flags = v.flags → u.estat = v.estat →
          { asTeam x k with lanes := v.lanes, regs := v.regs, pend := v.pend, flags := v.flags, estat := v.estat, code := v.code } = v →
          { asTeam ((ofTeam x k u).setCtx k { (ofTeam x k u).ctx k with clause := advance p.clause 1 }) k with lanes := v.lanes, regs := v.regs, pend := v.pend, code := v.code, region := v.region } =
            v := by
        intro x u v h1 h2 h3
        rw [← h3]
        cases k <;> simp only [asTeam, ofTeam, Core.setCtx, Core.ctx] at * <;> rw [h1, h2]
      exact key (res.s.core c) (retiredTeam (delayOf s p r (p.iss s r).clk) p (p.iss s r) r res) res.t rfl rfl hc'
    · have e := congrArg Team.region hc'
      have e' : res.t.region = none := by
        rw [← e]
        cases k <;> rfl
      rw [e']
      cases k <;> rfl

/-- What a passing fibre's record becomes. -/
theorem retired_lane {s : State} {p : Path} {r : Raw} {res : Res} (ht : res.traps = []) (i : Nat) (hi : i < 32) :
    (retiredTeam (delayOf s p r (p.iss s r).clk) p (p.iss s r) r res).lane i =
      if p.lanes.getLsbD i = true then retireLane (p.iss s r) (stallOf p.clause.header p.clause.idx) res i (res.t.lane i)
      else res.t.lane i := by
  have e : (retiredTeam (delayOf s p r (p.iss s r).clk) p (p.iss s r) r res).lane i =
      (res.t.modLanes (passedOf p res) (retireLane (p.iss s r) (stallOf p.clause.header p.clause.idx) res)).lane i := rfl
  rw [e, lane_modLanes _ _ _ _ hi, passedOf_getLsbD p res ht i hi]

theorem marked_rest (s : State) (p : Path) (r : Raw) : { p.marked s r with regs := p.team.regs, pend := p.team.pend } = p.team :=
  killAll_rest _ _

theorem marked_lane (s : State) (p : Path) (r : Raw) (i : Nat) : (p.marked s r).lane i = p.team.lane i :=
  lane_congr (marked_lanes s p r) i

/-- A ready word that lets its fibres move to `dest` or wait, and of its team changes what `u` says, completes. -/
theorem word_sent {s b : State} {p : Path} {r : Raw} {body : State → Iss → Team → Team → Res} {moves : List (Nat × Nat)}
    {wait : Option Wait} {dest : Nat → Nat} {u want : Team} (h : Ready s p r)
    (hb : body s (p.iss s r) (p.view s r) (p.marked s r) = { s := b, t := u, wait := wait, moves := moves })
    (hl : u.lanes = p.team.lanes) (hw : { u with lanes := want.lanes, regs := want.regs, pend := want.pend } = want)
    (hsl : u.slane = p.team.slane) (hf : u.slane = true → laneForm u)
    (hto : ∀ i, i < 32 → p.lanes.getLsbD i = true →
      dest i = match moves.find? (fun m => m.1 == i) with
        | some m => m.2
        | none => if wait.isSome then (p.iss s r).pc else (p.iss s r).pc + 8)
    (hmw : moves = [] ∨ wait = none)
    (hbase : ∀ c k, p.agent = .ctx c k → { asTeam (b.core c) k with lanes := want.lanes, regs := want.regs, pend := want.pend, flags := want.flags, estat := want.estat, code := want.code } =
      want) :
    ∃ t, runWord r body s = .next t ∧ Sent b t p want dest wait ∧ ∀ k, (p.teamIn t).reg k = u.reg k := by
  have hlive := openPath_live h.path
  have hul : ∀ i, u.lane i = p.team.lane i := lane_congr hl
  obtain ⟨t, h1, h2, h3, h4, h5, h7, h6⟩ := word_runs h hb rfl hf hsl
    (fun i _ _ => hul i)
    (fun c k ha => by
      have hb' := hbase c k ha
      dsimp only
      generalize asTeam (b.core c) k = y at hb' ⊢
      cases y; cases u; cases want
      simp only [Team.mk.injEq] at hw hb' ⊢
      simp_all)
  dsimp only at h2 h3 h4 h5 h6 h7
  have hlane : ∀ i, i < 32 → (p.teamIn t).lane i =
      if p.lanes.getLsbD i = true then
        retireLane (p.iss s r) (stallOf p.clause.header p.clause.idx) { s := b, t := u, wait := wait, moves := moves } i
          (p.team.lane i)
      else p.team.lane i := by
    intro i hi
    rw [h4 i hi, retired_lane rfl i hi]
    dsimp only
    rw [hul]
  refine ⟨t, h1, ⟨h2, ?_, ?_, ?_, ?_, ?_⟩, h3⟩
  · intro i hi hl
    obtain ⟨l1, l2, l3⟩ := hlive i hi hl
    rw [hlane i hi, if_pos hl, hto i hi hl]
    unfold retireLane
    rw [l1]
    dsimp only [Bool.not_true]
    rw [if_neg (by decide)]
    cases hf : moves.find? (fun m => m.1 == i) with
    | some m =>
      rcases hmw with rfl | rfl
      · cases hf
      · exact ⟨rfl, l3, rfl, rfl, l2⟩
    | none =>
      cases wait with
      | none => exact ⟨rfl, l3, rfl, rfl, l2⟩
      | some x =>
        refine ⟨rfl, ?_, rfl, rfl, l2⟩
        dsimp only
        rw [l3]
        rfl
  · intro i hi hl
    rw [hlane i hi, hl]
    rfl
  · generalize p.teamIn t = y at h5 ⊢
    cases y; cases u; cases want
    simp only [Team.mk.injEq] at hw h5 ⊢
    simp_all
  · have e := congrArg Team.region hw
    exact h7.trans (congrArg (Option.map Region.blank) e)
  · intro hz
    refine (h6 hz).trans ?_
    have := congrArg Team.code hw
    exact this

/-- The same for a word that changes no register of its own. -/
theorem word_sent_kept {s b : State} {p : Path} {r : Raw} {body : State → Iss → Team → Team → Res} {moves : List (Nat × Nat)}
    {wait : Option Wait} {dest : Nat → Nat} (h : Ready s p r)
    (hb : body s (p.iss s r) (p.view s r) (p.marked s r) = { s := b, t := p.marked s r, wait := wait, moves := moves })
    (hto : ∀ i, i < 32 → p.lanes.getLsbD i = true →
      dest i = match moves.find? (fun m => m.1 == i) with
        | some m => m.2
        | none => if wait.isSome then (p.iss s r).pc else (p.iss s r).pc + 8)
    (hmw : moves = [] ∨ wait = none)
    (hbase : ∀ c k, p.agent = .ctx c k → { asTeam (b.core c) k with code := p.team.code } = p.team) :
    ∃ t, runWord r body s = .next t ∧ Sent b t p p.team dest wait ∧ RegsKept p.team (p.teamIn t) (p.dead s r) := by
  have hm0 := marked_rest s p r
  obtain ⟨t, h1, h2, h3⟩ := word_sent (want := p.team) h hb (marked_lanes s p r)
    (by
      generalize p.marked s r = m at hm0
      generalize p.team = q at hm0 ⊢
      cases m; cases q
      simp only [Team.mk.injEq] at hm0 ⊢
      simp_all)
    (marked_slane s p r) (fun hs => marked_laneForm h hs) hto hmw
    (fun c k ha => by
      have hb' := hbase c k ha
      generalize asTeam (b.core c) k = y at hb' ⊢
      generalize p.team = q at hb' ⊢
      cases y; cases q
      simp only [Team.mk.injEq] at hb' ⊢
      simp_all)
  refine ⟨t, h1, h2, ?_, ?_⟩
  · intro hs k hk
    rw [h3, marked_reg]
    simp [hs, hk, VReg.isDead]
  · intro k hk
    rw [h3, marked_reg]
    simp [hk]

/-- A ready word that does nothing but move on. -/
theorem word_passes {i : Instr} {s : State} {p : Path} {r : Raw} {body : State → Iss → Team → Team → Res}
    (hi : exec i s = runWord r body s) (h : Ready s p r)
    (hb : body s (p.iss s r) (p.view s r) (p.marked s r) = { s := s, t := p.marked s r }) : Passes i s p r := by
  obtain ⟨t, h1, h2, h3⟩ := word_sent_kept (moves := []) (wait := none) (dest := fun _ => (p.iss s r).pc + 8) h hb (fun _ _ _ => rfl)
    (.inl rfl) (fun c k ha => by rw [← (openPath_ctx h.path ha).1])
  exact ⟨t, hi.trans h1, h2, h3⟩

/-- A ready word that does nothing but make its path wait. -/
theorem word_holds {i : Instr} {s : State} {p : Path} {r : Raw} {body : State → Iss → Team → Team → Res} {x : Wait}
    (hi : exec i s = runWord r body s) (h : Ready s p r)
    (hb : body s (p.iss s r) (p.view s r) (p.marked s r) = { s := s, t := p.marked s r, wait := some x }) : Holds i s p r x := by
  obtain ⟨t, h1, h2, h3⟩ := word_sent_kept (moves := []) (wait := some x) (dest := fun _ => (p.iss s r).pc) h hb (fun _ _ _ => rfl)
    (.inl rfl) (fun c k ha => by rw [← (openPath_ctx h.path ha).1])
  exact ⟨t, hi.trans h1, h2, h3⟩

/-- A transfer whose every target passes its checks. -/
theorem transfer_all {s : State} {iss : Iss} {t : Team} {targets : List (Nat × Int)}
    (hc : ∀ x ∈ targets, targetCode s iss.core t.asid (targetSrc s iss.agent t) x.2 = 0) :
    transfer s iss t targets =
      { s := match iss.agent with
          | .ctx c k => if targets.isEmpty then s else s.modCore c (fun x => x.setCtx k { x.ctx k with fetch := targetSrc s iss.agent t })
          | .team _ _ => s
        t := t, moves := targets.map (fun x => (x.1, x.2.toNat)) } := by
  unfold transfer transferBy
  dsimp only
  have h1 : (targets.map (fun x => (x.1, x.2, targetCode s iss.core t.asid (targetSrc s iss.agent t) x.2))).filter
      (fun x => x.2.2 != 0) = [] := by
    rw [List.filter_eq_nil_iff]
    intro x hx
    rw [List.mem_map] at hx
    obtain ⟨y, hy, rfl⟩ := hx
    simp [hc y hy]
  have h2 : (targets.map (fun x => (x.1, x.2, targetCode s iss.core t.asid (targetSrc s iss.agent t) x.2))).filter
      (fun x => x.2.2 == 0) = targets.map (fun x => (x.1, x.2, targetCode s iss.core t.asid (targetSrc s iss.agent t) x.2)) := by
    rw [List.filter_eq_self]
    intro x hx
    rw [List.mem_map] at hx
    obtain ⟨y, hy, rfl⟩ := hx
    simp [hc y hy]
  rw [h1, h2]
  simp only [List.map_nil, List.isEmpty_map, List.map_map]
  congr 1

/-- The move of a lane of a mask. -/
theorem lanes_find (m : BitVec 32) (f : Nat → Nat) (i : Nat) (hi : i < 32) :
    ((lanesOf m).map (fun j => (j, f j))).find? (fun x => x.1 == i) = if m.getLsbD i then some (i, f i) else none := by
  have hmem : i ∈ lanesOf m ↔ m.getLsbD i = true := by
    unfold lanesOf
    rw [List.mem_filter, List.mem_range]
    exact ⟨fun h => h.2, fun h => ⟨hi, h⟩⟩
  have key : ∀ l : List Nat, (l.map (fun j => (j, f j))).find? (fun x => x.1 == i) = if i ∈ l then some (i, f i) else none := by
    intro l
    induction l with
    | nil => rfl
    | cons a l ih =>
      by_cases ha : a = i
      · subst ha
        simp
      · have : ¬ i = a := fun h => ha h.symm
        simp [ha, this, ih]
  rw [key]
  by_cases h : m.getLsbD i = true
  · rw [if_pos (hmem.mpr h), if_pos h]
  · rw [if_neg (fun hx => h (hmem.mp hx)), if_neg h]

/-- A ready word that transfers its active fibres, each to its own target, completes where every target passes its checks. -/
theorem word_transfers {i : Instr} {s : State} {p : Path} {r : Raw} {body : State → Iss → Team → Team → Res} {tgt : Nat → Int}
    (hi : exec i s = runWord r body s) (h : Ready s p r)
    (hb : body s (p.iss s r) (p.view s r) (p.marked s r) =
      transfer s (p.iss s r) (p.marked s r) ((lanesOf (p.iss s r).act).map (fun k => (k, tgt k))))
    (hl : ∀ k, (p.iss s r).act.getLsbD k = true → p.lands s (tgt k)) : Transfers i s p r tgt := by
  have hm0 := marked_rest s p r
  have hcode : (p.marked s r).code = p.team.code := by
    have := congrArg Team.code hm0
    exact this
  have hasid : (p.marked s r).asid = p.team.asid := by
    have := congrArg Team.asid hm0
    exact this
  have hsrc : targetSrc s (p.iss s r).agent (p.marked s r) = targetSrc s p.agent p.team := by
    unfold targetSrc
    rw [hcode]
    rfl
  have hall := transfer_all (s := s) (iss := p.iss s r) (t := p.marked s r)
    (targets := (lanesOf (p.iss s r).act).map (fun k => (k, tgt k))) (by
      intro x hx
      rw [List.mem_map] at hx
      obtain ⟨k, hk, rfl⟩ := hx
      rw [hsrc, hasid]
      refine hl k ?_
      unfold lanesOf at hk
      rw [List.mem_filter] at hk
      exact hk.2)
  rw [hall, hsrc] at hb
  have hempty : ((lanesOf (p.iss s r).act).map (fun k => (k, tgt k))).isEmpty = !((p.iss s r).act != 0) := by
    rw [List.isEmpty_map]
    by_cases hz : (p.iss s r).act = 0
    · rw [hz]
      rfl
    · have : lanesOf (p.iss s r).act ≠ [] := by
        intro hn
        apply hz
        apply BitVec.eq_of_getLsbD_eq
        intro j hj
        unfold lanesOf at hn
        rw [List.filter_eq_nil_iff] at hn
        have := hn j (List.mem_range.mpr hj)
        simpa using this
      cases hc : lanesOf (p.iss s r).act with
      | nil => exact absurd hc this
      | cons a l =>
        have hb2 : ((p.iss s r).act != 0) = true := by simpa using hz
        rw [hb2]
        rfl
  have hbase : (match (p.iss s r).agent with
      | .ctx c k => if ((lanesOf (p.iss s r).act).map (fun k => (k, tgt k))).isEmpty then s else
          s.modCore c (fun x => x.setCtx k { x.ctx k with fetch := targetSrc s p.agent p.team })
      | .team _ _ => s) = p.based s ((p.iss s r).act != 0) := by
    unfold Path.based
    have : (p.iss s r).agent = p.agent := rfl
    rw [this, hempty]
    cases p.agent with
    | team c slot => rfl
    | ctx c k =>
      cases (p.iss s r).act != 0 <;> rfl
  rw [hbase] at hb
  obtain ⟨t, h1, h2, h3⟩ := word_sent_kept (wait := none)
    (dest := fun k => if (p.iss s r).act.getLsbD k then (tgt k).toNat else (p.iss s r).pc + 8) h hb
    (by
      intro k hk _
      rw [List.map_map]
      have := lanes_find (p.iss s r).act (fun k => (tgt k).toNat) k hk
      rw [show (fun x : Nat × Int => (x.1, x.2.toNat)) ∘ (fun k => (k, tgt k)) = fun k => (k, (tgt k).toNat) from rfl, this]
      by_cases ha : (p.iss s r).act.getLsbD k = true <;> simp [ha])
    (.inr rfl)
    (by
      intro c k ha
      rw [(openPath_ctx h.path ha).1]
      unfold Path.based
      rw [ha]
      dsimp only
      split
      · rw [core_modCore_self]
        cases k <;> rfl
      · rfl)
  exact ⟨t, hi.trans h1, h2, h3⟩

end Sys2Proof.Machine
end

