-- ==== Sys2Proof/Laws/Packets.lean ====
section
/-! SUPPORT. When the packets of a message cover all its bytes (R409). -/
namespace Sys2Proof.Machine

/-- Every byte before the place that `landedTo` reaches lies in a landed packet. -/
theorem landedTo_covered (xs : List (Nat × Nat)) (n at_ b : Nat) (ha : at_ ≤ b) (hb : b < landedTo xs n at_) :
    ∃ x ∈ xs, x.1 ≤ b ∧ b < x.1 + x.2 := by
  induction n generalizing at_ with
  | zero => simp only [landedTo] at hb; omega
  | succ n ih =>
    simp only [landedTo] at hb
    split at hb
    · rename_i x hx
      have hp := List.find?_some hx
      simp only [Bool.and_eq_true, decide_eq_true_eq] at hp
      by_cases h : b < x.1 + x.2
      · exact ⟨x, List.mem_of_find?_eq_some hx, by omega, h⟩
      · exact ih (x.1 + x.2) (by omega) hb
    · omega

/-- Where the bytes before `m` are covered, `landedTo` reaches `m`, given a step for each packet that ends after its start. -/
theorem landedTo_reaches (xs : List (Nat × Nat)) (m n at_ : Nat)
    (hn : (xs.filter (fun x => at_ < x.1 + x.2)).length ≤ n)
    (hc : ∀ b, at_ ≤ b → b < m → ∃ x ∈ xs, x.1 ≤ b ∧ b < x.1 + x.2) : m ≤ landedTo xs n at_ := by
  induction n generalizing at_ with
  | zero =>
    refine Nat.le_of_not_lt (fun h => ?_)
    simp only [landedTo] at h
    obtain ⟨x, hx, -, h2⟩ := hc at_ (by omega) (by omega)
    have : x ∈ xs.filter (fun x => at_ < x.1 + x.2) := List.mem_filter.mpr ⟨hx, by simpa using h2⟩
    have := List.length_pos_of_mem this
    omega
  | succ n ih =>
    simp only [landedTo]
    split
    · rename_i x hx
      have hp := List.find?_some hx
      simp only [Bool.and_eq_true, decide_eq_true_eq] at hp
      refine ih (x.1 + x.2) ?_ (fun b h1 h2 => hc b (by omega) h2)
      have hm : x ∈ xs.filter (fun y => at_ < y.1 + y.2) :=
        List.mem_filter.mpr ⟨List.mem_of_find?_eq_some hx, by simpa using hp.2⟩
      have hs : (xs.filter (fun y => x.1 + x.2 < y.1 + y.2)).length < (xs.filter (fun y => at_ < y.1 + y.2)).length := by
        have e : xs.filter (fun y => x.1 + x.2 < y.1 + y.2) =
            (xs.filter (fun y => at_ < y.1 + y.2)).filter (fun y => x.1 + x.2 < y.1 + y.2) := by
          rw [List.filter_filter]
          refine List.filter_congr (fun y _ => ?_)
          by_cases h : x.1 + x.2 < y.1 + y.2
          · have : at_ < y.1 + y.2 := by omega
            simp [h, this]
          · simp [h]
        rw [e]
        exact List.length_filter_lt_length_iff_exists.mpr ⟨x, hm, by simp⟩
      omega
    · rename_i hx
      refine Nat.le_of_not_lt (fun h => ?_)
      obtain ⟨x, hm, h1, h2⟩ := hc at_ (Nat.le_refl _) (by omega)
      have := List.find?_eq_none.mp hx x hm
      simp [h1, h2] at this

/-- A message has landed where some packet of it has and they cover every byte of it. -/
theorem allLanded_iff (m : RxMsg) :
    allLanded m = true ↔ m.landed ≠ [] ∧ ∀ b < m.head.mlen, ∃ x ∈ m.landed, x.1 ≤ b ∧ b < x.1 + x.2 := by
  unfold allLanded
  simp only [Bool.and_eq_true, Bool.not_eq_true', List.isEmpty_eq_false_iff, decide_eq_true_eq]
  refine and_congr_right (fun _ => ⟨fun h b hb => landedTo_covered _ _ 0 b (Nat.zero_le _) (Nat.lt_of_lt_of_le hb h), fun h => ?_⟩)
  exact landedTo_reaches _ _ _ 0 (List.length_filter_le _ _) (fun b _ hb => h b hb)

end Sys2Proof.Machine
end

