-- ==== Sys2Proof/Laws/PerInstr.lean ====
section
/-! SUPPORT. The family WordForm of LAWS.json: the fields of a well-formed instruction, with its opcode, name that very
instruction; an event has no word. One lemma for each constructor of Instr. -/
namespace Sys2Proof.Laws.WordForm
open Sys2Proof Sys2Proof.Machine

/-- The split word of a well-formed instruction names it again (R15, R23). -/
def Statement (i : Instr) : Prop := ∀ r, rawOf i = some r → wellFormed i = true → instrOf r = some i

theorem of_word {i : Instr} {r : Raw} (h : rawOf i = some r) (k : formOk i = true → instrOf r = some i) : Statement i := by
  intro x hx hw
  rw [h] at hx
  cases hx
  exact k (by simp only [wellFormed, Bool.and_eq_true] at hw; exact hw.1)

theorem of_event {i : Instr} (h : rawOf i = none) : Statement i := by
  intro x hx
  rw [h] at hx
  cases hx

theorem if_clear {b : Bool} (x y : Instr) (h : (!b) = true) : some (if b then x else y) = some y := by
  cases b
  · rfl
  · cases h

theorem if_set {b : Bool} (x y : Instr) (h : b = true) : some (if b then x else y) = some x := by rw [h]; rfl

theorem r_word_11 (w : RW) : instrOf (.r 11 w) =
    (match fieldOf w.md 1 0 with
      | 0 => some (Instr.voteAny w)
      | 1 => some (Instr.voteAll w)
      | 2 => some (Instr.voteUni w)
      | 3 => some (Instr.voteBallot w)
      | _ => none) := rfl

theorem i_word_10 (w : IW) : instrOf (.i 10 w) =
    (match w.md.toNat with
      | 0 => some (Instr.regionW w)
      | 1 => some (Instr.regionProd w)
      | 2 => some (Instr.regionCons w)
      | 4 => some (Instr.regionEnd w)
      | _ => none) := rfl

theorem i_word_47 (w : IW) : instrOf (.i 47 w) =
    (match w.md.toNat with
      | 0 | 1 | 2 | 3 | 4 | 5 => some (Instr.movi w)
      | 6 => some (Instr.moviHi w)
      | 7 => some (Instr.moviLane w)
      | _ => none) := rfl

theorem i_word_92 (w : IW) : instrOf (.i 92 w) =
    (match w.imm.toNat with
      | 0 => some (Instr.drainW w)
      | 1 => some (Instr.drainA w)
      | 2 => some (Instr.drainC w)
      | 3 => some (Instr.drainK w)
      | 4 => some (Instr.drainNt w)
      | _ => none) := rfl

theorem m_word_87 (w : MW) : instrOf (.m 87 w) =
    (match w.nt.toNat * 8 + w.seam.toNat with
      | 0 => some (Instr.atomAdd w)
      | 1 => some (Instr.atomMin w)
      | 2 => some (Instr.atomMax w)
      | 3 => some (Instr.atomAnd w)
      | 4 => some (Instr.atomOr w)
      | 5 => some (Instr.atomXor w)
      | 6 => some (Instr.atomExch w)
      | 7 => some (Instr.atomIncw w)
      | 8 => some (Instr.atomFadd w)
      | 9 => some (Instr.atomFmin w)
      | 10 => some (Instr.atomFmax w)
      | _ => none) := rfl

theorem m_word_89 (w : MW) : instrOf (.m 89 w) =
    (match w.order.toNat with
      | 1 => some (Instr.fenceAcq w)
      | 2 => some (Instr.fenceRel w)
      | 3 => some (Instr.fenceAr w)
      | _ => none) := rfl

theorem m_word_93 (w : MW) : instrOf (.m 93 w) =
    (match w.width.toNat with
      | 0 => some (Instr.prefL1 w)
      | 1 => some (Instr.prefL2 w)
      | _ => none) := rfl

theorem m_word_94 (w : MW) : instrOf (.m 94 w) =
    (match w.width.toNat with
      | 0 => some (Instr.cmaintClean w)
      | 1 => some (Instr.cmaintInv w)
      | 2 => some (Instr.cmaintCinv w)
      | 3 => some (Instr.cmaintZero w)
      | _ => none) := rfl

theorem e_word_18 (w : EW) : instrOf (.e 18 w) =
    (match fieldOf w.md 1 0 with
      | 0 => some (Instr.gresAny w)
      | 1 => some (Instr.gresAll w)
      | 2 => some (Instr.gresT w)
      | 3 => some (Instr.gresF w)
      | _ => none) := rfl

theorem e_word_109 (w : EW) : instrOf (.e 109 w) =
    (match fieldOf w.md 2 0 with
      | 0 => some (Instr.collSum w)
      | 1 => some (Instr.collMin w)
      | 2 => some (Instr.collMax w)
      | 3 => some (Instr.collNsum w)
      | 4 => some (Instr.collGath w)
      | 5 => some (Instr.collBcast w)
      | 6 => some (Instr.collRsum w)
      | _ => none) := rfl

theorem s_word_113 (w : SW) : instrOf (.s 113 w) =
    (match fieldOf w.md 1 0 with
      | 0 => some (Instr.sysw w)
      | 1 => some (Instr.syswImm w)
      | 2 => some (Instr.syswSet w)
      | 3 => some (Instr.syswClr w)
      | _ => none) := rfl

theorem s_word_117 (w : SW) : instrOf (.s 117 w) =
    (match fieldOf w.md 1 0 with
      | 0 => some (Instr.replay w)
      | 1 => some (Instr.replayM w)
      | 2 => some (Instr.replayDrop w)
      | _ => none) := rfl

theorem s_word_126 (w : SW) : instrOf (.s 126 w) =
    (match fieldOf w.md 1 0 with
      | 0 => some (Instr.tokenTake w)
      | 1 => some (Instr.tokenTry w)
      | 2 => some (Instr.tokenGive w)
      | _ => none) := rfl

theorem nop (w : RW) : Statement (.nop w) := of_word rfl (fun _ => rfl)
theorem bra (w : IW) : Statement (.bra w) := of_word rfl (fun _ => rfl)
theorem bru (w : IW) : Statement (.bru w) := of_word rfl (fun h => if_clear _ _ h)
theorem bruR (w : IW) : Statement (.bruR w) := of_word rfl (fun h => if_set _ _ h)
theorem jmpi (w : RW) : Statement (.jmpi w) := of_word rfl (fun _ => rfl)
theorem callW (w : IW) : Statement (.callW w) := of_word rfl (fun _ => rfl)
theorem ret (w : RW) : Statement (.ret w) := of_word rfl (fun _ => rfl)
theorem loopW (w : IW) : Statement (.loopW w) := of_word rfl (fun _ => rfl)
theorem fork (w : IW) : Statement (.fork w) := of_word rfl (fun _ => rfl)
theorem fend (w : RW) : Statement (.fend w) := of_word rfl (fun _ => rfl)
theorem exitW (w : RW) : Statement (.exitW w) := of_word rfl (fun _ => rfl)
theorem regionW (w : IW) : Statement (.regionW w) := of_word rfl (fun h => by rw [i_word_10, eq_of_beq h] <;> rfl)
theorem regionProd (w : IW) : Statement (.regionProd w) := of_word rfl (fun h => by rw [i_word_10, eq_of_beq h] <;> rfl)
theorem regionCons (w : IW) : Statement (.regionCons w) := of_word rfl (fun h => by rw [i_word_10, eq_of_beq h] <;> rfl)
theorem regionEnd (w : IW) : Statement (.regionEnd w) := of_word rfl (fun h => by rw [i_word_10, eq_of_beq h] <;> rfl)
theorem voteAny (w : RW) : Statement (.voteAny w) := of_word rfl (fun h => by rw [r_word_11, eq_of_beq h] <;> rfl)
theorem voteAll (w : RW) : Statement (.voteAll w) := of_word rfl (fun h => by rw [r_word_11, eq_of_beq h] <;> rfl)
theorem voteUni (w : RW) : Statement (.voteUni w) := of_word rfl (fun h => by rw [r_word_11, eq_of_beq h] <;> rfl)
theorem voteBallot (w : RW) : Statement (.voteBallot w) := of_word rfl (fun h => by rw [r_word_11, eq_of_beq h] <;> rfl)
theorem plop (w : RW) : Statement (.plop w) := of_word rfl (fun _ => rfl)
theorem signW (w : EW) : Statement (.signW w) := of_word rfl (fun _ => rfl)
theorem barSync (w : IW) : Statement (.barSync w) := of_word rfl (fun h => if_clear _ _ h)
theorem barArrive (w : IW) : Statement (.barArrive w) := of_word rfl (fun h => if_set _ _ h)
theorem waitc (w : IW) : Statement (.waitc w) := of_word rfl (fun _ => rfl)
theorem ctrwait (w : MW) : Statement (.ctrwait w) := of_word rfl (fun _ => rfl)
theorem gset (w : EW) : Statement (.gset w) := of_word rfl (fun _ => rfl)
theorem gresAny (w : EW) : Statement (.gresAny w) := of_word rfl (fun h => by rw [e_word_18, eq_of_beq h] <;> rfl)
theorem gresAll (w : EW) : Statement (.gresAll w) := of_word rfl (fun h => by rw [e_word_18, eq_of_beq h] <;> rfl)
theorem gresT (w : EW) : Statement (.gresT w) := of_word rfl (fun h => by rw [e_word_18, eq_of_beq h] <;> rfl)
theorem gresF (w : EW) : Statement (.gresF w) := of_word rfl (fun h => by rw [e_word_18, eq_of_beq h] <;> rfl)
theorem yield (w : RW) : Statement (.yield w) := of_word rfl (fun _ => rfl)
theorem syscall (w : IW) : Statement (.syscall w) := of_word rfl (fun _ => rfl)
theorem brk (w : IW) : Statement (.brk w) := of_word rfl (fun _ => rfl)
theorem tagq (w : RW) : Statement (.tagq w) := of_word rfl (fun _ => rfl)
theorem deadW (w : RW) : Statement (.deadW w) := of_word rfl (fun _ => rfl)
theorem iadd (w : RW) : Statement (.iadd w) := of_word rfl (fun _ => rfl)
theorem isub (w : RW) : Statement (.isub w) := of_word rfl (fun _ => rfl)
theorem iaddc (w : RW) : Statement (.iaddc w) := of_word rfl (fun h => if_clear _ _ h)
theorem isubc (w : RW) : Statement (.isubc w) := of_word rfl (fun h => if_set _ _ h)
theorem imul (w : RW) : Statement (.imul w) := of_word rfl (fun _ => rfl)
theorem imulh (w : RW) : Statement (.imulh w) := of_word rfl (fun _ => rfl)
theorem imad (w : RW) : Statement (.imad w) := of_word rfl (fun _ => rfl)
theorem iaddmin (w : RW) : Statement (.iaddmin w) := of_word rfl (fun _ => rfl)
theorem imin (w : RW) : Statement (.imin w) := of_word rfl (fun _ => rfl)
theorem imax (w : RW) : Statement (.imax w) := of_word rfl (fun _ => rfl)
theorem iabsd (w : RW) : Statement (.iabsd w) := of_word rfl (fun _ => rfl)
theorem icmp (w : RW) : Statement (.icmp w) := of_word rfl (fun h => if_clear _ _ h)
theorem icmpMask (w : RW) : Statement (.icmpMask w) := of_word rfl (fun h => if_set _ _ h)
theorem isel (w : RW) : Statement (.isel w) := of_word rfl (fun _ => rfl)
theorem andW (w : RW) : Statement (.andW w) := of_word rfl (fun _ => rfl)
theorem orW (w : RW) : Statement (.orW w) := of_word rfl (fun _ => rfl)
theorem xorW (w : RW) : Statement (.xorW w) := of_word rfl (fun _ => rfl)
theorem shl (w : RW) : Statement (.shl w) := of_word rfl (fun _ => rfl)
theorem shr (w : RW) : Statement (.shr w) := of_word rfl (fun _ => rfl)
theorem shra (w : RW) : Statement (.shra w) := of_word rfl (fun _ => rfl)
theorem bfx (w : RW) : Statement (.bfx w) := of_word rfl (fun _ => rfl)
theorem bfi (w : RW) : Statement (.bfi w) := of_word rfl (fun _ => rfl)
theorem popc (w : RW) : Statement (.popc w) := of_word rfl (fun _ => rfl)
theorem clz (w : RW) : Statement (.clz w) := of_word rfl (fun _ => rfl)
theorem movW (w : RW) : Statement (.movW w) := of_word rfl (fun _ => rfl)
theorem movi (w : IW) : Statement (.movi w) := of_word rfl (fun h => by
  rw [i_word_47]
  have h := of_decide_eq_true h
  generalize w.md.toNat = n at h ⊢
  match n, h with
  | 0, _ => rfl
  | 1, _ => rfl
  | 2, _ => rfl
  | 3, _ => rfl
  | 4, _ => rfl
  | 5, _ => rfl)
theorem moviHi (w : IW) : Statement (.moviHi w) := of_word rfl (fun h => by rw [i_word_47, eq_of_beq h] <;> rfl)
theorem moviLane (w : IW) : Statement (.moviLane w) := of_word rfl (fun h => by rw [i_word_47, eq_of_beq h] <;> rfl)
theorem mkaddr (w : RW) : Statement (.mkaddr w) := of_word rfl (fun h => if_clear _ _ h)
theorem mkaddrOff (w : RW) : Statement (.mkaddrOff w) := of_word rfl (fun h => if_set _ _ h)
theorem lshiftUp (w : RW) : Statement (.lshiftUp w) := of_word rfl (fun h => if_clear _ _ h)
theorem lshiftDn (w : RW) : Statement (.lshiftDn w) := of_word rfl (fun h => if_set _ _ h)
theorem lperm (w : RW) : Statement (.lperm w) := of_word rfl (fun _ => rfl)
theorem lbcast (w : RW) : Statement (.lbcast w) := of_word rfl (fun h => if_clear _ _ h)
theorem lbcastR (w : RW) : Statement (.lbcastR w) := of_word rfl (fun h => if_set _ _ h)
theorem lreduce (w : RW) : Statement (.lreduce w) := of_word rfl (fun _ => rfl)
theorem lscan (w : RW) : Statement (.lscan w) := of_word rfl (fun _ => rfl)
theorem vmerge (w : RW) : Statement (.vmerge w) := of_word rfl (fun _ => rfl)
theorem vmergekv (w : RW) : Statement (.vmergekv w) := of_word rfl (fun _ => rfl)
theorem fadd (w : RW) : Statement (.fadd w) := of_word rfl (fun _ => rfl)
theorem fsub (w : RW) : Statement (.fsub w) := of_word rfl (fun _ => rfl)
theorem fmul (w : RW) : Statement (.fmul w) := of_word rfl (fun _ => rfl)
theorem ffma (w : RW) : Statement (.ffma w) := of_word rfl (fun _ => rfl)
theorem fdiv (w : RW) : Statement (.fdiv w) := of_word rfl (fun _ => rfl)
theorem fmin (w : RW) : Statement (.fmin w) := of_word rfl (fun _ => rfl)
theorem fmax (w : RW) : Statement (.fmax w) := of_word rfl (fun _ => rfl)
theorem fcmp (w : RW) : Statement (.fcmp w) := of_word rfl (fun h => if_clear _ _ h)
theorem fcmpMask (w : RW) : Statement (.fcmpMask w) := of_word rfl (fun h => if_set _ _ h)
theorem frcp (w : RW) : Statement (.frcp w) := of_word rfl (fun _ => rfl)
theorem frsq (w : RW) : Statement (.frsq w) := of_word rfl (fun _ => rfl)
theorem fsqrt (w : RW) : Statement (.fsqrt w) := of_word rfl (fun _ => rfl)
theorem fexp2 (w : RW) : Statement (.fexp2 w) := of_word rfl (fun _ => rfl)
theorem flog2 (w : RW) : Statement (.flog2 w) := of_word rfl (fun _ => rfl)
theorem fsincos (w : RW) : Statement (.fsincos w) := of_word rfl (fun _ => rfl)
theorem fclass (w : RW) : Statement (.fclass w) := of_word rfl (fun _ => rfl)
theorem frnd (w : RW) : Statement (.frnd w) := of_word rfl (fun _ => rfl)
theorem fscale (w : RW) : Statement (.fscale w) := of_word rfl (fun _ => rfl)
theorem fcvt (w : RW) : Statement (.fcvt w) := of_word rfl (fun _ => rfl)
theorem icvt (w : RW) : Statement (.icvt w) := of_word rfl (fun _ => rfl)
theorem qcvt (w : RW) : Statement (.qcvt w) := of_word rfl (fun h => if_clear _ _ h)
theorem qcvtFix (w : RW) : Statement (.qcvtFix w) := of_word rfl (fun h => if_set _ _ h)
theorem dqcvt (w : RW) : Statement (.dqcvt w) := of_word rfl (fun _ => rfl)
theorem scadj (w : RW) : Statement (.scadj w) := of_word rfl (fun h => if_clear _ _ h)
theorem scadjNorm (w : RW) : Statement (.scadjNorm w) := of_word rfl (fun h => if_set _ _ h)
theorem fdot (w : RW) : Statement (.fdot w) := of_word rfl (fun _ => rfl)
theorem fsum (w : RW) : Statement (.fsum w) := of_word rfl (fun _ => rfl)
theorem ld (w : MW) : Statement (.ld w) := of_word rfl (fun _ => rfl)
theorem ldu (w : MW) : Statement (.ldu w) := of_word rfl (fun _ => rfl)
theorem st (w : MW) : Statement (.st w) := of_word rfl (fun _ => rfl)
theorem stu (w : MW) : Statement (.stu w) := of_word rfl (fun _ => rfl)
theorem stm (w : MW) : Statement (.stm w) := of_word rfl (fun _ => rfl)
theorem lds (w : MW) : Statement (.lds w) := of_word rfl (fun _ => rfl)
theorem sts (w : MW) : Statement (.sts w) := of_word rfl (fun _ => rfl)
theorem atomAdd (w : MW) : Statement (.atomAdd w) := of_word rfl (fun h => by rw [m_word_87, eq_of_beq h] <;> rfl)
theorem atomMin (w : MW) : Statement (.atomMin w) := of_word rfl (fun h => by rw [m_word_87, eq_of_beq h] <;> rfl)
theorem atomMax (w : MW) : Statement (.atomMax w) := of_word rfl (fun h => by rw [m_word_87, eq_of_beq h] <;> rfl)
theorem atomAnd (w : MW) : Statement (.atomAnd w) := of_word rfl (fun h => by rw [m_word_87, eq_of_beq h] <;> rfl)
theorem atomOr (w : MW) : Statement (.atomOr w) := of_word rfl (fun h => by rw [m_word_87, eq_of_beq h] <;> rfl)
theorem atomXor (w : MW) : Statement (.atomXor w) := of_word rfl (fun h => by rw [m_word_87, eq_of_beq h] <;> rfl)
theorem atomExch (w : MW) : Statement (.atomExch w) := of_word rfl (fun h => by rw [m_word_87, eq_of_beq h] <;> rfl)
theorem atomIncw (w : MW) : Statement (.atomIncw w) := of_word rfl (fun h => by rw [m_word_87, eq_of_beq h] <;> rfl)
theorem atomFadd (w : MW) : Statement (.atomFadd w) := of_word rfl (fun h => by rw [m_word_87, eq_of_beq h] <;> rfl)
theorem atomFmin (w : MW) : Statement (.atomFmin w) := of_word rfl (fun h => by rw [m_word_87, eq_of_beq h] <;> rfl)
theorem atomFmax (w : MW) : Statement (.atomFmax w) := of_word rfl (fun h => by rw [m_word_87, eq_of_beq h] <;> rfl)
theorem cas (w : MW) : Statement (.cas w) := of_word rfl (fun _ => rfl)
theorem fenceAcq (w : MW) : Statement (.fenceAcq w) := of_word rfl (fun h => by rw [m_word_89, eq_of_beq h] <;> rfl)
theorem fenceRel (w : MW) : Statement (.fenceRel w) := of_word rfl (fun h => by rw [m_word_89, eq_of_beq h] <;> rfl)
theorem fenceAr (w : MW) : Statement (.fenceAr w) := of_word rfl (fun h => by rw [m_word_89, eq_of_beq h] <;> rfl)
theorem put (w : EW) : Statement (.put w) := of_word rfl (fun _ => rfl)
theorem putr (w : EW) : Statement (.putr w) := of_word rfl (fun _ => rfl)
theorem drainW (w : IW) : Statement (.drainW w) := of_word rfl (fun h => by rw [i_word_92, eq_of_beq h] <;> rfl)
theorem drainA (w : IW) : Statement (.drainA w) := of_word rfl (fun h => by rw [i_word_92, eq_of_beq h] <;> rfl)
theorem drainC (w : IW) : Statement (.drainC w) := of_word rfl (fun h => by rw [i_word_92, eq_of_beq h] <;> rfl)
theorem drainK (w : IW) : Statement (.drainK w) := of_word rfl (fun h => by rw [i_word_92, eq_of_beq h] <;> rfl)
theorem drainNt (w : IW) : Statement (.drainNt w) := of_word rfl (fun h => by rw [i_word_92, eq_of_beq h] <;> rfl)
theorem prefL1 (w : MW) : Statement (.prefL1 w) := of_word rfl (fun h => by rw [m_word_93, eq_of_beq h] <;> rfl)
theorem prefL2 (w : MW) : Statement (.prefL2 w) := of_word rfl (fun h => by rw [m_word_93, eq_of_beq h] <;> rfl)
theorem cmaintClean (w : MW) : Statement (.cmaintClean w) := of_word rfl (fun h => by rw [m_word_94, eq_of_beq h] <;> rfl)
theorem cmaintInv (w : MW) : Statement (.cmaintInv w) := of_word rfl (fun h => by rw [m_word_94, eq_of_beq h] <;> rfl)
theorem cmaintCinv (w : MW) : Statement (.cmaintCinv w) := of_word rfl (fun h => by rw [m_word_94, eq_of_beq h] <;> rfl)
theorem cmaintZero (w : MW) : Statement (.cmaintZero w) := of_word rfl (fun h => by rw [m_word_94, eq_of_beq h] <;> rfl)
theorem probe (w : MW) : Statement (.probe w) := of_word rfl (fun _ => rfl)
theorem mma (w : EW) : Statement (.mma w) := of_word rfl (fun _ => rfl)
theorem mjob (w : EW) : Statement (.mjob w) := of_word rfl (fun _ => rfl)
theorem mperm (w : EW) : Statement (.mperm w) := of_word rfl (fun _ => rfl)
theorem sgemv (w : EW) : Statement (.sgemv w) := of_word rfl (fun _ => rfl)
theorem accrd (w : EW) : Statement (.accrd w) := of_word rfl (fun _ => rfl)
theorem accwr (w : EW) : Statement (.accwr w) := of_word rfl (fun _ => rfl)
theorem accz (w : EW) : Statement (.accz w) := of_word rfl (fun _ => rfl)
theorem epld (w : EW) : Statement (.epld w) := of_word rfl (fun _ => rfl)
theorem mdrain (w : EW) : Statement (.mdrain w) := of_word rfl (fun _ => rfl)
theorem dcopy (w : EW) : Statement (.dcopy w) := of_word rfl (fun _ => rfl)
theorem gather (w : EW) : Statement (.gather w) := of_word rfl (fun _ => rfl)
theorem scatter (w : EW) : Statement (.scatter w) := of_word rfl (fun _ => rfl)
theorem rowcopy (w : EW) : Statement (.rowcopy w) := of_word rfl (fun h => if_clear _ _ h)
theorem rowcopyInit (w : EW) : Statement (.rowcopyInit w) := of_word rfl (fun h => if_set _ _ h)
theorem collSum (w : EW) : Statement (.collSum w) := of_word rfl (fun h => by rw [e_word_109, eq_of_beq h] <;> rfl)
theorem collMin (w : EW) : Statement (.collMin w) := of_word rfl (fun h => by rw [e_word_109, eq_of_beq h] <;> rfl)
theorem collMax (w : EW) : Statement (.collMax w) := of_word rfl (fun h => by rw [e_word_109, eq_of_beq h] <;> rfl)
theorem collNsum (w : EW) : Statement (.collNsum w) := of_word rfl (fun h => by rw [e_word_109, eq_of_beq h] <;> rfl)
theorem collGath (w : EW) : Statement (.collGath w) := of_word rfl (fun h => by rw [e_word_109, eq_of_beq h] <;> rfl)
theorem collBcast (w : EW) : Statement (.collBcast w) := of_word rfl (fun h => by rw [e_word_109, eq_of_beq h] <;> rfl)
theorem collRsum (w : EW) : Statement (.collRsum w) := of_word rfl (fun h => by rw [e_word_109, eq_of_beq h] <;> rfl)
theorem sread (w : EW) : Statement (.sread w) := of_word rfl (fun _ => rfl)
theorem estat (w : EW) : Statement (.estat w) := of_word rfl (fun _ => rfl)
theorem sysr (w : SW) : Statement (.sysr w) := of_word rfl (fun _ => rfl)
theorem sysw (w : SW) : Statement (.sysw w) := of_word rfl (fun h => by rw [s_word_113, eq_of_beq h] <;> rfl)
theorem syswImm (w : SW) : Statement (.syswImm w) := of_word rfl (fun h => by rw [s_word_113, eq_of_beq h] <;> rfl)
theorem syswSet (w : SW) : Statement (.syswSet w) := of_word rfl (fun h => by rw [s_word_113, eq_of_beq h] <;> rfl)
theorem syswClr (w : SW) : Statement (.syswClr w) := of_word rfl (fun h => by rw [s_word_113, eq_of_beq h] <;> rfl)
theorem sret (w : SW) : Statement (.sret w) := of_word rfl (fun _ => rfl)
theorem tqtake (w : SW) : Statement (.tqtake w) := of_word rfl (fun _ => rfl)
theorem tqpost (w : SW) : Statement (.tqpost w) := of_word rfl (fun h => if_clear _ _ h)
theorem tqpostOom (w : SW) : Statement (.tqpostOom w) := of_word rfl (fun h => if_set _ _ h)
theorem replay (w : SW) : Statement (.replay w) := of_word rfl (fun h => by rw [s_word_117, eq_of_beq h] <;> rfl)
theorem replayM (w : SW) : Statement (.replayM w) := of_word rfl (fun h => by rw [s_word_117, eq_of_beq h] <;> rfl)
theorem replayDrop (w : SW) : Statement (.replayDrop w) := of_word rfl (fun h => by rw [s_word_117, eq_of_beq h] <;> rfl)
theorem tlbinv (w : SW) : Statement (.tlbinv w) := of_word rfl (fun _ => rfl)
theorem launch (w : SW) : Statement (.launch w) := of_word rfl (fun _ => rfl)
theorem tkclaim (w : SW) : Statement (.tkclaim w) := of_word rfl (fun _ => rfl)
theorem park (w : SW) : Statement (.park w) := of_word rfl (fun h => if_clear _ _ h)
theorem parkCopse (w : SW) : Statement (.parkCopse w) := of_word rfl (fun h => if_set _ _ h)
theorem unpark (w : SW) : Statement (.unpark w) := of_word rfl (fun h => if_clear _ _ h)
theorem unparkCopse (w : SW) : Statement (.unparkCopse w) := of_word rfl (fun h => if_set _ _ h)
theorem ctxsv (w : SW) : Statement (.ctxsv w) := of_word rfl (fun h => if_clear _ _ h)
theorem ctxsvCopse (w : SW) : Statement (.ctxsvCopse w) := of_word rfl (fun h => if_set _ _ h)
theorem ctxld (w : SW) : Statement (.ctxld w) := of_word rfl (fun h => if_clear _ _ h)
theorem ctxldCopse (w : SW) : Statement (.ctxldCopse w) := of_word rfl (fun h => if_set _ _ h)
theorem wfi (w : SW) : Statement (.wfi w) := of_word rfl (fun _ => rfl)
theorem tokenTake (w : SW) : Statement (.tokenTake w) := of_word rfl (fun h => by rw [s_word_126, eq_of_beq h] <;> rfl)
theorem tokenTry (w : SW) : Statement (.tokenTry w) := of_word rfl (fun h => by rw [s_word_126, eq_of_beq h] <;> rfl)
theorem tokenGive (w : SW) : Statement (.tokenGive w) := of_word rfl (fun h => by rw [s_word_126, eq_of_beq h] <;> rfl)
theorem pairW (w : PW) : Statement (.pairW w) := of_word rfl (fun _ => rfl)
theorem teamChoice (core quad : Nat) : Statement (.teamChoice core quad) := of_event rfl
theorem sLaneClauseTurn (core : Nat) : Statement (.sLaneClauseTurn core) := of_event rfl
theorem tlbinvComplete (id : Nat) : Statement (.tlbinvComplete id) := of_event rfl
theorem ctxsvComplete (id : Nat) : Statement (.ctxsvComplete id) := of_event rfl
theorem swapDone (slot : Nat) : Statement (.swapDone slot) := of_event rfl
theorem egressLastByteLeft (port : Nat) : Statement (.egressLastByteLeft port) := of_event rfl
theorem resultDelivery (core slot : Nat) : Statement (.resultDelivery core slot) := of_event rfl
theorem ctrwaitSatisfied (core slot : Nat) : Statement (.ctrwaitSatisfied core slot) := of_event rfl
theorem engineAccept (core : Nat) : Statement (.engineAccept core) := of_event rfl
theorem matrixCommandStart (core : Nat) : Statement (.matrixCommandStart core) := of_event rfl
theorem sgemvStart (stack : Nat) : Statement (.sgemvStart stack) := of_event rfl
theorem engineCommandComplete (core cls : Nat) : Statement (.engineCommandComplete core cls) := of_event rfl
theorem engineCommandFail (core cls : Nat) : Statement (.engineCommandFail core cls) := of_event rfl
theorem meshPutCounterIncrease (core : Nat) : Statement (.meshPutCounterIncrease core) := of_event rfl
theorem collPhaseAdvance (core : Nat) : Statement (.collPhaseAdvance core) := of_event rfl
theorem faultEntryPost (core : Nat) : Statement (.faultEntryPost core) := of_event rfl
theorem residencyExpiry (core : Nat) : Statement (.residencyExpiry core) := of_event rfl
theorem slotReuseFenceClose (core slot : Nat) : Statement (.slotReuseFenceClose core slot) := of_event rfl
theorem copseRetirement (core copse : Nat) : Statement (.copseRetirement core copse) := of_event rfl
theorem placementPass (cluster : Nat) : Statement (.placementPass cluster) := of_event rfl
theorem headAgeExpiry : Statement (.headAgeExpiry) := of_event rfl
theorem preferredDieSlackExpiry : Statement (.preferredDieSlackExpiry) := of_event rfl
theorem tokenGrant : Statement (.tokenGrant) := of_event rfl
theorem tokenWaitExpiry : Statement (.tokenWaitExpiry) := of_event rfl
theorem graftDecision (lseq : Nat) : Statement (.graftDecision lseq) := of_event rfl
theorem graftTimeout (lseq : Nat) : Statement (.graftTimeout lseq) := of_event rfl
theorem eventTake (core : Nat) (ctx : Ctx) : Statement (.eventTake core ctx) := of_event rfl
theorem timerCompare (core : Nat) (ctx : Ctx) : Statement (.timerCompare core ctx) := of_event rfl
theorem externalLineRaise (line : Nat) : Statement (.externalLineRaise line) := of_event rfl
theorem tamperAlarm : Statement (.tamperAlarm) := of_event rfl
theorem glitchAlarm : Statement (.glitchAlarm) := of_event rfl
theorem worldPeriodEnd : Statement (.worldPeriodEnd) := of_event rfl
theorem alarmReset : Statement (.alarmReset) := of_event rfl
theorem powerOnReset : Statement (.powerOnReset) := of_event rfl
theorem fullReset : Statement (.fullReset) := of_event rfl
theorem hostDoorbellWrite (value : Word) : Statement (.hostDoorbellWrite value) := of_event rfl
theorem hostBar1Write (offset : Nat) (bytes : List Byte) : Statement (.hostBar1Write offset bytes) := of_event rfl
theorem hostHotReset : Statement (.hostHotReset) := of_event rfl
theorem hostLinkDown : Statement (.hostLinkDown) := of_event rfl
theorem nvmeFatal (port : Nat) : Statement (.nvmeFatal port) := of_event rfl
theorem ethLinkDown (port : Nat) : Statement (.ethLinkDown port) := of_event rfl
theorem ethLinkUp (port : Nat) : Statement (.ethLinkUp port) := of_event rfl
theorem ethRetryGiveUp (port : Nat) : Statement (.ethRetryGiveUp port) := of_event rfl
theorem remitDataReceive (port : Nat) (pkt : Packet) : Statement (.remitDataReceive port pkt) := of_event rfl
theorem messageComplete (key : MsgKey) : Statement (.messageComplete key) := of_event rfl
theorem trimmedHeaderReceive (port : Nat) (pkt : Packet) : Statement (.trimmedHeaderReceive port pkt) := of_event rfl
theorem rreqSend (port src : Nat) : Statement (.rreqSend port src) := of_event rfl
theorem holeRetryExpiry (port : Nat) (key : MsgKey) (psn : Nat) : Statement (.holeRetryExpiry port key psn) := of_event rfl
theorem rreqReceive (port : Nat) (pkt : Packet) : Statement (.rreqReceive port pkt) := of_event rfl
theorem ackReceive (port : Nat) (pkt : Packet) : Statement (.ackReceive port pkt) := of_event rfl
theorem refuseReceive (port : Nat) (pkt : Packet) : Statement (.refuseReceive port pkt) := of_event rfl
theorem retxTimeout (key : MsgKey) : Statement (.retxTimeout key) := of_event rfl
theorem flowRecordExpiry (src flow : Nat) : Statement (.flowRecordExpiry src flow) := of_event rfl
theorem transitForward (port : Nat) (pkt : Packet) : Statement (.transitForward port pkt) := of_event rfl
theorem multicastForward (router : Nat) (pkt : MeshPacket) : Statement (.multicastForward router pkt) := of_event rfl
theorem writePropagation (die : Nat) : Statement (.writePropagation die) := of_event rfl
theorem lineEviction (die line : Nat) : Statement (.lineEviction die line) := of_event rfl
theorem spdmGetVersion (via : SpdmPath) (request : List Byte) : Statement (.spdmGetVersion via request) := of_event rfl
theorem spdmGetCapabilities (via : SpdmPath) (request : List Byte) : Statement (.spdmGetCapabilities via request) := of_event rfl
theorem spdmNegotiateAlgorithms (via : SpdmPath) (request : List Byte) : Statement (.spdmNegotiateAlgorithms via request) := of_event rfl
theorem spdmGetDigests (via : SpdmPath) (request : List Byte) : Statement (.spdmGetDigests via request) := of_event rfl
theorem spdmGetCertificate (via : SpdmPath) (request : List Byte) : Statement (.spdmGetCertificate via request) := of_event rfl
theorem spdmChallenge (via : SpdmPath) (request : List Byte) : Statement (.spdmChallenge via request) := of_event rfl
theorem spdmGetMeasurements (via : SpdmPath) (request : List Byte) : Statement (.spdmGetMeasurements via request) := of_event rfl
theorem spdmUnsupportedRequest (via : SpdmPath) (request : List Byte) : Statement (.spdmUnsupportedRequest via request) := of_event rfl
theorem sSpcWrite (core : Nat) (value : Word) : Statement (.sSpcWrite core value) := of_event rfl
theorem sCodeWrite (core : Nat) (ctx : Ctx) (value : Word) : Statement (.sCodeWrite core ctx value) := of_event rfl
theorem secCworldWrite (n : Nat) (value : Word) : Statement (.secCworldWrite n value) := of_event rfl
theorem secRgnWrite (n : Nat) (value : Word) : Statement (.secRgnWrite n value) := of_event rfl
theorem secApolWrite (value : Word) : Statement (.secApolWrite value) := of_event rfl
theorem secAlogWrite (value : Word) : Statement (.secAlogWrite value) := of_event rfl
theorem secSvnWrite (value : Word) : Statement (.secSvnWrite value) := of_event rfl
theorem swapOut (value : Word) : Statement (.swapOut value) := of_event rfl
theorem swapIn (value : Word) : Statement (.swapIn value) := of_event rfl
theorem bootExtend (core : Nat) (value : Word) : Statement (.bootExtend core value) := of_event rfl
theorem flashRead (core : Nat) (value : Word) : Statement (.flashRead core value) := of_event rfl
theorem flashProgram (core : Nat) (value : Word) : Statement (.flashProgram core value) := of_event rfl
theorem flashErase (value : Word) : Statement (.flashErase value) := of_event rfl
theorem flashTransferDone : Statement (.flashTransferDone) := of_event rfl
theorem powerAdmitWrite (core : Nat) (ctx : Ctx) (value : Word) : Statement (.powerAdmitWrite core ctx value) := of_event rfl
theorem powerCapWrite (value : Word) : Statement (.powerCapWrite value) := of_event rfl
theorem memProfWrite (n : Nat) (value : Word) : Statement (.memProfWrite n value) := of_event rfl
theorem memUelogWrite (value : Word) : Statement (.memUelogWrite value) := of_event rfl
theorem systemRegisterWrite (agent : Agent) (number : Nat) (value : Word) : Statement (.systemRegisterWrite agent number value) := of_event rfl
theorem ntStoreComplete : Statement (.ntStoreComplete) := of_event rfl
theorem softError (unit : CheckUnit) (uncorrectable : Bool) : Statement (.softError unit uncorrectable) := of_event rfl
theorem hostLinkUp : Statement (.hostLinkUp) := of_event rfl
theorem holdingBufferRelease (router : Nat) (credit : BranchCredit) : Statement (.holdingBufferRelease router credit) := of_event rfl
theorem receivedFrameDrop (frame : FrameIn) : Statement (.receivedFrameDrop frame) := of_event rfl

end Sys2Proof.Laws.WordForm
end

