-- ==== Sys2Proof/Laws/State.lean ====
section
/-! SUPPORT. Each named update of the package, of a core and of a team, field by field: what it leaves as it was. -/
namespace Sys2Proof.Machine

@[simp] theorem State.setCore_now (s : State) (n : Nat) (x : Core) : (s.setCore n x).now = s.now := rfl
@[simp] theorem State.setCore_tick (s : State) (n : Nat) (x : Core) : (s.setCore n x).tick = s.tick := rfl
@[simp] theorem State.setCore_agenda (s : State) (n : Nat) (x : Core) : (s.setCore n x).agenda = s.agenda := rfl
@[simp] theorem State.setCore_cursor (s : State) (n : Nat) (x : Core) : (s.setCore n x).cursor = s.cursor := rfl
@[simp] theorem State.setCore_dram (s : State) (n : Nat) (x : Core) : (s.setCore n x).dram = s.dram := rfl
@[simp] theorem State.setCore_wbuf (s : State) (n : Nat) (x : Core) : (s.setCore n x).wbuf = s.wbuf := rfl
@[simp] theorem State.setCore_abuf (s : State) (n : Nat) (x : Core) : (s.setCore n x).abuf = s.abuf := rfl
@[simp] theorem State.setCore_cbuf (s : State) (n : Nat) (x : Core) : (s.setCore n x).cbuf = s.cbuf := rfl
@[simp] theorem State.setCore_sram (s : State) (n : Nat) (x : Core) : (s.setCore n x).sram = s.sram := rfl
@[simp] theorem State.setCore_bad (s : State) (n : Nat) (x : Core) : (s.setCore n x).bad = s.bad := rfl
@[simp] theorem State.setCore_l2 (s : State) (n : Nat) (x : Core) : (s.setCore n x).l2 = s.l2 := rfl
@[simp] theorem State.setCore_props (s : State) (n : Nat) (x : Core) : (s.setCore n x).props = s.props := rfl
@[simp] theorem State.setCore_nt (s : State) (n : Nat) (x : Core) : (s.setCore n x).nt = s.nt := rfl
@[simp] theorem State.setCore_btc (s : State) (n : Nat) (x : Core) : (s.setCore n x).btc = s.btc := rfl
@[simp] theorem State.setCore_ptc (s : State) (n : Nat) (x : Core) : (s.setCore n x).ptc = s.ptc := rfl
@[simp] theorem State.setCore_procs (s : State) (n : Nat) (x : Core) : (s.setCore n x).procs = s.procs := rfl
@[simp] theorem State.setCore_nextId (s : State) (n : Nat) (x : Core) : (s.setCore n x).nextId = s.nextId := rfl
@[simp] theorem State.setCore_regs (s : State) (n : Nat) (x : Core) : (s.setCore n x).regs = s.regs := rfl
@[simp] theorem State.setCore_aged (s : State) (n : Nat) (x : Core) : (s.setCore n x).aged = s.aged := rfl
@[simp] theorem State.setCore_slackDone (s : State) (n : Nat) (x : Core) : (s.setCore n x).slackDone = s.slackDone := rfl
@[simp] theorem State.setCore_lworld (s : State) (n : Nat) (x : Core) : (s.setCore n x).lworld = s.lworld := rfl
@[simp] theorem State.setCore_unitSince (s : State) (n : Nat) (x : Core) : (s.setCore n x).unitSince = s.unitSince := rfl
@[simp] theorem State.setCore_gone (s : State) (n : Nat) (x : Core) : (s.setCore n x).gone = s.gone := rfl
@[simp] theorem State.setCore_grafts (s : State) (n : Nat) (x : Core) : (s.setCore n x).grafts = s.grafts := rfl
@[simp] theorem State.setCore_images (s : State) (n : Nat) (x : Core) : (s.setCore n x).images = s.images := rfl
@[simp] theorem State.setCore_tokens (s : State) (n : Nat) (x : Core) : (s.setCore n x).tokens = s.tokens := rfl
@[simp] theorem State.setCore_flash (s : State) (n : Nat) (x : Core) : (s.setCore n x).flash = s.flash := rfl
@[simp] theorem State.setCore_header (s : State) (n : Nat) (x : Core) : (s.setCore n x).header = s.header := rfl
@[simp] theorem State.setCore_fuseSvn (s : State) (n : Nat) (x : Core) : (s.setCore n x).fuseSvn = s.fuseSvn := rfl
@[simp] theorem State.setCore_keys (s : State) (n : Nat) (x : Core) : (s.setCore n x).keys = s.keys := rfl
@[simp] theorem State.setCore_recovery (s : State) (n : Nat) (x : Core) : (s.setCore n x).recovery = s.recovery := rfl
@[simp] theorem State.setCore_booted (s : State) (n : Nat) (x : Core) : (s.setCore n x).booted = s.booted := rfl
@[simp] theorem State.setCore_worldFaults (s : State) (n : Nat) (x : Core) : (s.setCore n x).worldFaults = s.worldFaults := rfl
@[simp] theorem State.setCore_worldRaised (s : State) (n : Nat) (x : Core) : (s.setCore n x).worldRaised = s.worldRaised := rfl
@[simp] theorem State.setCore_worldStart (s : State) (n : Nat) (x : Core) : (s.setCore n x).worldStart = s.worldStart := rfl
@[simp] theorem State.setCore_lines (s : State) (n : Nat) (x : Core) : (s.setCore n x).lines = s.lines := rfl
@[simp] theorem State.setCore_flashOp (s : State) (n : Nat) (x : Core) : (s.setCore n x).flashOp = s.flashOp := rfl
@[simp] theorem State.setCore_shadows (s : State) (n : Nat) (x : Core) : (s.setCore n x).shadows = s.shadows := rfl
@[simp] theorem State.setCore_swaps (s : State) (n : Nat) (x : Core) : (s.setCore n x).swaps = s.swaps := rfl
@[simp] theorem State.setCore_saves (s : State) (n : Nat) (x : Core) : (s.setCore n x).saves = s.saves := rfl
@[simp] theorem State.setCore_hostOut (s : State) (n : Nat) (x : Core) : (s.setCore n x).hostOut = s.hostOut := rfl
@[simp] theorem State.setCore_replies (s : State) (n : Nat) (x : Core) : (s.setCore n x).replies = s.replies := rfl
@[simp] theorem State.setCore_transcript (s : State) (n : Nat) (x : Core) : (s.setCore n x).transcript = s.transcript := rfl
@[simp] theorem State.setCore_nvmeFatal (s : State) (n : Nat) (x : Core) : (s.setCore n x).nvmeFatal = s.nvmeFatal := rfl
@[simp] theorem State.setCore_nvmeUp (s : State) (n : Nat) (x : Core) : (s.setCore n x).nvmeUp = s.nvmeUp := rfl
@[simp] theorem State.setCore_tx (s : State) (n : Nat) (x : Core) : (s.setCore n x).tx = s.tx := rfl
@[simp] theorem State.setCore_txFlows (s : State) (n : Nat) (x : Core) : (s.setCore n x).txFlows = s.txFlows := rfl
@[simp] theorem State.setCore_rx (s : State) (n : Nat) (x : Core) : (s.setCore n x).rx = s.rx := rfl
@[simp] theorem State.setCore_rxLow (s : State) (n : Nat) (x : Core) : (s.setCore n x).rxLow = s.rxLow := rfl
@[simp] theorem State.setCore_holes (s : State) (n : Nat) (x : Core) : (s.setCore n x).holes = s.holes := rfl
@[simp] theorem State.setCore_buckets (s : State) (n : Nat) (x : Core) : (s.setCore n x).buckets = s.buckets := rfl
@[simp] theorem State.setCore_egress (s : State) (n : Nat) (x : Core) : (s.setCore n x).egress = s.egress := rfl
@[simp] theorem State.setCore_ingress (s : State) (n : Nat) (x : Core) : (s.setCore n x).ingress = s.ingress := rfl
@[simp] theorem State.setCore_wire (s : State) (n : Nat) (x : Core) : (s.setCore n x).wire = s.wire := rfl
@[simp] theorem State.setCore_ranks (s : State) (n : Nat) (x : Core) : (s.setCore n x).ranks = s.ranks := rfl

@[simp] theorem State.modCore_now (s : State) (n : Nat) (f : Core → Core) : (s.modCore n f).now = s.now := rfl
@[simp] theorem State.modCore_tick (s : State) (n : Nat) (f : Core → Core) : (s.modCore n f).tick = s.tick := rfl
@[simp] theorem State.modCore_agenda (s : State) (n : Nat) (f : Core → Core) : (s.modCore n f).agenda = s.agenda := rfl
@[simp] theorem State.modCore_cursor (s : State) (n : Nat) (f : Core → Core) : (s.modCore n f).cursor = s.cursor := rfl
@[simp] theorem State.modCore_dram (s : State) (n : Nat) (f : Core → Core) : (s.modCore n f).dram = s.dram := rfl
@[simp] theorem State.modCore_wbuf (s : State) (n : Nat) (f : Core → Core) : (s.modCore n f).wbuf = s.wbuf := rfl
@[simp] theorem State.modCore_abuf (s : State) (n : Nat) (f : Core → Core) : (s.modCore n f).abuf = s.abuf := rfl
@[simp] theorem State.modCore_cbuf (s : State) (n : Nat) (f : Core → Core) : (s.modCore n f).cbuf = s.cbuf := rfl
@[simp] theorem State.modCore_sram (s : State) (n : Nat) (f : Core → Core) : (s.modCore n f).sram = s.sram := rfl
@[simp] theorem State.modCore_bad (s : State) (n : Nat) (f : Core → Core) : (s.modCore n f).bad = s.bad := rfl
@[simp] theorem State.modCore_l2 (s : State) (n : Nat) (f : Core → Core) : (s.modCore n f).l2 = s.l2 := rfl
@[simp] theorem State.modCore_props (s : State) (n : Nat) (f : Core → Core) : (s.modCore n f).props = s.props := rfl
@[simp] theorem State.modCore_nt (s : State) (n : Nat) (f : Core → Core) : (s.modCore n f).nt = s.nt := rfl
@[simp] theorem State.modCore_btc (s : State) (n : Nat) (f : Core → Core) : (s.modCore n f).btc = s.btc := rfl
@[simp] theorem State.modCore_ptc (s : State) (n : Nat) (f : Core → Core) : (s.modCore n f).ptc = s.ptc := rfl
@[simp] theorem State.modCore_procs (s : State) (n : Nat) (f : Core → Core) : (s.modCore n f).procs = s.procs := rfl
@[simp] theorem State.modCore_nextId (s : State) (n : Nat) (f : Core → Core) : (s.modCore n f).nextId = s.nextId := rfl
@[simp] theorem State.modCore_regs (s : State) (n : Nat) (f : Core → Core) : (s.modCore n f).regs = s.regs := rfl
@[simp] theorem State.modCore_aged (s : State) (n : Nat) (f : Core → Core) : (s.modCore n f).aged = s.aged := rfl
@[simp] theorem State.modCore_slackDone (s : State) (n : Nat) (f : Core → Core) : (s.modCore n f).slackDone = s.slackDone := rfl
@[simp] theorem State.modCore_lworld (s : State) (n : Nat) (f : Core → Core) : (s.modCore n f).lworld = s.lworld := rfl
@[simp] theorem State.modCore_unitSince (s : State) (n : Nat) (f : Core → Core) : (s.modCore n f).unitSince = s.unitSince := rfl
@[simp] theorem State.modCore_gone (s : State) (n : Nat) (f : Core → Core) : (s.modCore n f).gone = s.gone := rfl
@[simp] theorem State.modCore_grafts (s : State) (n : Nat) (f : Core → Core) : (s.modCore n f).grafts = s.grafts := rfl
@[simp] theorem State.modCore_images (s : State) (n : Nat) (f : Core → Core) : (s.modCore n f).images = s.images := rfl
@[simp] theorem State.modCore_tokens (s : State) (n : Nat) (f : Core → Core) : (s.modCore n f).tokens = s.tokens := rfl
@[simp] theorem State.modCore_flash (s : State) (n : Nat) (f : Core → Core) : (s.modCore n f).flash = s.flash := rfl
@[simp] theorem State.modCore_header (s : State) (n : Nat) (f : Core → Core) : (s.modCore n f).header = s.header := rfl
@[simp] theorem State.modCore_fuseSvn (s : State) (n : Nat) (f : Core → Core) : (s.modCore n f).fuseSvn = s.fuseSvn := rfl
@[simp] theorem State.modCore_keys (s : State) (n : Nat) (f : Core → Core) : (s.modCore n f).keys = s.keys := rfl
@[simp] theorem State.modCore_recovery (s : State) (n : Nat) (f : Core → Core) : (s.modCore n f).recovery = s.recovery := rfl
@[simp] theorem State.modCore_booted (s : State) (n : Nat) (f : Core → Core) : (s.modCore n f).booted = s.booted := rfl
@[simp] theorem State.modCore_worldFaults (s : State) (n : Nat) (f : Core → Core) : (s.modCore n f).worldFaults = s.worldFaults := rfl
@[simp] theorem State.modCore_worldRaised (s : State) (n : Nat) (f : Core → Core) : (s.modCore n f).worldRaised = s.worldRaised := rfl
@[simp] theorem State.modCore_worldStart (s : State) (n : Nat) (f : Core → Core) : (s.modCore n f).worldStart = s.worldStart := rfl
@[simp] theorem State.modCore_lines (s : State) (n : Nat) (f : Core → Core) : (s.modCore n f).lines = s.lines := rfl
@[simp] theorem State.modCore_flashOp (s : State) (n : Nat) (f : Core → Core) : (s.modCore n f).flashOp = s.flashOp := rfl
@[simp] theorem State.modCore_shadows (s : State) (n : Nat) (f : Core → Core) : (s.modCore n f).shadows = s.shadows := rfl
@[simp] theorem State.modCore_swaps (s : State) (n : Nat) (f : Core → Core) : (s.modCore n f).swaps = s.swaps := rfl
@[simp] theorem State.modCore_saves (s : State) (n : Nat) (f : Core → Core) : (s.modCore n f).saves = s.saves := rfl
@[simp] theorem State.modCore_hostOut (s : State) (n : Nat) (f : Core → Core) : (s.modCore n f).hostOut = s.hostOut := rfl
@[simp] theorem State.modCore_replies (s : State) (n : Nat) (f : Core → Core) : (s.modCore n f).replies = s.replies := rfl
@[simp] theorem State.modCore_transcript (s : State) (n : Nat) (f : Core → Core) : (s.modCore n f).transcript = s.transcript := rfl
@[simp] theorem State.modCore_nvmeFatal (s : State) (n : Nat) (f : Core → Core) : (s.modCore n f).nvmeFatal = s.nvmeFatal := rfl
@[simp] theorem State.modCore_nvmeUp (s : State) (n : Nat) (f : Core → Core) : (s.modCore n f).nvmeUp = s.nvmeUp := rfl
@[simp] theorem State.modCore_tx (s : State) (n : Nat) (f : Core → Core) : (s.modCore n f).tx = s.tx := rfl
@[simp] theorem State.modCore_txFlows (s : State) (n : Nat) (f : Core → Core) : (s.modCore n f).txFlows = s.txFlows := rfl
@[simp] theorem State.modCore_rx (s : State) (n : Nat) (f : Core → Core) : (s.modCore n f).rx = s.rx := rfl
@[simp] theorem State.modCore_rxLow (s : State) (n : Nat) (f : Core → Core) : (s.modCore n f).rxLow = s.rxLow := rfl
@[simp] theorem State.modCore_holes (s : State) (n : Nat) (f : Core → Core) : (s.modCore n f).holes = s.holes := rfl
@[simp] theorem State.modCore_buckets (s : State) (n : Nat) (f : Core → Core) : (s.modCore n f).buckets = s.buckets := rfl
@[simp] theorem State.modCore_egress (s : State) (n : Nat) (f : Core → Core) : (s.modCore n f).egress = s.egress := rfl
@[simp] theorem State.modCore_ingress (s : State) (n : Nat) (f : Core → Core) : (s.modCore n f).ingress = s.ingress := rfl
@[simp] theorem State.modCore_wire (s : State) (n : Nat) (f : Core → Core) : (s.modCore n f).wire = s.wire := rfl
@[simp] theorem State.modCore_ranks (s : State) (n : Nat) (f : Core → Core) : (s.modCore n f).ranks = s.ranks := rfl

@[simp] theorem State.setReg_now (s : State) (n v : Nat) : (s.setReg n v).now = s.now := rfl
@[simp] theorem State.setReg_tick (s : State) (n v : Nat) : (s.setReg n v).tick = s.tick := rfl
@[simp] theorem State.setReg_agenda (s : State) (n v : Nat) : (s.setReg n v).agenda = s.agenda := rfl
@[simp] theorem State.setReg_cursor (s : State) (n v : Nat) : (s.setReg n v).cursor = s.cursor := rfl
@[simp] theorem State.setReg_dram (s : State) (n v : Nat) : (s.setReg n v).dram = s.dram := rfl
@[simp] theorem State.setReg_wbuf (s : State) (n v : Nat) : (s.setReg n v).wbuf = s.wbuf := rfl
@[simp] theorem State.setReg_abuf (s : State) (n v : Nat) : (s.setReg n v).abuf = s.abuf := rfl
@[simp] theorem State.setReg_cbuf (s : State) (n v : Nat) : (s.setReg n v).cbuf = s.cbuf := rfl
@[simp] theorem State.setReg_sram (s : State) (n v : Nat) : (s.setReg n v).sram = s.sram := rfl
@[simp] theorem State.setReg_bad (s : State) (n v : Nat) : (s.setReg n v).bad = s.bad := rfl
@[simp] theorem State.setReg_l2 (s : State) (n v : Nat) : (s.setReg n v).l2 = s.l2 := rfl
@[simp] theorem State.setReg_props (s : State) (n v : Nat) : (s.setReg n v).props = s.props := rfl
@[simp] theorem State.setReg_nt (s : State) (n v : Nat) : (s.setReg n v).nt = s.nt := rfl
@[simp] theorem State.setReg_btc (s : State) (n v : Nat) : (s.setReg n v).btc = s.btc := rfl
@[simp] theorem State.setReg_ptc (s : State) (n v : Nat) : (s.setReg n v).ptc = s.ptc := rfl
@[simp] theorem State.setReg_procs (s : State) (n v : Nat) : (s.setReg n v).procs = s.procs := rfl
@[simp] theorem State.setReg_nextId (s : State) (n v : Nat) : (s.setReg n v).nextId = s.nextId := rfl
@[simp] theorem State.setReg_cores (s : State) (n v : Nat) : (s.setReg n v).cores = s.cores := rfl
@[simp] theorem State.setReg_aged (s : State) (n v : Nat) : (s.setReg n v).aged = s.aged := rfl
@[simp] theorem State.setReg_slackDone (s : State) (n v : Nat) : (s.setReg n v).slackDone = s.slackDone := rfl
@[simp] theorem State.setReg_lworld (s : State) (n v : Nat) : (s.setReg n v).lworld = s.lworld := rfl
@[simp] theorem State.setReg_unitSince (s : State) (n v : Nat) : (s.setReg n v).unitSince = s.unitSince := rfl
@[simp] theorem State.setReg_gone (s : State) (n v : Nat) : (s.setReg n v).gone = s.gone := rfl
@[simp] theorem State.setReg_grafts (s : State) (n v : Nat) : (s.setReg n v).grafts = s.grafts := rfl
@[simp] theorem State.setReg_images (s : State) (n v : Nat) : (s.setReg n v).images = s.images := rfl
@[simp] theorem State.setReg_tokens (s : State) (n v : Nat) : (s.setReg n v).tokens = s.tokens := rfl
@[simp] theorem State.setReg_flash (s : State) (n v : Nat) : (s.setReg n v).flash = s.flash := rfl
@[simp] theorem State.setReg_header (s : State) (n v : Nat) : (s.setReg n v).header = s.header := rfl
@[simp] theorem State.setReg_fuseSvn (s : State) (n v : Nat) : (s.setReg n v).fuseSvn = s.fuseSvn := rfl
@[simp] theorem State.setReg_keys (s : State) (n v : Nat) : (s.setReg n v).keys = s.keys := rfl
@[simp] theorem State.setReg_recovery (s : State) (n v : Nat) : (s.setReg n v).recovery = s.recovery := rfl
@[simp] theorem State.setReg_booted (s : State) (n v : Nat) : (s.setReg n v).booted = s.booted := rfl
@[simp] theorem State.setReg_worldFaults (s : State) (n v : Nat) : (s.setReg n v).worldFaults = s.worldFaults := rfl
@[simp] theorem State.setReg_worldRaised (s : State) (n v : Nat) : (s.setReg n v).worldRaised = s.worldRaised := rfl
@[simp] theorem State.setReg_worldStart (s : State) (n v : Nat) : (s.setReg n v).worldStart = s.worldStart := rfl
@[simp] theorem State.setReg_lines (s : State) (n v : Nat) : (s.setReg n v).lines = s.lines := rfl
@[simp] theorem State.setReg_flashOp (s : State) (n v : Nat) : (s.setReg n v).flashOp = s.flashOp := rfl
@[simp] theorem State.setReg_shadows (s : State) (n v : Nat) : (s.setReg n v).shadows = s.shadows := rfl
@[simp] theorem State.setReg_swaps (s : State) (n v : Nat) : (s.setReg n v).swaps = s.swaps := rfl
@[simp] theorem State.setReg_saves (s : State) (n v : Nat) : (s.setReg n v).saves = s.saves := rfl
@[simp] theorem State.setReg_hostOut (s : State) (n v : Nat) : (s.setReg n v).hostOut = s.hostOut := rfl
@[simp] theorem State.setReg_replies (s : State) (n v : Nat) : (s.setReg n v).replies = s.replies := rfl
@[simp] theorem State.setReg_transcript (s : State) (n v : Nat) : (s.setReg n v).transcript = s.transcript := rfl
@[simp] theorem State.setReg_nvmeFatal (s : State) (n v : Nat) : (s.setReg n v).nvmeFatal = s.nvmeFatal := rfl
@[simp] theorem State.setReg_nvmeUp (s : State) (n v : Nat) : (s.setReg n v).nvmeUp = s.nvmeUp := rfl
@[simp] theorem State.setReg_tx (s : State) (n v : Nat) : (s.setReg n v).tx = s.tx := rfl
@[simp] theorem State.setReg_txFlows (s : State) (n v : Nat) : (s.setReg n v).txFlows = s.txFlows := rfl
@[simp] theorem State.setReg_rx (s : State) (n v : Nat) : (s.setReg n v).rx = s.rx := rfl
@[simp] theorem State.setReg_rxLow (s : State) (n v : Nat) : (s.setReg n v).rxLow = s.rxLow := rfl
@[simp] theorem State.setReg_holes (s : State) (n v : Nat) : (s.setReg n v).holes = s.holes := rfl
@[simp] theorem State.setReg_buckets (s : State) (n v : Nat) : (s.setReg n v).buckets = s.buckets := rfl
@[simp] theorem State.setReg_egress (s : State) (n v : Nat) : (s.setReg n v).egress = s.egress := rfl
@[simp] theorem State.setReg_ingress (s : State) (n v : Nat) : (s.setReg n v).ingress = s.ingress := rfl
@[simp] theorem State.setReg_wire (s : State) (n v : Nat) : (s.setReg n v).wire = s.wire := rfl
@[simp] theorem State.setReg_ranks (s : State) (n v : Nat) : (s.setReg n v).ranks = s.ranks := rfl

@[simp] theorem State.setLine_now (s : State) (die line : Nat) (l : Line) : (s.setLine die line l).now = s.now := rfl
@[simp] theorem State.setLine_tick (s : State) (die line : Nat) (l : Line) : (s.setLine die line l).tick = s.tick := rfl
@[simp] theorem State.setLine_agenda (s : State) (die line : Nat) (l : Line) : (s.setLine die line l).agenda = s.agenda := rfl
@[simp] theorem State.setLine_cursor (s : State) (die line : Nat) (l : Line) : (s.setLine die line l).cursor = s.cursor := rfl
@[simp] theorem State.setLine_dram (s : State) (die line : Nat) (l : Line) : (s.setLine die line l).dram = s.dram := rfl
@[simp] theorem State.setLine_wbuf (s : State) (die line : Nat) (l : Line) : (s.setLine die line l).wbuf = s.wbuf := rfl
@[simp] theorem State.setLine_abuf (s : State) (die line : Nat) (l : Line) : (s.setLine die line l).abuf = s.abuf := rfl
@[simp] theorem State.setLine_cbuf (s : State) (die line : Nat) (l : Line) : (s.setLine die line l).cbuf = s.cbuf := rfl
@[simp] theorem State.setLine_sram (s : State) (die line : Nat) (l : Line) : (s.setLine die line l).sram = s.sram := rfl
@[simp] theorem State.setLine_bad (s : State) (die line : Nat) (l : Line) : (s.setLine die line l).bad = s.bad := rfl
@[simp] theorem State.setLine_props (s : State) (die line : Nat) (l : Line) : (s.setLine die line l).props = s.props := rfl
@[simp] theorem State.setLine_nt (s : State) (die line : Nat) (l : Line) : (s.setLine die line l).nt = s.nt := rfl
@[simp] theorem State.setLine_btc (s : State) (die line : Nat) (l : Line) : (s.setLine die line l).btc = s.btc := rfl
@[simp] theorem State.setLine_ptc (s : State) (die line : Nat) (l : Line) : (s.setLine die line l).ptc = s.ptc := rfl
@[simp] theorem State.setLine_procs (s : State) (die line : Nat) (l : Line) : (s.setLine die line l).procs = s.procs := rfl
@[simp] theorem State.setLine_nextId (s : State) (die line : Nat) (l : Line) : (s.setLine die line l).nextId = s.nextId := rfl
@[simp] theorem State.setLine_cores (s : State) (die line : Nat) (l : Line) : (s.setLine die line l).cores = s.cores := rfl
@[simp] theorem State.setLine_regs (s : State) (die line : Nat) (l : Line) : (s.setLine die line l).regs = s.regs := rfl
@[simp] theorem State.setLine_aged (s : State) (die line : Nat) (l : Line) : (s.setLine die line l).aged = s.aged := rfl
@[simp] theorem State.setLine_slackDone (s : State) (die line : Nat) (l : Line) : (s.setLine die line l).slackDone = s.slackDone := rfl
@[simp] theorem State.setLine_lworld (s : State) (die line : Nat) (l : Line) : (s.setLine die line l).lworld = s.lworld := rfl
@[simp] theorem State.setLine_unitSince (s : State) (die line : Nat) (l : Line) : (s.setLine die line l).unitSince = s.unitSince := rfl
@[simp] theorem State.setLine_gone (s : State) (die line : Nat) (l : Line) : (s.setLine die line l).gone = s.gone := rfl
@[simp] theorem State.setLine_grafts (s : State) (die line : Nat) (l : Line) : (s.setLine die line l).grafts = s.grafts := rfl
@[simp] theorem State.setLine_images (s : State) (die line : Nat) (l : Line) : (s.setLine die line l).images = s.images := rfl
@[simp] theorem State.setLine_tokens (s : State) (die line : Nat) (l : Line) : (s.setLine die line l).tokens = s.tokens := rfl
@[simp] theorem State.setLine_flash (s : State) (die line : Nat) (l : Line) : (s.setLine die line l).flash = s.flash := rfl
@[simp] theorem State.setLine_header (s : State) (die line : Nat) (l : Line) : (s.setLine die line l).header = s.header := rfl
@[simp] theorem State.setLine_fuseSvn (s : State) (die line : Nat) (l : Line) : (s.setLine die line l).fuseSvn = s.fuseSvn := rfl
@[simp] theorem State.setLine_keys (s : State) (die line : Nat) (l : Line) : (s.setLine die line l).keys = s.keys := rfl
@[simp] theorem State.setLine_recovery (s : State) (die line : Nat) (l : Line) : (s.setLine die line l).recovery = s.recovery := rfl
@[simp] theorem State.setLine_booted (s : State) (die line : Nat) (l : Line) : (s.setLine die line l).booted = s.booted := rfl
@[simp] theorem State.setLine_worldFaults (s : State) (die line : Nat) (l : Line) : (s.setLine die line l).worldFaults = s.worldFaults := rfl
@[simp] theorem State.setLine_worldRaised (s : State) (die line : Nat) (l : Line) : (s.setLine die line l).worldRaised = s.worldRaised := rfl
@[simp] theorem State.setLine_worldStart (s : State) (die line : Nat) (l : Line) : (s.setLine die line l).worldStart = s.worldStart := rfl
@[simp] theorem State.setLine_lines (s : State) (die line : Nat) (l : Line) : (s.setLine die line l).lines = s.lines := rfl
@[simp] theorem State.setLine_flashOp (s : State) (die line : Nat) (l : Line) : (s.setLine die line l).flashOp = s.flashOp := rfl
@[simp] theorem State.setLine_shadows (s : State) (die line : Nat) (l : Line) : (s.setLine die line l).shadows = s.shadows := rfl
@[simp] theorem State.setLine_swaps (s : State) (die line : Nat) (l : Line) : (s.setLine die line l).swaps = s.swaps := rfl
@[simp] theorem State.setLine_saves (s : State) (die line : Nat) (l : Line) : (s.setLine die line l).saves = s.saves := rfl
@[simp] theorem State.setLine_hostOut (s : State) (die line : Nat) (l : Line) : (s.setLine die line l).hostOut = s.hostOut := rfl
@[simp] theorem State.setLine_replies (s : State) (die line : Nat) (l : Line) : (s.setLine die line l).replies = s.replies := rfl
@[simp] theorem State.setLine_transcript (s : State) (die line : Nat) (l : Line) : (s.setLine die line l).transcript = s.transcript := rfl
@[simp] theorem State.setLine_nvmeFatal (s : State) (die line : Nat) (l : Line) : (s.setLine die line l).nvmeFatal = s.nvmeFatal := rfl
@[simp] theorem State.setLine_nvmeUp (s : State) (die line : Nat) (l : Line) : (s.setLine die line l).nvmeUp = s.nvmeUp := rfl
@[simp] theorem State.setLine_tx (s : State) (die line : Nat) (l : Line) : (s.setLine die line l).tx = s.tx := rfl
@[simp] theorem State.setLine_txFlows (s : State) (die line : Nat) (l : Line) : (s.setLine die line l).txFlows = s.txFlows := rfl
@[simp] theorem State.setLine_rx (s : State) (die line : Nat) (l : Line) : (s.setLine die line l).rx = s.rx := rfl
@[simp] theorem State.setLine_rxLow (s : State) (die line : Nat) (l : Line) : (s.setLine die line l).rxLow = s.rxLow := rfl
@[simp] theorem State.setLine_holes (s : State) (die line : Nat) (l : Line) : (s.setLine die line l).holes = s.holes := rfl
@[simp] theorem State.setLine_buckets (s : State) (die line : Nat) (l : Line) : (s.setLine die line l).buckets = s.buckets := rfl
@[simp] theorem State.setLine_egress (s : State) (die line : Nat) (l : Line) : (s.setLine die line l).egress = s.egress := rfl
@[simp] theorem State.setLine_ingress (s : State) (die line : Nat) (l : Line) : (s.setLine die line l).ingress = s.ingress := rfl
@[simp] theorem State.setLine_wire (s : State) (die line : Nat) (l : Line) : (s.setLine die line l).wire = s.wire := rfl
@[simp] theorem State.setLine_ranks (s : State) (die line : Nat) (l : Line) : (s.setLine die line l).ranks = s.ranks := rfl

@[simp] theorem State.delLine_now (s : State) (die line : Nat) : (s.delLine die line).now = s.now := rfl
@[simp] theorem State.delLine_tick (s : State) (die line : Nat) : (s.delLine die line).tick = s.tick := rfl
@[simp] theorem State.delLine_agenda (s : State) (die line : Nat) : (s.delLine die line).agenda = s.agenda := rfl
@[simp] theorem State.delLine_cursor (s : State) (die line : Nat) : (s.delLine die line).cursor = s.cursor := rfl
@[simp] theorem State.delLine_dram (s : State) (die line : Nat) : (s.delLine die line).dram = s.dram := rfl
@[simp] theorem State.delLine_wbuf (s : State) (die line : Nat) : (s.delLine die line).wbuf = s.wbuf := rfl
@[simp] theorem State.delLine_abuf (s : State) (die line : Nat) : (s.delLine die line).abuf = s.abuf := rfl
@[simp] theorem State.delLine_cbuf (s : State) (die line : Nat) : (s.delLine die line).cbuf = s.cbuf := rfl
@[simp] theorem State.delLine_sram (s : State) (die line : Nat) : (s.delLine die line).sram = s.sram := rfl
@[simp] theorem State.delLine_bad (s : State) (die line : Nat) : (s.delLine die line).bad = s.bad := rfl
@[simp] theorem State.delLine_props (s : State) (die line : Nat) : (s.delLine die line).props = s.props := rfl
@[simp] theorem State.delLine_nt (s : State) (die line : Nat) : (s.delLine die line).nt = s.nt := rfl
@[simp] theorem State.delLine_btc (s : State) (die line : Nat) : (s.delLine die line).btc = s.btc := rfl
@[simp] theorem State.delLine_ptc (s : State) (die line : Nat) : (s.delLine die line).ptc = s.ptc := rfl
@[simp] theorem State.delLine_procs (s : State) (die line : Nat) : (s.delLine die line).procs = s.procs := rfl
@[simp] theorem State.delLine_nextId (s : State) (die line : Nat) : (s.delLine die line).nextId = s.nextId := rfl
@[simp] theorem State.delLine_cores (s : State) (die line : Nat) : (s.delLine die line).cores = s.cores := rfl
@[simp] theorem State.delLine_regs (s : State) (die line : Nat) : (s.delLine die line).regs = s.regs := rfl
@[simp] theorem State.delLine_aged (s : State) (die line : Nat) : (s.delLine die line).aged = s.aged := rfl
@[simp] theorem State.delLine_slackDone (s : State) (die line : Nat) : (s.delLine die line).slackDone = s.slackDone := rfl
@[simp] theorem State.delLine_lworld (s : State) (die line : Nat) : (s.delLine die line).lworld = s.lworld := rfl
@[simp] theorem State.delLine_unitSince (s : State) (die line : Nat) : (s.delLine die line).unitSince = s.unitSince := rfl
@[simp] theorem State.delLine_gone (s : State) (die line : Nat) : (s.delLine die line).gone = s.gone := rfl
@[simp] theorem State.delLine_grafts (s : State) (die line : Nat) : (s.delLine die line).grafts = s.grafts := rfl
@[simp] theorem State.delLine_images (s : State) (die line : Nat) : (s.delLine die line).images = s.images := rfl
@[simp] theorem State.delLine_tokens (s : State) (die line : Nat) : (s.delLine die line).tokens = s.tokens := rfl
@[simp] theorem State.delLine_flash (s : State) (die line : Nat) : (s.delLine die line).flash = s.flash := rfl
@[simp] theorem State.delLine_header (s : State) (die line : Nat) : (s.delLine die line).header = s.header := rfl
@[simp] theorem State.delLine_fuseSvn (s : State) (die line : Nat) : (s.delLine die line).fuseSvn = s.fuseSvn := rfl
@[simp] theorem State.delLine_keys (s : State) (die line : Nat) : (s.delLine die line).keys = s.keys := rfl
@[simp] theorem State.delLine_recovery (s : State) (die line : Nat) : (s.delLine die line).recovery = s.recovery := rfl
@[simp] theorem State.delLine_booted (s : State) (die line : Nat) : (s.delLine die line).booted = s.booted := rfl
@[simp] theorem State.delLine_worldFaults (s : State) (die line : Nat) : (s.delLine die line).worldFaults = s.worldFaults := rfl
@[simp] theorem State.delLine_worldRaised (s : State) (die line : Nat) : (s.delLine die line).worldRaised = s.worldRaised := rfl
@[simp] theorem State.delLine_worldStart (s : State) (die line : Nat) : (s.delLine die line).worldStart = s.worldStart := rfl
@[simp] theorem State.delLine_lines (s : State) (die line : Nat) : (s.delLine die line).lines = s.lines := rfl
@[simp] theorem State.delLine_flashOp (s : State) (die line : Nat) : (s.delLine die line).flashOp = s.flashOp := rfl
@[simp] theorem State.delLine_shadows (s : State) (die line : Nat) : (s.delLine die line).shadows = s.shadows := rfl
@[simp] theorem State.delLine_swaps (s : State) (die line : Nat) : (s.delLine die line).swaps = s.swaps := rfl
@[simp] theorem State.delLine_saves (s : State) (die line : Nat) : (s.delLine die line).saves = s.saves := rfl
@[simp] theorem State.delLine_hostOut (s : State) (die line : Nat) : (s.delLine die line).hostOut = s.hostOut := rfl
@[simp] theorem State.delLine_replies (s : State) (die line : Nat) : (s.delLine die line).replies = s.replies := rfl
@[simp] theorem State.delLine_transcript (s : State) (die line : Nat) : (s.delLine die line).transcript = s.transcript := rfl
@[simp] theorem State.delLine_nvmeFatal (s : State) (die line : Nat) : (s.delLine die line).nvmeFatal = s.nvmeFatal := rfl
@[simp] theorem State.delLine_nvmeUp (s : State) (die line : Nat) : (s.delLine die line).nvmeUp = s.nvmeUp := rfl
@[simp] theorem State.delLine_tx (s : State) (die line : Nat) : (s.delLine die line).tx = s.tx := rfl
@[simp] theorem State.delLine_txFlows (s : State) (die line : Nat) : (s.delLine die line).txFlows = s.txFlows := rfl
@[simp] theorem State.delLine_rx (s : State) (die line : Nat) : (s.delLine die line).rx = s.rx := rfl
@[simp] theorem State.delLine_rxLow (s : State) (die line : Nat) : (s.delLine die line).rxLow = s.rxLow := rfl
@[simp] theorem State.delLine_holes (s : State) (die line : Nat) : (s.delLine die line).holes = s.holes := rfl
@[simp] theorem State.delLine_buckets (s : State) (die line : Nat) : (s.delLine die line).buckets = s.buckets := rfl
@[simp] theorem State.delLine_egress (s : State) (die line : Nat) : (s.delLine die line).egress = s.egress := rfl
@[simp] theorem State.delLine_ingress (s : State) (die line : Nat) : (s.delLine die line).ingress = s.ingress := rfl
@[simp] theorem State.delLine_wire (s : State) (die line : Nat) : (s.delLine die line).wire = s.wire := rfl
@[simp] theorem State.delLine_ranks (s : State) (die line : Nat) : (s.delLine die line).ranks = s.ranks := rfl

@[simp] theorem State.later_now (s : State) (i : Instr) : (s.later i).now = s.now := rfl
@[simp] theorem State.later_tick (s : State) (i : Instr) : (s.later i).tick = s.tick := rfl
@[simp] theorem State.later_cursor (s : State) (i : Instr) : (s.later i).cursor = s.cursor := rfl
@[simp] theorem State.later_dram (s : State) (i : Instr) : (s.later i).dram = s.dram := rfl
@[simp] theorem State.later_wbuf (s : State) (i : Instr) : (s.later i).wbuf = s.wbuf := rfl
@[simp] theorem State.later_abuf (s : State) (i : Instr) : (s.later i).abuf = s.abuf := rfl
@[simp] theorem State.later_cbuf (s : State) (i : Instr) : (s.later i).cbuf = s.cbuf := rfl
@[simp] theorem State.later_sram (s : State) (i : Instr) : (s.later i).sram = s.sram := rfl
@[simp] theorem State.later_bad (s : State) (i : Instr) : (s.later i).bad = s.bad := rfl
@[simp] theorem State.later_l2 (s : State) (i : Instr) : (s.later i).l2 = s.l2 := rfl
@[simp] theorem State.later_props (s : State) (i : Instr) : (s.later i).props = s.props := rfl
@[simp] theorem State.later_nt (s : State) (i : Instr) : (s.later i).nt = s.nt := rfl
@[simp] theorem State.later_btc (s : State) (i : Instr) : (s.later i).btc = s.btc := rfl
@[simp] theorem State.later_ptc (s : State) (i : Instr) : (s.later i).ptc = s.ptc := rfl
@[simp] theorem State.later_procs (s : State) (i : Instr) : (s.later i).procs = s.procs := rfl
@[simp] theorem State.later_nextId (s : State) (i : Instr) : (s.later i).nextId = s.nextId := rfl
@[simp] theorem State.later_cores (s : State) (i : Instr) : (s.later i).cores = s.cores := rfl
@[simp] theorem State.later_regs (s : State) (i : Instr) : (s.later i).regs = s.regs := rfl
@[simp] theorem State.later_aged (s : State) (i : Instr) : (s.later i).aged = s.aged := rfl
@[simp] theorem State.later_slackDone (s : State) (i : Instr) : (s.later i).slackDone = s.slackDone := rfl
@[simp] theorem State.later_lworld (s : State) (i : Instr) : (s.later i).lworld = s.lworld := rfl
@[simp] theorem State.later_unitSince (s : State) (i : Instr) : (s.later i).unitSince = s.unitSince := rfl
@[simp] theorem State.later_gone (s : State) (i : Instr) : (s.later i).gone = s.gone := rfl
@[simp] theorem State.later_grafts (s : State) (i : Instr) : (s.later i).grafts = s.grafts := rfl
@[simp] theorem State.later_images (s : State) (i : Instr) : (s.later i).images = s.images := rfl
@[simp] theorem State.later_tokens (s : State) (i : Instr) : (s.later i).tokens = s.tokens := rfl
@[simp] theorem State.later_flash (s : State) (i : Instr) : (s.later i).flash = s.flash := rfl
@[simp] theorem State.later_header (s : State) (i : Instr) : (s.later i).header = s.header := rfl
@[simp] theorem State.later_fuseSvn (s : State) (i : Instr) : (s.later i).fuseSvn = s.fuseSvn := rfl
@[simp] theorem State.later_keys (s : State) (i : Instr) : (s.later i).keys = s.keys := rfl
@[simp] theorem State.later_recovery (s : State) (i : Instr) : (s.later i).recovery = s.recovery := rfl
@[simp] theorem State.later_booted (s : State) (i : Instr) : (s.later i).booted = s.booted := rfl
@[simp] theorem State.later_worldFaults (s : State) (i : Instr) : (s.later i).worldFaults = s.worldFaults := rfl
@[simp] theorem State.later_worldRaised (s : State) (i : Instr) : (s.later i).worldRaised = s.worldRaised := rfl
@[simp] theorem State.later_worldStart (s : State) (i : Instr) : (s.later i).worldStart = s.worldStart := rfl
@[simp] theorem State.later_lines (s : State) (i : Instr) : (s.later i).lines = s.lines := rfl
@[simp] theorem State.later_flashOp (s : State) (i : Instr) : (s.later i).flashOp = s.flashOp := rfl
@[simp] theorem State.later_shadows (s : State) (i : Instr) : (s.later i).shadows = s.shadows := rfl
@[simp] theorem State.later_swaps (s : State) (i : Instr) : (s.later i).swaps = s.swaps := rfl
@[simp] theorem State.later_saves (s : State) (i : Instr) : (s.later i).saves = s.saves := rfl
@[simp] theorem State.later_hostOut (s : State) (i : Instr) : (s.later i).hostOut = s.hostOut := rfl
@[simp] theorem State.later_replies (s : State) (i : Instr) : (s.later i).replies = s.replies := rfl
@[simp] theorem State.later_transcript (s : State) (i : Instr) : (s.later i).transcript = s.transcript := rfl
@[simp] theorem State.later_nvmeFatal (s : State) (i : Instr) : (s.later i).nvmeFatal = s.nvmeFatal := rfl
@[simp] theorem State.later_nvmeUp (s : State) (i : Instr) : (s.later i).nvmeUp = s.nvmeUp := rfl
@[simp] theorem State.later_tx (s : State) (i : Instr) : (s.later i).tx = s.tx := rfl
@[simp] theorem State.later_txFlows (s : State) (i : Instr) : (s.later i).txFlows = s.txFlows := rfl
@[simp] theorem State.later_rx (s : State) (i : Instr) : (s.later i).rx = s.rx := rfl
@[simp] theorem State.later_rxLow (s : State) (i : Instr) : (s.later i).rxLow = s.rxLow := rfl
@[simp] theorem State.later_holes (s : State) (i : Instr) : (s.later i).holes = s.holes := rfl
@[simp] theorem State.later_buckets (s : State) (i : Instr) : (s.later i).buckets = s.buckets := rfl
@[simp] theorem State.later_egress (s : State) (i : Instr) : (s.later i).egress = s.egress := rfl
@[simp] theorem State.later_ingress (s : State) (i : Instr) : (s.later i).ingress = s.ingress := rfl
@[simp] theorem State.later_wire (s : State) (i : Instr) : (s.later i).wire = s.wire := rfl
@[simp] theorem State.later_ranks (s : State) (i : Instr) : (s.later i).ranks = s.ranks := rfl

@[simp] theorem State.putTeam_now (s : State) (a : Agent) (u : Team) : (s.putTeam a u).now = s.now := by cases a <;> rfl
@[simp] theorem State.putTeam_tick (s : State) (a : Agent) (u : Team) : (s.putTeam a u).tick = s.tick := by cases a <;> rfl
@[simp] theorem State.putTeam_agenda (s : State) (a : Agent) (u : Team) : (s.putTeam a u).agenda = s.agenda := by cases a <;> rfl
@[simp] theorem State.putTeam_cursor (s : State) (a : Agent) (u : Team) : (s.putTeam a u).cursor = s.cursor := by cases a <;> rfl
@[simp] theorem State.putTeam_dram (s : State) (a : Agent) (u : Team) : (s.putTeam a u).dram = s.dram := by cases a <;> rfl
@[simp] theorem State.putTeam_wbuf (s : State) (a : Agent) (u : Team) : (s.putTeam a u).wbuf = s.wbuf := by cases a <;> rfl
@[simp] theorem State.putTeam_abuf (s : State) (a : Agent) (u : Team) : (s.putTeam a u).abuf = s.abuf := by cases a <;> rfl
@[simp] theorem State.putTeam_cbuf (s : State) (a : Agent) (u : Team) : (s.putTeam a u).cbuf = s.cbuf := by cases a <;> rfl
@[simp] theorem State.putTeam_sram (s : State) (a : Agent) (u : Team) : (s.putTeam a u).sram = s.sram := by cases a <;> rfl
@[simp] theorem State.putTeam_bad (s : State) (a : Agent) (u : Team) : (s.putTeam a u).bad = s.bad := by cases a <;> rfl
@[simp] theorem State.putTeam_l2 (s : State) (a : Agent) (u : Team) : (s.putTeam a u).l2 = s.l2 := by cases a <;> rfl
@[simp] theorem State.putTeam_props (s : State) (a : Agent) (u : Team) : (s.putTeam a u).props = s.props := by cases a <;> rfl
@[simp] theorem State.putTeam_nt (s : State) (a : Agent) (u : Team) : (s.putTeam a u).nt = s.nt := by cases a <;> rfl
@[simp] theorem State.putTeam_btc (s : State) (a : Agent) (u : Team) : (s.putTeam a u).btc = s.btc := by cases a <;> rfl
@[simp] theorem State.putTeam_ptc (s : State) (a : Agent) (u : Team) : (s.putTeam a u).ptc = s.ptc := by cases a <;> rfl
@[simp] theorem State.putTeam_procs (s : State) (a : Agent) (u : Team) : (s.putTeam a u).procs = s.procs := by cases a <;> rfl
@[simp] theorem State.putTeam_nextId (s : State) (a : Agent) (u : Team) : (s.putTeam a u).nextId = s.nextId := by cases a <;> rfl
@[simp] theorem State.putTeam_regs (s : State) (a : Agent) (u : Team) : (s.putTeam a u).regs = s.regs := by cases a <;> rfl
@[simp] theorem State.putTeam_aged (s : State) (a : Agent) (u : Team) : (s.putTeam a u).aged = s.aged := by cases a <;> rfl
@[simp] theorem State.putTeam_slackDone (s : State) (a : Agent) (u : Team) : (s.putTeam a u).slackDone = s.slackDone := by cases a <;> rfl
@[simp] theorem State.putTeam_lworld (s : State) (a : Agent) (u : Team) : (s.putTeam a u).lworld = s.lworld := by cases a <;> rfl
@[simp] theorem State.putTeam_unitSince (s : State) (a : Agent) (u : Team) : (s.putTeam a u).unitSince = s.unitSince := by cases a <;> rfl
@[simp] theorem State.putTeam_gone (s : State) (a : Agent) (u : Team) : (s.putTeam a u).gone = s.gone := by cases a <;> rfl
@[simp] theorem State.putTeam_grafts (s : State) (a : Agent) (u : Team) : (s.putTeam a u).grafts = s.grafts := by cases a <;> rfl
@[simp] theorem State.putTeam_images (s : State) (a : Agent) (u : Team) : (s.putTeam a u).images = s.images := by cases a <;> rfl
@[simp] theorem State.putTeam_tokens (s : State) (a : Agent) (u : Team) : (s.putTeam a u).tokens = s.tokens := by cases a <;> rfl
@[simp] theorem State.putTeam_flash (s : State) (a : Agent) (u : Team) : (s.putTeam a u).flash = s.flash := by cases a <;> rfl
@[simp] theorem State.putTeam_header (s : State) (a : Agent) (u : Team) : (s.putTeam a u).header = s.header := by cases a <;> rfl
@[simp] theorem State.putTeam_fuseSvn (s : State) (a : Agent) (u : Team) : (s.putTeam a u).fuseSvn = s.fuseSvn := by cases a <;> rfl
@[simp] theorem State.putTeam_keys (s : State) (a : Agent) (u : Team) : (s.putTeam a u).keys = s.keys := by cases a <;> rfl
@[simp] theorem State.putTeam_recovery (s : State) (a : Agent) (u : Team) : (s.putTeam a u).recovery = s.recovery := by cases a <;> rfl
@[simp] theorem State.putTeam_booted (s : State) (a : Agent) (u : Team) : (s.putTeam a u).booted = s.booted := by cases a <;> rfl
@[simp] theorem State.putTeam_worldFaults (s : State) (a : Agent) (u : Team) : (s.putTeam a u).worldFaults = s.worldFaults := by cases a <;> rfl
@[simp] theorem State.putTeam_worldRaised (s : State) (a : Agent) (u : Team) : (s.putTeam a u).worldRaised = s.worldRaised := by cases a <;> rfl
@[simp] theorem State.putTeam_worldStart (s : State) (a : Agent) (u : Team) : (s.putTeam a u).worldStart = s.worldStart := by cases a <;> rfl
@[simp] theorem State.putTeam_lines (s : State) (a : Agent) (u : Team) : (s.putTeam a u).lines = s.lines := by cases a <;> rfl
@[simp] theorem State.putTeam_flashOp (s : State) (a : Agent) (u : Team) : (s.putTeam a u).flashOp = s.flashOp := by cases a <;> rfl
@[simp] theorem State.putTeam_shadows (s : State) (a : Agent) (u : Team) : (s.putTeam a u).shadows = s.shadows := by cases a <;> rfl
@[simp] theorem State.putTeam_swaps (s : State) (a : Agent) (u : Team) : (s.putTeam a u).swaps = s.swaps := by cases a <;> rfl
@[simp] theorem State.putTeam_saves (s : State) (a : Agent) (u : Team) : (s.putTeam a u).saves = s.saves := by cases a <;> rfl
@[simp] theorem State.putTeam_hostOut (s : State) (a : Agent) (u : Team) : (s.putTeam a u).hostOut = s.hostOut := by cases a <;> rfl
@[simp] theorem State.putTeam_replies (s : State) (a : Agent) (u : Team) : (s.putTeam a u).replies = s.replies := by cases a <;> rfl
@[simp] theorem State.putTeam_transcript (s : State) (a : Agent) (u : Team) : (s.putTeam a u).transcript = s.transcript := by cases a <;> rfl
@[simp] theorem State.putTeam_nvmeFatal (s : State) (a : Agent) (u : Team) : (s.putTeam a u).nvmeFatal = s.nvmeFatal := by cases a <;> rfl
@[simp] theorem State.putTeam_nvmeUp (s : State) (a : Agent) (u : Team) : (s.putTeam a u).nvmeUp = s.nvmeUp := by cases a <;> rfl
@[simp] theorem State.putTeam_tx (s : State) (a : Agent) (u : Team) : (s.putTeam a u).tx = s.tx := by cases a <;> rfl
@[simp] theorem State.putTeam_txFlows (s : State) (a : Agent) (u : Team) : (s.putTeam a u).txFlows = s.txFlows := by cases a <;> rfl
@[simp] theorem State.putTeam_rx (s : State) (a : Agent) (u : Team) : (s.putTeam a u).rx = s.rx := by cases a <;> rfl
@[simp] theorem State.putTeam_rxLow (s : State) (a : Agent) (u : Team) : (s.putTeam a u).rxLow = s.rxLow := by cases a <;> rfl
@[simp] theorem State.putTeam_holes (s : State) (a : Agent) (u : Team) : (s.putTeam a u).holes = s.holes := by cases a <;> rfl
@[simp] theorem State.putTeam_buckets (s : State) (a : Agent) (u : Team) : (s.putTeam a u).buckets = s.buckets := by cases a <;> rfl
@[simp] theorem State.putTeam_egress (s : State) (a : Agent) (u : Team) : (s.putTeam a u).egress = s.egress := by cases a <;> rfl
@[simp] theorem State.putTeam_ingress (s : State) (a : Agent) (u : Team) : (s.putTeam a u).ingress = s.ingress := by cases a <;> rfl
@[simp] theorem State.putTeam_wire (s : State) (a : Agent) (u : Team) : (s.putTeam a u).wire = s.wire := by cases a <;> rfl
@[simp] theorem State.putTeam_ranks (s : State) (a : Agent) (u : Team) : (s.putTeam a u).ranks = s.ranks := by cases a <;> rfl

@[simp] theorem Core.setTeam_released (c : Core) (slot : Nat) (u : Team) : (c.setTeam slot u).released = c.released := rfl
@[simp] theorem Core.setTeam_sctx (c : Core) (slot : Nat) (u : Team) : (c.setTeam slot u).sctx = c.sctx := rfl
@[simp] theorem Core.setTeam_mctx (c : Core) (slot : Nat) (u : Team) : (c.setTeam slot u).mctx = c.mctx := rfl
@[simp] theorem Core.setTeam_lastTurn (c : Core) (slot : Nat) (u : Team) : (c.setTeam slot u).lastTurn = c.lastTurn := rfl
@[simp] theorem Core.setTeam_stallchk (c : Core) (slot : Nat) (u : Team) : (c.setTeam slot u).stallchk = c.stallchk := rfl
@[simp] theorem Core.setTeam_deadmode (c : Core) (slot : Nat) (u : Team) : (c.setTeam slot u).deadmode = c.deadmode := rfl
@[simp] theorem Core.setTeam_copses (c : Core) (slot : Nat) (u : Team) : (c.setTeam slot u).copses = c.copses := rfl
@[simp] theorem Core.setTeam_ports (c : Core) (slot : Nat) (u : Team) : (c.setTeam slot u).ports = c.ports := rfl
@[simp] theorem Core.setTeam_idlePorts (c : Core) (slot : Nat) (u : Team) : (c.setTeam slot u).idlePorts = c.idlePorts := rfl
@[simp] theorem Core.setTeam_portAt (c : Core) (slot : Nat) (u : Team) : (c.setTeam slot u).portAt = c.portAt := rfl
@[simp] theorem Core.setTeam_crossing (c : Core) (slot : Nat) (u : Team) : (c.setTeam slot u).crossing = c.crossing := rfl
@[simp] theorem Core.setTeam_cmds (c : Core) (slot : Nat) (u : Team) : (c.setTeam slot u).cmds = c.cmds := rfl
@[simp] theorem Core.setTeam_toAccept (c : Core) (slot : Nat) (u : Team) : (c.setTeam slot u).toAccept = c.toAccept := rfl
@[simp] theorem Core.setTeam_eprog (c : Core) (slot : Nat) (u : Team) : (c.setTeam slot u).eprog = c.eprog := rfl
@[simp] theorem Core.setTeam_ereg (c : Core) (slot : Nat) (u : Team) : (c.setTeam slot u).ereg = c.ereg := rfl
@[simp] theorem Core.setTeam_faults (c : Core) (slot : Nat) (u : Team) : (c.setTeam slot u).faults = c.faults := rfl
@[simp] theorem Core.setTeam_waiting (c : Core) (slot : Nat) (u : Team) : (c.setTeam slot u).waiting = c.waiting := rfl
@[simp] theorem Core.setTeam_tq (c : Core) (slot : Nat) (u : Team) : (c.setTeam slot u).tq = c.tq := rfl
@[simp] theorem Core.setTeam_tqWait (c : Core) (slot : Nat) (u : Team) : (c.setTeam slot u).tqWait = c.tqWait := rfl
@[simp] theorem Core.setTeam_residency (c : Core) (slot : Nat) (u : Team) : (c.setTeam slot u).residency = c.residency := rfl
@[simp] theorem Core.setTeam_residencyPosted (c : Core) (slot : Nat) (u : Team) : (c.setTeam slot u).residencyPosted = c.residencyPosted := rfl
@[simp] theorem Core.setTeam_holders (c : Core) (slot : Nat) (u : Team) : (c.setTeam slot u).holders = c.holders := rfl
@[simp] theorem Core.setTeam_lastU (c : Core) (slot : Nat) (u : Team) : (c.setTeam slot u).lastU = c.lastU := rfl
@[simp] theorem Core.setTeam_l1 (c : Core) (slot : Nat) (u : Team) : (c.setTeam slot u).l1 = c.l1 := rfl
@[simp] theorem Core.setTeam_icache (c : Core) (slot : Nat) (u : Team) : (c.setTeam slot u).icache = c.icache := rfl
@[simp] theorem Core.setTeam_meshW (c : Core) (slot : Nat) (u : Team) : (c.setTeam slot u).meshW = c.meshW := rfl
@[simp] theorem Core.setTeam_credit (c : Core) (slot : Nat) (u : Team) : (c.setTeam slot u).credit = c.credit := rfl
@[simp] theorem Core.setTeam_mcWait (c : Core) (slot : Nat) (u : Team) : (c.setTeam slot u).mcWait = c.mcWait := rfl
@[simp] theorem Core.setTeam_mcHeld (c : Core) (slot : Nat) (u : Team) : (c.setTeam slot u).mcHeld = c.mcHeld := rfl
@[simp] theorem Core.setTeam_mcPeak (c : Core) (slot : Nat) (u : Team) : (c.setTeam slot u).mcPeak = c.mcPeak := rfl
@[simp] theorem Core.setTeam_mcSent (c : Core) (slot : Nat) (u : Team) : (c.setTeam slot u).mcSent = c.mcSent := rfl
@[simp] theorem Core.setTeam_links (c : Core) (slot : Nat) (u : Team) : (c.setTeam slot u).links = c.links := rfl

@[simp] theorem Core.setCtx_released (c : Core) (k : Ctx) (x : SCtx) : (c.setCtx k x).released = c.released := by cases k <;> rfl
@[simp] theorem Core.setCtx_lastTurn (c : Core) (k : Ctx) (x : SCtx) : (c.setCtx k x).lastTurn = c.lastTurn := by cases k <;> rfl
@[simp] theorem Core.setCtx_stallchk (c : Core) (k : Ctx) (x : SCtx) : (c.setCtx k x).stallchk = c.stallchk := by cases k <;> rfl
@[simp] theorem Core.setCtx_deadmode (c : Core) (k : Ctx) (x : SCtx) : (c.setCtx k x).deadmode = c.deadmode := by cases k <;> rfl
@[simp] theorem Core.setCtx_teams (c : Core) (k : Ctx) (x : SCtx) : (c.setCtx k x).teams = c.teams := by cases k <;> rfl
@[simp] theorem Core.setCtx_copses (c : Core) (k : Ctx) (x : SCtx) : (c.setCtx k x).copses = c.copses := by cases k <;> rfl
@[simp] theorem Core.setCtx_ports (c : Core) (k : Ctx) (x : SCtx) : (c.setCtx k x).ports = c.ports := by cases k <;> rfl
@[simp] theorem Core.setCtx_idlePorts (c : Core) (k : Ctx) (x : SCtx) : (c.setCtx k x).idlePorts = c.idlePorts := by cases k <;> rfl
@[simp] theorem Core.setCtx_portAt (c : Core) (k : Ctx) (x : SCtx) : (c.setCtx k x).portAt = c.portAt := by cases k <;> rfl
@[simp] theorem Core.setCtx_crossing (c : Core) (k : Ctx) (x : SCtx) : (c.setCtx k x).crossing = c.crossing := by cases k <;> rfl
@[simp] theorem Core.setCtx_cmds (c : Core) (k : Ctx) (x : SCtx) : (c.setCtx k x).cmds = c.cmds := by cases k <;> rfl
@[simp] theorem Core.setCtx_toAccept (c : Core) (k : Ctx) (x : SCtx) : (c.setCtx k x).toAccept = c.toAccept := by cases k <;> rfl
@[simp] theorem Core.setCtx_eprog (c : Core) (k : Ctx) (x : SCtx) : (c.setCtx k x).eprog = c.eprog := by cases k <;> rfl
@[simp] theorem Core.setCtx_ereg (c : Core) (k : Ctx) (x : SCtx) : (c.setCtx k x).ereg = c.ereg := by cases k <;> rfl
@[simp] theorem Core.setCtx_faults (c : Core) (k : Ctx) (x : SCtx) : (c.setCtx k x).faults = c.faults := by cases k <;> rfl
@[simp] theorem Core.setCtx_waiting (c : Core) (k : Ctx) (x : SCtx) : (c.setCtx k x).waiting = c.waiting := by cases k <;> rfl
@[simp] theorem Core.setCtx_tq (c : Core) (k : Ctx) (x : SCtx) : (c.setCtx k x).tq = c.tq := by cases k <;> rfl
@[simp] theorem Core.setCtx_tqWait (c : Core) (k : Ctx) (x : SCtx) : (c.setCtx k x).tqWait = c.tqWait := by cases k <;> rfl
@[simp] theorem Core.setCtx_residency (c : Core) (k : Ctx) (x : SCtx) : (c.setCtx k x).residency = c.residency := by cases k <;> rfl
@[simp] theorem Core.setCtx_residencyPosted (c : Core) (k : Ctx) (x : SCtx) : (c.setCtx k x).residencyPosted = c.residencyPosted := by cases k <;> rfl
@[simp] theorem Core.setCtx_holders (c : Core) (k : Ctx) (x : SCtx) : (c.setCtx k x).holders = c.holders := by cases k <;> rfl
@[simp] theorem Core.setCtx_lastU (c : Core) (k : Ctx) (x : SCtx) : (c.setCtx k x).lastU = c.lastU := by cases k <;> rfl
@[simp] theorem Core.setCtx_l1 (c : Core) (k : Ctx) (x : SCtx) : (c.setCtx k x).l1 = c.l1 := by cases k <;> rfl
@[simp] theorem Core.setCtx_icache (c : Core) (k : Ctx) (x : SCtx) : (c.setCtx k x).icache = c.icache := by cases k <;> rfl
@[simp] theorem Core.setCtx_meshW (c : Core) (k : Ctx) (x : SCtx) : (c.setCtx k x).meshW = c.meshW := by cases k <;> rfl
@[simp] theorem Core.setCtx_credit (c : Core) (k : Ctx) (x : SCtx) : (c.setCtx k x).credit = c.credit := by cases k <;> rfl
@[simp] theorem Core.setCtx_mcWait (c : Core) (k : Ctx) (x : SCtx) : (c.setCtx k x).mcWait = c.mcWait := by cases k <;> rfl
@[simp] theorem Core.setCtx_mcHeld (c : Core) (k : Ctx) (x : SCtx) : (c.setCtx k x).mcHeld = c.mcHeld := by cases k <;> rfl
@[simp] theorem Core.setCtx_mcPeak (c : Core) (k : Ctx) (x : SCtx) : (c.setCtx k x).mcPeak = c.mcPeak := by cases k <;> rfl
@[simp] theorem Core.setCtx_mcSent (c : Core) (k : Ctx) (x : SCtx) : (c.setCtx k x).mcSent = c.mcSent := by cases k <;> rfl
@[simp] theorem Core.setCtx_links (c : Core) (k : Ctx) (x : SCtx) : (c.setCtx k x).links = c.links := by cases k <;> rfl

@[simp] theorem Core.setEntry_released (c : Core) (i : Nat) (e : TqEntry) : (c.setEntry i e).released = c.released := rfl
@[simp] theorem Core.setEntry_sctx (c : Core) (i : Nat) (e : TqEntry) : (c.setEntry i e).sctx = c.sctx := rfl
@[simp] theorem Core.setEntry_mctx (c : Core) (i : Nat) (e : TqEntry) : (c.setEntry i e).mctx = c.mctx := rfl
@[simp] theorem Core.setEntry_lastTurn (c : Core) (i : Nat) (e : TqEntry) : (c.setEntry i e).lastTurn = c.lastTurn := rfl
@[simp] theorem Core.setEntry_stallchk (c : Core) (i : Nat) (e : TqEntry) : (c.setEntry i e).stallchk = c.stallchk := rfl
@[simp] theorem Core.setEntry_deadmode (c : Core) (i : Nat) (e : TqEntry) : (c.setEntry i e).deadmode = c.deadmode := rfl
@[simp] theorem Core.setEntry_teams (c : Core) (i : Nat) (e : TqEntry) : (c.setEntry i e).teams = c.teams := rfl
@[simp] theorem Core.setEntry_copses (c : Core) (i : Nat) (e : TqEntry) : (c.setEntry i e).copses = c.copses := rfl
@[simp] theorem Core.setEntry_ports (c : Core) (i : Nat) (e : TqEntry) : (c.setEntry i e).ports = c.ports := rfl
@[simp] theorem Core.setEntry_idlePorts (c : Core) (i : Nat) (e : TqEntry) : (c.setEntry i e).idlePorts = c.idlePorts := rfl
@[simp] theorem Core.setEntry_portAt (c : Core) (i : Nat) (e : TqEntry) : (c.setEntry i e).portAt = c.portAt := rfl
@[simp] theorem Core.setEntry_crossing (c : Core) (i : Nat) (e : TqEntry) : (c.setEntry i e).crossing = c.crossing := rfl
@[simp] theorem Core.setEntry_cmds (c : Core) (i : Nat) (e : TqEntry) : (c.setEntry i e).cmds = c.cmds := rfl
@[simp] theorem Core.setEntry_toAccept (c : Core) (i : Nat) (e : TqEntry) : (c.setEntry i e).toAccept = c.toAccept := rfl
@[simp] theorem Core.setEntry_eprog (c : Core) (i : Nat) (e : TqEntry) : (c.setEntry i e).eprog = c.eprog := rfl
@[simp] theorem Core.setEntry_ereg (c : Core) (i : Nat) (e : TqEntry) : (c.setEntry i e).ereg = c.ereg := rfl
@[simp] theorem Core.setEntry_faults (c : Core) (i : Nat) (e : TqEntry) : (c.setEntry i e).faults = c.faults := rfl
@[simp] theorem Core.setEntry_waiting (c : Core) (i : Nat) (e : TqEntry) : (c.setEntry i e).waiting = c.waiting := rfl
@[simp] theorem Core.setEntry_tqWait (c : Core) (i : Nat) (e : TqEntry) : (c.setEntry i e).tqWait = c.tqWait := rfl
@[simp] theorem Core.setEntry_residency (c : Core) (i : Nat) (e : TqEntry) : (c.setEntry i e).residency = c.residency := rfl
@[simp] theorem Core.setEntry_residencyPosted (c : Core) (i : Nat) (e : TqEntry) : (c.setEntry i e).residencyPosted = c.residencyPosted := rfl
@[simp] theorem Core.setEntry_holders (c : Core) (i : Nat) (e : TqEntry) : (c.setEntry i e).holders = c.holders := rfl
@[simp] theorem Core.setEntry_lastU (c : Core) (i : Nat) (e : TqEntry) : (c.setEntry i e).lastU = c.lastU := rfl
@[simp] theorem Core.setEntry_l1 (c : Core) (i : Nat) (e : TqEntry) : (c.setEntry i e).l1 = c.l1 := rfl
@[simp] theorem Core.setEntry_icache (c : Core) (i : Nat) (e : TqEntry) : (c.setEntry i e).icache = c.icache := rfl
@[simp] theorem Core.setEntry_meshW (c : Core) (i : Nat) (e : TqEntry) : (c.setEntry i e).meshW = c.meshW := rfl
@[simp] theorem Core.setEntry_credit (c : Core) (i : Nat) (e : TqEntry) : (c.setEntry i e).credit = c.credit := rfl
@[simp] theorem Core.setEntry_mcWait (c : Core) (i : Nat) (e : TqEntry) : (c.setEntry i e).mcWait = c.mcWait := rfl
@[simp] theorem Core.setEntry_mcHeld (c : Core) (i : Nat) (e : TqEntry) : (c.setEntry i e).mcHeld = c.mcHeld := rfl
@[simp] theorem Core.setEntry_mcPeak (c : Core) (i : Nat) (e : TqEntry) : (c.setEntry i e).mcPeak = c.mcPeak := rfl
@[simp] theorem Core.setEntry_mcSent (c : Core) (i : Nat) (e : TqEntry) : (c.setEntry i e).mcSent = c.mcSent := rfl
@[simp] theorem Core.setEntry_links (c : Core) (i : Nat) (e : TqEntry) : (c.setEntry i e).links = c.links := rfl

@[simp] theorem Team.setLane_slane (t : Team) (i : Nat) (l : Lane) : (t.setLane i l).slane = t.slane := rfl
@[simp] theorem Team.setLane_uid (t : Team) (i : Nat) (l : Lane) : (t.setLane i l).uid = t.uid := rfl
@[simp] theorem Team.setLane_copse (t : Team) (i : Nat) (l : Lane) : (t.setLane i l).copse = t.copse := rfl
@[simp] theorem Team.setLane_lseq (t : Team) (i : Nat) (l : Lane) : (t.setLane i l).lseq = t.lseq := rfl
@[simp] theorem Team.setLane_asid (t : Team) (i : Nat) (l : Lane) : (t.setLane i l).asid = t.asid := rfl
@[simp] theorem Team.setLane_priv (t : Team) (i : Nat) (l : Lane) : (t.setLane i l).priv = t.priv := rfl
@[simp] theorem Team.setLane_tno (t : Team) (i : Nat) (l : Lane) : (t.setLane i l).tno = t.tno := rfl
@[simp] theorem Team.setLane_stage (t : Team) (i : Nat) (l : Lane) : (t.setLane i l).stage = t.stage := rfl
@[simp] theorem Team.setLane_code (t : Team) (i : Nat) (l : Lane) : (t.setLane i l).code = t.code := rfl
@[simp] theorem Team.setLane_wbase (t : Team) (i : Nat) (l : Lane) : (t.setLane i l).wbase = t.wbase := rfl
@[simp] theorem Team.setLane_wsize (t : Team) (i : Nat) (l : Lane) : (t.setLane i l).wsize = t.wsize := rfl
@[simp] theorem Team.setLane_st (t : Team) (i : Nat) (l : Lane) : (t.setLane i l).st = t.st := rfl
@[simp] theorem Team.setLane_regs (t : Team) (i : Nat) (l : Lane) : (t.setLane i l).regs = t.regs := rfl
@[simp] theorem Team.setLane_guards (t : Team) (i : Nat) (l : Lane) : (t.setLane i l).guards = t.guards := rfl
@[simp] theorem Team.setLane_scale (t : Team) (i : Nat) (l : Lane) : (t.setLane i l).scale = t.scale := rfl
@[simp] theorem Team.setLane_flags (t : Team) (i : Nat) (l : Lane) : (t.setLane i l).flags = t.flags := rfl
@[simp] theorem Team.setLane_estat (t : Team) (i : Nat) (l : Lane) : (t.setLane i l).estat = t.estat := rfl
@[simp] theorem Team.setLane_region (t : Team) (i : Nat) (l : Lane) : (t.setLane i l).region = t.region := rfl
@[simp] theorem Team.setLane_age (t : Team) (i : Nat) (l : Lane) : (t.setLane i l).age = t.age := rfl
@[simp] theorem Team.setLane_hold (t : Team) (i : Nat) (l : Lane) : (t.setLane i l).hold = t.hold := rfl
@[simp] theorem Team.setLane_pend (t : Team) (i : Nat) (l : Lane) : (t.setLane i l).pend = t.pend := rfl
@[simp] theorem Team.setLane_sys (t : Team) (i : Nat) (l : Lane) : (t.setLane i l).sys = t.sys := rfl
@[simp] theorem Team.setLane_endAt (t : Team) (i : Nat) (l : Lane) : (t.setLane i l).endAt = t.endAt := rfl
@[simp] theorem Team.setLane_saved (t : Team) (i : Nat) (l : Lane) : (t.setLane i l).saved = t.saved := rfl

@[simp] theorem Team.setScale_slane (t : Team) (n : Nat) (x : BitVec 128) : (t.setScale n x).slane = t.slane := rfl
@[simp] theorem Team.setScale_uid (t : Team) (n : Nat) (x : BitVec 128) : (t.setScale n x).uid = t.uid := rfl
@[simp] theorem Team.setScale_copse (t : Team) (n : Nat) (x : BitVec 128) : (t.setScale n x).copse = t.copse := rfl
@[simp] theorem Team.setScale_lseq (t : Team) (n : Nat) (x : BitVec 128) : (t.setScale n x).lseq = t.lseq := rfl
@[simp] theorem Team.setScale_asid (t : Team) (n : Nat) (x : BitVec 128) : (t.setScale n x).asid = t.asid := rfl
@[simp] theorem Team.setScale_priv (t : Team) (n : Nat) (x : BitVec 128) : (t.setScale n x).priv = t.priv := rfl
@[simp] theorem Team.setScale_tno (t : Team) (n : Nat) (x : BitVec 128) : (t.setScale n x).tno = t.tno := rfl
@[simp] theorem Team.setScale_stage (t : Team) (n : Nat) (x : BitVec 128) : (t.setScale n x).stage = t.stage := rfl
@[simp] theorem Team.setScale_code (t : Team) (n : Nat) (x : BitVec 128) : (t.setScale n x).code = t.code := rfl
@[simp] theorem Team.setScale_wbase (t : Team) (n : Nat) (x : BitVec 128) : (t.setScale n x).wbase = t.wbase := rfl
@[simp] theorem Team.setScale_wsize (t : Team) (n : Nat) (x : BitVec 128) : (t.setScale n x).wsize = t.wsize := rfl
@[simp] theorem Team.setScale_st (t : Team) (n : Nat) (x : BitVec 128) : (t.setScale n x).st = t.st := rfl
@[simp] theorem Team.setScale_lanes (t : Team) (n : Nat) (x : BitVec 128) : (t.setScale n x).lanes = t.lanes := rfl
@[simp] theorem Team.setScale_regs (t : Team) (n : Nat) (x : BitVec 128) : (t.setScale n x).regs = t.regs := rfl
@[simp] theorem Team.setScale_guards (t : Team) (n : Nat) (x : BitVec 128) : (t.setScale n x).guards = t.guards := rfl
@[simp] theorem Team.setScale_flags (t : Team) (n : Nat) (x : BitVec 128) : (t.setScale n x).flags = t.flags := rfl
@[simp] theorem Team.setScale_estat (t : Team) (n : Nat) (x : BitVec 128) : (t.setScale n x).estat = t.estat := rfl
@[simp] theorem Team.setScale_region (t : Team) (n : Nat) (x : BitVec 128) : (t.setScale n x).region = t.region := rfl
@[simp] theorem Team.setScale_age (t : Team) (n : Nat) (x : BitVec 128) : (t.setScale n x).age = t.age := rfl
@[simp] theorem Team.setScale_hold (t : Team) (n : Nat) (x : BitVec 128) : (t.setScale n x).hold = t.hold := rfl
@[simp] theorem Team.setScale_pend (t : Team) (n : Nat) (x : BitVec 128) : (t.setScale n x).pend = t.pend := rfl
@[simp] theorem Team.setScale_sys (t : Team) (n : Nat) (x : BitVec 128) : (t.setScale n x).sys = t.sys := rfl
@[simp] theorem Team.setScale_endAt (t : Team) (n : Nat) (x : BitVec 128) : (t.setScale n x).endAt = t.endAt := rfl
@[simp] theorem Team.setScale_saved (t : Team) (n : Nat) (x : BitVec 128) : (t.setScale n x).saved = t.saved := rfl

@[simp] theorem Team.setFlags_slane (t : Team) (f : Nat) : (t.setFlags f).slane = t.slane := rfl
@[simp] theorem Team.setFlags_uid (t : Team) (f : Nat) : (t.setFlags f).uid = t.uid := rfl
@[simp] theorem Team.setFlags_copse (t : Team) (f : Nat) : (t.setFlags f).copse = t.copse := rfl
@[simp] theorem Team.setFlags_lseq (t : Team) (f : Nat) : (t.setFlags f).lseq = t.lseq := rfl
@[simp] theorem Team.setFlags_asid (t : Team) (f : Nat) : (t.setFlags f).asid = t.asid := rfl
@[simp] theorem Team.setFlags_priv (t : Team) (f : Nat) : (t.setFlags f).priv = t.priv := rfl
@[simp] theorem Team.setFlags_tno (t : Team) (f : Nat) : (t.setFlags f).tno = t.tno := rfl
@[simp] theorem Team.setFlags_stage (t : Team) (f : Nat) : (t.setFlags f).stage = t.stage := rfl
@[simp] theorem Team.setFlags_code (t : Team) (f : Nat) : (t.setFlags f).code = t.code := rfl
@[simp] theorem Team.setFlags_wbase (t : Team) (f : Nat) : (t.setFlags f).wbase = t.wbase := rfl
@[simp] theorem Team.setFlags_wsize (t : Team) (f : Nat) : (t.setFlags f).wsize = t.wsize := rfl
@[simp] theorem Team.setFlags_st (t : Team) (f : Nat) : (t.setFlags f).st = t.st := rfl
@[simp] theorem Team.setFlags_lanes (t : Team) (f : Nat) : (t.setFlags f).lanes = t.lanes := rfl
@[simp] theorem Team.setFlags_regs (t : Team) (f : Nat) : (t.setFlags f).regs = t.regs := rfl
@[simp] theorem Team.setFlags_guards (t : Team) (f : Nat) : (t.setFlags f).guards = t.guards := rfl
@[simp] theorem Team.setFlags_scale (t : Team) (f : Nat) : (t.setFlags f).scale = t.scale := rfl
@[simp] theorem Team.setFlags_estat (t : Team) (f : Nat) : (t.setFlags f).estat = t.estat := rfl
@[simp] theorem Team.setFlags_region (t : Team) (f : Nat) : (t.setFlags f).region = t.region := rfl
@[simp] theorem Team.setFlags_age (t : Team) (f : Nat) : (t.setFlags f).age = t.age := rfl
@[simp] theorem Team.setFlags_hold (t : Team) (f : Nat) : (t.setFlags f).hold = t.hold := rfl
@[simp] theorem Team.setFlags_pend (t : Team) (f : Nat) : (t.setFlags f).pend = t.pend := rfl
@[simp] theorem Team.setFlags_sys (t : Team) (f : Nat) : (t.setFlags f).sys = t.sys := rfl
@[simp] theorem Team.setFlags_endAt (t : Team) (f : Nat) : (t.setFlags f).endAt = t.endAt := rfl
@[simp] theorem Team.setFlags_saved (t : Team) (f : Nat) : (t.setFlags f).saved = t.saved := rfl

end Sys2Proof.Machine
end

