-- ==== Sys2Proof/Laws/Traps.lean ====
section
/-! SUPPORT. What taking the traps of a word leaves: fault records, parked fibres, and everything else as it was (R36, R323). -/
namespace Sys2Proof.Machine

/-- A core holds a fault record, in its fault buffer or waiting for it. -/
def Core.recorded (c : Core) (r : FaultRec) : Prop := r ∈ c.waiting ∨ ∃ e ∈ c.faults, r ∈ e.recs

/-- A record that enters is held. -/
theorem addFault_recorded (c : Core) (now : Nat) (r : FaultRec) : (c.addFault now r).recorded r := by
  unfold Core.addFault Core.recorded
  dsimp only
  split
  · rename_i h
    obtain ⟨e, he, hf⟩ := List.any_eq_true.mp h
    refine .inr ⟨{ e with recs := e.recs ++ [r] }, List.mem_map.mpr ⟨e, he, if_pos hf⟩, by simp⟩
  · split
    · exact .inr ⟨⟨now, [r]⟩, by simp, by simp⟩
    · exact .inl (by simp)

/-- What was held stays held. -/
theorem addFault_keeps (c : Core) (now : Nat) (r x : FaultRec) (h : c.recorded x) : (c.addFault now r).recorded x := by
  unfold Core.addFault
  unfold Core.recorded at h ⊢
  dsimp only
  split
  · rcases h with h | ⟨e, he, hx⟩
    · exact .inl h
    · refine .inr ⟨_, List.mem_map.mpr ⟨e, he, rfl⟩, ?_⟩
      split
      · exact List.mem_append_left _ hx
      · exact hx
  · split
    · rcases h with h | ⟨e, he, hx⟩
      · exact .inl h
      · exact .inr ⟨e, List.mem_append_left _ he, hx⟩
    · rcases h with h | h
      · exact .inl (List.mem_append_left _ h)
      · exact .inr h

/-- A state with fault records of a core and nothing else changed. -/
theorem addFaults_state (core : Nat) (f : Nat × Trap → FaultRec) (xs : List (Nat × Trap)) (s : State) :
    let u := xs.foldl (fun s x => s.modCore core (fun c => c.addFault s.now (f x))) s
    (∀ m a, u.byte m a = s.byte m a) ∧ u.now = s.now ∧ (∀ r, (s.core core).recorded r → (u.core core).recorded r) ∧
      ∀ x ∈ xs, (u.core core).recorded (f x) := by
  induction xs generalizing s with
  | nil => exact ⟨fun _ _ => rfl, rfl, fun _ h => h, fun _ h => by cases h⟩
  | cons x xs ih =>
    obtain ⟨h1, h2, h3, h4⟩ := ih (s.modCore core (fun c => c.addFault s.now (f x)))
    have hk : ∀ r, (s.core core).recorded r → ((s.modCore core (fun c => c.addFault s.now (f x))).core core).recorded r := by
      intro r hr
      rw [core_modCore_self]
      exact addFault_keeps _ _ _ _ hr
    refine ⟨fun m a => (h1 m a).trans (by cases m <;> rfl), h2, fun r hr => h3 r (hk r hr), fun y hy => ?_⟩
    rcases List.mem_cons.mp hy with rfl | hy
    · exact h3 _ (by rw [core_modCore_self]; exact addFault_recorded _ _ _)
    · exact h4 y hy

/-- A team whose fibres of a list have been changed by a function. -/
theorem setLanes_team (g : Lane → Lane) (xs : List (Nat × Trap)) (t : Team) :
    let u := xs.foldl (fun (t : Team) x => t.setLane x.1 (g (t.lane x.1))) t
    { u with lanes := t.lanes } = t ∧ u.lanes.length = t.lanes.length ∧
      (∀ i, (∀ x ∈ xs, x.1 ≠ i) → u.lane i = t.lane i) := by
  induction xs generalizing t with
  | nil => exact ⟨rfl, rfl, fun _ _ => rfl⟩
  | cons x xs ih =>
    obtain ⟨h1, h2, h3⟩ := ih (t.setLane x.1 (g (t.lane x.1)))
    refine ⟨?_, ?_, ?_⟩
    · have := congrArg (fun v : Team => { v with lanes := t.lanes }) h1
      exact this
    · exact h2.trans (by simp [Team.setLane])
    · intro i hi
      refine (h3 i (fun y hy => hi y (List.mem_cons_of_mem _ hy))).trans ?_
      have hne := hi x List.mem_cons_self
      simp [Team.setLane, Team.lane, nth_eq, List.getD_eq_getElem?_getD, List.getElem?_set_ne hne]

theorem setLane_lane (t : Team) (i j : Nat) (l : Lane) (h : i < t.lanes.length) :
    (t.setLane i l).lane j = if j = i then l else t.lane j := by
  simp only [Team.setLane, Team.lane, nth_eq, List.getD_eq_getElem?_getD, List.getElem?_set]
  by_cases e : i = j
  · simp [e, e ▸ h]
  · simp [e, Ne.symm e]

/-- A listed fibre is parked at the word; every fibre keeps its predicates. -/
theorem setLanes_parked (g : Lane → Lane) (pc : Nat) (hg : ∀ l, (g l).parked = true ∧ (g l).pc = pc ∧ (g l).pred = l.pred)
    (xs : List (Nat × Trap)) (t : Team) (hx : ∀ x ∈ xs, x.1 < t.lanes.length) :
    let u := xs.foldl (fun (t : Team) x => t.setLane x.1 (g (t.lane x.1))) t
    (∀ i, (u.lane i).pred = (t.lane i).pred) ∧
    (∀ i, ((t.lane i).parked = true ∧ (t.lane i).pc = pc ∨ ∃ x ∈ xs, x.1 = i) → (u.lane i).parked = true ∧ (u.lane i).pc = pc) := by
  induction xs generalizing t with
  | nil => exact ⟨fun _ => rfl, fun i h => by rcases h with h | ⟨x, hx, _⟩; exact h; cases hx⟩
  | cons x xs ih =>
    have hl := hx x List.mem_cons_self
    obtain ⟨h1, h2⟩ := ih (t.setLane x.1 (g (t.lane x.1)))
      (fun y hy => by simpa [Team.setLane] using hx y (List.mem_cons_of_mem _ hy))
    refine ⟨fun i => (h1 i).trans ?_, fun i h => h2 i ?_⟩
    · rw [setLane_lane _ _ _ _ hl]
      split
      · rename_i e; rw [(hg _).2.2, e]
      · rfl
    · rw [setLane_lane _ _ _ _ hl]
      by_cases e : i = x.1
      · rw [if_pos e]
        exact .inl ⟨(hg _).1, (hg _).2.1⟩
      · rw [if_neg e]
        rcases h with h | ⟨y, hy, rfl⟩
        · exact .inl h
        · rcases List.mem_cons.mp hy with rfl | hy
          · exact absurd rfl e
          · exact .inr ⟨y, hy, rfl⟩

theorem mem_trapAll {m : BitVec 32} {x : Trap} {i : Nat} (hi : i < 32) (h : m.getLsbD i = true) : (i, x) ∈ trapAll m x :=
  List.mem_map.mpr ⟨i, List.mem_filter.mpr ⟨List.mem_range.mpr hi, h⟩, rfl⟩

/-- Taking one trap for the fibres of a mask, on a team's path: records and parked fibres, and nothing else. -/
theorem takeTraps_team {s : State} {iss : Iss} {t : Team} {core slot : Nat} {who : BitVec 32} {cause : Nat}
    (ha : iss.agent = .team core slot) (hw : cause ≠ cWORLD) (hb : cause ≠ cBRK) (hl : t.lanes.length = 32) :
    let r := takeTraps s iss t (trapAll who { cause := cause })
    (∀ m a, r.1.byte m a = s.byte m a) ∧ { r.2 with lanes := t.lanes } = t ∧ (∀ i, (r.2.lane i).pred = (t.lane i).pred) ∧
      ∀ i, i < 32 → who.getLsbD i = true → (r.2.lane i).parked = true ∧ (r.2.lane i).pc = iss.pc ∧
        ∃ rec : FaultRec, (r.1.core core).recorded rec ∧ rec.slot = slot ∧ rec.lane = i ∧ rec.pc = iss.pc ∧ rec.cause = cause ∧
          rec.word = iss.bits := by
  have hc : countWorld s ((trapAll who { cause := cause }).filter (fun x => x.2.cause == cWORLD)).length = s := by
    have : (trapAll who { cause := cause }).filter (fun x => x.2.cause == cWORLD) = [] := by
      rw [List.filter_eq_nil_iff]
      intro x hx
      obtain ⟨i, _, rfl⟩ := List.mem_map.mp hx
      simpa using hw
    rw [this]
    simp [countWorld]
  have hbr : ∀ x ∈ trapAll who { cause := cause }, x.2.cause = cause := by
    intro x hx
    obtain ⟨i, _, rfl⟩ := List.mem_map.mp hx
    rfl
  have hlt : ∀ x ∈ trapAll who { cause := cause }, x.1 < t.lanes.length := by
    intro x hx
    obtain ⟨i, hi, rfl⟩ := List.mem_map.mp hx
    rw [hl]
    exact List.mem_range.mp (List.mem_filter.mp hi).1
  let g (l : Lane) : Lane := { l with parked := true, pc := iss.pc, hpc := iss.hpc, wait := none }
  let f (x : Nat × Trap) : FaultRec :=
    { slot := slot, uid := t.uid, lane := x.1, pc := iss.pc, cause := x.2.cause, addr := x.2.addr, word := iss.bits,
      reg := x.2.reg, code := x.2.code, transfer := x.2.transfer, lseq := (provenance s t iss.pc).1,
      opc := (provenance s t iss.pc).2, toM := t.priv == 2, ended := false }
  have hprov : ∀ (xs : List (Nat × Trap)) (u : State), u.images = s.images →
      xs.foldl (fun s (x : Nat × Trap) => s.modCore core (fun c => c.addFault s.now
        { slot := slot, uid := t.uid, lane := x.1, pc := iss.pc, cause := x.2.cause, addr := x.2.addr, word := iss.bits,
          reg := x.2.reg, code := x.2.code, transfer := x.2.transfer, lseq := (provenance s t iss.pc).1,
          opc := (provenance s t iss.pc).2, toM := t.priv == 2, ended := false })) u =
      xs.foldl (fun s x => s.modCore core (fun c => c.addFault s.now (f x))) u := by
    intro xs
    induction xs with
    | nil => intro u _; rfl
    | cons x xs ih =>
      intro u hu
      have e : provenance u t iss.pc = provenance s t iss.pc := by
        unfold provenance
        rw [hu]
      simp only [List.foldl_cons, e]
      exact ih _ hu
  have hlanes : ∀ (xs : List (Nat × Trap)) (u : Team), (∀ x ∈ xs, x.2.cause = cause) →
      xs.foldl (fun (t : Team) x => t.setLane x.1 { t.lane x.1 with
        parked := true, pc := if x.2.cause = cBRK then iss.pc + 8 else iss.pc,
        hpc := if x.2.cause = cBRK ∧ iss.final = true then iss.pc + 8 else iss.hpc, wait := none }) u =
      xs.foldl (fun (t : Team) x => t.setLane x.1 (g (t.lane x.1))) u := by
    intro xs
    induction xs with
    | nil => intro u _; rfl
    | cons x xs ih =>
      intro u hx
      have e := hx x List.mem_cons_self
      simp only [List.foldl_cons, e, hb, false_and, if_false]
      exact ih _ (fun y hy => hx y (List.mem_cons_of_mem _ hy))
  dsimp only
  unfold takeTraps
  rw [hc, ha]
  dsimp only
  rw [hprov _ s rfl, hlanes _ t hbr]
  obtain ⟨a1, -, -, a4⟩ := addFaults_state core f (trapAll who { cause := cause }) s
  obtain ⟨b1, -, -⟩ := setLanes_team g (trapAll who { cause := cause }) t
  obtain ⟨c1, c2⟩ := setLanes_parked g iss.pc (fun _ => ⟨rfl, rfl, rfl⟩) (trapAll who { cause := cause }) t hlt
  refine ⟨a1, b1, c1, fun i hi hm => ?_⟩
  have hmem := mem_trapAll (x := { cause := cause }) hi hm
  obtain ⟨d1, d2⟩ := c2 i (.inr ⟨_, hmem, rfl⟩)
  exact ⟨d1, d2, f (i, { cause := cause }), a4 _ hmem, rfl, rfl, rfl, rfl, rfl⟩

/-- A ready word whose body only traps has that effect. -/
theorem runWord_refused {s : State} {p : Path} {r : Raw} {body : State → Iss → Team → Team → Res} {who : BitVec 32} {cause : Nat}
    (h : Ready s p r) (hb : ∀ t, body s (p.iss s r) (p.view s r) t = resTrap s t who cause) (hw : who ≠ 0) :
    runWord r body s = .next (retire s p (p.iss s r) r (resTrap s p.team who cause)) := by
  have hc : (p.iss s r).core = agentCore p.agent := rfl
  unfold runWord
  rw [h.path]
  simp only
  change Host.Outcome.next (retire s p (p.iss s r) r (effect s p (p.iss s r) r body)) = _
  congr 2
  unfold effect
  rw [h.accepted, hc]
  dsimp only
  have he : (if ((s.core (agentCore p.agent)).stallchk || bit p.clause.header.toNat 8) = true then
      earlyReg p r (p.iss s r).clk else none) = none := by
    split
    · exact h.timely ‹_›
    · rfl
  have ha : deadOf (p.iss s r) (staleView p.team p.lanes (p.iss s r).clk) (valueSrcs r) = none := h.alive
  rw [he]
  dsimp only
  rw [ha]
  dsimp only
  change (if (p.dead s r).isEmpty || (body s (p.iss s r) (p.view s r) (p.marked s r)).traps.isEmpty then
    body s (p.iss s r) (p.view s r) (p.marked s r) else body s (p.iss s r) (p.view s r) p.team) = _
  rw [hb, hb]
  have hne : (trapAll who { cause := cause }).isEmpty = false := by
    rw [List.isEmpty_eq_false_iff]
    intro e
    have hz : lanesOf who = [] := List.map_eq_nil_iff.mp e
    apply hw
    apply BitVec.eq_of_getLsbD_eq
    intro i hi
    have := List.filter_eq_nil_iff.mp hz i (List.mem_range.mpr hi)
    simpa using this
  by_cases hd : (p.dead s r).isEmpty = true
  · have : p.marked s r = p.team := by
      unfold Path.marked
      rw [List.isEmpty_iff.mp hd]
      rfl
    rw [hd, this]
    rfl
  · simp only [resTrap, hne, hd]
    rfl

/-- A ready word on a team's path whose body only traps is turned away. -/
theorem refuses_team {i : Instr} {s : State} {p : Path} {r : Raw} {body : State → Iss → Team → Team → Res} {who : BitVec 32}
    {cause core slot : Nat} (hi : exec i s = runWord r body s) (h : Ready s p r) (ha : p.agent = .team core slot)
    (hb : ∀ t, body s (p.iss s r) (p.view s r) t = resTrap s t who cause) (hw : who ≠ 0) (h1 : cause ≠ cWORLD) (h2 : cause ≠ cBRK) :
    Refuses i s p r who cause := by
  refine ⟨_, hi.trans (runWord_refused h hb hw), ?_⟩
  let res := resTrap s p.team who cause
  let u := { res.s with now := max res.s.now (p.iss s r).clk, tick := s.tick + 1 }
  let t := retiredTeam (delayOf s p r (p.iss s r).clk) p (p.iss s r) r res
  have hl : t.lanes.length = 32 := by
    change (List.map _ (List.range 32)).length = 32
    simp
  obtain ⟨a1, a2, a3, a4⟩ := takeTraps_team (s := u) (iss := p.iss s r) (t := t) (who := who) (core := core) (slot := slot)
    (cause := cause) ha h1 h2 hl
  have hret : retire s p (p.iss s r) r res = (takeTraps u (p.iss s r) t (trapAll who { cause := cause })).1.modCore core
      (teamDone p (p.iss s r) r (delayOf s p r (p.iss s r).clk) (passedOf p res)
        (takeTraps u (p.iss s r) t (trapAll who { cause := cause })).1.now slot
        (takeTraps u (p.iss s r) t (trapAll who { cause := cause })).2) := by
    unfold retire
    rw [ha]
    rfl
  have hin : p.teamIn (retire s p (p.iss s r) r res) = (takeTraps u (p.iss s r) t (trapAll who { cause := cause })).2 := by
    rw [hret, teamIn_teamDone _ _ _ _ _ _ _ _ _ _ ha]
  have htm : { (takeTraps u (p.iss s r) t (trapAll who { cause := cause })).2 with lanes := p.team.lanes, pend := p.team.pend, region := p.team.region } = p.team := by
    have e1 := congrArg (fun v : Team => { v with lanes := p.team.lanes, pend := p.team.pend, region := p.team.region }) a2
    have e2 := retiredTeam_rest (delayOf s p r (p.iss s r).clk) p (p.iss s r) r res
    exact e1.trans e2
  have hpred : ∀ j, j < 32 → (t.lane j).pred = (p.team.lane j).pred := fun j hj => (retiredTeam_lane _ _ _ _ res j hj).1
  refine ⟨?_, ?_, ?_, ?_⟩
  · intro m a
    change (retire s p (p.iss s r) r res).byte m a = _
    rw [hret]
    refine Eq.trans ?_ ((a1 m a).trans ?_) <;> cases m <;> rfl
  · intro c k hk
    change (∀ n, (p.teamIn (retire s p (p.iss s r) r res)).reg n = _) ∧ (p.teamIn (retire s p (p.iss s r) r res)).flags = _ ∧
      (p.teamIn (retire s p (p.iss s r) r res)).scale = _ ∧ ∀ j, j < 32 → ((p.teamIn (retire s p (p.iss s r) r res)).lane j).pred = _
    rw [hin]
    generalize takeTraps u (p.iss s r) t (trapAll who { cause := cause }) = x at a3 htm
    have e1 : x.2.regs = p.team.regs := by have := congrArg Team.regs htm; exact this
    have e2 : x.2.slane = p.team.slane := by have := congrArg Team.slane htm; exact this
    have e3 : x.2.flags = p.team.flags := by have := congrArg Team.flags htm; exact this
    have e4 : x.2.scale = p.team.scale := by have := congrArg Team.scale htm; exact this
    refine ⟨fun n => ?_, e3, e4, fun j hj => (a3 j).trans (hpred j hj)⟩
    unfold Team.reg
    rw [e1, e2]
  · intro c k hk j hj hm
    rw [ha] at hk
    cases hk
    change ((p.teamIn (retire s p (p.iss s r) r res)).lane j).parked = true ∧ ((p.teamIn (retire s p (p.iss s r) r res)).lane j).pc = _ ∧ _
    rw [hin]
    obtain ⟨b1, b2, rec, b3, b4⟩ := a4 j hj hm
    refine ⟨b1, b2, rec, ?_, b4⟩
    change (((retire s p (p.iss s r) r res).core core).recorded rec)
    rw [hret, core_modCore_self]
    exact b3
  · constructor <;> intro c hc <;> rw [ha] at hc <;> cases hc

end Sys2Proof.Machine
end

