-- ==== Sys2Proof/Tests/Slice0.lean ====
section
/-! SUPPORT. Tests: what WellFormed refuses, words written out from the spec's encodings, single steps on small states, and a
state and operands that meet the hypotheses of each statement. Expected results come from the spec's tables and rules. -/
namespace Sys2Proof.Tests
open Sys2Proof Machine

set_option maxRecDepth 100000
set_option exponentiation.threshold 4096

/-! ### Helpers -/

/-- The package with a word in an open clause, its turn next. -/
def placed (r : Raw) : State := State.reset.withFetchWord 64 (wordOfRaw r).toNat

/-- A format R word on registers vd, va, vb, vc, of a TYPE, with its MOD field. -/
def wR (op : Nat) (vd va vb vc : BitVec 8) (ty : BitVec 5) (md : BitVec 11) : Raw := .r op ⟨md, 0, ty, 0, 0, vc, vb, va, vd⟩
/-- A format I word. -/
def wI (op : Nat) (vd va : BitVec 8) (md : BitVec 3) (imm : BitVec 32) : Raw := .i op ⟨imm, md, 0, 0, va, vd⟩
/-- A format M word of a width, guarded by p1, at va plus an offset. -/
def wM (op : Nat) (vd va : BitVec 8) (width : BitVec 3) (off : BitVec 16) (order : BitVec 2) (scope : BitVec 3) : Raw :=
  .m op ⟨0, 0, 0, 0, 0, if order = 0 then 0 else 1, order, scope, width, 0, 1, off, va, vd⟩
/-- A format E word. -/
def wE (op : Nat) (vd va vb vc : BitVec 8) (md : BitVec 16) : Raw := .e op ⟨md, 0, 0, 0, vc, vb, va, vd⟩
/-- A format S word. -/
def wS (op : Nat) (vd va : BitVec 8) (md : BitVec 3) (imm : BitVec 20) (sreg : BitVec 12) : Raw := .s op ⟨sreg, imm, md, 0, 0, va, vd⟩

/-- A register of one value in all lanes. -/
def one (fmt v : Nat) : VReg := ⟨fmt, 0, .uniform (BitVec.ofNat 64 v)⟩

/-- The same package with registers of the placed word's team set. -/
def withRegs (l : List (Nat × VReg)) (s : State) : State :=
  s.modCore 0 (fun c => match c.team? 0 with
    | some t => c.setTeam 0 { t with regs := l.foldl (fun m x => mset m x.1 x.2) t.regs }
    | none => c)

/-- Registers v2 to v5 of one value of a format. -/
def loaded (fmt v : Nat) (s : State) : State := withRegs [(2, one fmt v), (3, one fmt v), (4, one fmt v), (5, one fmt v)] s

/-- A decidable form of `Ready`, and of a condition on the path. -/
def meetsB (s : State) (r : Raw) (f : State → Path → Bool) : Bool :=
  match openPath s with
  | some p =>
    let iss := p.iss s r
    issueReject p.team.slane p.team.priv p.team.wsize (p.clause.header.toNat % 8) iss.final r == none &&
      (!((s.core (agentCore p.agent)).stallchk || bit p.clause.header.toNat 8) || (earlyReg p r iss.clk == none)) &&
      (deadOf iss (p.view s r) (valueSrcs r) == none) && f s p
  | none => false

/-- A word is ready in a state, and its path meets a condition. -/
def Meets (s : State) (r : Raw) (f : State → Path → Bool) : Prop := ∃ p, Ready s p r ∧ f s p = true

theorem meets {s : State} {r : Raw} {f : State → Path → Bool} (h : meetsB s r f = true) : Meets s r f := by
  unfold meetsB at h
  split at h
  · rename_i p hp
    simp only [Bool.and_eq_true, Bool.or_eq_true, beq_iff_eq, Bool.not_eq_true'] at h
    obtain ⟨⟨⟨h1, h2⟩, h3⟩, h4⟩ := h
    refine ⟨p, ⟨hp, h1, fun hs => ?_, h3⟩, h4⟩
    rcases h2 with h2 | h2
    · simp only [Bool.or_eq_true] at hs
      simp only [Bool.or_eq_false_iff] at h2
      simp [h2] at hs
    · exact h2
  · cases h

/-- Every word of a list is ready in the state that holds it, and its path meets a condition. -/
theorem all_meet {l : List Raw} {g : State → State} {f : Raw → State → Path → Bool}
    (h : l.all (fun r => meetsB (g (placed r)) r (f r)) = true) : ∀ r ∈ l, Meets (g (placed r)) r (f r) := by
  intro r hr
  exact meets (List.all_eq_true.mp h r hr)

/-- The fields of a format R word. -/
def rOf : Raw → RW
  | .r _ w => w
  | _ => ⟨0, 0, 0, 0, 0, 0, 0, 0, 0⟩
def mOf : Raw → MW
  | .m _ w => w
  | _ => ⟨0, 0, 0, 0, 0, 0, 0, 0, 0, 0, 0, 0, 0, 0⟩
def eOf : Raw → EW
  | .e _ w => w
  | _ => ⟨0, 0, 0, 0, 0, 0, 0, 0⟩
/-- A little-endian 64-bit word put into DRAM at a physical address, under profile 0. -/
def poke (a v : Nat) (s : State) : State :=
  { s with dram := (List.range 8).foldl (fun d i => cset d (locOf 0 (a + i)) (BitVec.ofNat 8 (v >>> (8 * i)))) s.dram }

/-- Address space 0 with one buffer, handle 1: 64 KiB of memory at physical 0x20_0000, every right, for every engine. -/
def mapped (s : State) : State :=
  poke 0x31000 0x200001 (poke 0x20048 (0xFFFF * 2 ^ 48 + 0x7F * 2 ^ 40 + 0x31 * 2 ^ 12 + 0xF)
    (poke 0x20040 (0x10000 + 2 ^ 48 + 2 * 2 ^ 56) (poke 0x10008 8 (poke 0x10000 0x20001 ((s.setReg 0x600 0x10000).setReg 0x601 1)))))

/-- A register that holds offset `o` in that buffer. -/
def inBuf (o : Nat) : VReg := one 21 (2 ^ 48 + o)

/-- A landing place: a header with LAND at physical address 0x40. -/
def landing (s : State) : State := poke 0x40 0x80 s

/-- Whether a target passes the checks of R14 for the path's team. -/
def landsB (s : State) (p : Path) (x : Int) : Bool := targetCode s (agentCore p.agent) p.team.asid (targetSrc s p.agent p.team) x == 0

theorem landsB_iff (s : State) (p : Path) (x : Int) : landsB s p x = true ↔ p.lands s x := by
  simp [landsB, Path.lands]

/-- The same package with p1 set in lanes 0 and 31 of the placed word's team. -/
def few (s : State) : State :=
  s.modCore 0 (fun c => match c.team? 0 with
    | some t => c.setTeam 0 { t with lanes := (List.range 32).map (fun i => { t.lane i with pred := if i % 31 = 0 then 3 else 1 }) }
    | none => c)

/-! ### Witnesses: what the statements suppose is met -/

def typed (free : Bool) (ty : Nat) (r : Raw) (s : State) (p : Path) : Bool :=
  typeOk (p.view s r) (abRegs (rOf r)) ty free && linksNone (p.view s r) (abRegs (rOf r))

theorem witness_IntegerArithmetic :
    ∀ r ∈ [wR 0x18 6 2 3 0 5 0, wR 0x19 6 2 3 0 5 0, wR 0x1B 6 2 3 0 5 0, wR 0x1C 6 2 3 0 5 0, wR 0x1F 6 2 3 0 5 0, wR 0x20 6 2 3 0 5 0,
      wR 0x21 6 2 3 0 5 0, wR 0x1D 6 2 3 4 5 0, wR 0x1E 6 2 3 4 5 0, wR 0x2B 6 2 3 4 5 0],
    Meets (loaded 5 7 (placed r)) r (typed false 5 r) := all_meet (g := loaded 5 7) (by decide)

theorem witness_CarriesAndCompares :
    (∀ r ∈ [wR 0x1A 6 2 3 0 8 0x20, wR 0x1A 6 2 3 0 8 0x220, wR 0x1A 6 2 3 0 8 0x31, wR 0x23 6 2 3 1 8 0],
      Meets (loaded 8 7 (placed r)) r (typed false 8 r)) ∧
    (∀ r ∈ [wR 0x22 1 2 3 0 5 0x10, wR 0x22 6 2 3 0 5 0x80],
      Meets (loaded 5 7 (placed r)) r (typed false 5 r)) :=
  ⟨all_meet (g := loaded 8 7) (by decide), all_meet (g := loaded 5 7) (by decide)⟩

theorem witness_BitWords :
    ∀ r ∈ [wR 0x24 6 2 3 0 8 1, wR 0x25 6 2 3 0 8 0, wR 0x26 6 2 3 0 8 0, wR 0x27 6 2 3 0 8 0, wR 0x28 6 2 3 0 8 0, wR 0x29 6 2 3 0 8 0,
      wR 0x2A 6 2 3 0 8 0],
    Meets (loaded 8 7 (placed r)) r (typed true 8 r) := all_meet (g := loaded 8 7) (by decide)

theorem witness_CountsMovesAddresses :
    (∀ r ∈ [wR 0x2C 6 2 0 0 8 0, wR 0x2D 6 2 0 0 8 0, wR 0x2E 6 2 0 0 31 0, wI 0x2F 6 0 0 5, wI 0x2F 6 0 5 5, wI 0x2F 2 0 6 5,
      wI 0x2F 6 0 7 5], Meets (loaded 8 7 (placed r)) r (fun _ _ => true)) ∧
    Meets (withRegs [(3, one 21 0x100000000000F)] (loaded 8 7 (placed (wR 0x30 6 2 3 0 21 0)))) (wR 0x30 6 2 3 0 21 0)
      (fun s p => formatsOk (p.view s (wR 0x30 6 2 3 0 21 0)) [2] [4, 6, 8, 7, 0].contains) ∧
    Meets (withRegs [(2, one 21 0x100000000000F)] (loaded 8 7 (placed (wR 0x30 6 2 3 0 21 1)))) (wR 0x30 6 2 3 0 21 1)
      (fun s p => formatsOk (p.view s (wR 0x30 6 2 3 0 21 1)) [2] [21].contains) :=
  ⟨all_meet (g := loaded 8 7) (by decide), meets (by decide), meets (by decide)⟩

theorem witness_LaneMoves :
    ∀ r ∈ [wR 0x31 6 2 0 0 8 1, wR 0x31 6 2 3 0 8 0x7F, wR 0x32 6 2 3 0 8 0, wR 0x33 6 2 0 0 8 0x3E, wR 0x33 6 2 3 0 8 1],
    Meets (loaded 8 7 (placed r)) r (fun s p => typeOk (p.view s r) [2] 8 false &&
      formatsOk (p.view s r) [3] (fun f => typesInt.contains f && fmtBits f == 64)) := all_meet (g := loaded 8 7) (by decide)

theorem witness_ReductionsScansMerges :
    ∀ r ∈ [wR 0x34 6 2 0 0 8 0, wR 0x35 6 2 0 0 8 0, wR 0x36 6 2 3 0 8 0, wR 0x37 6 2 4 0 8 0],
    Meets (loaded 8 7 (placed r)) r (fun s p => typeOk (p.view s r) [2, 3] 8 false && linksNone (p.view s r) [2, 3] &&
      wholeTeam (p.iss s r) p.team && !p.team.slane && 2 ^ 5 == 32 * (64 / fmtBits 8)) := all_meet (g := loaded 8 7) (by decide)

theorem witness_FloatArithmetic :
    (∀ r ∈ [wR 0x38 6 2 3 0 11 0, wR 0x39 6 2 3 0 11 0, wR 0x3A 6 2 3 0 11 0, wR 0x3B 6 2 3 4 11 0, wR 0x3C 6 2 3 0 11 0,
      wR 0x3D 6 2 3 0 11 0, wR 0x3E 6 2 3 0 11 0], Meets (loaded 11 0x3F800000 (placed r)) r (fun s p => ieeeOk (p.view s r) [2, 3] 11)) ∧
    (∀ r ∈ [wR 0x38 6 2 3 0 13 0, wR 0x39 6 2 3 0 13 0, wR 0x3A 6 2 3 0 13 0, wR 0x3B 6 2 3 4 13 0, wR 0x3D 6 2 3 0 13 0,
      wR 0x3E 6 2 3 0 13 0], Meets (loaded 13 0x38 (placed r)) r (fun s p => isNarrow 13 && !p.team.slane &&
        formatsOk (p.view s r) [2, 3] (fun x => x == 13) && wholeTeam (p.iss s r) p.team)) :=
  ⟨all_meet (g := loaded 11 0x3F800000) (by decide), all_meet (g := loaded 13 0x38) (by decide)⟩

theorem witness_FloatFunctionsAndCompares :
    (∀ r ∈ [wR 0x40 6 2 0 0 11 0, wR 0x41 6 2 0 0 11 0, wR 0x42 6 2 0 0 11 0, wR 0x43 6 2 0 0 11 0, wR 0x44 6 2 0 0 11 0,
      wR 0x45 6 2 0 0 11 0, wR 0x46 6 2 0 0 11 0, wR 0x47 6 2 0 0 11 0],
      Meets (loaded 11 0x3F800000 (placed r)) r (fun s p => ieeeOk (p.view s r) [2] 11)) ∧
    (∀ r ∈ [wR 0x3F 1 2 3 0 11 0, wR 0x3F 6 2 3 0 11 0x40],
      Meets (loaded 11 0x3F800000 (placed r)) r (fun s p => fcmpOk (p.view s r) (rOf r))) ∧
    Meets (withRegs [(3, one 5 2)] (loaded 11 0x3F800000 (placed (wR 0x48 6 2 3 0 11 0)))) (wR 0x48 6 2 3 0 11 0)
      (fun s p => ieeeOk (p.view s (wR 0x48 6 2 3 0 11 0)) [2] 11 && linksNone (p.view s (wR 0x48 6 2 3 0 11 0)) [3]) :=
  ⟨all_meet (g := loaded 11 0x3F800000) (by decide), all_meet (g := loaded 11 0x3F800000) (by decide), meets (by decide)⟩

theorem witness_Conversions :
    ∀ r ∈ [wR 0x49 6 2 0 0 12 0, wR 0x49 6 2 0 0 9 0, wR 0x4A 6 2 0 0 5 0, wR 0x4A 6 2 0 0 7 0],
    Meets (loaded 11 0x3F800000 (placed r)) r (fun s p => formatsOk (p.view s r) [2] cvtFormats.contains &&
      linksNone (p.view s r) [2] && partOk 11 (rOf r).ty.toNat 0 && (deadOf (p.iss s r) (p.view s r) [6] == none)) :=
  all_meet (g := loaded 11 0x3F800000) (by decide)

theorem witness_BlockConversions :
    (∀ r ∈ [wR 0x4B 6 2 0 0 13 0x104, wR 0x4B 6 2 0 0 13 0x105],
      Meets (loaded 11 0x3F800000 (placed r)) r (fun s p => !p.team.slane && ieeeOk (p.view s r) [2, 3, 4, 5] 11 && wholeTeam (p.iss s r) p.team)) ∧
    (∀ r ∈ [wR 0x4C 6 2 0 0 11 0, wR 0x4D 6 2 0 0 13 0x100, wR 0x4D 6 2 0 0 13 0x101],
      Meets (loaded 13 0x38 (placed r)) r (fun s p => !p.team.slane && formatsOk (p.view s r) [2] (fun f => f == 13) && wholeTeam (p.iss s r) p.team)) :=
  ⟨all_meet (g := loaded 11 0x3F800000) (by decide), all_meet (g := loaded 13 0x38) (by decide)⟩

theorem witness_DotsAndSums :
    Meets (withRegs [(4, one 11 0)] (loaded 9 0x3C00 (placed (wR 0x4E 6 2 3 4 9 0)))) (wR 0x4E 6 2 3 4 9 0)
      (fun s p => ieeeOk (p.view s (wR 0x4E 6 2 3 4 9 0)) [2, 3] 9 && ieeeOk (p.view s (wR 0x4E 6 2 3 4 9 0)) [4] 11) ∧
    Meets (withRegs [(4, one 11 0)] (loaded 13 0x38 (placed (wR 0x4E 6 2 3 4 13 0)))) (wR 0x4E 6 2 3 4 13 0)
      (fun s p => isNarrow 13 && formatsOk (p.view s (wR 0x4E 6 2 3 4 13 0)) [2, 3] (fun f => f == 13)) ∧
    Meets (loaded 11 0x3F800000 (placed (wR 0x4F 6 2 0 0 11 0))) (wR 0x4F 6 2 0 0 11 0)
      (fun s p => ieeeOk (p.view s (wR 0x4F 6 2 0 0 11 0)) [2] 11 && 2 ^ 6 == 32 * (64 / fmtBits 11)) :=
  ⟨meets (by decide), meets (by decide), meets (by decide)⟩

theorem witness_Pairs :
    Meets (loaded 8 7 (placed (.p ⟨0, ⟨0, 3, 2, 3, 7, 2⟩, ⟨0, 3, 2, 3, 6, 2⟩⟩))) (.p ⟨0, ⟨0, 3, 2, 3, 7, 2⟩, ⟨0, 3, 2, 3, 6, 2⟩⟩)
      (fun s p => let r := Raw.p ⟨0, ⟨0, 3, 2, 3, 7, 2⟩, ⟨0, 3, 2, 3, 6, 2⟩⟩
        copOk (p.view s r) ⟨0, 3, 2, 3, 6, 2⟩ && copOk (p.view s r) ⟨0, 3, 2, 3, 7, 2⟩) := meets (by decide)
theorem witness_Branches :
    (∀ r ∈ [wI 0x01 0 0 0 7, wI 0x02 0 0 0 7, wI 0x02 0 2 1 0, wR 0x03 0 2 0 0 0 0, wR 0x05 0 2 0 0 0 0],
      Meets (landing (loaded 8 64 (placed r))) r (fun s p => (p.iss s r).act == p.lanes && (p.iss s r).act != 0 && landsB s p 64 &&
        formatsOk (p.view s r) [2] numFmts.contains && (p.iss s r).pc == 8)) ∧
    Meets (placed (wI 0x01 0 0 0 7)) (wI 0x01 0 0 0 7) (fun s p => !landsB s p 64 && !p.team.slane) :=
  ⟨all_meet (g := fun s => landing (loaded 8 64 s)) (by decide), meets (by decide)⟩

theorem witness_CallsAndLoops :
    ∀ r ∈ [wI 0x04 6 0 0 7, wI 0x06 2 2 0 7], Meets (landing (loaded 8 64 (placed r))) r (fun s p => landsB s p 64 &&
      formatsOk (p.view s r) [2] [8, 7].contains) := all_meet (g := fun s => landing (loaded 8 64 s)) (by decide)

theorem witness_FibresAndRegions :
    (∀ r ∈ [wI 0x07 6 2 0 0xFFFFFFFF, wR 0x08 0 0 0 0 0 0, wR 0x09 0 0 0 0 0 0, wI 0x0A 0 2 0 0, wI 0x0A 0 0 4 0],
      Meets (landing (loaded 8 64 (placed r))) r (fun s p => !p.team.slane && (p.iss s r).act != 0 && landsB s p 64 &&
        wholeTeam (p.iss s r) p.team && formatsOk (p.view s r) [2] numFmts.contains)) :=
  all_meet (g := fun s => landing (loaded 8 64 s)) (by decide)

theorem witness_Predicates :
    ∀ r ∈ [wR 0x0B 1 1 0 0 0 0, wR 0x0B 1 1 0 0 0 1, wR 0x0B 1 2 0 0 0 2, wR 0x0B 6 1 0 0 0 3, wR 0x16 6 2 0 0 0 0, wR 0x17 0 2 4 0 0 0],
    Meets (loaded 8 64 (placed r)) r (fun _ p => !p.team.slane) := all_meet (g := loaded 8 64) (by decide)

theorem witness_PredicateTable : Meets (placed (wR 0x0C 3 1 2 0 0 6)) (wR 0x0C 3 1 2 0 0 6) (fun _ _ => true) := meets (by decide)

theorem witness_SignaturesAndBarriers :
    (∀ r ∈ [wE 0x0D 0 0 0 0 1, wI 0x0E 0 0 0 0x10, wI 0x0E 0 0 1 0x10],
      Meets (placed r) r (fun s p => (p.iss s r).act != 0)) ∧
    (((placed (wR 0 0 0 0 0 0 0)).core 0).copse? bareCopse.id = some bareCopse) ∧
    (let cv := mget bareCopse.cv ⟨false, 0, [], 0, 0⟩ 15
     let me : BitVec 16 := BitVec.twoPow 16 bareTeam.tno
     (2 : BitVec 16) &&& me = 0 ∧ cv.collecting = false ∧ (1 : BitVec 16) &&& me ≠ 0 ∧ me = 1 ∧ me ≠ 3 ∧ (3 : BitVec 16) &&& me ≠ 0) ∧
    (let cv : Cv := ⟨true, 5, [], 7, 4⟩
     let me : BitVec 16 := BitVec.twoPow 16 bareTeam.tno
     cv.collecting = true ∧ cv.word = 5 ∧ cv.word ≠ 6 ∧ cv.ops = [] ∧ cv.arrived &&& me = 0 ∧ cv.arrived ||| me ≠ 7 ∧ cv.arrived ||| me = 5) ∧
    (let bar : Bar := ⟨3, 1, false⟩
     bar.arrived ≠ 0 ∧ 2 ≠ bar.expected ∧ 3 = bar.expected ∧ bar.arrived + 1 ≠ 3 ∧ bar.arrived + 2 = 3) :=
  ⟨all_meet (g := id) (by decide), by decide, by decide, by decide, by decide⟩

theorem witness_Waits :
    (∀ r ∈ [wR 0 0 0 0 0 0 0, wI 0x0F 0 0 0 0x1FA, wR 0x13 0 0 0 0 0 0], Meets (placed r) r (fun s p => (p.iss s r).act != 0)) ∧
    Meets (withRegs [(2, inBuf 8), (3, one 8 0)] (few (mapped (placed (wM 0x10 3 2 3 0 1 3))))) (wM 0x10 3 2 3 0 1 3)
      (fun s p => let r := wM 0x10 3 2 3 0 1 3
        formatsOk (p.view s r) [2] (addrFormats 0).contains &&
          (ctrReads (p.iss s r) (p.view s r) (mOf r) (lanesOf (p.iss s r).act) s).2.2.isEmpty &&
          (lanesOf (p.iss s r).act).all (fun i => (ctrReads (p.iss s r) (p.view s r) (mOf r) (lanesOf (p.iss s r).act) s).2.1.contains i)) ∧
    Meets (withRegs [(2, inBuf 8), (3, one 8 1)] (few (mapped (placed (wM 0x10 3 2 3 0 1 3))))) (wM 0x10 3 2 3 0 1 3)
      (fun s p => let r := wM 0x10 3 2 3 0 1 3
        (ctrReads (p.iss s r) (p.view s r) (mOf r) (lanesOf (p.iss s r).act) s).2.1.isEmpty) :=
  ⟨all_meet (g := id) (by decide), meets (by decide), meets (by decide)⟩

theorem witness_Guards :
    ∀ r ∈ [wE 0x11 7 0 0 0 0, wE 0x12 7 1 0 0 0, wE 0x12 7 1 0 0 1, wE 0x12 7 0 0 0 2, wE 0x12 7 0 0 0 3],
    Meets (placed r) r (fun _ p => !p.team.slane) := all_meet (g := id) (by decide)

/-- A word in core 0's M context instead, its turn next. -/
def onLane (r : Raw) : State := { State.reset.modCore 0 (laneWithWord (wordOfRaw r)) with booted := true, cursor := .lane 0 .m }

theorem witness_SystemTraps :
    (∀ r ∈ [wI 0x14 6 0 0 3, wI 0x15 0 0 0 3], Meets (placed r) r (fun s p => p.agent == .team 0 0 && (p.iss s r).act != 0 &&
      (lanesOf (p.iss s r).act).length ≤ (s.core 0).tqFree.length)) ∧
    Meets ((placed (wI 0x14 6 0 0 3)).modCore 0 (fun c => { c with tq := (List.range 64).map (fun i => (i, { freeEntry with st := .taken })) }))
      (wI 0x14 6 0 0 3) (fun s p => (s.core 0).tqFree.length < (lanesOf (p.iss s (wI 0x14 6 0 0 3)).act).length) ∧
    (let r := Raw.i 0x14 ⟨3, 0, 0, 1, 0, 6⟩
     Meets (placed r) r (fun s p => p.agent == .team 0 0 && (p.iss s r).act == 0)) ∧
    (let r := Raw.i 0x15 ⟨3, 0, 0, 1, 0, 0⟩
     Meets (onLane r) r (fun s p => p.agent == .ctx 0 .m && (p.iss s r).act == 0)) ∧
    (let r := wI 0x15 0 0 0 3
     Meets (onLane r) r (fun s p => p.agent == .ctx 0 .m && (p.iss s r).act != 0)) :=
  ⟨all_meet (g := id) (by decide), meets (by decide), meets (by decide), meets (by decide), meets (by decide)⟩
/-- A format M word at SPACE 2, the A-buffer, or 1, cluster SRAM. -/
def wMs (op : Nat) (vd va : BitVec 8) (width : BitVec 3) (space : BitVec 3) : Raw := .m op ⟨0, space, 0, 0, 0, 0, 0, 0, width, 0, 0, 0, va, vd⟩

theorem witness_LoadsAndBytes :
    (∀ r ∈ [wM 0x50 6 2 4 0 0 0, wM 0x51 6 2 3 8 0 0],
      Meets (withRegs [(2, inBuf 16)] (few (mapped (placed r)))) r (fun s p =>
        let f (s : State) (i : Nat) := loadLane s (p.iss s r) (p.view s r) (mOf r) (widthBytes (mOf r)) (mDisp (mOf r)) i
        formatsOk (p.view s r) [2] (addrFormats 0).contains && (p.each s r f).2.2.isEmpty && !p.team.slane && (p.iss s r).act != 0)) ∧
    Meets (withRegs [(2, inBuf 16)] (few (mapped (placed (wM 0x50 6 2 4 0 0 0))))) (wM 0x50 6 2 4 0 0 0) (fun s p =>
      match (laneCheck s (p.iss s (wM 0x50 6 2 4 0 0 0)) (p.view s (wM 0x50 6 2 4 0 0 0)) (mOf (wM 0x50 6 2 4 0 0 0)) 16 0 1 0 [0, 3] 31).2 with
      | .ok (tgt, _) => s.bad.isEmpty && (tgt.cells 16).length == 16
      | .error _ => false) :=
  ⟨all_meet (g := fun s => withRegs [(2, inBuf 16)] (few (mapped s))) (by decide), meets (by decide)⟩

theorem witness_StoresAndBytes :
    (∀ r ∈ [wM 0x52 4 2 3 0 0 0, wM 0x53 4 2 3 0 0 0, wM 0x54 4 2 3 0 0 0],
      Meets (withRegs [(2, inBuf 16), (4, one 8 0x1122334455667788), (5, one 8 0xFF)] (few (mapped (placed r)))) r (fun s p =>
        let bytes (i : Nat) := if rawOp r = 0x54 then maskedBytes (p.view s r) (mOf r) i else (storeBytes (p.view s r) (mOf r) i).map some
        let f (s : State) (i : Nat) := storeLane s (p.iss s r) (p.view s r) (mOf r) (bytes i) (mDisp (mOf r)) i
        formatsOk (p.view s r) [2] (addrFormats 0).contains && !p.team.slane && (p.iss s r).act != 0 && Memory.wf s.dram && mrising s.l2 &&
          (lanesOf (p.iss s r).act).all (fun i => match p.goal s r (mOf r) f 8 0 2 1 [0, 3] i with
            | some t => (t.cells 8).length == 8 && decide (t.cells 8).Nodup
            | none => false))) ∧
    (let r := wM 0x53 4 2 3 0 0 0
     Meets (withRegs [(2, inBuf 16), (4, one 8 5)] (mapped (placed r))) r (fun s p =>
        (p.iss s r).act == 0 && formatsOk (p.view s r) [2] (addrFormats 0).contains)) ∧
    (let r := Raw.m 0x53 ⟨0, 0, 0, 0, 0, 0, 0, 0, 3, 0, 0, 0, 2, 4⟩
     Meets ((mapped (onLane r)).modCore 0 (fun c => { c with mctx := { c.mctx with regs := [(2, 2 ^ 48 + 16), (4, 5)] } })) r (fun s p =>
        let f (s : State) (i : Nat) :=
          storeLane s (p.iss s r) (p.view s r) (mOf r) ((storeBytes (p.view s r) (mOf r) i).map some) (mDisp (mOf r)) i
        p.team.slane && (p.goal s r (mOf r) f 8 0 2 1 [0, 3] 0).isSome)) ∧
    (let r := Raw.m 0x52 ⟨0, 0, 1, 0, 0, 0, 0, 0, 3, 0, 0, 0, 2, 4⟩
     Meets (withRegs [(2, inBuf 16), (4, one 8 5)] (mapped (placed r))) r (fun s p =>
        match (laneCheck s (p.iss s r) (p.view s r) (mOf r) 8 0 2 1 [0, 3] 0).2 with
        | .ok (.dram first lines, _) => (mOf r).nt == 1 && (mOf r).strong == 0 && ((Tgt.dram first lines).cells 8).length == 8
        | _ => false)) ∧
    (let r := Raw.m 0x52 ⟨0, 0, 0, 0, 0, 0, 0, 0, 3, 0, 0, 0, 2, 4⟩
     Meets (poke 0x20048 (0xFFFF * 2 ^ 48 + 0x7F * 2 ^ 40 + 3) <| poke 0x20040 (0x10000 + 2 ^ 48 + 3 * 2 ^ 62) (withRegs [(2, inBuf 16), (4, one 8 5)]
        (((mapped (placed r)).setReg 0x8D1 0x10001).setReg 0x8C1 1))) r (fun s p =>
        match (laneCheck s (p.iss s r) (p.view s r) (mOf r) 8 0 2 1 [0, 3] 0).2 with
        | .ok (.host a, _) => a == 16
        | _ => false)) :=
  ⟨all_meet (g := fun s => withRegs [(2, inBuf 16), (4, one 8 0x1122334455667788), (5, one 8 0xFF)] (few (mapped s))) (by decide),
   meets (by decide), meets (by decide), meets (by decide), meets (by decide)⟩

theorem witness_AccessChecks :
    Meets (withRegs [(2, one 21 (2 ^ 49))] (few (mapped (placed (wM 0x50 6 2 3 0 0 0))))) (wM 0x50 6 2 3 0 0 0) (fun s p =>
      let r := wM 0x50 6 2 3 0 0 0
      p.agent == .team 0 0 && (p.each s r (fun s i => loadLane s (p.iss s r) (p.view s r) (mOf r) 8 0 i)).2.2.length == 2) ∧
    (let s := mapped State.reset
     let q (h : Nat) (o : Int) (align rights : Nat) : Req :=
       { asid := 0, core := 0, handle := h, off := o, n := 8, align := align, rights := rights, kinds := [0], emask := none, acc := 0 }
     let cause (q : Req) : Nat := match check0 s q true with
       | .error (k, _) => k
       | .ok _ => 0
     cause (q 1 (-1) 1 1) = cBOUNDS ∧ cause (q 1 (2 ^ 48) 1 1) = cBOUNDS ∧ cause (q 1 4 8 1) = cALIGN ∧ cause (q 8 0 8 1) = cNULLH ∧
       cause (q 1 65536 8 1) = cBOUNDS ∧ cause (q 1 0 8 16) = cRIGHTS ∧ cause (q 1 65528 8 1) = 0 ∧ cause (q 1 0 8 1) = 0) ∧
    (((mapped State.reset).bte 0 1).isSome = true ∧ ((mapped State.reset).bte 0 8) = none ∧
      ((mapped State.reset).bte 0 1).all (fun e => e.length == 65536 && e.owner == 0xFFFF && e.kind == 0 && e.rights == 15 && !e.world)) :=
  ⟨meets (by decide), by decide, by decide⟩

theorem witness_ScaledRecords :
    Meets (withRegs [(2, inBuf 0)] (mapped (placed (.m 0x55 ⟨0, 0, 0, 0, 0, 0, 0, 0, 3, 0, 0, 0x6880, 2, 6⟩)))) (.m 0x55 ⟨0, 0, 0, 0, 0, 0, 0, 0, 3, 0, 0, 0x6880, 2, 6⟩)
      (fun s p => let r := Raw.m 0x55 ⟨0, 0, 0, 0, 0, 0, 0, 0, 3, 0, 0, 0x6880, 2, 6⟩
        wholeTeam (p.iss s r) p.team && (p.iss s r).act != 0 &&
          (match (loadLane s (p.iss s r) (p.view s r) (mOf r) 272 (recordDisp (mOf r)) 0).2 with
            | .ok bs => bs.length == 272
            | .error _ => false)) ∧
    Meets (withRegs [(2, inBuf 0), (4, one 13 0x38)] (mapped (placed (.m 0x56 ⟨0, 0, 0, 0, 0, 0, 0, 0, 3, 0, 0, 0, 2, 4⟩)))) (.m 0x56 ⟨0, 0, 0, 0, 0, 0, 0, 0, 3, 0, 0, 0, 2, 4⟩)
      (fun s p => let r := Raw.m 0x56 ⟨0, 0, 0, 0, 0, 0, 0, 0, 3, 0, 0, 0, 2, 4⟩
        wholeTeam (p.iss s r) p.team && (p.iss s r).act != 0 && formatsOk (p.view s r) [4] isNarrow) ∧
    (∀ r ∈ [Raw.m 0x55 ⟨0, 0, 0, 0, 0, 0, 0, 0, 3, 0, 1, 0x6880, 2, 6⟩, .m 0x56 ⟨0, 0, 0, 0, 0, 0, 0, 0, 3, 0, 1, 0, 2, 4⟩],
      Meets (placed r) r (fun s p => (p.iss s r).act == 0)) ∧
    (let v := { bareTeam with regs := [(4, ⟨13, 2, .uniform 5⟩), (5, one 18 5)] }
     (v.reg 4).isDead = false ∧ (v.reg 4).link ≠ 0 ∧ (v.reg 5).isDead = false ∧ (v.reg 5).link = 0) :=
  ⟨meets (by decide), meets (by decide), all_meet (g := id) (by decide), by decide⟩

/-- An atomic of selector `sel` (0–7 integer, 8–10 float). -/
def wAtom (vd va : BitVec 8) (width : BitVec 3) (nt : BitVec 1) (seam : BitVec 3) : Raw :=
  .m 0x57 ⟨seam, 0, nt, 0, 0, 1, 0, 4, width, 0, 1, 0, va, vd⟩

theorem witness_Atomics :
    ∀ r ∈ [wAtom 4 2 3 0 0, wAtom 4 2 3 0 1, wAtom 4 2 3 0 2, wAtom 4 2 3 0 3, wAtom 4 2 3 0 4, wAtom 4 2 3 0 5, wAtom 4 2 3 0 6,
        wAtom 4 2 3 0 7, wAtom 4 2 3 1 0, wAtom 4 2 3 1 1, wAtom 4 2 3 1 2, .m 0x58 ⟨0, 0, 0, 0, 0, 1, 0, 4, 3, 0, 1, 0, 2, 4⟩],
      Meets (withRegs [(2, inBuf 16), (4, one 8 5), (5, one 8 6)] (few (mapped (placed r)))) r (fun s p =>
        let f (s : State) (i : Nat) := atomLane s (p.iss s r) (p.view s r) (mOf r) 8 (fun m => some (m + 1)) i
        formatsOk (p.view s r) [2] (addrFormats 0).contains && (p.each s r f).2.2.isEmpty && s.bad.isEmpty && s.l2.isEmpty && Memory.wf s.dram &&
          (match p.goal s r (mOf r) f 8 0 11 2 [0] 31 with
            | some t => (t.cells 8).length == 8 && decide (t.cells 8).Nodup
            | none => false)) :=
  all_meet (g := fun s => withRegs [(2, inBuf 16), (4, one 8 5), (5, one 8 6)] (few (mapped s))) (by decide)

theorem witness_Upkeep :
    (∀ r ∈ [wM 0x5D 0 2 0 0 0 0, wM 0x5D 0 2 1 0 0 0, wM 0x5E 0 2 0 0 0 0, wM 0x5E 0 2 1 0 0 0, wM 0x5E 0 2 2 0 0 0, wM 0x5E 0 2 3 0 0 0,
        wM 0x5F 6 2 3 0 0 0],
      Meets (withRegs [(2, inBuf 16)] (few (mapped (placed r)))) r (fun s p =>
        let f (s : State) (i : Nat) : State × Except Trap Unit :=
          match (laneCheck s (p.iss s r) (p.view s r) (mOf r) 1 0 2 1 [0] i).2 with
          | .ok _ => (s, .ok ())
          | .error x => (s, .error (checkTrap x))
        formatsOk (p.view s r) [2] (addrFormats 0).contains && (p.each s r f).2.2.isEmpty)) ∧
    Memory.wf (mapped State.reset).dram = true ∧ mrising (mapped State.reset).l2 = true ∧ (mapped State.reset).agreed 128 :=
  ⟨all_meet (g := fun s => withRegs [(2, inBuf 16)] (few (mapped s))) (by decide), by decide, by decide, by intro e h; cases h⟩

theorem witness_FencesAndDrains :
    ∀ r ∈ [wM 0x59 0 0 0 0 1 5, wM 0x59 0 0 0 0 2 6, wM 0x59 0 0 0 0 3 3, wI 0x5C 0 0 0 0, wI 0x5C 0 0 0 1, wI 0x5C 0 0 0 2, wI 0x5C 0 0 0 3,
      wI 0x5C 0 0 0 4], Meets (few (placed r)) r (fun s p => (p.iss s r).act != 0 && ((s.core 0).cmds.filter (fun k => k.writing)).isEmpty) :=
  all_meet (g := few) (by decide)

/-! ### Engine words -/

/-- A register that the word reads holds one value of an admitted format. -/
def operandB (s : State) (p : Path) (r : Raw) (n : Nat) (fmts : List Nat) (x : Word) : Bool :=
  formatsOk (p.view s r) [n] fmts.contains && (List.range 32).all (fun i => !p.lanes.getLsbD i || p.src s r n i == x)

theorem operandB_sound {s : State} {p : Path} {r : Raw} {n : Nat} {fmts : List Nat} {x : Word}
    (h : operandB s p r n fmts x = true) : p.operand s r n fmts x := by
  simp only [operandB, Bool.and_eq_true, List.all_eq_true, List.mem_range, Bool.or_eq_true, Bool.not_eq_true', beq_iff_eq] at h
  refine ⟨h.1, fun i hi => ?_⟩
  have hlt : i < 32 := by
    rcases Nat.lt_or_ge i 32 with hl | hl
    · exact hl
    · simp [BitVec.getLsbD_of_ge _ _ hl] at hi
  rcases h.2 i hlt with h0 | h1
  · rw [h0] at hi; cases hi
  · exact h1

/-- The four operands of a format E word. -/
def fourB (s : State) (p : Path) (op : Nat) (w : EW) (fd fa fb fc : List Nat) (d a b c : Word) : Bool :=
  let r := Raw.e op w
  let row := eRow op w
  (if row.vd = .reg then operandB s p r w.vd.toNat fd d else d == 0) &&
  (if row.va = .reg then operandB s p r w.va.toNat fa a else a == 0) &&
  (if row.vb = .reg then operandB s p r w.vb.toNat fb b else b == 0) &&
  (if row.vc = .reg then operandB s p r w.vc.toNat fc c else c == 0)

theorem fourB_sound {s : State} {p : Path} {op : Nat} {w : EW} {fd fa fb fc : List Nat} {d a b c : Word}
    (h : fourB s p op w fd fa fb fc d a b c = true) : p.four s op w fd fa fb fc d a b c := by
  simp only [fourB, Bool.and_eq_true] at h
  obtain ⟨⟨⟨h1, h2⟩, h3⟩, h4⟩ := h
  refine ⟨?_, ?_, ?_, ?_⟩
  · split at h1
    · rename_i hr; simpa [hr] using operandB_sound h1
    · rename_i hr; simpa [hr] using h1
  · split at h2
    · rename_i hr; simpa [hr] using operandB_sound h2
    · rename_i hr; simpa [hr] using h2
  · split at h3
    · rename_i hr; simpa [hr] using operandB_sound h3
    · rename_i hr; simpa [hr] using h3
  · split at h4
    · rename_i hr; simpa [hr] using operandB_sound h4
    · rename_i hr; simpa [hr] using h4

/-- Operands VD, VA, VB, VC in v5, v2, v3, v4. -/
def ops4 (d a b c : VReg) (s : State) : State := withRegs [(5, d), (2, a), (3, b), (4, c)] (mapped s)
/-- A number, and an offset in buffer 1. -/
def num (v : Nat) : VReg := one 8 v
def adr (o : Nat) : Word := BitVec.ofNat 64 (2 ^ 48 + o)

theorem witness_PutsAndCopies :
    (let r := wE 0x5A 5 2 3 4 2
     Meets (ops4 (num 64) (inBuf 16) (inBuf 4096) (inBuf 64) (placed r)) r (fun s p =>
      fourB s p 0x5A (eOf r) numFmts addrFmts addrFmts addrFmts 64 (adr 16) (adr 4096) (adr 64) &&
      sourceCheck s (p.iss s r) p.team (adr 16) 64 == none && memCheck s (p.iss s r) p.team (adr 4096) 64 1 2 [0, 3, 2] 5 1 == none &&
      counterCheck s (p.iss s r) p.team (eOf r) [64, adr 16, adr 4096, adr 64] == none)) ∧
    (let r := wE 0x5B 0 2 3 4 0x302
     Meets (ops4 (num 0) (num 7) (inBuf 4096) (inBuf 64) (placed r)) r (fun s p =>
      operandB s p r 3 addrFmts (adr 4096) && operandB s p r 4 addrFmts (adr 64) && !p.team.slane &&
      memCheck s (p.iss s r) p.team (adr 4096) 32 1 2 [0, 3, 2] 5 1 == none && counterCheck s (p.iss s r) p.team (eOf r) [32, 0, adr 4096, adr 64] == none)) ∧
    (let r := wE 0x69 5 2 3 4 0x24
     Meets (ops4 (num (3 * 2 ^ 32 + 16)) (inBuf 0) (num 64) (num (32 * 2 ^ 32 + 256)) (placed r)) r (fun s p =>
      fourB s p 0x69 (eOf r) numFmts addrFmts numFmts numFmts (BitVec.ofNat 64 (3 * 2 ^ 32 + 16)) (adr 0) 64 (BitVec.ofNat 64 (32 * 2 ^ 32 + 256)) &&
      placeCheck s (p.iss s r) p.team 0 (adr 0) 528 false 0 copyKinds == none && placeCheck s (p.iss s r) p.team 2 64 80 true 0 copyKinds == none)) ∧
    (let r := wE 0x6A 5 2 3 4 3
     Meets (ops4 (num 4) (inBuf 0) (inBuf 4096) (inBuf 64) (placed r)) r (fun s p =>
      fourB s p 0x6A (eOf r) numFmts addrFmts addrFmts addrFmts 4 (adr 0) (adr 4096) (adr 64) &&
      placeCheck s (p.iss s r) p.team 0 (adr 64) 16 false 1 copyKinds == none && entryCheck s (p.iss s r) p.team (adr 0) 1 1 0 == none &&
      placeCheck s (p.iss s r) p.team 0 (adr 4096) 32 true 1 copyKinds == none)) ∧
    (let r := wE 0x6B 5 2 3 4 3
     Meets (ops4 (num 4) (inBuf 0) (inBuf 4096) (inBuf 64) (placed r)) r (fun s p =>
      fourB s p 0x6B (eOf r) numFmts addrFmts addrFmts addrFmts 4 (adr 0) (adr 4096) (adr 64) &&
      placeCheck s (p.iss s r) p.team 0 (adr 64) 16 false 1 copyKinds == none && entryCheck s (p.iss s r) p.team (adr 4096) 2 1 1 == none &&
      placeCheck s (p.iss s r) p.team 0 (adr 0) 32 false 1 copyKinds == none)) ∧
    (let r := wE 0x6C 5 2 3 0 0
     Meets (ops4 (num 64) (inBuf 0) (inBuf 4096) (num 0) (placed r)) r (fun s p =>
      fourB s p 0x6C (eOf r) numFmts addrFmts addrFmts [] 64 (adr 0) (adr 4096) 0 &&
      memCheck s (p.iss s r) p.team (adr 4096) 64 1 2 [0] 0 1 == none && memCheck s (p.iss s r) p.team (adr 0) 64 1 1 [0] 0 0 == none)) ∧
    (let r := wE 0x6C 5 2 3 0 1
     Meets (ops4 (num 64) (num 0xAB) (inBuf 4096) (num 0) (placed r)) r (fun s p =>
      fourB s p 0x6C (eOf r) numFmts numFmts addrFmts [] 64 0xAB (adr 4096) 0 && memCheck s (p.iss s r) p.team (adr 4096) 64 1 2 [0] 0 1 == none)) :=
  ⟨meets (by decide), meets (by decide), meets (by decide), meets (by decide), meets (by decide), meets (by decide), meets (by decide)⟩

theorem witness_MatrixWords :
    (∀ op ∈ [0x60, 0x61, 0x62], let r := wE op (if op = 0x61 then 0 else 5) 2 (if op = 0x61 then 0 else 3) 4 (if op = 0x62 then 13 else 0x1AD)
     Meets (ops4 (num 0) (num 1) (num 2) (num 1) (placed r)) r (fun s p =>
      fourB s p op (eOf r) numFmts numFmts numFmts numFmts (if op = 0x61 then 0 else 0) 1 (if op = 0x61 then 0 else 2) 1)) ∧
    (let r := wE 0x63 5 2 3 4 0x2D
     Meets ((fun s : State => poke 0x20040 (0x10000 + 2 ^ 48 + 2 * 2 ^ 56 + 2 ^ 58) (s.setReg 0x611 1)) (ops4 (inBuf 4096) (num 16) (inBuf 0) (num (32 * 2 ^ 16 * 0 + 32 * 1 + 2 ^ 24)) (placed r))) r (fun s p =>
      fourB s p 0x63 (eOf r) addrFmts numFmts addrFmts numFmts (adr 4096) 16 (adr 0) (BitVec.ofNat 64 (32 + 2 ^ 24)) &&
      memCheck s (p.iss s r) p.team (adr 0) (gemvRow 13 32) 1 1 [0] 4 0 == none && bit (profileOf s p.team.asid (adr 0)) 0 && memCheck s (p.iss s r) p.team (adr 4096) 4 1 2 [0] 4 1 == none)) ∧
    (let r := wE 0x65 0 2 0 0 5
     Meets (ops4 (num 0) (one 5 1) (num 2) (num 1) (placed r)) r (fun s p =>
      formatsOk (p.view s r) [2] (twin 5) && wholeTeam (p.iss s r) p.team)) ∧
    (let r := wE 0x66 0 0 0 0 0
     Meets (placed r) r (fun _ _ => true)) ∧
    (let r := wE 0x67 0 2 0 0 4
     Meets (ops4 (num 0) (num 16) (num 2) (num 1) (placed r)) r (fun s p => fourB s p 0x67 (eOf r) [] numFmts [] [] 0 16 0 0)) ∧
    (let r := wE 0x68 5 2 3 4 4
     Meets (ops4 (inBuf 0) (num 8) (num 64) (num 128) (placed r)) r (fun s p =>
      fourB s p 0x68 (eOf r) addrFmts numFmts numFmts numFmts (adr 0) 8 64 128 && memCheck s (p.iss s r) p.team (adr 0) 136 1 2 copyKinds 2 1 == none && (s.core 0).eprog.isEmpty)) ∧
    (let r := wE 0x64 6 0 0 0 5
     Meets (placed r) r (fun s p => !p.team.slane && wholeTeam (p.iss s r) p.team && !(s.core 0).cmds.any (fun k => k.cls == 2) &&
      (readQuarter s 0 (eOf r).md).isSome)) ∧
    (let r := wE 0x6F 6 0 0 0 10
     Meets (placed r) r (fun s p => !(s.core 0).cmds.any (fun k => k.cls == 2 && k.counts (issuerOf p.agent) p.team.uid))) :=
  ⟨by intro op h; simp only [List.mem_cons, List.not_mem_nil, or_false] at h
      rcases h with rfl | rfl | rfl <;> exact meets (by decide),
   meets (by decide), meets (by decide), meets (by decide), meets (by decide), meets (by decide), meets (by decide), meets (by decide)⟩

theorem witness_Collectives :
    (∀ op ∈ [0, 1, 2, 3, 4, 5, 6], let r := wE 0x6D 5 2 3 4 (BitVec.ofNat 16 (op + 8 * (if op = 3 then 13 else 5)))
     Meets (ops4 (num 64) (inBuf 0) (inBuf 4096) (inBuf 64) (placed r)) r (fun s p =>
      fourB s p 0x6D (eOf r) numFmts addrFmts addrFmts addrFmts 64 (adr 0) (adr 4096) (adr 64) &&
      memCheck s (p.iss s r) p.team (adr 0) 66 1 1 [0] 3 0 == none && memCheck s (p.iss s r) p.team (adr 4096) 66 1 2 [0] 3 1 == none &&
      memCheck s (p.iss s r) p.team (adr 64) 64 1 1 [0] 3 0 == none)) ∧
    (let r := wE 0x6E 5 2 3 0 2
     Meets (poke 0x20050 1 (poke 0x20040 (0x10000 + 2 ^ 48 + 2 ^ 62) (poke 0x20048 (0xFFFF * 2 ^ 48 + 0x7F * 2 ^ 40 + 1)
        (ops4 (num 0) (inBuf 0) (num 64) (num 0) (placed r))))) r (fun s p =>
      fourB s p 0x6E (eOf r) numFmts addrFmts numFmts addrFmts 0 (adr 0) 64 0 &&
      memCheck s (p.iss s r) p.team (adr 0) 0 1 1 [1] 6 0 == none && placeCheck s (p.iss s r) p.team 2 64 0 true 6 [0] == none)) ∧
    (∀ lba : Nat, lba ≠ 0 → (adr 0).toNat % 2 ^ 48 % lba = 0 ∧ 0 % lba = 0) :=
  ⟨by intro op h; simp only [List.mem_cons, List.not_mem_nil, or_false] at h
      rcases h with rfl | rfl | rfl | rfl | rfl | rfl | rfl <;> exact meets (by decide),
   meets (by decide), by intro lba _; rw [show (adr 0).toNat % 2 ^ 48 = 0 by decide]; simp⟩

/-! ### Class 5 -/

/-- The same package with the M context's registers of core 0. -/
def lane (l : List (Nat × Word)) (s : State) : State := s.modCore 0 (fun c => { c with mctx := { c.mctx with regs := l } })
/-- A change of core 0's M context. -/
def withM (f : SCtx → SCtx) (s : State) : State := s.modCore 0 (fun c => { c with mctx := f c.mctx })

theorem witness_SystemRegisters :
    Meets (placed (wS 0x70 6 0 0 0 0x103)) (wS 0x70 6 0 0 0 0x103) (fun _ p => p.agent == .team 0 0) ∧
    Meets (withRegs [(2, num 5)] (placed (wS 0x71 0 2 0 0 0x187))) (wS 0x71 0 2 0 0 0x187) (fun s p =>
      let r := wS 0x71 0 2 0 0 0x187
      p.src s r 2 0 == 5 && (p.iss s r).act != 0 && (regWrite (s.putTeam p.agent p.team) p.agent false 0x187 5).2 == none) ∧
    Meets (placed (wS 0x71 0 0 1 9 0x187)) (wS 0x71 0 0 1 9 0x187) (fun s p =>
      (regWrite (s.putTeam p.agent p.team) p.agent false 0x187 9).2 == none) ∧
    (let r := wS 0x71 0 2 0 0 0x80A
     Meets { onLane r with swaps := [⟨0, 0, false⟩] } r (fun s p => (p.iss s r).act != 0 && dieBusy s (swapSlot 0) && p.src s r 2 0 == 0)) :=
  ⟨meets (by decide), meets (by decide), meets (by decide), meets (by decide)⟩

theorem witness_RegisterFields :
    (((placed (wS 0x70 6 0 0 0 0x103)).core 0).team? 0).isSome = true ∧ (0x600, 0xFFFFFFFFF0, 0) ∈ [((0x600 : Nat), (0xFFFFFFFFF0 : Word), (0 : Word))] :=
  ⟨by decide, by decide⟩

/-- Core 0's M context between clauses with event 11 pending, its handler at physical 0x80. -/
def pending : State := withM (fun x => { x with lane := { x.lane with live := true }, pend11 := true, tvec := 0x80 }) State.reset

theorem witness_TakingEvents :
    (atBoundary (pending.core 0) .m = true ∧ ((pending.core 0).ctx .m).trap = false ∧ source pending 0 .m = some 11 ∧
      ctxInside (pending.core 0) .s = false ∧ entryCode pending 0 0 .phys 0x80 = 0) ∧ source State.reset 0 .s = none ∧
    (let s := withM (fun x => { x with trap := true }) pending
     ((s.core 0).ctx .m).trap = true ∧ ((s.core 0).ctx .m).lane.wait = none) ∧
    (let s := withM (fun x => { x with lane := { x.lane with wait := some .wfi } }) pending
     (source s 0 .m).isSome = true ∧ ((s.core 0).ctx .m).lane.wait = some .wfi) := by decide

/-- Core 0's S context with SRET in an open clause. -/
def sretOfS : State :=
  let w := wordOfRaw (wS 0x72 0 0 0 0 0)
  let s := State.reset.withFetchWord 64 w.toNat
  { s.modCore 0 (fun c => { c with mctx := State.reset.core 0 |>.mctx,
                                   sctx := { c.sctx with clause := some (oneWordClause w 1), lane := { freeLane with live := true } } })
    with cursor := .lane 0 .s }

theorem witness_TrapReturn :
    Meets sretOfS (wS 0x72 0 0 0 0 0) (fun s p => p.agent == .ctx 0 .s && !((s.core 0).ctx .s).trap) ∧
    Meets (landing (withM (fun x => { x with trap := true, epc := 0x40 }) (placed (wS 0x72 0 0 0 0 0)))) (wS 0x72 0 0 0 0 0) (fun s p =>
      p.agent == .ctx 0 .m && ((s.core 0).ctx .m).trap && source s 0 .m == none && targetCode s 0 0 .phys 0x40 == 0) ∧
    Meets (withM (fun x => { x with trap := true, tvec := 0x80, pend11 := true }) (placed (wS 0x72 0 0 0 0 0))) (wS 0x72 0 0 0 0 0) (fun s p =>
      p.agent == .ctx 0 .m && ((s.core 0).ctx .m).trap && source s 0 .m == some 11 && entryCode s 0 0 .phys 0x80 == 0) :=
  ⟨meets (by decide), meets (by decide), meets (by decide)⟩

/-- The path's word is rejected before it issues. -/
def rejects (s : State) (r : Raw) : Bool :=
  match openPath s with
  | some p => (issueReject p.team.slane p.team.priv p.team.wsize (p.clause.header.toNat % 8) (p.iss s r).final r).isSome
  | none => false

/-- The same package with fibres 16 to 31 of the placed word's team at a wait. -/
def half (s : State) : State :=
  s.modCore 0 (fun c => match c.team? 0 with
    | some t => c.setTeam 0 { t with lanes := (List.range 32).map (fun i => if i < 16 then t.lane i else { t.lane i with wait := some .wfi }) }
    | none => c)

/-- A register whose lane i holds i. -/
def counted (fmt : Nat) : VReg := ⟨fmt, 0, .general ((List.range 32).map (BitVec.ofNat 64))⟩

/-- Formats, links and uniformity that R46, R74, R75, R96, R102, R121 and R147 refuse. -/
theorem witness_RefusedSources :
    (∀ r ∈ [wR 0x18 6 2 3 0 5 0, wR 0x19 6 2 3 0 5 0, wR 0x1B 6 2 3 0 5 0, wR 0x1C 6 2 3 0 5 0, wR 0x1F 6 2 3 0 5 0, wR 0x20 6 2 3 0 5 0,
        wR 0x21 6 2 3 0 5 0, wR 0x1D 6 2 3 4 5 0, wR 0x1E 6 2 3 4 5 0, wR 0x22 1 2 3 0 5 0x10, wR 0x34 6 2 0 0 5 0, wR 0x35 6 2 0 0 5 0],
      Meets (loaded 11 7 (placed r)) r (fun s p => !typeOk (p.view s r) (abRegs (rOf r)) 5 false && (p.iss s r).act != 0)) ∧
    (∀ r ∈ [wR 0x24 6 2 3 0 31 0], Meets (withRegs [(3, one 6 7)] (loaded 5 7 (placed r))) r (fun s p =>
      !typeOk (p.view s r) (abRegs (rOf r)) 31 true && (p.iss s r).act != 0)) ∧
    (∀ r ∈ [wR 0x38 6 2 3 0 11 0, wR 0x39 6 2 3 0 11 0, wR 0x3A 6 2 3 0 11 0, wR 0x3B 6 2 3 4 11 0, wR 0x3D 6 2 3 0 11 0, wR 0x3E 6 2 3 0 11 0],
      Meets (loaded 5 7 (placed r)) r (fun s p => !formatsOk (p.view s r) [2, 3] (fun f => f == 11) && (p.iss s r).act != 0)) ∧
    (∀ r ∈ [wR 0x38 6 2 3 0 13 0x100], Meets (half (loaded 13 7 (placed r))) r (fun s p =>
      formatsOk (p.view s r) [2, 3] (fun f => f == 13) && !wholeTeam (p.iss s r) p.team)) ∧
    (∀ r ∈ [wR 0x4D 6 2 0 0 13 0x101], Meets (half (loaded 13 7 (placed r))) r (fun s p =>
      formatsOk (p.view s r) [2] (fun f => f == 13) && !wholeTeam (p.iss s r) p.team)) ∧
    Meets (few (placed (.i 2 ⟨8, 0, 0, 1, 0, 0⟩))) (.i 2 ⟨8, 0, 0, 1, 0, 0⟩) (fun s p =>
      let iss := p.iss s (.i 2 ⟨8, 0, 0, 1, 0, 0⟩)
      iss.act != 0 && iss.act != iss.lanes) ∧
    Meets (withRegs [(2, counted 8)] (placed (.i 2 ⟨0, 1, 0, 0, 2, 0⟩))) (.i 2 ⟨0, 1, 0, 0, 2, 0⟩) (fun s p =>
      let r := Raw.i 2 ⟨0, 1, 0, 0, 2, 0⟩
      formatsOk (p.view s r) [2] numFmts.contains && p.src s r 2 0 != p.src s r 2 1) ∧
    (∀ r ∈ [wR 0x33 6 2 3 0 5 1], Meets (withRegs [(3, counted 8)] (loaded 5 7 (placed r))) r (fun s p =>
      typeOk (p.view s r) [2] 5 false && formatsOk (p.view s r) [3] (fun f => [5, 6, 7, 8].contains f) && p.src s r 3 0 != p.src s r 3 1)) ∧
    (∀ r ∈ [wE 0x5A 5 2 3 4 2, wE 0x5B 0 2 3 4 0x302],
      Meets (ops4 (num 64) (inBuf 16) (counted 21) (inBuf 64) (placed r)) r (fun s p => p.src s r 3 0 != p.src s r 3 1)) ∧
    (∀ r ∈ [wE 0x5A 5 2 3 4 2, wE 0x5B 0 2 3 4 0x302],
      Meets (ops4 (num 64) (inBuf 16) (one 11 0) (inBuf 64) (placed r)) r (fun s p => ((p.view s r).reg 3).fmt == 11 && !p.team.slane)) :=
  ⟨all_meet (g := loaded 11 7) (f := fun r s p => !typeOk (p.view s r) (abRegs (rOf r)) 5 false && (p.iss s r).act != 0) (by decide),
   all_meet (g := fun s => withRegs [(3, one 6 7)] (loaded 5 7 s)) (f := fun r s p => !typeOk (p.view s r) (abRegs (rOf r)) 31 true && (p.iss s r).act != 0) (by decide),
   all_meet (g := loaded 5 7) (f := fun r s p => !formatsOk (p.view s r) [2, 3] (fun f => f == 11) && (p.iss s r).act != 0) (by decide),
   all_meet (g := fun s => half (loaded 13 7 s)) (f := fun r s p => formatsOk (p.view s r) [2, 3] (fun f => f == 13) && !wholeTeam (p.iss s r) p.team) (by decide),
   all_meet (g := fun s => half (loaded 13 7 s)) (f := fun r s p => formatsOk (p.view s r) [2] (fun f => f == 13) && !wholeTeam (p.iss s r) p.team) (by decide),
   meets (by decide), meets (by decide),
   all_meet (g := fun s => withRegs [(3, counted 8)] (loaded 5 7 s)) (f := fun r s p => typeOk (p.view s r) [2] 5 false && formatsOk (p.view s r) [3] (fun f => [5, 6, 7, 8].contains f) && p.src s r 3 0 != p.src s r 3 1) (by decide),
   all_meet (g := ops4 (num 64) (inBuf 16) (counted 21) (inBuf 64)) (f := fun r s p => p.src s r 3 0 != p.src s r 3 1) (by decide),
   all_meet (g := ops4 (num 64) (inBuf 16) (one 11 0) (inBuf 64)) (f := fun r s p => ((p.view s r).reg 3).fmt == 11 && !p.team.slane) (by decide)⟩

theorem witness_RejectedWords :
    rejects (placed (wS 0x70 6 0 0 0 0x555)) (wS 0x70 6 0 0 0 0x555) = true ∧
    rejects sretOfS (wS 0x70 6 0 0 0 0x555) = true ∧ rejects (placed (wS 0x72 0 0 0 0 0)) (wS 0x70 6 0 0 0 0x555) = true ∧
    bits (State.reset.reg 0x805) 9 8 = 0 := by decide

/-- A trap-queue entry that a handler holds. -/
def held (cause : Nat) : TqEntry := { freeEntry with st := .taken, cause := cause, fmask := 3, toM := true, gen := 1 }
/-- The same package with trap-queue entry 4 of core 0. -/
def withTq (e : TqEntry) (s : State) : State := s.modCore 0 (fun c => { c with tq := [(4, e)] })

theorem witness_TrapQueueEntries :
    Meets (lane [(2, adr 64)] (mapped (placed (wS 0x73 6 2 0 4 0)))) (wS 0x73 6 2 0 4 0) (fun s p =>
      p.agent == .ctx 0 .m && (p.iss s (wS 0x73 6 2 0 4 0)).act != 0 && (pendingOf (s.core 0) .m).isEmpty) ∧
    Meets (withTq { held cPAGE with st := .pending } (lane [(2, adr 64)] (mapped (placed (wS 0x73 6 2 0 4 0))))) (wS 0x73 6 2 0 4 0) (fun s p =>
      p.agent == .ctx 0 .m && (pendingOf (s.core 0) .m).length == 1 && p.src s (wS 0x73 6 2 0 4 0) 2 0 == adr 64 &&
      (sysWriteWeak 0 p.agent 0 (adr 64) 64 ((pendingOf (s.core 0) .m).flatMap (fun e => recordBytes e.1 e.2)) s).2 == none) ∧
    (∀ x ∈ [(wS 0x74 3 2 0 0 0, freeEntry), (wS 0x74 3 2 0 0 0, { held cSYSCALL with ended := true }), (wS 0x74 3 2 0 0 0, held cPAGE),
        (wS 0x74 3 2 0 0 0, held cSYSCALL), (wS 0x74 3 2 1 0 0, held cPAGE), (wS 0x75 0 2 0 0 0, held cPAGE), (wS 0x75 0 2 0 0 0, held cSYSCALL),
        (wS 0x75 0 2 2 0 0, held cSYSCALL), (wS 0x75 3 2 1 0 0, held cPAGE)],
      Meets (withTq x.2 (lane [(2, 4 + 64), (3, 2)] (placed x.1))) x.1 (fun s p => p.agent == .ctx 0 .m && p.src s x.1 2 0 == 68)) ∧
    (held cPAGE).fmask &&& 2 ≠ 0 ∧ (held cPAGE).fmask &&& 4 = 0 ∧
    (let y : SysWait := ⟨6, [(1, none), (3, some 5)], 10⟩
     let t := { bareTeam with sys := [y] }
     let e := { held cSYSCALL with fmask := 2, uid := t.uid }
     ((State.reset.modCore 0 (fun c => c.setTeam 0 t)).core 0).team? e.slot = some t ∧ t.uid = e.uid ∧ t.sys = [y] ∧ t.slane = false ∧
       (∀ q ∈ y.results, q.1 ≠ lowest e.fmask → q.2.isSome = true) ∧ (lowest e.fmask, none) ∈ y.results ∧ ∀ q ∈ y.results, q.1 < 32) := by
  refine ⟨meets (by decide), meets (by decide), ?_, by decide, by decide, by decide⟩
  intro x hx
  simp only [List.mem_cons, List.not_mem_nil, or_false] at hx
  rcases hx with rfl | rfl | rfl | rfl | rfl | rfl | rfl | rfl | rfl <;> exact meets (by decide)

/-- A launch descriptor of one copse of one team for address space 2, at offset 0 of buffer 1. -/
def described (s : State) : State :=
  let s := (mapped s).setReg 0x601 8
  [(0x10020, 0x20001), (0x10028, 8), (0x200000, 0x00010000CA5D0010), (0x200008, 0x100020000), (0x200010, 0x100000001), (0x200018, 2 ^ 48),
   (0x200020, 2 ^ 48), (0x200030, 0x401 * 2 ^ 48)].foldl (fun s x => poke x.1 x.2 s) s

theorem witness_Launches :
    Meets (withRegs [(2, inBuf 0)] (described (placed (wS 0x77 6 2 0 0 0)))) (wS 0x77 6 2 0 0 0) (fun s p =>
      (match sysCheck s (sysReq p.team.asid 0 (adr 0) 0 128 64 1 [0, 3]) (adr 0) with
        | .ok _ => true
        | .error _ => false) &&
      (match sysRead (weakMode 0 p.agent) p.team.asid (adr 0) [(0, 128)] s with
        | (u, .ok b) => (match validate u 0 p.team.priv p.team.asid (descOf b) with
          | .ok n => n == 0
          | .error _ => false)
        | _ => false)) ∧
    Meets (lane [(2, adr 64)] (mapped (placed (wS 0x78 6 2 0 4 0)))) (wS 0x78 6 2 0 4 0) (fun s p =>
      match sysCheck s (sysReq p.team.asid 0 (adr 64) 0 16 16 11 [0]) (adr 64) with
      | .ok (tgt, e) => (atomTgt (noteAccess s (sysReq p.team.asid 0 (adr 64) 0 16 16 11 [0]) e) (devMode 0 p.agent 3) tgt 16 (fun r => some r)).2 == some 0
      | .error _ => false) :=
  ⟨meets (by decide), meets (by decide)⟩

/-- A format S word guarded by p1. -/
def wS1 (op : Nat) (vd va : BitVec 8) (md : BitVec 3) (imm : BitVec 20) (sreg : BitVec 12) : Raw := .s op ⟨sreg, imm, md, 0, 1, va, vd⟩

theorem witness_TokensAndWaits :
    (∀ r ∈ [wS 0x7E 6 0 0 0 0, wS 0x7E 6 0 1 0 0, wS 0x7E 0 0 2 0 0], Meets (placed r) r (fun s p =>
      (p.iss s r).act != 0 && (s.core 0).holders.isEmpty)) ∧
    Meets ((placed (wS 0x7E 6 0 1 0 0)).modCore 0 (fun c => { c with holders := [.copse 1] })) (wS 0x7E 6 0 1 0 0) (fun s _ =>
      !(s.core 0).holders.isEmpty) ∧
    Meets (placed (wS 0x7D 0 0 0 0 0)) (wS 0x7D 0 0 0 0 0) (fun s p => p.agent == .ctx 0 .m && source s 0 .m == none) ∧
    Meets (withM (fun x => { x with pend11 := true }) (placed (wS 0x7D 0 0 0 0 0))) (wS 0x7D 0 0 0 0 0) (fun s p =>
      p.agent == .ctx 0 .m && (source s 0 .m).isSome) ∧
    Meets (placed (wS 0x76 0 0 0 0x10002 0)) (wS 0x76 0 0 0 0x10002 0) (fun s p => (p.iss s (wS 0x76 0 0 0 0x10002 0)).act != 0) ∧
    Meets (withRegs [(2, inBuf 0), (3, num 0)] (placed (wS 0x76 3 2 0 2 0))) (wS 0x76 3 2 0 2 0) (fun s p => p.src s (wS 0x76 3 2 0 2 0) 3 0 == 0) ∧
    (∀ r ∈ [wS1 0x70 6 0 0 0 0x103, wS1 0x71 0 2 0 0 0x187, wS1 0x73 6 2 0 4 0, wS1 0x74 3 2 0 0 0, wS1 0x75 0 2 0 0 0, wS1 0x76 3 2 0 2 0,
        wS1 0x77 6 2 0 0 0, wS1 0x78 6 2 0 4 0, wS1 0x79 0 2 0 0 0, wS1 0x7A 0 2 1 0 0, wS1 0x7B 3 2 0 0 0, wS1 0x7C 3 2 1 0 0, wS1 0x7E 6 0 0 0 0],
      Meets (placed r) r (fun s p => (p.iss s r).act == 0)) :=
  ⟨all_meet (g := id) (by decide), meets (by decide), meets (by decide), meets (by decide), meets (by decide), meets (by decide),
   all_meet (g := id) (by decide)⟩

/-- A halted team in slot 3 of core 0. -/
def halted (s : State) : State :=
  s.modCore 0 (fun c => { c with teams := mset c.teams 3 { bareTeam with st := .halted, uid := 9 } })

theorem witness_ParkingAndContexts :
    (∀ r ∈ [wS 0x79 0 2 0 0 0, wS 0x79 0 2 1 0 0, wS 0x7A 0 2 0 0 0, wS 0x7A 0 2 1 0 0],
      Meets (withRegs [(2, num 0x300)] (halted (placed r))) r (fun s p =>
        targetCheck s (p.iss s r) 0x300 == none && p.src s r 2 0 == 0x300 && [3].all (stoppedPaths (s.core 0)))) ∧
    (∀ r ∈ [wS 0x7B 3 2 0 0 0, wS 0x7B 3 2 1 0 0], Meets (withRegs [(2, inBuf 0), (3, num 0x300)] (mapped (halted (placed r)))) r (fun s p =>
      targetCheck s (p.iss s r) 0x300 == none &&
      (match sysCheck s (sysReq p.team.asid 0 (adr 0) 0 (saveBytes s 0 3 false).length 256 2 [0, 3]) (adr 0) with
        | .ok _ => true
        | .error _ => false))) ∧
    (∀ r ∈ [wS 0x7C 3 2 0 0 0, wS 0x7C 3 2 1 0 0], Meets (withRegs [(2, inBuf 0), (3, num 0x300)] (mapped (placed r))) r (fun s p =>
      (match sysCheck s (sysReq p.team.asid 0 (adr 0) 0 64 256 1 [0, 3]) (adr 0) with
        | .ok _ => true
        | .error _ => false) &&
      (match sysRead (devMode 0 p.agent 1) p.team.asid (adr 0) [(0, 64)] s with
        | (_, .ok b) => fieldAt b 0 4 == 0
        | _ => false))) ∧
    (((halted State.reset).core 0).team? 3).isSome = true ∧ bareTeam.wsize < 2048 ∧
    (∀ r ∈ [wS 0x79 0 2 0 0 0, wS 0x79 0 2 1 0 0], Meets (withRegs [(2, num 0)] (placed r)) r (fun s p =>
      targetCheck s (p.iss s r) 0 == none && p.agent == .team 0 0 && p.team.st == .running && (targetSlots s 0 true).contains 0 &&
        (targetSlots s 0 false).contains 0)) ∧
    (let c := (halted (State.reset.modCore 0 (fun c => { c with teams := [(0, bareTeam)], copses := [bareCopse] }))).core 0
     saveReady (stopCmds c [3]) [3] = true ∧ (c.team? 3).all (fun t => t.st == .halted) = true) ∧
    (let t := { bareTeam with st := .halted, lanes := bareTeam.lanes.map (fun l => { l with wait := some (.token 6 true) }) }
     let s := State.reset.modCore 0 (fun c => { c with teams := [(0, t)], holders := [.copse 1] })
     (s.core 0).team? 0 = some t ∧ t.st = .halted ∧ (s.core 0).holdsToken = true ∧ (t.lane 3).live = true ∧ (t.lane 3).parked = false ∧
       (t.lane 3).wait = some (.token 6 true)) :=
  ⟨all_meet (g := fun s => withRegs [(2, num 0x300)] (halted s)) (by decide),
   all_meet (g := fun s => withRegs [(2, inBuf 0), (3, num 0x300)] (mapped (halted s))) (by decide),
   all_meet (g := fun s => withRegs [(2, inBuf 0), (3, num 0x300)] (mapped s)) (by decide), by decide, by decide,
   all_meet (g := withRegs [(2, num 0)]) (by decide), by decide, by decide⟩

/-! ### Events -/

theorem witness_ResetsAndAlarms :
    (Instr.fullReset, ResetKind.full) ∈ [(Instr.powerOnReset, ResetKind.powerOn), (.fullReset, .full), (.alarmReset, .alarm)] ∧
    mrising State.reset.regs = true ∧ State.reset.now < State.reset.worldStart + 2 ^ 24 ∧
    (let s := { State.reset.setReg 0x807 5 with now := 2 ^ 25, worldFaults := 5 }
     s.worldStart + 2 ^ 24 ≤ s.now ∧ s.reg 0x807 ≠ 0 ∧ s.reg 0x807 ≤ s.worldFaults ∧ s.worldRaised = false) ∧
    (bits ((State.reset.setReg 0x805 2).reg 0x805) 1 0 = 2 ∧ bits (State.reset.reg 0x805) 1 0 = 0) := by decide

theorem witness_EthernetReset : Instr.alarmReset ∈ [Instr.powerOnReset, .fullReset, .alarmReset] := by decide

theorem witness_DeviceEvents :
    (let s := State.reset
     (0x1002 : Word).toNat % 4 = 2 ∧ s.flashOp = none ∧ s.recovery = false ∧ spdmOpen s .doe = false) ∧
    (let f : FlashOp := ⟨0, 2, 0x110000, 0x10000, 0, false, false⟩
     let s := { State.reset with flashOp := some f }
     s.flashOp = some f ∧ f.protectedHit = false ∧ f.error = false ∧ mrising s.flash = true) ∧
    (let f : FlashOp := ⟨0, 1, 0x110000, 0x1000, adr 0, false, false⟩
     let s := { mapped State.reset with flashOp := some f }
     s.flashOp = some f ∧ (∀ c ∈ s.flash, ¬(f.offset ≤ c.1 ∧ c.1 < f.offset + f.length))) ∧
    (let s := { State.reset.setReg 0x8C1 2 with recovery := true }
     s.recovery = true ∧ bit (s.reg 0x8C1) 1 = true ∧ 0x100000 + 0 + ([1, 2] : List Byte).length ≤ 2 ^ 29) ∧
    ((State.reset.setReg 0x8C0 1).reg 0x8C0 = 1 ∧ bit (State.reset.reg 0x8C0) 0 = false) ∧
    ((mapped State.reset).setReg 0x881 (2 ^ 48)).reg 0x881 = 2 ^ 48 ∧
    (let field (req : List Byte) (o n : Nat) : Nat := ofLe ((List.range' o n).map (fun i => nth req 0 i))
     { State.reset with keys := 1 }.keys.getLsbD 0 = true ∧ { State.reset with keys := 4 }.keys.getLsbD 0 = false ∧
       (∀ what ∈ [0, 1, 0xFF, 2], field [0x13, 0xE0, 1, BitVec.ofNat 8 what] 3 1 = what) ∧
       (nth ([0x13, 0xE0, 1, 0] : List Byte) 0 2).getLsbD 0 = true ∧ (nth ([0x13, 0xE0, 0, 0] : List Byte) 0 2).getLsbD 0 = false) := by decide

theorem witness_RegisterEvents :
    worldFixed (State.reset.core 0) = false ∧
    (∃ c, c < 5 ∧ bits (0xC : Word).toNat (2 * c + 1) (2 * c) = 3) ∧ (∀ c, c < 5 → bits (0x1A : Word).toNat (2 * c + 1) (2 * c) ≠ 3) ∧
    (let x := ((landing State.reset).core 0).sctx
     x.stopped = false ∧ x.spc = 0 ∧ x.lane.live = false ∧ targetCode ((landing State.reset).setReg 0x880 3) 0 1 .phys 0x40 = 0) ∧
    (let s := (landing State.reset).modCore 0 (fun c => { c with sctx := { c.sctx with spc := 0x40 } })
     let x := (s.core 0).sctx
     x.lane.live = false ∧ x.stopped = false ∧ targetCode (s.setReg 0x880 (s.reg 0x880 - s.reg 0x880 % 16 + 3)) 0 1 .phys x.spc = 0) ∧
    ((landing State.reset).modCore 0 (fun c => { c with sctx := { c.sctx with stopped := true } }) |>.core 0).sctx.stopped = true ∧
    (ownEvent 0x185 = false ∧ agentHas State.reset (.ctx 0 .m) 0x185 = true ∧ sysReg 0x185 = some (some 1, some 1)) := by
  refine ⟨by decide, ⟨1, by decide⟩, by decide, by decide, by decide, by decide, by decide⟩

/-- A matrix command of a team in slot 0. -/
def cmdOf (id cls : Nat) (st : CmdSt) : Cmd :=
  { id := id, cls := cls, issuers := [.team 0], uids := [7], bits := wordOfRaw (wE 0x66 0 0 0 0 0), ops := [], capt := [],
    guard := none, regions := [], st := st, asid := 0, world := false, pc := 0, aux := none, fallback := false, progress := 0,
    failed := none, accepted := 0 }
/-- The package after reset with commands of core 0, and its team of slot 0. -/
def withCmds (l : List Cmd) : State :=
  State.reset.modCore 0 (fun c => { c with cmds := l, teams := [(0, { bareTeam with uid := 7 })], copses := [bareCopse] })

theorem witness_EngineEvents :
    (let k := cmdOf 3 2 .queued
     let s := (withCmds []).modCore 0 (fun c => { c with toAccept := [k] })
     (s.core 0).toAccept = [k] ∧ canAccept s 0 k = true) ∧
    ((withCmds [cmdOf 3 2 .queued]).core 0).cmds.find? (fun k => k.cls == 2) = some (cmdOf 3 2 .queued) ∧
    stackQueue (withCmds [{ cmdOf 3 4 .queued with bits := wordOfRaw (wE 0x63 5 2 3 4 0x2D), ops := [0, 0, 0, 0], capt := [0] }]) 0 =
      [(0, { cmdOf 3 4 .queued with bits := wordOfRaw (wE 0x63 5 2 3 4 0x2D), ops := [0, 0, 0, 0], capt := [0] })] ∧
    nextDone ((withCmds [cmdOf 3 2 (.done none)]).core 0) (fun k => k.cls == 2 && (failedCmd k == false)) = some (cmdOf 3 2 (.done none), none) ∧
    nextDone ((withCmds [cmdOf 3 2 (.done (some ⟨1, 2, 0, 0⟩))]).core 0) (fun k => k.cls == 2 && (failedCmd k == true)) =
      some (cmdOf 3 2 (.done (some ⟨1, 2, 0, 0⟩)), some ⟨1, 2, 0, 0⟩) ∧
    (let p : Pend := ⟨.vreg 6, BitVec.allOnes 32, BitVec.allOnes 32, never + 3, true, .vreg (one 8 0), 0⟩
     let u := { bareTeam with uid := 7, pend := [p] }
     u.st = .running ∧ u.slane = false ∧ u.pend.find? (fun q => q.ready == never + 3) = some p ∧ ∀ q ∈ u.pend, q.ready = never + 3) ∧
    (let s := withCmds [cmdOf 3 0 .queued]
     nextDone (s.core 0) (fun k => k.cls == 0) = none ∧ nextRun s (s.core 0) 0 = some (cmdOf 3 0 .queued)) ∧
    (let k := { cmdOf 3 5 .landed with bits := wordOfRaw (wE 0x5A 5 2 3 4 2) }
     ((withCmds [k]).core 0).cmds.find? (fun k => k.cls == 5 && k.st == .landed && ordReady (withCmds [k]) ((withCmds [k]).core 0) k) = some k) ∧
    (match checkIn (mapped State.reset) false ⟨0, 0, 1, 64, 8, 8, 10, [0], none, 2⟩ true with
      | .ok (.dram first [l], _) => first % 8 == 0 && first < 128 && l < 2 ^ 32
      | _ => false) = true ∧
    (mapped State.reset).bad = [] ∧ mrising (mapped State.reset).l2 = true ∧ Memory.wf (mapped State.reset).dram = true ∧
    (let k := { cmdOf 3 3 .queued with bits := wordOfRaw (wE 0x6D 5 2 3 4 0x28), ops := [64, adr 0, adr 4096, adr 64] }
     ((withCmds [k]).core 0).cmds.find? (fun k => k.cls == 3) = some k ∧ (readGroup (withCmds [k]) 0 k).2.toBool = false) ∧
    (let k := { cmdOf 3 2 .queued with st := .aside }
     matrixNext ((withCmds [k]).core 0) = none ∧ matrixNext ((withCmds [cmdOf 3 2 .queued]).core 0) = some (cmdOf 3 2 .queued)) := by decide

/-- Two ranks' group record at offset 64 of buffer 1, this one rank 0. -/
def grouped (s : State) : State :=
  [(0x200040, 2), (0x200048, (adr 4096).toNat), (0x200080, (adr 8192).toNat), (0x200088, (adr 12288).toNat), (0x200090, (adr 8192).toNat),
   (0x200098, (adr 12296).toNat)].foldl (fun s x => poke x.1 x.2 s) (mapped s)

theorem witness_CollectivePhases :
    let k := { cmdOf 3 3 .queued with bits := wordOfRaw (wE 0x6D 5 2 3 4 0x28), ops := [2, adr 0, adr 8192, adr 64] }
    let s := grouped (withCmds [k])
    (match readGroup s 0 k with
      | (u, .ok g) => g.n == 2 && !putsWait u 0 k g && (match readCounter u 0 k g with
          | (v, .ok c) => c == 0 && (lostPeer v 0 k g 0).isNone
          | _ => false)
      | _ => false) = true := by decide

theorem witness_MemoryEvents :
    (let l : Line := { data := 5, dirty := 1, cls := 0, used := 0 }
     let p : Propagation := ⟨1, 40, 1, .team 64 0⟩
     let s := { State.reset with l2 := [(lineKey 1 40, l)], props := [p] }
     propReady s 1 = [p] ∧ s.l2Line 1 p.line = some l ∧ p.bytes.getLsbD 0 = true ∧ l.dirty.getLsbD 0 = true ∧
       victim [(lineKey 1 40, (⟨0, 0⟩ : L1Line))] = some (lineKey 1 40, ⟨0, 0⟩)) ∧
    (let n : NtStore := ⟨.team 0 0, 0, [(0x1000, 5)], []⟩
     ntReady { State.reset with nt := [n] } = [(n, (0x1000, 5))]) ∧
    (let s := State.reset.modCore 3 (fun c => { c with l1 := [(9, ⟨0, 0⟩)] })
     unitPresent s (.l1 3 36) = true) ∧
    (unitPresent State.reset (.dram (2 ^ 34)) = false ∧ unitPresent State.reset (.sram 3 9) = true ∧ CheckUnit.sram 3 9 ∉ State.reset.bad ∧
      bit (State.reset.reg 0x621) 63 = false ∧ unitLog (.sram 3 9) < 2 ^ 63) ∧
    (let k : MeshPacket := ⟨1, .putData, 1, [0, 1]⟩
     let h : HeldCopy := ⟨1, 7, 0, 1⟩
     let c := { State.reset.core 0 with mcHeld := [h] }
     k.branches.Nodup ∧ (k.branches.filter (fun b => c.mcHeld.any (fun h => h.branch == b))) = [1] ∧ (State.reset.core 0).mcWait = [] ∧
       forwards c [] k = false) ∧
    (let c := joinLink (State.reset.core 0) 2 ⟨7, 3, 1⟩
     ((c.link 2).send c.weight).2 = some ⟨7, 3, 1⟩ ∧ (c.link 2).ctl < 2 ∧ ((c.link 2).queue.filter (fun k => k.cls == 3)).length ≤ c.used 2 3) ∧
    (let h : HeldCopy := ⟨2, 7, 0, 1⟩
     let c := creditBack { State.reset.core 4 with mcHeld := [h] } 2 0
     c.mcHeld.find? (fun h => h.branch == 2) = some h ∧ c.used 2 0 = 0) := by decide

/-- The package after reset with Ethernet port 0 set up, as device 9. -/
def onNet (s : State) : State := (s.setEth 0 0 1).setReg 0x580 9
/-- A DATA packet of device 4 for device 9: 64 bytes for buffer 1. -/
def data : Packet := { emptyPacket with src := 4, dst := 9, flow := 1024, mlen := 64, plen := 64, daddr := adr 0, payload := List.replicate 64 1 }
def recOf (st : RxSt) (landed : List (Nat × Nat)) : RxMsg :=
  ⟨⟨4, 9, 1024, 0⟩, { data with payload := [] }, landed, st, 0, false, 0⟩

theorem witness_PacketsReceived :
    (let s := onNet (mapped State.reset)
     s.portOn 0 = true ∧ data.type = 0 ∧ data.trim = false ∧ data.dst = s.devId ∧ headerFits data = true ∧ headerFits { data with cls := 9 } = false ∧
       belowLow s (keyOf s data) = false ∧ beyondWindow s (keyOf s data) = false ∧ (recordFor s 0 data).st = .open_ ∧
       beyondWindow s (keyOf s { data with msg := 300 }) = true ∧ belowLow s (keyOf s { data with msg := 2 ^ 31 }) = true) ∧
    (∀ st ∈ [RxSt.complete, .landed, .failed 3], (recordFor { onNet State.reset with rx := [recOf st [(0, 64)]] } 0 data).st = st) ∧
    (let s := { onNet (mapped State.reset) with rx := [recOf .landed [(0, 64)]] }
     s.rxOf ⟨4, 9, 1024, 0⟩ = some (recOf .landed [(0, 64)]) ∧ messageReady s (recOf .landed [(0, 64)]) = true ∧
       (recOf .landed [(0, 64)]).head.csc = 0) ∧
    (let q (h : Nat) : Req := { asid := 0, core := 0, handle := h, off := 0, n := 64, align := 1, rights := 2, kinds := [0, 3], emask := some 5, acc := 1 }
     let s := mapped State.reset
     (checkIn s (s.portWorld 0) (q 1) true).toBool = true ∧ (checkIn s (s.portWorld 0) (q 2) true).toBool = false) := by decide

theorem witness_HolesAndRecords :
    (let s := onNet State.reset
     let k := { data with trim := true, plen := 0, payload := [], olen := 64 }
     s.portOn 0 = true ∧ k.dst = s.devId ∧ headerFits k = true ∧ beyondWindow s (keyOf s k) = false ∧ belowLow s (keyOf s k) = false ∧
       s.rxOf (keyOf s k) = none ∧ s.holes = [] ∧ holeOpen s 0 < 1024) ∧
    (let h : Hole := ⟨0, ⟨4, 9, 1024, 0⟩, 5, 0, 64, false, 0, none⟩
     let s := { onNet State.reset with holes := [h] }
     s.holes.find? (fun h => h.port == 0 && h.key.src == 4 && h.requested.isNone) = some h ∧ 0 < (bucketOf s 0 4).tokens) ∧
    (let s := { State.reset with rx := [recOf .complete [(0, 64)]], now := 36000000 }
     ∀ m ∈ s.rx, m.key.src = 4 → m.key.flow = 1024 → m.settled = true ∧ m.doneAt + 36000000 ≤ s.now) := by decide

/-- A message of this device, 9, to device 4. -/
def sentMsg (timeouts : Nat) : TxMsg := ⟨⟨9, 4, 1024, 0⟩, 0, 3, [{ data with src := 9, dst := 4 }], false, 0, timeouts, [], 0, false, 0⟩
/-- An answer of device 4. -/
def reply (type : Nat) : Packet := { emptyPacket with type := type, src := 4, dst := 9, flow := 1024 }

theorem witness_PacketsSent :
    (let s := { onNet State.reset with tx := [sentMsg 0] }
     (∀ k ∈ [reply 1, reply 2, reply 3], headerFits k = true ∧ k.trim = false ∧ k.dst = s.devId ∧ answered s k = some (sentMsg 0)) ∧ s.portOn 0 = true ∧
       (sentMsg 0).pkts.filter (fun p => p.psn == (reply 1).psn) = (sentMsg 0).pkts ∧ egressPort s (reply 1).src false = none ∧
       headerFits { reply 2 with cls := 8 } = false ∧ answered s { reply 2 with msg := 1 } = none) ∧
    (let s := poke 8 0x8000 { onNet State.reset with tx := [sentMsg 0] }
     egressPort s 4 false = some 0 ∧ s.portWorld 0 = (sentMsg 0).world) ∧
    (let s := { withCmds [cmdOf 3 5 (.sent (sentMsg 0).key)] with tx := [sentMsg 0], now := 10 }
     (s.core (sentMsg 0).core).cmds.find? (fun k => k.id == (sentMsg 0).cmd) = some (cmdOf 3 5 (.sent (sentMsg 0).key)) ∧
       s.tx.find? (fun m => m.key == (sentMsg 0).key) = some (sentMsg 0) ∧ s.now < (sentMsg 0).sentAt + 2250 * s.ethPos 0 8) ∧
    ((withCmds [cmdOf 3 3 (.coll 1 0)]).core (sentMsg 0).core).cmds.find? (fun k => k.id == (sentMsg 0).cmd) = some (cmdOf 3 3 (.coll 1 0)) ∧
    (let s := { State.reset with tx := [sentMsg 7], now := 3000 }
     (sentMsg 7).sentAt + 2250 * s.ethPos 0 8 ≤ s.now ∧ 7 ≤ (sentMsg 7).timeouts) ∧
    (let s := onNet State.reset
     s.portOn 0 = true ∧ (reply 2).dst = s.devId ∧ { reply 2 with dst := 5 }.dst ≠ s.devId ∧ egressPort s 5 false = none) ∧
    (let s := poke 10 0x8000 (onNet State.reset)
     egressPort s 5 false = some 0 ∧ s.portWorld 0 = s.portWorld 0 ∧ queuedBytes s 0 true + packetBytes (reply 2) ≤ 65536) ∧
    (let s := { (State.reset.setEth 1 4 1).setEth 1 0 1 with egress := [⟨1, false, 200, data, none⟩] }
     s.eth 1 4 ≠ 0 ∧ s.eth 1 4 < queuedBytes s 1 false ∧ s.portOn 1 = true ∧ bit (s.eth 1 1) 2 = false ∧ s.ingress = [] ∧
       nextEgress s 1 = some ⟨1, false, 200, data, none⟩) ∧
    (let s := { State.reset.setEth 1 1 4 with ingress := [⟨1, 0, data⟩] }
     bit (s.eth 1 1) 2 = true ∧ ∃ i ∈ s.ingress, i.port = 1) ∧
    65536 < queuedBytes { State.reset with egress := [⟨1, true, 65536, reply 2, none⟩] } 1 true + packetBytes (reply 2) ∧
    (let s := onNet State.reset
     frameDropped s 0 (List.replicate 12 0 ++ [8, 0]) = true ∧ frameDropped s 0 [] = false ∧ nextEgress s 0 = none) := by decide

/-- R403, R405: a packet leaves in a frame that is received as that packet. -/
theorem test_frame_returns :
    framePacket (frameOf (onNet State.reset) 0 { data with psn := 5, stime := 77, path := true }) = some { data with psn := 5, stime := 77, path := true } ∧
    frameDropped (onNet State.reset) 0 (frameOf (onNet State.reset) 0 data) = false := by decide

/-- A running team in slot 0 of core 0, its fibres at a header of one `fnop` with LAND at physical 0x40. -/
def ready : State :=
  poke 0x48 (wordOfRaw (wR 0 0 0 0 0 0 0)).toNat (landing (State.reset.modCore 0 (fun c => { c with
    teams := [(0, { bareTeam with lanes := (List.range 32).map (fun _ => { freeLane with live := true, pc := 0x40, hpc := 0x40 }) })],
    copses := [bareCopse] })))

theorem witness_TurnEvents :
    choice State.reset 0 0 = none ∧ (choice ready 0 0).isSome = true ∧
    ((ready.core 0).team? 0).all (fun t => match opening ready 0 0 t ⟨0x40, 0x40, BitVec.allOnes 32⟩ with
      | (.ok _, _) => true
      | _ => false) = true ∧
    ctxTurn State.reset 0 = none ∧
    (ctxTurn (landing (withM (fun x => { x with lane := { freeLane with live := true, pc := 0x40, hpc := 0x40 } }) State.reset)) 0).isSome = true ∧
    ((ready.core 0).team? 0).all (fun t => t.st == .running && ctrGroups t == []) = true ∧
    ctxInside ((placed (wS 0x72 0 0 0 0 0)).core 0) .m = true ∧
    (let l := { freeLane with live := true, pc := 0x40, hpc := 0x40 }
     let s := landing (State.reset.modCore 0 (fun c => { c with mctx := { c.mctx with lane := l }, sctx := { c.sctx with lane := l } }))
     ctxInside (s.core 0) .m = false ∧ ctxInside (s.core 0) .s = false ∧ ctxReady s 0 .m = true ∧ ctxReady s 0 .s = true) := by decide

theorem witness_CoreEvents :
    faultDue State.reset 0 = none ∧
    (let e : FaultEntry := ⟨0, [⟨0, 7, 3, 0x40, cILLEGAL, none, 0, 0, 0, 0, 0, 0, false, false⟩]⟩
     let s := { (withCmds []).modCore 0 (fun c => { c with faults := [e] }) with now := 300 }
     (s.core 0).faults = [e] ∧ (s.core 0).tqFree ≠ [] ∧ e.created + 256 ≤ s.now) ∧
    (let s := (withCmds []).modCore 0 (fun c => c.setTeam 0 { bareTeam with
       lanes := (List.range 32).map (fun _ => { freeLane with live := true, wait := some .wfi }) })
     idling s 0 = true ∧ (s.core 0).residencyPosted = false ∧ (s.core 0).tqFree ≠ []) ∧ idling State.reset 0 = false ∧
    State.reset.timer < ((State.reset.core 0).ctx .m).timercmp.toNat ∧
    (linesNow State.reset).getLsbD 0 = false ∧ (linesNow (State.reset.setReg 0x8C2 1)) ≠ 0 ∧
    (let p : Proc := ⟨5, .team 0 0, .tlbinv true 0x10002 0 0⟩
     let u := { bareTeam with lanes := (List.range 32).map (fun _ => { freeLane with live := true, wait := some (.proc 5 true) }) }
     let s := { (withCmds []).modCore 0 (fun c => c.setTeam 0 u) with procs := [p] }
     s.procs.find? (fun q => q.id == p.id) = some p ∧ (s.core 0).team? 0 = some u ∧ u.lanes.length = 32 ∧ (u.lane 3).live = true ∧
       (u.lane 3).parked = false ∧ (u.lane 3).wait = some (.proc 5 true)) ∧
    (let p : Proc := ⟨5, .team 0 0, .ctxsv 0 0 false (adr 0) 6⟩
     let s := { withCmds [cmdOf 3 2 .queued] with procs := [p] }
     s.procs.find? (fun q => q.id == p.id) = some p ∧ saveReady (s.core 0) [0] = false ∧ saveReady ((withCmds []).core 0) [0] = true ∧
       (s.teamOf p.agent).isSome = true) ∧
    tokenReady State.reset = false ∧
    (let r : TokenReq := ⟨0, .copse 1, none, 0, false⟩
     let s := { State.reset with tokens := [r], now := 225000 }
     s.tokens = [r] ∧ tokenReady s = true ∧ r.since + 225000 ≤ s.now) ∧
    bits (0x100 : Word).toNat 15 8 ≠ 0 ∧ bits (0x3 : Word).toNat 15 8 = 0 := by decide

theorem witness_LaunchEvents :
    (let s := (withCmds []).modCore 0 (fun c => c.setTeam 0 { bareTeam with st := .ending })
     ((s.core 0).team? 0).all (fun t => t.st == .ending && execSlotReuseFenceClose.ecAll (s.core 0) 0 t.uid == 0) = true) ∧
    ((withCmds []).core 0).copse? 1 = some bareCopse ∧
    (copseOver ((withCmds []).core 0) bareCopse = false ∧
      (let c := ((withCmds []).modCore 0 (fun c => c.setTeam 0 { bareTeam with st := .ended })).core 0
       copseOver c bareCopse = true ∧ copseDrained c bareCopse = true ∧ retireClk c bareCopse 0 ≤ 0)) ∧
    agentCoreOf State.reset 0 = some 0 ∧ agentCoreOf (State.reset.setReg 0x810 0xFF) 0 = none ∧
    recLimit State.reset 0x100 ≤ recNext State.reset 0x100 ∧
    ((State.reset.core 0).teams.map (fun p => p.1)).Nodup ∧
    headAges State.reset = false ∧ pairFor State.reset 0x100 = none ∧
    (let g : GraftPending := ⟨0x100, 2, 0, 0, 0, none⟩
     let s := { State.reset with grafts := [g], now := 45000 }
     s.grafts.find? (fun x => x.lseq == g.lseq) = some g ∧ g.partner = none ∧ g.at_ + 45000 ≤ s.now) := by decide

/-- The same package with the clause that fibres of slot 0 stand in open on port 0 of core 0. -/
def openFor (lanes : BitVec 32) (s : State) : State :=
  s.modCore 0 (fun c => { c with ports := [(0, oneWordClause (wordOfRaw (wR 0 0 0 0 0 0 0)) lanes)] })

/-- A port frees while another team is issuable, or the chosen team's other path alone is. -/
theorem witness_TurnChoices :
    (let c := ready.core 0
     let s := openFor (BitVec.allOnes 32) (ready.modCore 0 (fun x => { x with teams := x.teams ++ [(1, ((c.team? 0).getD bareTeam))] }))
     (choice s 0 0).all (fun x => x.idle && !x.fresh) = true ∧ (choice s 0 0).isSome = true) ∧
    (let s := placed (wR 0 0 0 0 0 0 0)
     let t := ((s.core 0).team? 0).getD bareTeam
     let s := s.modCore 0 (fun c => { c.setTeam 0 { t with lanes := (List.range 32).map (fun i => if i < 16 then t.lane i else { t.lane i with pc := 0x40, hpc := 0x40 }) } with
       ports := c.ports.map (fun p => (p.1, { p.2 with lanes := 0xFFFF })) })
     s.cursor = .port 0 0 ∧ (choice s 0 0).all (fun x => x.clk ≤ s.now && !x.idle && x.slot == 0) = true ∧ (choice s 0 0).isSome = true ∧
       (openPath s).isSome = true) := by decide

theorem witness_Swaps :
    (swapDirIn 0 = false ∧ swapDirIn 0x800 = true ∧ dieBusy State.reset 0 = false ∧ swapRefusal State.reset 0 = 0 ∧ swapRefusal State.reset 0x200 ≠ 0) ∧
    dieBusy { State.reset with swaps := [⟨0, 0, false⟩] } 0 = true ∧
    (let t := { bareTeam with st := .halted, lseq := 5 }
     let sh : Shadow := ⟨(List.range 8).map (fun n => (n, { Core.reset with teams := if n = 0 then [(0, t)] else [] })), [(3, 1)], [(3, 1)], [(3, 1)], [(3, 1)], []⟩
     let s := { State.reset with shadows := [(0, sh)] }
     mget? s.shadows 0 = some sh ∧ swapRefusal s 0x800 = 0 ∧ s.memoriesOk = true ∧ sh.cores.map (fun q => q.1) = List.range 8 ∧
       recHolds s t.lseq = false) ∧
    (let w : Swap := ⟨0, 0, false⟩
     let s := { State.reset with swaps := [w] }
     s.swaps.find? (fun x => x.slot == w.slot) = some w ∧ s.memoriesOk = true ∧
       ∀ n ∈ clusterCores w.cluster, saveReady (s.core n) ((s.core n).teams.map (fun t => t.1)) = true) ∧
    (let w : Swap := ⟨0, 0, true⟩
     ({ State.reset with swaps := [w] }).swaps.find? (fun x => x.slot == w.slot) = some w ∧ w.dirIn = true) ∧
    saveReady ((withCmds [cmdOf 3 2 .queued]).core 0) [0] = false := by decide

/-! ### The machine -/

theorem witness_StepRunsDecoded :
    (let s := placed (wR 0x38 10 4 6 0 13 0x100)
     s.agenda = [] ∧ (openPath s).all (fun p => p.clause.words.head? == some (0x2001A00006040A38 : Word) &&
       issueClk s p (wR 0x38 10 4 6 0 13 0x100) ≤ s.now) = true ∧ (openPath s).isSome = true) ∧
    decodeWord 0x2001A00006040A38 = .ok (.fadd ⟨0x100, 0, 13, 0, 0, 0, 6, 4, 10⟩) ∧ { State.reset with agenda := [.fullReset] }.agenda = .fullReset :: [] := by
  refine ⟨by decide, rfl, by decide⟩

theorem witness_RoundTrip :
    wellFormed (.fadd ⟨0x100, 0, 13, 0, 0, 0, 6, 4, 10⟩) = true ∧ (rawOf (.fadd ⟨0x100, 0, 13, 0, 0, 0, 6, 4, 10⟩)).isSome = true := by decide

theorem witness_MemoriesKept : State.reset.memoriesOk = true ∧ step State.reset = step State.reset := ⟨by decide, rfl⟩

theorem witness_LinesKept : State.reset.linesOk := by unfold State.linesOk; decide

theorem witness_UserWords :
    (let s := (placed (wR 0 0 0 0 0 0 0)).modCore 0 (fun c => c.setTeam 0 { bareTeam with priv := 0 })
     (openPath s).all (fun p => p.agent == .team 0 0 && p.team.priv == 0) = true ∧ (openPath s).isSome = true) := by decide

/-! ### Decoding: words that the spec writes out, or built bit by bit from its encodings -/

/-- R6's example: a header whose low byte is 0x3A has NM1 7, and is no landing place. -/
theorem test_header_fields : headerLen 0x3A = 8 ∧ headerLand 0x3A = false ∧ headerLand 0x489 = true ∧ headerLen 0x489 = 2 := by decide

theorem test_decode_bra : decodeWord 0xFFFFFFF903000001 = .ok (.bra ⟨0xFFFFFFF9, 0, 0, 3, 0, 0⟩) := rfl
theorem test_decode_imul : decodeWord 0x0008E0000201031B = .ok (.imul ⟨0, 2, 7, 0, 0, 0, 2, 1, 3⟩) := rfl
theorem test_decode_pair : decodeWord 0x08304668810C517F = .ok (.pairW ⟨0, ⟨0, 2, 3, 1, 6, 13⟩, ⟨0, 2, 1, 3, 5, 2⟩⟩) := rfl
theorem test_decode_iaddmin : decodeWord 0x0010A0020704091E = .ok (.iaddmin ⟨0, 4, 5, 0, 0, 2, 7, 4, 9⟩) := rfl
theorem test_decode_fcvt : decodeWord 0x0101600000030749 = .ok (.fcvt ⟨8, 0, 11, 0, 0, 0, 0, 3, 7⟩) := rfl
theorem test_decode_fadd : decodeWord 0x2001A00006040A38 = .ok (.fadd ⟨0x100, 0, 13, 0, 0, 0, 6, 4, 10⟩) := rfl
theorem test_decode_park_copse : decodeWord 0x0000000020040079 = .ok (.parkCopse ⟨0, 0, 1, 0, 0, 4, 0⟩) := rfl
theorem test_decode_ctxsv_copse : decodeWord 0x000000002006057B = .ok (.ctxsvCopse ⟨0, 0, 1, 0, 0, 6, 5⟩) := rfl
/-- Tables 01.4 and 05.1: LD, width 3, offset 0x40, order 1, scope 5 of VA 2 into VD 6. -/
theorem test_decode_ld : decodeWord 0x002D600040020650 = .ok (.ld ⟨0, 0, 0, 0, 0, 1, 1, 5, 3, 0, 0, 64, 2, 6⟩) := rfl
/-- Tables 01.5 and 06.1: MMA of VD 8, VA 9, VB 10, VC 11, convergence register 2, MOD16 0x441. -/
theorem test_decode_mma : decodeWord 0x0441200B0A090860 = .ok (.mma ⟨0x441, 2, 0, 0, 11, 10, 9, 8⟩) := rfl
/-- Tables 01.5 and 07.1: SYSR of register 0x210 into VD 7. -/
theorem test_decode_sysr : decodeWord 0x2100000000000770 = .ok (.sysr ⟨0x210, 0, 0, 0, 0, 0, 7⟩) := rfl
/-- R15: bit 7 of a word is 0. -/
theorem test_decode_bit7 : decodeWord 0x80 = .error .illegal := rfl
/-- R9: a word has eight bytes. -/
theorem test_decode_truncated : decode [1, 2, 3] = .error .truncated := rfl
theorem test_encode_imul : encode (.imul ⟨0, 2, 7, 0, 0, 0, 2, 1, 3⟩) = some 0x0008E0000201031B := rfl

/-! ### WellFormed: a term that each check refuses -/

/-- R31: a MOD field that names another form than the constructor. -/
theorem test_wf_form : wellFormed (.bru ⟨0, 1, 0, 0, 0, 0⟩) = false := rfl
/-- R31, R37: a reserved MOD bit, a reserved TYPE, a field that the row does not use. -/
theorem test_wf_reserved : wellFormed (.iadd ⟨1, 0, 5, 0, 0, 0, 2, 1, 3⟩) = false ∧ wellFormed (.iadd ⟨0, 0, 31, 0, 0, 0, 2, 1, 3⟩) = false ∧
    wellFormed (.iadd ⟨0, 0, 5, 0, 0, 9, 2, 1, 3⟩) = false := ⟨rfl, rfl, rfl⟩
/-- R147: a put's counter scope 1. -/
theorem test_wf_put_scope : wellFormed (.put ⟨1, 0, 0, 0, 4, 3, 2, 5⟩) = false := rfl
/-- R82: IADDMIN has no .sat. -/
theorem test_wf_iaddmin_sat : wellFormed (.iaddmin ⟨0x200, 4, 5, 0, 0, 2, 7, 4, 9⟩) = false := rfl
/-- R38: a float TYPE for an integer word is refused at decode. -/
theorem test_wf_format : wellFormed (.iadd ⟨0, 0, 11, 0, 0, 0, 2, 1, 3⟩) = false := rfl
/-- The device has 256 cores, 12 Ethernet ports and 4 dies; offsets of packets are those of 4 KiB pieces. -/
theorem test_wf_events : wellFormed (.engineAccept 256) = false ∧ wellFormed (.receivedFrameDrop ⟨12, []⟩) = false ∧ wellFormed (.writePropagation 4) = false ∧
    wellFormed (.softError (.wbuf 3 (2 ^ 17)) true) = false ∧ wellFormed (.remitDataReceive 0 { emptyPacket with poff := 8 }) = false ∧
    wellFormed (.memProfWrite 8 0) = false ∧ wellFormed (.systemRegisterWrite (.team 0 16) 0x100 0) = false := by decide

/-! ### Single steps: results of the spec's examples and rules -/

/-- The package after one step of a word with registers of its team. -/
def stepped (r : Raw) (l : List (Nat × VReg)) : Option State :=
  match step (withRegs l (placed r)) with
  | .next t => some t
  | _ => none
/-- A register of the placed word's team, and a lane of it, after that step. -/
def regAfter (r : Raw) (l : List (Nat × VReg)) (n : Nat) : Option VReg := (stepped r l).bind (fun t => ((t.core 0).team? 0).map (fun u => u.reg n))
def laneAfter (r : Raw) (l : List (Nat × VReg)) (n i : Nat) : Option Word := (regAfter r l n).map (fun x => x.lane i)

/-- The example under R82: an exact sum below the range saturates; the other element is the minimum, 100; v2 then is dead. -/
theorem test_iaddmin : laneAfter (.r 0x1E ⟨0, 4, 5, 0, 0, 2, 7, 4, 9⟩) [(4, one 5 0x7FFFFFFF80000000), (7, one 5 0x00000001FFFFFFFB), (2, one 5 0x0000006400000000)] 9 3
      = some 0x0000006480000000 ∧
    (regAfter (.r 0x1E ⟨0, 4, 5, 0, 0, 2, 7, 4, 9⟩) [(4, one 5 0), (7, one 5 0), (2, one 5 0)] 2).map (fun x => x.isDead) = some true := by decide
/-- R79: a sum wraps at the element's width. -/
theorem test_iadd_wraps : laneAfter (wR 0x18 3 1 2 0 5 0) [(1, one 5 0xFFFFFFFF7FFFFFFF), (2, one 5 0x0000000100000001)] 3 0 = some 0x0000000080000000 := by decide
/-- R97: i8 elements 100, 100, −100, −100 first, a saturating sum gives −1 in every element. -/
theorem test_ireduce_saturating : laneAfter (wR 0x34 3 1 0 0 1 0x200) [(1, ⟨1, 0, .general (0x9C9C6464 :: List.replicate 31 0)⟩)] 3 5 = some 0xFFFFFFFFFFFFFFFF := by decide
/-- The worked block-scaled addition of R119: codes 0x70 and 0x7C under scale 0x78 in x2, and a link to x2. -/
theorem test_fadd_block_scaled :
    let r := Raw.r 0x38 ⟨0x100, 0, 13, 0, 0, 0, 6, 4, 10⟩
    let x0 : BitVec 128 := 0x7F7F7F7F7F7F7F7F7F7F7F7F7F7F7F7F
    let s := (withRegs [(4, ⟨13, 1, .general (0x4438 :: List.replicate 31 0)⟩), (6, ⟨13, 2, .general (0x39 :: List.replicate 31 0)⟩)] (placed r)).modCore 0
      (fun c => match c.team? 0 with
        | some t => c.setTeam 0 { t with scale := [(0, x0), (1, x0 - 8)] }
        | none => c)
    (match step s with
      | .next t => ((t.core 0).team? 0).map (fun u => ((u.reg 10).lane 0, (u.reg 10).link, mget u.scale 0 2 % 256))
      | _ => none) = some (0x7C70, 3, 0x78) := by decide
/-- The example under R249: f32 0.1 rounds up to bf16 0x3DCD. -/
theorem test_bf16_rounds : (fConv (ffmt 11) (ffmt 10) 0 false 0x3DCCCCCD).1 = 0x3DCD := by decide
/-- The placed word's path goes on behind it (R16). -/
theorem test_step_goes_on : (stepped (wR 0 0 0 0 0 0 0) []).map (fun t => ((t.core 0).team? 0).map (fun u => (u.lane 7).pc)) = some (some 0x10) := by decide
/-- The example under R289: where physical address 0x5_6789_A678 lies under two profiles. -/
theorem test_location : locOf 6 0x56789A678 = packLoc 4 9 0x34 0x567 0x278 ∧ locOf (1 + 8 * 5) 0x56789A678 = packLoc 5 9 0x13 0x2B3C 0x278 := by decide
/-- R12, R195: a word that a team may not issue parks its fibres where it stands. -/
theorem test_rejected_parks : (stepped (wS 0x72 0 0 0 0 0) []).isSome = true := by decide
end Sys2Proof.Tests
end

section
/-! PROOFS. Words whose one result is a predicate: PLOP (R58). -/
namespace Sys2Proof.Machine

/-- PLOP's table read at pa + 2 pb, as a bit test (R58). -/
theorem plopBit_eq_testBit (lut : Nat) (a b : Bool) : plopBit lut a b = lut.testBit (b2n a + 2 * b2n b) := rfl

/-- `word_tests` for a word that raises no sticky flag. -/
theorem word_tests_plain {i : Instr} {s : State} {p : Path} {r : Raw} {body : State → Iss → Team → Team → Res} {n : Nat}
    {val : Nat → Bool} (hi : exec i s = runWord r body s) (h : Ready s p r)
    (hb : body s (p.iss s r) (p.view s r) (p.marked s r) = { s := s, t := writePred (p.marked s r) (p.iss s r).act n val }) :
    Tests i s p r n val noFlags := by
  refine word_tests hi h ?_
  rw [hb, noFlags_none, setFlags_zero]

/-- Settles O17: PLOP's body writes one predicate, computed from the predicates of the view that the word reads. -/
theorem predicateTable : Obligations.PredicateTable := by
  intro s p w h
  simp only [← plopBit_eq_testBit]
  exact word_tests_plain rfl h rfl

end Sys2Proof.Machine
end

section
/-! PROOFS. What an operation on physical memory leaves as it was: everything outside DRAM, the L2s, the L1s, the check units
and the list of writes not yet propagated (R293, R296, R301). -/
namespace Sys2Proof.Machine

/-- A core without its L1. -/
def Core.outsideL1 (c : Core) : Core := { c with l1 := [] }

/-- The package without what an access to physical memory can change. -/
def State.outsideMemory (s : State) : State :=
  { s with dram := [], bad := [], l2 := [], props := [], cores := s.cores.map (fun p => (p.1, p.2.outsideL1)) }

theorem outsideMemory_core (s : State) (n : Nat) : s.outsideMemory.core n = (s.core n).outsideL1 := by
  simp only [State.core, mget, State.outsideMemory, mget?_map]
  cases mget? s.cores n <;> rfl

theorem foldl_outsideMemory {α : Type} {f : State → α → State} (hf : ∀ s a, (f s a).outsideMemory = s.outsideMemory)
    (l : List α) (s : State) : (l.foldl f s).outsideMemory = s.outsideMemory := by
  induction l generalizing s with
  | nil => rfl
  | cons a l ih => exact (ih (f s a)).trans (hf s a)

/-! ### Lines and check units -/

@[simp] theorem setLine_outsideMemory (s : State) (die line : Nat) (l : Line) :
    (s.setLine die line l).outsideMemory = s.outsideMemory := rfl

@[simp] theorem markBad_outsideMemory (s : State) (u : CheckUnit) : (markBad s u).outsideMemory = s.outsideMemory := by
  unfold markBad
  split <;> rfl

@[simp] theorem markGood_outsideMemory (s : State) (u : CheckUnit) : (markGood s u).outsideMemory = s.outsideMemory := rfl

@[simp] theorem rewriteUnits_outsideMemory (s : State) (unit : Nat → CheckUnit) (mask : BitVec 128) (src : List Nat) :
    (rewriteUnits s unit mask src).outsideMemory = s.outsideMemory := by
  unfold rewriteUnits
  split
  · rfl
  · refine foldl_outsideMemory (fun s k => ?_) _ _
    split
    · rfl
    · split
      · exact markBad_outsideMemory ..
      · split <;> rfl

@[simp] theorem dramWrite_outsideMemory (s : State) (line : Nat) (data : BitVec 1024) (mask : BitVec 128) (src : List Nat) :
    (dramWrite s line data mask src).outsideMemory = s.outsideMemory := rewriteUnits_outsideMemory ..

@[simp] theorem fillUnits_outsideMemory (s : State) (die line : Nat) (bad : Nat → Bool) :
    (fillUnits s die line bad).outsideMemory = s.outsideMemory := by
  unfold fillUnits
  split
  · rfl
  · exact foldl_outsideMemory (fun s k => markBad_outsideMemory ..) _ _

@[simp] theorem dropUnits_outsideMemory (s : State) (die line : Nat) :
    (dropUnits s die line).outsideMemory = s.outsideMemory := by
  unfold dropUnits
  split
  · rfl
  · exact foldl_outsideMemory (fun s k => markGood_outsideMemory ..) _ _

@[simp] theorem handBad_outsideMemory (s : State) (line : Nat) (dirty : BitVec 128) (src : List Nat) :
    (handBad s line dirty src).outsideMemory = s.outsideMemory := by
  refine foldl_outsideMemory (fun s k => ?_) _ _
  split
  · exact markBad_outsideMemory ..
  · rfl

@[simp] theorem dropL1_outsideMemory (s : State) (die line : Nat) (keep : Option Nat) :
    (dropL1 s die line keep).outsideMemory = s.outsideMemory := by
  simp only [State.outsideMemory, dropL1, List.map_map]
  congr 2
  funext p
  simp only [Function.comp_apply]
  split <;> rfl

@[simp] theorem dropLine_outsideMemory (s : State) (die line : Nat) :
    (dropLine s die line).outsideMemory = s.outsideMemory := by
  calc (dropLine s die line).outsideMemory
      = (dropUnits (dropL1 s die line none) die line).outsideMemory := rfl
    _ = s.outsideMemory := by simp

/-! ### Write-back and eviction -/

@[simp] theorem mergeHome_outsideMemory (s : State) (h line : Nat) (data : BitVec 1024) (mask : BitVec 128) (src : List Nat) :
    (mergeHome s h line data mask src).outsideMemory = s.outsideMemory := by
  simp only [mergeHome, rewriteUnits_outsideMemory]
  split <;> simp

@[simp] theorem directHome_outsideMemory (s : State) (line : Nat) (data : BitVec 1024) (mask : BitVec 128) (src : List Nat) :
    (directHome s line data mask src).outsideMemory = s.outsideMemory := by
  unfold directHome
  split
  · rfl
  · split <;> simp

section
variable {write : State → Nat → BitVec 1024 → BitVec 128 → List Nat → State}
  (hw : ∀ s line data mask src, (write s line data mask src).outsideMemory = s.outsideMemory)
include hw

theorem flushBy_outsideMemory (s : State) (die line : Nat) : (flushBy write s die line).outsideMemory = s.outsideMemory := by
  unfold flushBy
  split
  · rfl
  · simp [hw]

theorem evictBy_outsideMemory (s : State) (die line : Nat) : (evictBy write s die line).outsideMemory = s.outsideMemory := by
  unfold evictBy
  dsimp only
  split
  · rfl
  · split
    · exact flushBy_outsideMemory hw ..
    · rfl

theorem roomBy_outsideMemory (s : State) (die line : Nat) : (roomBy write s die line).outsideMemory = s.outsideMemory := by
  unfold roomBy
  rw [evictBy_outsideMemory directHome_outsideMemory, evictBy_outsideMemory hw]

end

@[simp] theorem writeHome_outsideMemory (fuel : Nat) (s : State) (die line : Nat) (data : BitVec 1024) (mask : BitVec 128)
    (src : List Nat) : (writeHome fuel s die line data mask src).outsideMemory = s.outsideMemory := by
  induction fuel generalizing s die line data mask src with
  | zero => exact directHome_outsideMemory ..
  | succ fuel ih =>
    simp only [writeHome]
    split
    · rfl
    · split
      · exact dramWrite_outsideMemory ..
      · rw [mergeHome_outsideMemory, roomBy_outsideMemory (fun _ _ _ _ _ => ih ..)]

/-! ### Accesses -/

@[simp] theorem limitKeep_outsideMemory (s : State) (die line cls : Nat) :
    (limitKeep s die line cls).outsideMemory = s.outsideMemory := by
  unfold limitKeep
  split
  · rfl
  · split
    · split <;> rfl
    · rfl

@[simp] theorem makeRoom_outsideMemory (s : State) (die line cls : Nat) :
    (makeRoom s die line cls).outsideMemory = s.outsideMemory := by
  unfold makeRoom
  rw [limitKeep_outsideMemory, roomBy_outsideMemory (fun _ _ _ _ _ => writeHome_outsideMemory ..)]

@[simp] theorem fetchLine_outsideMemory (s : State) (die line cls : Nat) :
    (fetchLine s die line cls).outsideMemory = s.outsideMemory := by
  unfold fetchLine
  split
  · split <;> simp
  · split
    · rfl
    · dsimp only
      split <;> simp

@[simp] theorem physWrite_outsideMemory (s : State) (a n v : Nat) : (physWrite s a n v).outsideMemory = s.outsideMemory := by
  unfold physWrite
  dsimp only
  split <;> simp

@[simp] theorem physPut_outsideMemory (bs : List Byte) (s : State) (a : Nat) :
    (physPut s a bs).outsideMemory = s.outsideMemory := by
  induction bs generalizing s a with
  | nil => rfl
  | cons b bs ih => simp only [physPut, ih, physWrite_outsideMemory]

end Sys2Proof.Machine
end

section
/-! PROOFS. A reset clears the mesh routers and the Ethernet ports, and the boot chain leaves them so (R421). -/
namespace Sys2Proof.Machine

/-! ### Reads of the registers of Tables 24.2, 24.7 and 24.8 -/

/-- MESH.Wc (R398). -/
theorem regRead_meshWeight (s : State) (a : Agent) (sb : Bool) {c : Nat} (hc : c < 8) :
    regRead s a sb (0x280 + c) = BitVec.ofNat 64 ((s.core (agentCore a)).weight c) := by
  have h1 : ¬ 0x280 + c < 0x180 := by omega
  have h2 : ¬ 0x280 + c < 0x280 := by omega
  have h3 : 0x280 + c < 0x288 := by omega
  simp only [regRead, h1, h2, h3, if_true, if_false, Nat.add_sub_cancel_left, Core.weight]

/-- MESH.MCHOLD. -/
theorem regRead_multicastHold (s : State) (a : Agent) (sb : Bool) :
    regRead s a sb 0x288 =
      BitVec.ofNat 64 ((s.core (agentCore a)).mcHeld.length % 64 + 256 * ((s.core (agentCore a)).mcPeak % 64)) := rfl

/-- Register r of port p (Table 24.7, R415, R416). -/
theorem regRead_port (s : State) (a : Agent) (sb : Bool) {p r : Nat} (hp : p < 12) (hr : r < 32) :
    regRead s a sb (0x400 + 32 * p + r) = BitVec.ofNat 64 (
      if r = 5 ∨ r = 6 ∨ r = 8 ∨ r = 9 then s.ethPos p r
      else if r = 15 then min 2047 (holeOpen s p)
      else if r = 16 then min 2047 (max (s.eth p 16) (holeOpen s p))
      else s.eth p r) := by
  have h1 : ¬ 0x400 + 32 * p + r < 0x180 := by omega
  have h2 : ¬ 0x400 + 32 * p + r < 0x280 := by omega
  have h3 : ¬ 0x400 + 32 * p + r < 0x288 := by omega
  have h4 : ¬ 0x400 + 32 * p + r = 0x288 := by omega
  have h5 : 0x400 ≤ 0x400 + 32 * p + r ∧ 0x400 + 32 * p + r < 0x580 := by omega
  have hport : (0x400 + 32 * p + r - 0x400) / 32 = p := by omega
  have hreg : (0x400 + 32 * p + r) % 32 = r := by omega
  simp only [regRead, h1, h2, h3, h4, h5, if_true, if_false, and_self, hport, hreg]

/-- The registers of Table 24.8 read as they are stored. -/
theorem regRead_device (s : State) (a : Agent) (sb : Bool) {n : Nat} (h : 0x580 ≤ n) (hn : n ≤ 0x584) :
    regRead s a sb n = BitVec.ofNat 64 (s.reg n) := by
  unfold regRead
  dsimp only
  repeat rw [if_neg (by omega)]

/-! ### The cleared state -/

/-- A router that holds no packet, with every register of Table 24.2 as a write of 0 leaves it. -/
def RouterClear (c : Core) : Prop := c.meshW = [] ∧ c.mcPeak = 0 ∧ c.mcHeld = [] ∧ c.mcWait = [] ∧ c.links = []

/-- No packet, flow record, hole, bucket or queue entry of an Ethernet port. -/
def PortsEmpty (s : State) : Prop :=
  s.egress = [] ∧ s.tx = [] ∧ s.txFlows = [] ∧ s.rx = [] ∧ s.rxLow = [] ∧ s.holes = [] ∧ s.buckets = [] ∧ s.ingress = []

/-- Every register of Tables 24.2, 24.7 and 24.8 is as a write of 0 leaves it, and no router or port holds anything. -/
structure FabricClear (s : State) : Prop where
  regs : ∀ n, 0x400 ≤ n → n ≤ 0x584 → s.reg n = 0
  routers : ∀ n, RouterClear (s.core n)
  ports : PortsEmpty s

theorem reg_setReg_ne (s : State) {n m : Nat} (v : Nat) (h : m ≠ n) : (s.setReg n v).reg m = s.reg m := by
  simp [State.reg, State.setReg, mget_mset_ne, h]

namespace FabricClear

/-! What reads give in it. -/

section
variable {s : State} (h : FabricClear s) (a : Agent) (sb : Bool)
include h

theorem eth_eq_zero {p r : Nat} (hp : p < 12) (hr : r < 32) : s.eth p r = 0 :=
  h.regs _ (by unfold ethBase; omega) (by unfold ethBase; omega)

theorem holeOpen_eq_zero (p : Nat) : holeOpen s p = 0 := by
  obtain ⟨-, -, -, -, -, hholes, -, -⟩ := h.ports
  rw [holeOpen, hholes]
  rfl

theorem regRead_meshWeight {c : Nat} (hc : c < 8) : regRead s a sb (0x280 + c) = 1 := by
  obtain ⟨hw, -, -, -, -⟩ := h.routers (agentCore a)
  rw [Machine.regRead_meshWeight s a sb hc, Core.weight, hw]
  rfl

theorem regRead_multicastHold : regRead s a sb 0x288 = 0 := by
  obtain ⟨-, hpeak, hheld, -, -⟩ := h.routers (agentCore a)
  rw [Machine.regRead_multicastHold, hpeak, hheld]
  rfl

/-- The four registers that read 1 are RREQ.RATE, RREQ.BURST, RETX.TIMEOUT and HOLE.RETRY (R421). -/
theorem regRead_port {p r : Nat} (hp : p < 12) (hr : r < 32) :
    regRead s a sb (0x400 + 32 * p + r) = if r ∈ [5, 6, 8, 9] then 1 else 0 := by
  rw [Machine.regRead_port s a sb hp hr, State.ethPos, h.eth_eq_zero hp hr, h.eth_eq_zero hp (by omega), h.holeOpen_eq_zero p]
  simp only [List.mem_cons, List.not_mem_nil, or_false]
  by_cases hone : r = 5 ∨ r = 6 ∨ r = 8 ∨ r = 9
  · simp only [hone, if_true]
    rfl
  · simp only [hone, if_false, Nat.max_self, Nat.min_zero, ite_self]
    rfl

theorem regRead_device {n : Nat} (h1 : 0x580 ≤ n) (h2 : n ≤ 0x584) : regRead s a sb n = 0 := by
  rw [Machine.regRead_device s a sb h1 h2, h.regs n (by omega) h2]
  rfl

end

/-! What keeps it. -/

/-- A write of a register above Tables 24.7 and 24.8. -/
theorem setReg {s : State} (h : FabricClear s) {n : Nat} (v : Nat) (hn : 0x584 < n) : FabricClear (s.setReg n v) where
  regs m h1 h2 := by rw [reg_setReg_ne s v (by omega), h.regs m h1 h2]
  routers := h.routers
  ports := h.ports

theorem modCore {s : State} (h : FabricClear s) (n : Nat) {f : Core → Core} (hf : ∀ c, RouterClear c → RouterClear (f c)) :
    FabricClear (s.modCore n f) where
  regs := h.regs
  routers m := by
    rw [core_modCore]
    split
    · exact hf _ (h.routers n)
    · exact h.routers m
  ports := h.ports

theorem foldl {α : Type} {f : State → α → State} (hf : ∀ s a, FabricClear s → FabricClear (f s a)) (l : List α) {s : State}
    (h : FabricClear s) : FabricClear (l.foldl f s) := by
  induction l generalizing s with
  | nil => exact h
  | cons a l ih => exact ih (hf s a h)

theorem outsideMemory_iff (s : State) : FabricClear s.outsideMemory ↔ FabricClear s := by
  have hrouter (n : Nat) : RouterClear (s.outsideMemory.core n) ↔ RouterClear (s.core n) := by
    rw [outsideMemory_core]
    rfl
  exact ⟨fun h => ⟨h.regs, fun n => (hrouter n).mp (h.routers n), h.ports⟩,
    fun h => ⟨h.regs, fun n => (hrouter n).mpr (h.routers n), h.ports⟩⟩

theorem physPut {s : State} (h : FabricClear s) (a : Nat) (bs : List Byte) : FabricClear (physPut s a bs) := by
  rw [← outsideMemory_iff, physPut_outsideMemory, outsideMemory_iff]
  exact h

theorem raiseAlarm {s : State} (h : FabricClear s) (cause : Nat) : FabricClear (raiseAlarm s cause) := by
  unfold Machine.raiseAlarm
  dsimp only
  have hlog := h.setReg (n := 0x806) ((s.reg 0x806 % 32 ||| 2 ^ cause) + 256 * min 255 (s.reg 0x806 / 256 % 256 + 1)) (by decide)
  split
  · exact hlog
  · split <;> exact ⟨hlog.regs, hlog.routers, hlog.ports⟩

end FabricClear

/-! ### The boot chain -/

/-- The withdrawal masks of the flash record in place (R340): an alarm reset keeps those that it finds. -/
def withdraw (k : ResetKind) (s : State) : State :=
  match k with
  | .alarm => s
  | _ => (List.range 4).foldl (fun s i => s.setReg (0x810 + i) (nth (withdrawalMasks s.flash) 0 i)) s

/-- Steps 2 to 6 of the boot chain: the monitor of the chosen slot starts, or the package enters recovery (R339). -/
def bootFrom (s : State) : State :=
  match chosenSlot s with
  | some (slot, fallback) => storageInit (startMonitor s slot fallback)
  | none => { raiseAlarm (s.setReg 0x880 (1 + 32)) 3 with recovery := true }

theorem bootChain_eq (k : ResetKind) (s : State) :
    bootChain k s = bootFrom { withdraw k (resetState k s) with booted := true } := rfl

theorem RouterClear.releaseMctx {c : Core} {entry : Nat} (h : RouterClear c) : RouterClear (releaseMctx entry c) := h

namespace FabricClear

theorem setMeasurement {s : State} (h : FabricClear s) (n : Nat) (digest : List Byte) :
    FabricClear (setMeasurement s n digest) :=
  foldl (fun _ _ hs => hs.setReg _ (by omega)) _ h

theorem startMonitor {s : State} (h : FabricClear s) (slot : Nat) (fallback : Bool) :
    FabricClear (startMonitor s slot fallback) := by
  unfold Machine.startMonitor
  exact foldl (fun _ n hs => hs.modCore n (fun _ => RouterClear.releaseMctx)) _
    (((h.setMeasurement 0 _).physPut _ _).setReg (n := 0x880) _ (by decide))

theorem storageInit {s : State} (h : FabricClear s) : FabricClear (storageInit s) := by
  unfold Machine.storageInit
  refine setReg (physPut ?_ _ _) _ (by decide)
  exact ⟨h.regs, h.routers, h.ports⟩

theorem withdraw {s : State} (h : FabricClear s) (k : ResetKind) : FabricClear (withdraw k s) := by
  cases k with
  | alarm => exact h
  | powerOn | full => exact foldl (fun _ _ hs => hs.setReg _ (by omega)) _ h

theorem bootFrom {s : State} (h : FabricClear s) : FabricClear (bootFrom s) := by
  unfold Machine.bootFrom
  split
  · exact (h.startMonitor ..).storageInit
  · obtain ⟨hregs, hrouters, hports⟩ := (h.setReg (n := 0x880) (1 + 32) (by decide)).raiseAlarm 3
    exact ⟨hregs, hrouters, hports⟩

end FabricClear

/-! ### The reset itself -/

theorem mget_foldl_mset_of_ne {α : Type} {l : List (Nat × α)} {n : Nat} (d : α) (h : ∀ p ∈ l, p.1 ≠ n) (m : List (Nat × α)) :
    mget (l.foldl (fun m p => mset m p.1 p.2) m) d n = mget m d n := by
  induction l generalizing m with
  | nil => rfl
  | cons p l ih =>
    obtain ⟨hp, hl⟩ := List.forall_mem_cons.mp h
    exact (ih hl _).trans (mget_mset_ne m d p.2 hp.symm)

/-- A reset keeps registers of the 0x800 block alone (R338). -/
theorem le_of_mem_keptRegs {k : ResetKind} {regs : List (Nat × Word)} {p : Nat × Word} (h : p ∈ keptRegs k regs) :
    0x800 ≤ p.1 := by
  cases k with
  | powerOn => exact absurd h List.not_mem_nil
  | full =>
    obtain ⟨-, hp⟩ := List.mem_filter.mp h
    have := eq_of_beq hp
    omega
  | alarm =>
    obtain ⟨-, hp⟩ := List.mem_filter.mp h
    simp only [Bool.and_eq_true, decide_eq_true_eq] at hp
    exact hp.1.1

theorem resetState_fabricClear (k : ResetKind) (s : State) : FabricClear (resetState k s) where
  regs n h1 h2 := by
    have hkept : ∀ p ∈ keptRegs k s.regs, p.1 ≠ n := fun p hp => by
      have := le_of_mem_keptRegs hp
      omega
    simp only [State.reg, resetState, mget_foldl_mset_of_ne 0 hkept, mget_mset_ne _ _ _ (show n ≠ 0x210 by omega)]
    have h703 : 0x703 ≠ n := by omega
    have h720 : 0x720 ≠ n := by omega
    simp only [State.reset, mget, mget?, h703, h720, if_false]
    rfl
  routers _ := ⟨rfl, rfl, rfl, rfl, rfl⟩
  ports := ⟨rfl, rfl, rfl, rfl, rfl, rfl, rfl, rfl⟩

/-- Every kind of reset leaves the routers and ports clear at the end of its boot chain, with a monitor or in recovery. -/
theorem bootChain_fabricClear (k : ResetKind) (s : State) : FabricClear (bootChain k s) := by
  obtain ⟨hregs, hrouters, hports⟩ := (resetState_fabricClear k s).withdraw k
  rw [bootChain_eq]
  exact FabricClear.bootFrom ⟨hregs, hrouters, hports⟩

/-- The three reset events run the boot chain, each of its own kind (R339). -/
theorem exec_reset {i : Instr} (hi : i ∈ [Instr.powerOnReset, .fullReset, .alarmReset]) (s : State) :
    ∃ k, exec i s = .next (bootChain k s) := by
  simp only [List.mem_cons, List.not_mem_nil, or_false] at hi
  obtain rfl | rfl | rfl := hi
  · exact ⟨.powerOn, rfl⟩
  · exact ⟨.full, rfl⟩
  · exact ⟨.alarm, rfl⟩

/-- Settles O42: the state that a reset's boot chain ends in has every router and port clear, and its registers read so. -/
theorem ethernetReset : Obligations.EthernetReset := by
  intro s i hi
  obtain ⟨k, hexec⟩ := exec_reset hi s
  have h := bootChain_fabricClear k s
  obtain ⟨hegress, htx, htxFlows, hrx, hrxLow, hholes, hbuckets, hingress⟩ := h.ports
  refine ⟨bootChain k s, hexec, fun core x => ⟨fun c hc => ?_, ?_, fun p r hp hr => ?_, fun n h1 h2 => ?_⟩,
    hegress, htx, htxFlows, hrx, hrxLow, hholes, hbuckets, hingress, fun n => ?_⟩
  · exact h.regRead_meshWeight _ _ hc
  · exact h.regRead_multicastHold _ _
  · exact h.regRead_port _ _ hp (by omega)
  · exact h.regRead_device _ _ h1 h2
  · obtain ⟨-, -, hheld, hwait, hlinks⟩ := h.routers n
    exact ⟨hheld, hwait, hlinks⟩

end Sys2Proof.Machine
end
